-- ==== Sys2Proof/Word.lean ====
section
/-! DEFINITION. Bytes and tables of a fixed number of like things, kept as a list with its length. -/

namespace Sys2Proof

/-- One byte of a port or pod-line frame (R189). -/
abbrev Byte := BitVec 8

/-- `n` like things, numbered from 0: the 42 channels, the 32 positions, the 714 crosspoints. -/
structure Tab (n : Nat) (α : Type) where
  items : List α
  len : items.length = n
  deriving DecidableEq, Repr

namespace Tab

/-- Entry `i`; the type's default value outside the table. -/
def get {α : Type} {n : Nat} [Inhabited α] (t : Tab n α) (i : Nat) : α := t.items.getD i default

/-- The table with entry `i` replaced; the same table when there is no entry `i`. -/
def set {α : Type} {n : Nat} (t : Tab n α) (i : Nat) (x : α) : Tab n α :=
  ⟨t.items.set i x, by simp [t.len]⟩

/-- The table with entry `i` changed by `f`. -/
def modify {α : Type} {n : Nat} [Inhabited α] (t : Tab n α) (i : Nat) (f : α → α) : Tab n α :=
  t.set i (f (t.get i))

/-- The table whose entry `i` is `f i`. -/
def tabulate {α : Type} (n : Nat) (f : Nat → α) : Tab n α := ⟨(List.range n).map f, by simp⟩

/-- The table whose entry `i` is `f i` of the old entry. -/
def mapIdx {α β : Type} {n : Nat} [Inhabited α] (f : Nat → α → β) (t : Tab n α) : Tab n β :=
  tabulate n (fun i => f i (t.get i))

end Tab

/-- A function applied for each number of a list, in its order: a run (R22). -/
def runOver {σ : Type} (f : Nat → σ → σ) (ns : List Nat) (s : σ) : σ :=
  ns.foldl (fun acc n => f n acc) s

end Sys2Proof
end

