-- ==== Sys2Proof/Config.lean ====
section
/-! DEFINITION. What the part fixes (numbers of the manual) and what the manual leaves open (free values, with no body). -/

namespace Sys2Proof.Config

/-- Channels (R1). -/
abbrev numChannels : Nat := 42
/-- Pod channels and positions (R1, R132). -/
abbrev numPods : Nat := 32
/-- Outputs (chapter 5). -/
abbrev numOutputs : Nat := 17
/-- Samples of one audio block (00_scope: 1 ms at 48 kHz). -/
abbrev blockLen : Nat := 48

/-- Full scale, in sample steps. PRESUMED (log 6): samples are 24 bits (11.6) and full scale is the
largest positive 24-bit two's complement value, with either sign. -/
abbrev fullScale : Nat := 8388607

/-- Capacity of the Wait List (R48). -/
abbrev waitCapacity : Nat := 8
/-- Capacity of the Leaving List (R49). -/
abbrev leavingCapacity : Nat := 6
/-- Capacity of a notice queue (R182). -/
abbrev queueCapacity : Nat := 32
/-- Hold of a long MUTE press, in blocks (R30). -/
abbrev longHold : Nat := 2000
/-- Talking blocks that raise MUTED_TALK (R41). -/
abbrev mutedTalkBlocks : Nat := 1500
/-- Quiet blocks that re-arm muted-talk detection (R42). -/
abbrev rearmBlocks : Nat := 500
/-- Louder blocks that raise the noise floor by 1 dB (R7). -/
abbrev riseBlocks : Nat := 200
/-- Block boundaries of one second of talk time (R80). -/
abbrev secondBlocks : Nat := 1000
/-- Sync frames of STARTING (R129). -/
abbrev syncFrames : Nat := 16
/-- WAKE frames of WAKING and of a WAKE entry (R141, R148). -/
abbrev wakeFrames : Nat := 12
/-- Block boundaries a woken pod has to answer (R141). -/
abbrev wakeTimerStart : Nat := 200
/-- Block boundaries between roll calls (R133). -/
abbrev rollCallPeriod : Nat := 64
/-- Good slots that join, missed slots that lose (R134, R135). -/
abbrev joinGood : Nat := 4
abbrev loseMiss : Nat := 3
/-- Top of the counters of a position (R143). -/
abbrev counterTop : Nat := 65535
/-- The cycle of the alert chime, in blocks (R117). -/
abbrev chimeCycle : Nat := 1000

/-- FREE VALUE (log 5, 7). Whether a scaled or summed sample that is no whole number of steps is
taken up (yes) or down (no). Indexed by the free counter of the boundary, by the place that rounds
(a channel's trim, an output, a content, the tone) and by the sample of the block. -/
opaque roundsUp : Nat → Nat → Nat → Bool

/-- FREE VALUE (log 12). What the count of blocks generated holds after 4294967295 (R165 gives no
successor), indexed by the free counter. -/
opaque toneCountPastTop : Nat → BitVec 32

/-- FREE VALUE (log 35). The bytes of the start pattern, which a sync frame carries alone (R129, R189). -/
opaque startPattern : List Byte

/-- FREE VALUE (log 35). The audio slots of a line's first test frame, as one number (R146, R189). -/
opaque testStart : Nat → Nat

/-- FREE VALUE (log 35). How far the test pattern of a line moves from one frame to the next (R146); indexed by the
line and by the free counter of the frame. -/
opaque testStep : Nat → Nat → Nat

end Sys2Proof.Config
end

