-- ==== Sys2Proof/Syntax.lean ====
section
/-! DEFINITION. The commands of the part: one constructor for each row of spec/opcode_table.json, with the
row's operands. A request carries the port it arrives on, its tag and the fields of its body (R190) as raw
codes, so that a code outside a field's range can be sent. -/

namespace Sys2Proof

/-- The two control ports (R178). -/
inductive Port
  | room | codec
  deriving DecidableEq, Repr, Inhabited

/-- An optional field of a body: its presence byte and its value (R190). -/
structure OptField where
  presence : Nat
  value : Int
  deriving DecidableEq, Repr, Inhabited

/-- The thirteen optional fields of FloorConfig, in the order of R69's table. -/
structure FloorFields where
  maxOpen : OptField
  openMargin : OptField
  closeMargin : OptField
  attack : OptField
  holdTime : OptField
  waitMax : OptField
  guard : OptField
  lastMic : OptField
  ramp : OptField
  talkLimit : OptField
  talkWarn : OptField
  autoGrant : OptField
  chairDuck : OptField
  deriving DecidableEq, Repr, Inhabited

/-- The thirteen optional fields of SilenceConfig, in the order of R124's table. -/
structure SilenceFields where
  alarmEnable : OptField
  howlEnable : OptField
  requestEnable : OptField
  alarmScope : OptField
  howlScope : OptField
  requestScope : OptField
  maskA : OptField
  maskB : OptField
  contentA : OptField
  contentB : OptField
  howlLevel : OptField
  howlBlocks : OptField
  autoRestore : OptField
  deriving DecidableEq, Repr, Inhabited

/-- The identity record of a pod (R131). -/
structure Identity where
  model : Nat
  major : Nat
  minor : Nat
  serial : Nat
  talkButton : Bool
  deriving DecidableEq, Repr, Inhabited

/-- The fields of a status slot (R131). A level is `true` while the button is down. The samples are
48 whole numbers of sample steps, or none for silence (log 27). -/
structure StatusSlot where
  mute : Bool
  talk : Bool
  ack : Bool
  wakePulse : Bool
  samples : List Int
  deriving DecidableEq, Repr, Inhabited

/-- What one upstream slot brings (R131): nothing, a slot whose check is wrong, a good status or
identity slot, or the bytes as received, which R189's layouts sort into one of the former. -/
inductive UpSlot
  | missed
  | bad
  | status (st : StatusSlot)
  | identity (rec : Identity)
  | bytes (bs : List Byte)
  deriving DecidableEq, Repr, Inhabited

/-- What comes in at one block boundary. A list that is too short reads as silence, a missed slot, no
pulse, no difference, `false`. -/
structure BoundaryIn where
  /-- The privacy line is active (R35). -/
  privacyActive : Bool
  /-- The Alarm line is active (R113). -/
  alarmActive : Bool
  /-- The ten receive lanes of the Codec Audio Link: sites 0 to 7, program A, program B (R108). -/
  lanes : List (List Int)
  /-- The 32 upstream slots of the block just ended, by channel number (R131). -/
  slots : List UpSlot
  /-- For each line: a wake pulse was seen on the idle wire (R147). -/
  wakePulse : List Bool
  /-- For each line: a field of the test frame read back differs from what was driven (R146). -/
  readBackDiffers : List Bool
  /-- For each line: the frame formed at this boundary is formed as soon as the line's own events are
  taken, not after every event of the boundary (R154 leaves the order open; log 3). -/
  frameEarly : List Bool
  deriving DecidableEq, Repr, Inhabited

/-- The commands. -/
inductive Instr
  -- requests
  | status (p : Port) (tag : Byte)
  | noticeRead (p : Port) (tag : Byte) (count : Nat)
  | noticeMask (p : Port) (tag : Byte) (mask : OptField)
  | channelRead (p : Port) (tag : Byte) (first count : Nat)
  | channelWrite (p : Port) (tag : Byte) (ch : Nat) (trim zone groups : OptField)
  | chairSet (p : Port) (tag : Byte) (ch : Nat)
  | siteState (p : Port) (tag : Byte) (site connected : Nat)
  | claimSet (p : Port) (tag : Byte) (sel num chairFlag : Nat)
  | claimRelease (p : Port) (tag : Byte) (sel num chairFlag : Nat)
  | claimsClear (p : Port) (tag : Byte) (sel num : Nat)
  | farClear (p : Port) (tag : Byte)
  | handLower (p : Port) (tag : Byte) (sel num : Nat)
  | privacyConfig (p : Port) (tag : Byte) (group autoRelease : OptField)
  | privacyRelease (p : Port) (tag : Byte)
  | modeSet (p : Port) (tag : Byte) (mode : Nat)
  | floorConfig (p : Port) (tag : Byte) (fields : FloorFields)
  | grant (p : Port) (tag : Byte) (ch evict : Nat)
  | revoke (p : Port) (tag : Byte) (ch : Nat)
  | waitDrop (p : Port) (tag : Byte) (ch : Nat)
  | crosspointRead (p : Port) (tag : Byte) (out first count : Nat)
  | crosspointWrite (p : Port) (tag : Byte) (out first count : Nat) (values : List Int)
  | busGainWrite (p : Port) (tag : Byte) (out : Nat) (value : Int)
  | meterConfig (p : Port) (tag : Byte) (window : OptField)
  | meterRead (p : Port) (tag : Byte) (first count : Nat)
  | watchSet (p : Port) (tag : Byte) (entry point : Nat) (threshold : Int) (direction count arm : Nat)
  | silenceConfig (p : Port) (tag : Byte) (fields : SilenceFields)
  | silenceRaise (p : Port) (tag : Byte)
  | silenceRestore (p : Port) (tag : Byte)
  | toneStart (p : Port) (tag : Byte) (kind num freq : Nat) (level : Int) (mode count : Nat)
  | toneStop (p : Port) (tag : Byte)
  | sceneStore (p : Port) (tag : Byte) (slot parts : Nat)
  | sceneLoad (p : Port) (tag : Byte) (slot : Nat)
  | sceneAbort (p : Port) (tag : Byte)
  | lineStart (p : Port) (tag : Byte) (line : Nat)
  | lineStop (p : Port) (tag : Byte) (line : Nat)
  | lineTest (p : Port) (tag : Byte) (line frames : Nat)
  | podSleep (p : Port) (tag : Byte) (line pos : Nat)
  | podWake (p : Port) (tag : Byte) (line pos : Nat)
  | podCounters (p : Port) (tag : Byte) (line pos : Nat)
  | podIdentity (p : Port) (tag : Byte) (line pos : Nat)
  | powerStandby (p : Port) (tag : Byte) (autowake : Nat)
  | powerWake (p : Port) (tag : Byte)
  | conferenceClear (p : Port) (tag : Byte)
  | rightsSet (p : Port) (tag : Byte) (farmod : Nat)
  -- other transactions
  | unknownKindFrame (p : Port) (bytes : List Byte)
  | readTransaction (p : Port) (clocked : Nat)
  | transactionIgnored (p : Port) (first : Byte) (clocked : Nat)
  -- resets
  | powerOnReset (privacyActive alarmActive : Bool)
  | pinReset (privacyActive alarmActive : Bool)
  | resetPinAsserted
  -- the block boundary
  | blockBoundary (inp : BoundaryIn)
  -- events of the level inputs and of the idle wire
  | privacyActiveEdge
  | privacyInactiveEdge
  | alarmActiveEdge
  | alarmInactiveEdge
  | wakePulse (line : Nat)
  -- events of a boundary, by channel
  | noiseFloorRise (ch : Nat)
  | mutedTalk (ch : Nat)
  | mutedTalkRearm (ch : Nat)
  | muteShortPress (ch : Nat)
  | longPress (ch : Nat)
  | talkPress (ch : Nat)
  | floorRequest (ch : Nat)
  | holdExpired (ch : Nat)
  | waitTimeout (ch : Nat)
  | waitQuietDrop (ch : Nat)
  | guardExpiry
  | leavingRemoval (ch : Nat)
  | talkTimerTick (ch : Nat)
  | talkWarn (ch : Nat)
  | talkEnd (ch : Nat)
  | howlLatch (zone : Nat)
  | restoringEnd
  -- events of a boundary, by line and position
  | rollCall (line : Nat)
  | rollCallAnswer (line pos : Nat) (rec : Identity)
  | podJoin (line pos : Nat)
  | joinFailed (line pos : Nat)
  | podLost (line pos : Nat)
  | ringAcknowledged (line pos : Nat)
  | sleepAcknowledged (line pos : Nat)
  | wakeRequest (line pos : Nat)
  | wakeFramesDone (line pos : Nat)
  | wakeFailed (line pos : Nat)
  | startingEnd (line : Nat)
  | wakingEnd (line : Nat)
  | standbyFrameEnd (line : Nat)
  | sleepingEnd (line : Nat)
  | lineTestComplete (line : Nat)
  -- events of the Meter Unit, the Tone Generator and the Scene Unit
  | capture
  | levelWatch (entry : Nat)
  | toneCountEnd
  | sceneLoadStep
  deriving DecidableEq, Repr

end Sys2Proof
end

