-- ==== Sys2Proof/Decode.lean ====
section
/-! DEFINITION. No row of spec/opcode_table.json gives bits, so no word spells a command. The bytes of a
request frame are read in Machine/Wire.lean. -/

namespace Sys2Proof

/-- The command that a word of the table's bits spells: no row has bits. -/
def decodeTableWord (_nbits _w : Nat) : Option Instr := none

end Sys2Proof
end

