-- ==== Sys2Proof/Machine/State.lean ====
section
/-! DEFINITION. The state of the part, block by block as 00_scope names the blocks, as plain data; the value of
every field after a reset; the reasons a step can stop (there are none but a row without a meaning). -/

namespace Sys2Proof.Machine

open Sys2Proof

/-! ### Names and small records -/

/-- The five authorities (R18). -/
inductive Authority
  | pod | chair | room | far | privacy
  deriving DecidableEq, Repr, Inhabited

/-- A claim set: at most one claim of each authority (R18). -/
structure ClaimSet where
  pod : Bool
  chair : Bool
  room : Bool
  far : Bool
  privacy : Bool
  deriving DecidableEq, Repr, Inhabited

/-- The origin of a claim change (R19), in the order R190 numbers them. -/
inductive Origin
  | podButton | chairPress | roomPort | codecPort | privacyLine | scene
  deriving DecidableEq, Repr, Inhabited

/-- The gate states (section 1.1). -/
inductive Gate
  | closed | attack | waiting | pending | opened | held | ungated
  deriving DecidableEq, Repr, Inhabited

/-- The state of a Floor List entry (R47). -/
inductive EntryState
  | pending | opened | held
  deriving DecidableEq, Repr, Inhabited

/-- The floor modes (R46). -/
inductive FloorMode
  | voice | queue
  deriving DecidableEq, Repr, Inhabited

/-- The causes of FLOOR_CHANGE, in the order of R68 and then R92. -/
inductive FloorCause
  | level | evicted | guard | holdExpired | admitted | muted | left | config
  | request | yield | withdrawn | granted | revoked | override | latched | unlatched
  deriving DecidableEq, Repr, Inhabited

/-- The causes of HAND_LOWER, in the order of R32; REQUEST names its port. -/
inductive HandCause
  | cleared | request (p : Port) | withdrawn | left
  deriving DecidableEq, Repr, Inhabited

/-- The causes of WAIT_DROPPED (R68, R78). -/
inductive DropCause
  | timeout | quiet | request (p : Port)
  deriving DecidableEq, Repr, Inhabited

/-- The privacy state (R35). -/
inductive PrivacyState
  | off | on | retained
  deriving DecidableEq, Repr, Inhabited

/-- The silence state (R112). -/
inductive SilenceState
  | quiet | active | restoring
  deriving DecidableEq, Repr, Inhabited

/-- The covered sets (R112): none, A, A and B. -/
inductive Covered
  | none | a | ab
  deriving DecidableEq, Repr, Inhabited

/-- The scope of a silence source (R116). -/
inductive Scope
  | all | a
  deriving DecidableEq, Repr, Inhabited

/-- The content of a silence set (R116). -/
inductive Content
  | mute | program | alert
  deriving DecidableEq, Repr, Inhabited

/-- The causes of SILENCE (R123). -/
inductive SilenceCause
  | alarmOn | alarmOff | howl (zone : Nat) | request (p : Port) | restore (p : Port)
  | autoRestore | quiet | config
  deriving DecidableEq, Repr, Inhabited

/-- Line states (R128). -/
inductive LineState
  | off | starting | running | sleeping | standby | waking | testing
  deriving DecidableEq, Repr, Inhabited

/-- Position states (R132). -/
inductive PosState
  | absent | joining | online | lost | asleep
  deriving DecidableEq, Repr, Inhabited

/-- The causes of POD_LOST (R149). -/
inductive LostCause
  | missed | sleep | stopped
  deriving DecidableEq, Repr, Inhabited

/-- The endings of a line test (R146). -/
inductive TestEnding
  | complete | stopped
  deriving DecidableEq, Repr, Inhabited

/-- The endings of a tone (R167). -/
inductive ToneEnding
  | count | stopped | cleared | standby
  deriving DecidableEq, Repr, Inhabited

/-- The causes of SCENE_DONE, in the order of R176's table. -/
inductive SceneCause
  | completed | sceneAbort | secondLoad | cleared | standby
  deriving DecidableEq, Repr, Inhabited

/-- The parts of a scene, in the order a load takes them (R170, R172). -/
inductive ScenePart
  | channels | crosspoints | floor | claims
  deriving DecidableEq, Repr, Inhabited

/-- The power states (11.4). -/
inductive Power
  | running | standby
  deriving DecidableEq, Repr, Inhabited

/-- The causes of a reset (R186). -/
inductive ResetCause
  | power | pin
  deriving DecidableEq, Repr, Inhabited

/-- The cause of a POWER notice (R184, R185). -/
inductive PowerCause
  | request | wakePulse (line : Nat)
  deriving DecidableEq, Repr, Inhabited

/-- Ring colours, in R189's numbering (R151). -/
inductive Colour
  | off | red | green | amber | white
  deriving DecidableEq, Repr, Inhabited

/-- Ring functions, in R189's numbering (R151). -/
inductive RingFn
  | steady | slow | fast | sweep
  deriving DecidableEq, Repr, Inhabited

/-- Colour and function of a ring: what the Indicator Unit compares (R151). -/
structure Ring where
  colour : Colour
  fn : RingFn
  deriving DecidableEq, Repr, Inhabited

/-- The direction of a level watch (R163). -/
inductive Direction
  | above | below
  deriving DecidableEq, Repr, Inhabited

/-- The target of a tone (R165). -/
inductive ToneTarget
  | channel (c : Nat) | output (o : Nat)
  deriving DecidableEq, Repr, Inhabited

/-- Results, in R189's numbering. -/
inductive Result
  | ok | denied | range | state | self | full | held | unknown | malformed
  deriving DecidableEq, Repr, Inhabited

/-! ### Notices (R182, R183) -/

/-- A notice and the fields its rule gives it. Lengths are those of Floor, Wait and Leaving List. -/
inductive NoticeBody
  | reset (cause : ResetCause)
  | claimChange (ch : Nat) (after added removed : ClaimSet) (origin : Origin)
  | handRaise (ch : Nat) (claims : ClaimSet)
  | handLower (ch : Nat) (claims : ClaimSet) (cause : HandCause)
  | privacyOn (state : PrivacyState) (group count : Nat)
  | privacyOff (state : PrivacyState) (group count : Nat)
  | mutedTalk (ch : Nat) (peak : Int)
  | floorChange (ch : Nat) (before after : Gate) (cause : FloorCause) (nFloor nWait nLeaving n : Nat)
  | floorRefused (ch nFloor nWait : Nat)
  | waitDropped (ch : Nat) (cause : DropCause) (waitTimer nWait : Nat)
  | waitFull (ch nWait : Nat)
  | talkWarn (ch secs limit : Nat)
  | talkEnd (ch secs nFloor nWait nLeaving n : Nat)
  | modeChange (old new : FloorMode) (nFloor nWait nLeaving : Nat)
  | chairChange (old new : Option Nat)
  | silence (state : SilenceState) (alarm request : Bool) (zones : BitVec 8) (covered : Covered)
      (cause : SilenceCause) (level : Bool)
  | podJoin (line pos : Nat) (rec : Option Identity) (newUnit : Bool) (rejoins : Nat)
  | podLost (line pos : Nat) (cause : LostCause) (checkFails missed rejoins : Nat)
  | wakeFailed (line pos : Nat)
  | wakeRequest (line : Nat) (pos : Option Nat)
  | lineTest (line sent mismatch : Nat) (ending : TestEnding)
  | levelWatch (entry point : Nat) (peak threshold : Int) (dir : Direction) (count : Nat)
  | toneDone (target : ToneTarget) (freq : Nat) (ending : ToneEnding) (generated : Nat)
  | sceneDone (slot : Nat) (cause : SceneCause) (applied passed : Nat)
  | conferenceClear (changed nFloor nWait nLeaving : Nat)
  | power (state : Power) (cause : PowerCause) (autowake : Bool)
  deriving DecidableEq, Repr

/-- A queued notice with its block stamp (R182). -/
structure Notice where
  body : NoticeBody
  stamp : BitVec 16
  deriving DecidableEq, Repr

/-- A response (R178, R189). -/
structure Response where
  tag : Byte
  kind : Nat
  result : Result
  body : List Byte
  deriving DecidableEq, Repr

/-- One Port Interface (R178, R182, R183). -/
structure PortState where
  /-- The response slot. -/
  slot : Option Response
  /-- The response in the slot has been read. -/
  read : Bool
  /-- The notice queue, head first. -/
  queue : List Notice
  /-- The notice mask: bit k - 1 stands for kind k. -/
  mask : BitVec 26
  /-- The notice-loss flag. -/
  loss : Bool
  /-- The bytes that data out carried in the last read or ignored transaction (log 23). -/
  dataOut : List Byte
  deriving DecidableEq, Repr

/-! ### The blocks -/

/-- The live and set-up state of one channel, by owner. -/
structure Channel where
  /-- Channel Table (chapter 1): trim in half dB, zone, groups, the connected flag of a site. -/
  trim : Int
  zone : Nat
  groups : BitVec 8
  siteUp : Bool
  /-- Measures of the last boundary (R6, R7). -/
  peak : Int
  noise : Int
  rise : Nat
  /-- Thresholds of the last boundary (R51). -/
  openThr : Int
  closeThr : Int
  /-- Claim Unit (chapter 2). -/
  claims : ClaimSet
  hand : Bool
  talkCount : Nat
  armed : Bool
  /-- Floor Controller: the attack count; 0 while the gate is not ATTACK (R52). -/
  attack : Nat
  /-- Mix Engine: ramp position, attenuation last applied in half dB, zone of the masks last applied. -/
  ramp : Nat
  atten : Nat
  maskZone : Nat
  /-- Scene Unit: the touched mark (R174). -/
  touched : Bool
  /-- Indicator Unit (R154). -/
  ring : Option Ring
  pulseOwed : Bool
  deriving DecidableEq, Repr, Inhabited

/-- The levels of the last good status slot (R132); `true` is down. -/
structure Levels where
  mute : Bool
  talk : Bool
  deriving DecidableEq, Repr, Inhabited

/-- One record of a Position Table (R132). -/
structure Position where
  state : PosState
  /-- The origin of a JOINING position is LOST. -/
  fromLost : Bool
  identity : Option Identity
  /-- The last roll-call answer brought a serial number other than the one stored before it, or none
  was stored (R149). -/
  newUnit : Bool
  good : Nat
  miss : Nat
  levels : Option Levels
  hold : Option Nat
  wakeTimer : Option Nat
  checkFails : Nat
  missed : Nat
  rejoins : Nat
  deriving DecidableEq, Repr, Inhabited

/-- The addressee of a command (R138). -/
inductive Addressee
  | position (p : Nat) | broadcast
  deriving DecidableEq, Repr, Inhabited

/-- A line command with its fields (R130, R141). A called set is a bit field, member P for position P. -/
inductive LineCmd
  | sleep
  | wake (remaining : Nat)
  | rollCall (called : BitVec 8)
  | ring (value : Ring) (pulse : Bool)
  deriving DecidableEq, Repr, Inhabited

/-- An entry of a pending command table (R138, R139). -/
structure Entry where
  dest : Addressee
  cmd : LineCmd
  sent : Bool
  deriving DecidableEq, Repr, Inhabited

/-- A downstream frame (R128 to R130, R146, R148): its command slot and its audio slots. An audio slot holds 48
samples, or none for zero; eight slots of zero are the empty list. -/
inductive LineFrame
  /-- The start pattern alone: no command slot and no audio slots (R129). -/
  | sync
  | running (cmd : Option Entry) (audio : List (List Int))
  /-- A frame of WAKING (R148), whose command is WAKE to all. -/
  | wake (cmd : Entry) (audio : List (List Int))
  /-- A test frame (R146): no command, and in its audio slots the test pattern of the frame's number (log 35). -/
  | test (number : Nat)
  deriving DecidableEq, Repr, Inhabited

/-- One Line Controller, less its Position Table (chapter 7). -/
structure Line where
  state : LineState
  /-- Remaining-frame count (R128). -/
  remaining : Nat
  /-- Sent and mismatch counts of a test (R146). -/
  sent : Nat
  mismatch : Nat
  /-- Roll-call count (R133). -/
  rollCount : Nat
  /-- Pending command table (R138). -/
  table : List Entry
  /-- The frame in flight. -/
  frame : Option LineFrame
  /-- The model's own: at the present boundary a frame is still to be formed, and whether it is formed
  as soon as the line's own events are taken (log 3). -/
  toForm : Bool
  early : Bool
  deriving DecidableEq, Repr, Inhabited

/-- A hold timer (R47, R58): none, running with blocks remaining, or stopped. -/
inductive HoldTimer
  | none | running (blocks : Nat) | stopped
  deriving DecidableEq, Repr, Inhabited

/-- A talk timer (R80): whole seconds, the boundaries since the last whole second, the warned flag. -/
structure TalkTimer where
  secs : Nat
  blocks : Nat
  warned : Bool
  deriving DecidableEq, Repr, Inhabited

/-- A Floor List entry (R47). -/
structure FloorEntry where
  ch : Nat
  st : EntryState
  stamp : BitVec 32
  hold : HoldTimer
  talk : Option TalkTimer
  deriving DecidableEq, Repr, Inhabited

/-- A Wait List entry (R48). In QUEUE mode, where an entry has neither timer (R72), both stay 0 (log 37). -/
structure WaitEntry where
  ch : Nat
  stamp : BitVec 32
  timer : Nat
  quiet : Nat
  deriving DecidableEq, Repr, Inhabited

/-- A Leaving List entry (R49). -/
structure LeavingEntry where
  ch : Nat
  stamp : BitVec 32
  deriving DecidableEq, Repr, Inhabited

/-- The floor quantities (R69); CHAIRDUCK in half dB. -/
structure FloorCfg where
  maxOpen : Nat
  openMargin : Nat
  closeMargin : Nat
  attack : Nat
  holdTime : Nat
  waitMax : Nat
  guard : Nat
  lastMic : Bool
  ramp : Nat
  talkLimit : Nat
  talkWarn : Nat
  autoGrant : Bool
  chairDuck : Nat
  deriving DecidableEq, Repr, Inhabited

/-- The Floor Controller (chapters 3 and 4). -/
structure Floor where
  mode : FloorMode
  cfg : FloorCfg
  list : List FloorEntry
  wait : List WaitEntry
  leaving : List LeavingEntry
  /-- The guard timer's remaining count, or stopped. -/
  guard : Option Nat
  chair : Option Nat
  latch : Bool
  deriving DecidableEq, Repr

/-- A gain in half dB, or OFF. -/
abbrev Gain := Option Int

/-- The Mix Engine, less the ramps (chapter 5). Crosspoint (o, c) is entry 42 o + c. -/
structure Mix where
  xp : Tab 714 Gain
  bus : Tab 17 Gain
  rowTouched : Tab 17 Bool
  /-- The outputs formed at the last boundary, after substitution: 48 samples, or none for silence. -/
  outputs : Tab 17 (List Int)
  deriving DecidableEq, Repr

/-- The privacy state and settings of the Claim Unit (R35). -/
structure Privacy where
  state : PrivacyState
  group : Nat
  autoRelease : Bool
  /-- The level of the line as last taken. -/
  level : Bool
  deriving DecidableEq, Repr

/-- The settings of the Silence Controller (R124). -/
structure SilenceCfg where
  alarmEnable : Bool
  howlEnable : Bool
  requestEnable : Bool
  alarmScope : Scope
  howlScope : Scope
  requestScope : Scope
  maskA : BitVec 17
  maskB : BitVec 17
  contentA : Content
  contentB : Content
  howlLevel : Int
  howlBlocks : Nat
  autoRestore : Bool
  deriving DecidableEq, Repr

/-- The Silence Controller (R112). -/
structure Silence where
  state : SilenceState
  requestLatch : Bool
  howl : BitVec 8
  covered : Covered
  chime : Nat
  howlCount : Tab 8 Nat
  alarmLevel : Bool
  cfg : SilenceCfg
  deriving DecidableEq, Repr

/-- One meter point (R160). -/
structure Meter where
  running : Int
  captured : Int
  fresh : Bool
  overrun : Bool
  deriving DecidableEq, Repr, Inhabited

/-- One level-watch entry (R163). -/
structure Watch where
  point : Nat
  threshold : Int
  dir : Direction
  count : Nat
  armed : Bool
  matched : Nat
  deriving DecidableEq, Repr, Inhabited

/-- The Meter Unit (chapter 9). -/
structure Meters where
  points : Tab 59 Meter
  window : Nat
  counter : Nat
  stamp : BitVec 16
  watches : Tab 8 Watch
  deriving DecidableEq, Repr

/-- The Tone Generator's context (R165). -/
structure Tone where
  running : Bool
  target : ToneTarget
  freq : Nat
  level : Int
  burst : Bool
  remaining : Option Nat
  generated : BitVec 32
  /-- The sample phase, in samples from the start of the cycle (log 43). -/
  phase : Nat
  deriving DecidableEq, Repr

/-- The stored set-up of one channel (R170). -/
structure ChannelSetup where
  trim : Int
  zone : Nat
  groups : BitVec 8
  deriving DecidableEq, Repr, Inhabited

/-- The stored FLOOR part (R170). -/
structure FloorPart where
  mode : FloorMode
  cfg : FloorCfg
  chair : Option Nat
  deriving DecidableEq, Repr

/-- The stored CROSSPOINTS part (R170). -/
structure XpPart where
  xp : Tab 714 Gain
  bus : Tab 17 Gain
  deriving DecidableEq, Repr

/-- A scene record (R170): up to four parts. -/
structure SceneRecord where
  channels : Option (Tab 42 ChannelSetup)
  crosspoints : Option XpPart
  floor : Option FloorPart
  claims : Option (Tab 42 Bool)
  deriving DecidableEq, Repr

/-- The load context (R172). -/
structure LoadContext where
  slot : Nat
  phase : ScenePart
  index : Nat
  applied : Nat
  passed : Nat
  deriving DecidableEq, Repr

/-- The Scene Unit (chapter 10), less the touched marks. -/
structure Scenes where
  slots : Tab 16 (Option SceneRecord)
  load : Option LoadContext
  deriving DecidableEq, Repr

/-- What the ports share (chapter 11), and the model's free counter. -/
structure Sys where
  power : Power
  resetCause : ResetCause
  farmod : Bool
  autowake : Bool
  /-- The block counter. -/
  blocks : BitVec 32
  /-- The reset in force, if any (R186). -/
  inReset : Option ResetCause
  /-- The model's own: indexes the free values of Config, advances at every boundary (log 10). -/
  free : Nat
  deriving DecidableEq, Repr

/-- The events a boundary can make due (log 1): the rows of the table that are not requests, transactions,
resets or the boundary itself, with their operands. -/
inductive Event
  | privacyActiveEdge | privacyInactiveEdge | alarmActiveEdge | alarmInactiveEdge
  | wakePulse (line : Nat)
  | noiseFloorRise (ch : Nat) | mutedTalk (ch : Nat) | mutedTalkRearm (ch : Nat)
  | muteShortPress (ch : Nat) | longPress (ch : Nat) | talkPress (ch : Nat)
  | floorRequest (ch : Nat) | holdExpired (ch : Nat) | waitTimeout (ch : Nat) | waitQuietDrop (ch : Nat)
  | guardExpiry | leavingRemoval (ch : Nat)
  | talkTimerTick (ch : Nat) | talkWarn (ch : Nat) | talkEnd (ch : Nat)
  | howlLatch (zone : Nat) | restoringEnd
  | rollCall (line : Nat) | rollCallAnswer (line pos : Nat) (rec : Identity)
  | podJoin (line pos : Nat) | joinFailed (line pos : Nat) | podLost (line pos : Nat)
  | ringAcknowledged (line pos : Nat) | sleepAcknowledged (line pos : Nat)
  | wakeRequest (line pos : Nat) | wakeFramesDone (line pos : Nat) | wakeFailed (line pos : Nat)
  | startingEnd (line : Nat) | wakingEnd (line : Nat) | standbyFrameEnd (line : Nat)
  | sleepingEnd (line : Nat) | lineTestComplete (line : Nat)
  | capture | levelWatch (entry : Nat) | toneCountEnd | sceneLoadStep
  deriving DecidableEq, Repr

/-- The state of the part. -/
structure State where
  chans : Tab 42 Channel
  pos : Tab 32 Position
  lines : Tab 4 Line
  floor : Floor
  mix : Mix
  privacy : Privacy
  silence : Silence
  meters : Meters
  tone : Tone
  scenes : Scenes
  room : PortState
  codec : PortState
  sys : Sys
  /-- Events of the last boundary that are not yet taken (log 1). -/
  due : List Event
  /-- The commands that wait, first in first out. -/
  pending : List Instr
  deriving DecidableEq, Repr

/-- The reasons a step can stop with a fault: the manual gives none ("The part holds no error state of its
own", R179), so there is none. -/
inductive Fault
  deriving DecidableEq, Repr

/-- The reasons a command can be refused. -/
inductive Refusal
  /-- Raised by a dispatch arm whose row has no meaning yet. Safe: the step stops. -/
  | notModelled (mnemonic : String)
  deriving DecidableEq, Repr

/-! ### Reset values -/

/-- No claim. -/
def ClaimSet.empty : ClaimSet := ⟨false, false, false, false, false⟩

/-- The default groups (R10): pods {0}, sites {1}, programs {2}. -/
def defaultGroups (c : Nat) : BitVec 8 := if c < 32 then 1 else if c < 40 then 2 else 4

/-- The default zone of a pod channel (R9): L x 2 + (P div 4). -/
def defaultZone (c : Nat) : Nat := if c < 32 then c / 8 * 2 + c % 8 / 4 else 0

/-- Whether the default groups put channel `c` into the default privacy group 0 (R40). -/
def defaultPrivate (c : Nat) : Bool := decide (c < 32)

/-- A channel after reset (R17, R45, R71, R111, R158); `privacyActive` is the privacy line as taken when
the reset ends (R40). -/
def resetChannel (privacyActive : Bool) (c : Nat) : Channel where
  trim := 0
  zone := defaultZone c
  groups := defaultGroups c
  siteUp := false
  peak := -96
  noise := -70
  rise := 0
  openThr := -58
  closeThr := -64
  claims := { ClaimSet.empty with privacy := privacyActive && defaultPrivate c }
  hand := false
  talkCount := 0
  armed := true
  attack := 0
  ramp := 0
  atten := 0
  maskZone := defaultZone c
  touched := false
  ring := none
  pulseOwed := false

/-- A position after reset (R150). -/
def resetPosition : Position where
  state := .absent
  fromLost := false
  identity := none
  newUnit := false
  good := 0
  miss := 0
  levels := none
  hold := none
  wakeTimer := none
  checkFails := 0
  missed := 0
  rejoins := 0

/-- A line after reset (R150). -/
def resetLine : Line where
  state := .off
  remaining := 0
  sent := 0
  mismatch := 0
  rollCount := 0
  table := []
  frame := none
  toForm := false
  early := false

/-- The default floor quantities (R69). -/
def defaultFloorCfg : FloorCfg where
  maxOpen := 4
  openMargin := 12
  closeMargin := 6
  attack := 8
  holdTime := 800
  waitMax := 1500
  guard := 4
  lastMic := false
  ramp := 16
  talkLimit := 0
  talkWarn := 15
  autoGrant := false
  chairDuck := 20

/-- The Floor Controller after reset (R71, R93). -/
def resetFloor : Floor where
  mode := .voice
  cfg := defaultFloorCfg
  list := []
  wait := []
  leaving := []
  guard := none
  chair := none
  latch := false

/-- The default crosspoints (R103). -/
def defaultXp (o c : Nat) : Gain :=
  if o < 8 then (if c = 32 + o then none else some 0)
  else if o = 8 then some 0
  else if c < 32 then none else some 0

/-- The Mix Engine after reset (R111). -/
def resetMix : Mix where
  xp := Tab.tabulate 714 (fun i => defaultXp (i / 42) (i % 42))
  bus := Tab.tabulate 17 (fun _ => some 0)
  rowTouched := Tab.tabulate 17 (fun _ => false)
  outputs := Tab.tabulate 17 (fun _ => [])

/-- The privacy state after reset (R40, R45). -/
def resetPrivacy (privacyActive : Bool) : Privacy where
  state := if privacyActive then .on else .off
  group := 0
  autoRelease := true
  level := privacyActive

/-- The default settings of the Silence Controller (R116, R124). -/
def defaultSilenceCfg : SilenceCfg where
  alarmEnable := true
  howlEnable := true
  requestEnable := true
  alarmScope := .all
  howlScope := .a
  requestScope := .all
  maskA := 0x1FE00#17
  maskB := 0x001FF#17
  contentA := .alert
  contentB := .mute
  howlLevel := -3
  howlBlocks := 400
  autoRestore := false

/-- The Silence Controller after reset (R126). -/
def resetSilence (alarmActive : Bool) : Silence where
  state := if alarmActive then .active else .quiet
  requestLatch := false
  howl := 0
  covered := if alarmActive then .ab else .none
  chime := 0
  howlCount := Tab.tabulate 8 (fun _ => 0)
  alarmLevel := alarmActive
  cfg := defaultSilenceCfg

/-- The Meter Unit after reset (R169). -/
def resetMeters : Meters where
  points := Tab.tabulate 59 (fun _ => ⟨-96, -96, false, false⟩)
  window := 4
  counter := 0
  stamp := 0
  watches := Tab.tabulate 8 (fun _ => ⟨0, 0, .above, 1, false, 0⟩)

/-- The Tone Generator after reset (R169). -/
def resetTone : Tone where
  running := false
  target := .channel 0
  freq := 1000
  level := -20
  burst := false
  remaining := none
  generated := 0
  phase := 0

/-- A Port Interface after reset (R186, R188). -/
def resetPort (cause : ResetCause) : PortState where
  slot := none
  read := false
  queue := [⟨.reset cause, 0⟩]
  mask := 0x3FFFFFF#26
  loss := false
  dataOut := []

/-- The shared state after reset (R186, R188). -/
def resetSys (cause : ResetCause) (free : Nat) : Sys where
  power := .running
  resetCause := cause
  farmod := false
  autowake := false
  blocks := 0
  inReset := none
  free := free

/-- No scene stored (R170). -/
def emptySlots : Tab 16 (Option SceneRecord) := Tab.tabulate 16 (fun _ => none)

/-- The state right after a reset of the cause given, with the level inputs as taken when it ends (R186),
the scene slots it leaves, and the queue it leaves alone. -/
def State.afterReset (cause : ResetCause) (privacyActive alarmActive : Bool)
    (slots : Tab 16 (Option SceneRecord)) (free : Nat) (pending : List Instr) : State where
  chans := Tab.tabulate 42 (resetChannel privacyActive)
  pos := Tab.tabulate 32 (fun _ => resetPosition)
  lines := Tab.tabulate 4 (fun _ => resetLine)
  floor := resetFloor
  mix := resetMix
  privacy := resetPrivacy privacyActive
  silence := resetSilence alarmActive
  meters := resetMeters
  tone := resetTone
  scenes := ⟨slots, none⟩
  room := resetPort cause
  codec := resetPort cause
  sys := resetSys cause free
  due := []
  pending := pending

/-- The part right after power-on reset, with both level inputs inactive (log 9) and no command waiting. -/
def State.reset : State := State.afterReset .power false false emptySlots 0 []

end Sys2Proof.Machine
end

