-- ==== Sys2Proof/Machine/Ops.lean ====
section
/-! DEFINITION. The shared operations: the records of State by number, the floor lists by channel, claim sets as
sets, notices (R182) and responses (R178). -/

namespace Sys2Proof.Machine

open Sys2Proof

/-! ### Records by number -/

/-- The channel of line `l`, position `p` (R1). -/
abbrev podOf (l p : Nat) : Nat := 8 * l + p
/-- The line of a pod channel (R1). -/
abbrev lineOf (c : Nat) : Nat := c / 8
/-- The position of a pod channel (R1). -/
abbrev posOf (c : Nat) : Nat := c % 8

/-- The pod channels, in increasing number. -/
abbrev pods : List Nat := List.range 32
/-- All channels, in increasing number. -/
abbrev channels : List Nat := List.range 42

/-- The record of channel `c`. -/
def State.chan (s : State) (c : Nat) : Channel := s.chans.get c
/-- The state with channel `c` changed. -/
def State.modChan (s : State) (c : Nat) (f : Channel → Channel) : State :=
  { s with chans := s.chans.modify c f }
/-- The state with every channel changed. -/
def State.mapChans (s : State) (f : Nat → Channel → Channel) : State :=
  { s with chans := s.chans.mapIdx f }

/-- The Position Table record of pod channel `c`. -/
def State.position (s : State) (c : Nat) : Position := s.pos.get c
/-- The state with the position of pod channel `c` changed. -/
def State.modPos (s : State) (c : Nat) (f : Position → Position) : State :=
  { s with pos := s.pos.modify c f }

/-- Line `l`. -/
def State.line (s : State) (l : Nat) : Line := s.lines.get l
/-- The state with line `l` changed. -/
def State.modLine (s : State) (l : Nat) (f : Line → Line) : State :=
  { s with lines := s.lines.modify l f }

/-- The state with the Floor Controller changed. -/
def State.modFloor (s : State) (f : Floor → Floor) : State := { s with floor := f s.floor }

/-- The interface of port `p`. -/
def State.port (s : State) : Port → PortState
  | .room => s.room
  | .codec => s.codec
/-- The state with the interface of port `p` changed. -/
def State.modPort (s : State) (p : Port) (f : PortState → PortState) : State :=
  match p with
  | .room => { s with room := f s.room }
  | .codec => { s with codec := f s.codec }

/-! ### Claim sets (R18) -/

/-- The set with the claim of one authority set or clear. -/
def ClaimSet.put (k : ClaimSet) (a : Authority) (b : Bool) : ClaimSet :=
  match a with
  | .pod => { k with pod := b }
  | .chair => { k with chair := b }
  | .room => { k with room := b }
  | .far => { k with far := b }
  | .privacy => { k with privacy := b }

/-- Whether the set holds the authority's claim. -/
def ClaimSet.holds (k : ClaimSet) : Authority → Bool
  | .pod => k.pod
  | .chair => k.chair
  | .room => k.room
  | .far => k.far
  | .privacy => k.privacy

/-- The claims of `k` that are not in `j`. -/
def ClaimSet.less (k j : ClaimSet) : ClaimSet :=
  ⟨k.pod && !j.pod, k.chair && !j.chair, k.room && !j.room, k.far && !j.far, k.privacy && !j.privacy⟩

/-- What ClaimsClear and ConferenceClear leave (R26, R44): PRIVACY alone. -/
def ClaimSet.onlyPrivacy (k : ClaimSet) : ClaimSet := { ClaimSet.empty with privacy := k.privacy }

/-- The claim set of channel `c`. -/
def State.claims (s : State) (c : Nat) : ClaimSet := (s.chan c).claims

/-- A channel is muted while its claim set is not empty (R18). -/
def State.muted (s : State) (c : Nat) : Bool := decide (s.claims c ≠ ClaimSet.empty)

/-! ### Floor lists by channel (R47 to R50) -/

/-- The Floor List entry of channel `c`. -/
def Floor.entry? (f : Floor) (c : Nat) : Option FloorEntry := f.list.find? (fun e => e.ch == c)
/-- The Wait List entry of channel `c`. -/
def Floor.waiting? (f : Floor) (c : Nat) : Option WaitEntry := f.wait.find? (fun e => e.ch == c)
/-- Channel `c` is in the Leaving List. -/
def Floor.isLeaving (f : Floor) (c : Nat) : Bool := f.leaving.any (fun e => e.ch == c)

/-- The Floor List without channel `c`; the order of the others is kept (R47). -/
def Floor.dropEntry (f : Floor) (c : Nat) : Floor := { f with list := f.list.filter (fun e => e.ch != c) }
/-- The Wait List without channel `c` (R48). -/
def Floor.dropWait (f : Floor) (c : Nat) : Floor := { f with wait := f.wait.filter (fun e => e.ch != c) }
/-- The Leaving List without channel `c` (R49). -/
def Floor.dropLeaving (f : Floor) (c : Nat) : Floor :=
  { f with leaving := f.leaving.filter (fun e => e.ch != c) }

/-- The Floor List with the entry of channel `c` changed in place (R47). -/
def Floor.modEntry (f : Floor) (c : Nat) (g : FloorEntry → FloorEntry) : Floor :=
  { f with list := f.list.map (fun e => if e.ch == c then g e else e) }

/-- A place is free (R47). -/
def Floor.placeFree (f : Floor) : Bool := decide (f.list.length < f.cfg.maxOpen)
/-- A PENDING entry exists. -/
def Floor.hasPending (f : Floor) : Bool := f.list.any (fun e => e.st == .pending)
/-- The open count n (R66). -/
def Floor.openCount (f : Floor) : Nat := f.list.countP (fun e => e.st != .pending)
/-- The Leaving List has room (R64). -/
def Floor.leavingRoom (f : Floor) : Bool := decide (f.leaving.length < Config.leavingCapacity)
/-- The Wait List has room (R48). -/
def Floor.waitRoom (f : Floor) : Bool := decide (f.wait.length < Config.waitCapacity)
/-- Channel `c` is the chair. -/
def Floor.isChair (f : Floor) (c : Nat) : Bool := f.chair == some c

/-! ### Notices (R182, R183) -/

/-- The number of a notice's kind (R189). -/
def NoticeBody.kind : NoticeBody → Nat
  | .reset .. => 1
  | .claimChange .. => 2
  | .handRaise .. => 3
  | .handLower .. => 4
  | .privacyOn .. => 5
  | .privacyOff .. => 6
  | .mutedTalk .. => 7
  | .floorChange .. => 8
  | .floorRefused .. => 9
  | .waitDropped .. => 10
  | .waitFull .. => 11
  | .talkWarn .. => 12
  | .talkEnd .. => 13
  | .modeChange .. => 14
  | .chairChange .. => 15
  | .silence .. => 16
  | .podJoin .. => 17
  | .podLost .. => 18
  | .wakeFailed .. => 19
  | .wakeRequest .. => 20
  | .lineTest .. => 21
  | .levelWatch .. => 22
  | .toneDone .. => 23
  | .sceneDone .. => 24
  | .conferenceClear .. => 25
  | .power .. => 26

/-- WAKE_REQUEST goes to the Room Port only (R182). -/
def NoticeBody.roomOnly : NoticeBody → Bool
  | .wakeRequest .. => true
  | _ => false

/-- A port takes an offered notice by its mask and its room (R182). -/
def PortState.offer (ps : PortState) (n : Notice) : PortState :=
  if ps.mask.getLsbD (n.body.kind - 1) then
    if ps.queue.length < Config.queueCapacity then { ps with queue := ps.queue ++ [n] }
    else { ps with loss := true }
  else ps

/-- A notice is raised: offered to each port to which its kind goes, with the block stamp (R182). -/
def raise (b : NoticeBody) (s : State) : State :=
  let n : Notice := ⟨b, s.sys.blocks.setWidth 16⟩
  { s with
    room := s.room.offer n
    codec := if b.roomOnly then s.codec else s.codec.offer n }

/-- What `f` does to everything but the ports: a change for which another notice stands. -/
def quietly (f : State → State) (s : State) : State :=
  { f s with room := s.room, codec := s.codec }

/-! ### Responses (R178) -/

/-- The ATTN output of a port: an unread response, or a notice that waits (R182); released in reset (R186). -/
def State.attn (s : State) (p : Port) : Bool :=
  s.sys.inReset.isNone
    && (((s.port p).slot.isSome && !(s.port p).read) || !(s.port p).queue.isEmpty)

/-- The response to a request is placed, unread (R178). -/
def respond (p : Port) (r : Response) (s : State) : State :=
  s.modPort p (fun ps => { ps with slot := some r, read := false })

/-! ### The queue of due events (log 1) -/

/-- The event is due. -/
def State.isDue (s : State) (e : Event) : Bool := s.due.contains e
/-- The event is taken from the due events. -/
def State.undue (s : State) (e : Event) : State := { s with due := s.due.filter (fun d => d != e) }
/-- Events are made due, behind those that are. -/
def State.addDue (s : State) (es : List Event) : State := { s with due := s.due ++ es }

end Sys2Proof.Machine
end

