-- ==== Sys2Proof/Machine/Flags.lean ====
section
/-! DEFINITION. The flags and levels that follow from State and are not stored twice (log 28): present, gate
state, ramp target, NOM attenuation, chair duck, self masks, the effective sources, the derived ring. -/

namespace Sys2Proof.Machine

open Sys2Proof

/-- The present flag of a channel (R2, R3). -/
def State.present (s : State) (c : Nat) : Bool :=
  if c < 32 then (s.position c).state == .online
  else if c < 40 then (s.chan c).siteUp
  else decide (c < 42)

/-- The gate state of a Floor List entry (R47). -/
def EntryState.gate : EntryState → Gate
  | .pending => .pending
  | .opened => .opened
  | .held => .held

/-- The gate state of a channel (R50): given by the list it stands in and its attack count. -/
def State.gate (s : State) (c : Nat) : Gate :=
  if c < 32 then
    match s.floor.entry? c with
    | some e => e.st.gate
    | none =>
      if (s.floor.waiting? c).isSome then .waiting
      else if 0 < (s.chan c).attack then .attack
      else .closed
  else .ungated

/-- The ramp target of a channel is 1 (R95). -/
def State.target (s : State) (c : Nat) : Bool :=
  s.present c && !s.muted c && (s.gate c == .ungated || s.gate c == .opened || s.gate c == .held)

/-- The NOM attenuation for the open count, in half dB (R66). -/
def nomHalf (n : Nat) : Nat := [0, 0, 6, 10, 12, 14, 16].getD n 16

/-- Chair duck is in force (R89): the chair's gate is OPEN. -/
def Floor.duck (f : Floor) : Bool :=
  match f.chair with
  | some c => f.list.any (fun e => e.ch == c && e.st == .opened)
  | none => false

/-- The channel attenuation that the Floor Controller hands for a channel, in half dB (R100). -/
def Floor.attenHalf (f : Floor) (c : Nat) : Nat :=
  if c < 32 then nomHalf f.openCount + (if f.duck && !f.isChair c then f.cfg.chairDuck else 0)
  else 0

/-- The self mask of output `o` and channel `c` is 0, the zone of `c` being `z` (R101). -/
def masked (o c z : Nat) : Bool :=
  if o < 8 then c == 32 + o
  else if o == 8 then false
  else decide (c < 32) && z == o - 9

/-- The mask as the channel records hold the zones (R104, R105). -/
def State.maskedNow (s : State) (o c : Nat) : Bool := masked o c (s.chan c).zone

/-- ALARM is effective (R112, R121). -/
def Silence.alarm (q : Silence) : Bool := q.alarmLevel && q.cfg.alarmEnable
/-- The source set holds a latched source (R120). -/
def Silence.latched (q : Silence) : Bool := q.requestLatch || q.howl != 0
/-- Substitution is in force (R112). -/
def Silence.inForce (q : Silence) : Bool := q.state != .quiet

/-- The warned flag of a Floor List entry (R80); no where it has no talk timer. -/
def FloorEntry.warned (e : FloorEntry) : Bool :=
  match e.talk with
  | some t => t.warned
  | none => false

/-- The derived ring of a pod channel (R152). -/
def State.derivedRing (s : State) (c : Nat) : Ring :=
  let k := s.claims c
  if s.silence.inForce then ⟨.white, .sweep⟩
  else if s.tone.running && s.tone.target == .channel c then ⟨.white, .slow⟩
  else if k.privacy then ⟨.red, .fast⟩
  else if (s.chan c).hand then ⟨.amber, .fast⟩
  else if k.chair || k.room || k.far then ⟨.red, .slow⟩
  else if k.pod then ⟨.red, .steady⟩
  else
    match s.floor.entry? c with
    | some e => if e.warned then ⟨.green, .fast⟩ else ⟨.green, .steady⟩
    | none => if (s.floor.waiting? c).isSome then ⟨.green, .slow⟩ else ⟨.off, .steady⟩

end Sys2Proof.Machine
end

