-- ==== Sys2Proof/Machine/Audio.lean ====
section
/-! DEFINITION. Samples, gains and levels: trim (R5), block peak (R6), the sum of an output (R99), limiting (R107),
shutdown content (R117), tone samples (R165). A block is 48 whole numbers of sample steps, or none for silence
(log 27). What the manual leaves open of rounding is a free bit of Config (log 5, 7). -/

namespace Sys2Proof.Machine

open Sys2Proof

/-! ### Gains -/

/-- 2^96, the scale of the constants below. -/
def unit : Nat := 79228162514264337593543950336

/-- Entry r: 10^(r/40) at scale 2^96, rounded down: the factor of r half decibels (log 5). -/
def gainTable : List Nat :=
  [ 79228162514264337593543950336,
    83922726282186137332892345685,
    88895460441439633162414689118,
    94162847623945252302818858120,
    99742347118965433378564067652,
    105652452743690362343010761924,
    111912754142871491448813219597,
    118544001720686696219909383552,
    125568175420060325683508381414,
    133008557577414180739318957790,
    140889810094333884860886233373,
    149238056181943965399891736210,
    158080966948941670747279675476,
    167447853120294346938244305899,
    177369762190611302229495670860,
    187879581334214868187136261490,
    199012146413016529403508036771,
    210804357443515787564229965247,
    223295300905648843252990958878,
    236526379298892184298615162333 ] ++
  [ 250541448375047931186413801569,
    265386962502582930640417936482,
    281112128644346448434962794728,
    297769069459041229802301131841,
    315412996067064302065144637744,
    334102391053367428211635440255,
    353899202313918760444196185647,
    374869048388289459137630803651,
    397081435958960969258832426402,
    420609990238276476394171993817,
    445532699006677468785727651800,
    471932171111114901364619673913,
    499895910280454173663799990591,
    529516605165462863600143372340,
    560892436564748184858300089009,
    594127402854975709709312586929,
    629331664704040836416136311542,
    666621910209779783760465404591,
    706121741674509418428760118366,
    747962085297399370902577885187 ]

/-- The linear factor of `h` half decibels, times `gainDen` (R99). -/
def gainNum (h : Int) : Nat := gainTable.getD (h % 40).toNat 0 * 10 ^ (h / 40 + 20).toNat

/-- The common denominator of all gains. -/
def gainDen : Nat := unit * 10 ^ 20

/-! ### Samples -/

/-- Sample `i` of a block; 0 in silence. -/
def sampleAt (x : List Int) (i : Nat) : Int := x.getD i 0

/-- A block of 48 samples; a block of zeros is silence. -/
def block (f : Nat → Int) : List Int :=
  let x := (List.range Config.blockLen).map f
  if x.all (fun v => v == 0) then [] else x

/-- A sample limited to full scale with its sign kept (R5, R107). -/
def limit (x : Int) : Int :=
  if (Config.fullScale : Int) < x then Config.fullScale
  else if x < -(Config.fullScale : Int) then -(Config.fullScale : Int)
  else x

/-- The sample nearest below or above `num / den`: itself where whole, else as the free bit says (log 5). -/
def quantise (free place i : Nat) (num : Int) (den : Nat) : Int :=
  if num % den = 0 then num / den
  else if Config.roundsUp free place i then num / den + 1
  else num / den

/-- The source samples of a channel multiplied by its trim and limited (R5). -/
def trimmed (free c : Nat) (trim : Int) (src : List Int) : List Int :=
  if src.isEmpty then []
  else block (fun i => limit (quantise free c i (sampleAt src i * gainNum trim) gainDen))

/-! ### Block peak (R6) -/

/-- The largest absolute sample. -/
def crest (x : List Int) : Nat := x.foldl (fun m v => max m v.natAbs) 0

/-- The level of a largest absolute sample, rounded down to whole dBFS and limited to -96 to 0 (R6): the least
j with a at or above full scale less j dB, negated. -/
def levelOf (a : Nat) : Int :=
  if a = 0 then -96
  else
    match (List.range 96).find? (fun j => decide (Config.fullScale ^ 20 ≤ a ^ 20 * 10 ^ j)) with
    | some j => -(j : Int)
    | none => -96

/-- The block peak of a block (R6, R114, R159). -/
def peakOf (x : List Int) : Int := levelOf (crest x)

/-! ### Sines -/

/-- Pi at scale 2^96. -/
def piNum : Nat := 248902613312231085230521944622

/-- The terms of the sine's series after term `t`, summed onto `acc`; `x2` is the square of the angle. -/
def sineSeries : Nat → Nat → Int → Int → Int → Int
  | 0, _, _, _, acc => acc
  | n + 1, j, x2, t, acc =>
    let t' := -(t * x2 / unit) / ((2 * j) * (2 * j + 1) : Nat)
    sineSeries n (j + 1) x2 t' (acc + t')

/-- sin (2 pi k / n) at scale 2^96, for k at most a quarter of n. -/
def sineQuarter (k n : Nat) : Int :=
  if 4 * k = n then unit
  else
    let x : Int := (2 * piNum * k / n : Nat)
    sineSeries 23 1 (x * x / unit) x x

/-- sin (2 pi k / n) at scale 2^96; n is a multiple of 4. -/
def sine (k n : Nat) : Int :=
  let k := k % n
  let h := if n ≤ 2 * k then k - n / 2 else k
  let v := sineQuarter (if n < 4 * h then n / 2 - h else h) n
  if n ≤ 2 * k then -v else v

/-! ### The alert chime (R117) -/

/-- Sample `i` of the block of chime phase `phase`: 660 Hz, then 880 Hz without a break of phase, at -12 dBFS, each
rounded to the nearest sample value (log 8). -/
def chimeSample (phase i : Nat) : Int :=
  let at' (k n : Nat) : Int :=
    (2 * (Config.fullScale * gainNum (-24)) * sine k n + (gainDen * unit : Nat)) / (2 * (gainDen * unit) : Nat)
  if phase < 250 then at' (11 * (48 * phase + i)) 800
  else if phase < 500 then at' (11 * (48 * (phase - 250) + i)) 600
  else 0

/-- The alert chime's block of a chime phase (R117). -/
def chimeBlock (phase : Nat) : List Int :=
  if phase < 500 then block (chimeSample phase) else []

/-! ### The test tone (R165) -/

/-- Samples of one cycle (R165). -/
def toneCycle (freq : Nat) : Nat := 48000 / freq

/-- The tone's sample at sample phase `k`. The crest is rounded away from zero, so that its level is exactly the
tone's; any other sample that is no whole number of steps is rounded as the free bit says (log 7). -/
def toneSample (free freq : Nat) (level : Int) (k i : Nat) : Int :=
  let n := toneCycle freq
  let a := Config.fullScale * gainNum (2 * level)
  let top : Int := ((a + gainDen - 1) / gainDen : Nat)
  if 4 * (k % n) = n then top
  else if 4 * (k % n) = 3 * n then -top
  else quantise free 76 i (a * sine k n) (gainDen * unit)

/-- The tone's block that starts at sample phase `phase` (R165). -/
def toneBlock (free freq : Nat) (level : Int) (phase : Nat) : List Int :=
  block (fun i => toneSample free freq level (phase + i) i)

/-! ### Outputs (R99) and content (R117) -/

/-- What channel `c` adds to output `o`: its input and the factor (ramp position times crosspoint gain and
attenuation), or nothing where the term is exactly zero (R99, R100, R101). -/
def contribution (o c : Nat) (xp : Gain) (k : Channel) (x : List Int) : Option (List Int × Nat) :=
  if masked o c k.maskZone || k.ramp == 0 || x.isEmpty then none
  else
    match xp with
    | none => none
    | some g => some (x, k.ramp * gainNum (g - k.atten))

/-- One output's block (R99): the sum, the bus gain, the added tone, the limit. -/
def outputBlock (free o : Nat) (terms : List (List Int × Nat)) (bus : Gain) (ramp : Nat) (tone : List Int) :
    List Int :=
  let factor := match bus with
    | some g => gainNum g
    | none => 0
  let den := ramp * gainDen * gainDen
  if (terms.isEmpty || factor == 0) && tone.isEmpty then []
  else
    block (fun i =>
      let sum := terms.foldl (fun acc t => acc + sampleAt t.1 i * t.2) (0 : Int)
      limit (quantise free (42 + o) i (sum * factor + sampleAt tone i * den) den))

/-- PROGRAM content of output `o` (R117): both program inputs at the output's bus gain, limited. -/
def programBlock (free o : Nat) (a b : List Int) (bus : Gain) : List Int :=
  match bus with
  | none => []
  | some g =>
    if a.isEmpty && b.isEmpty then []
    else
      block (fun i => limit (quantise free (59 + o) i ((sampleAt a i + sampleAt b i) * gainNum g) gainDen))

end Sys2Proof.Machine
end

