-- ==== Sys2Proof/Machine/Commands.lean ====
section
/-! DEFINITION. The pending command table and the command arbiter of a pod line (R138, R139). -/

namespace Sys2Proof.Machine

open Sys2Proof

/-- The kind byte of a line command (R189). -/
def LineCmd.kind : LineCmd → Nat
  | .sleep => 1
  | .wake _ => 2
  | .rollCall _ => 3
  | .ring _ _ => 4

/-- The priority of a line command (R138): 0 is highest. -/
def LineCmd.priority : LineCmd → Nat
  | .sleep => 0
  | .wake _ => 1
  | .rollCall _ => 2
  | .ring _ _ => 3

/-- The order among entries of equal priority (R139): broadcast, then the lowest position. -/
def Addressee.order : Addressee → Nat
  | .broadcast => 0
  | .position p => p + 1

/-- Two entries have the same key: addressee and kind (R138). -/
def Entry.sameKey (e f : Entry) : Bool := e.dest == f.dest && e.cmd.kind == f.cmd.kind

/-- The rank by which the arbiter chooses: lower first (R139). -/
def Entry.rank (e : Entry) : Nat := e.cmd.priority * 16 + e.dest.order

/-- An entry placed: it replaces the entry of the same key, and carries no sent mark (R138, R139). -/
def placeIn (table : List Entry) (dest : Addressee) (cmd : LineCmd) : List Entry :=
  let e : Entry := ⟨dest, cmd, false⟩
  table.filter (fun f => !f.sameKey e) ++ [e]

/-- An entry placed in the table of line `l`. -/
def State.place (s : State) (l : Nat) (dest : Addressee) (cmd : LineCmd) : State :=
  s.modLine l (fun ln => { ln with table := placeIn ln.table dest cmd })

/-- Every entry addressed to a position removed (R135). -/
def dropPosition (table : List Entry) (p : Nat) : List Entry := table.filter (fun e => e.dest != .position p)

/-- The entry of one kind addressed to a position removed. -/
def dropKind (table : List Entry) (p kind : Nat) : List Entry :=
  table.filter (fun e => !(e.dest == .position p && e.cmd.kind == kind))

/-- The entry the arbiter chooses (R139): lowest rank. -/
def choose : List Entry → Option Entry
  | [] => none
  | e :: es =>
    match choose es with
    | none => some e
    | some f => if e.rank ≤ f.rank then some e else some f

/-- A WAKE entry once the frame of the chosen entry is formed (R141): its own frame counts it down; a frame
with another command sets a count below 12 back to 12. -/
def Entry.afterFrame (chosen : Entry) (e : Entry) : Entry :=
  if e.sameKey chosen then
    match e.cmd with
    | .wake n => ⟨e.dest, .wake (n - 1), true⟩
    | c => ⟨e.dest, c, true⟩
  else
    match e.cmd with
    | .wake _ => ⟨e.dest, .wake Config.wakeFrames, false⟩
    | c => ⟨e.dest, c, false⟩

/-- The table after the frame that carries the chosen entry is formed (R139): a broadcast entry leaves at
once, a position entry is marked sent with this frame and no other is. -/
def tableAfter (table : List Entry) (chosen : Entry) : List Entry :=
  let marked := table.map (Entry.afterFrame chosen)
  if chosen.dest == .broadcast then marked.filter (fun e => !e.sameKey chosen) else marked

/-- The table after the command of the frame in flight to position `p` is acknowledged (R139): the entry leaves
if it is still the one marked sent with this frame. -/
def tableAcked (table : List Entry) (p kind : Nat) : List Entry :=
  table.filter (fun e => !(e.dest == .position p && e.cmd.kind == kind && e.sent))

/-- The ring value of the RING entry pending for position `p`. -/
def pendingRing (table : List Entry) (p : Nat) : Option (Ring × Bool) :=
  match table.find? (fun e => e.dest == .position p && e.cmd.kind == 4) with
  | some e =>
    match e.cmd with
    | .ring v pulse => some (v, pulse)
    | _ => none
  | none => none

/-- The command addressed to position `p` that the frame in flight carries. -/
def Line.sentTo (ln : Line) (p : Nat) : Option LineCmd :=
  match ln.frame with
  | some (.running (some e) _) => if e.dest == .position p then some e.cmd else none
  | _ => none

/-- The called set of the roll call that the frame in flight carries. -/
def Line.calledNow (ln : Line) : Option (BitVec 8) :=
  match ln.frame with
  | some (.running (some e) _) =>
    match e.cmd with
    | .rollCall called => some called
    | _ => none
  | _ => none

/-- The frame in flight is the SLEEP broadcast. -/
def Line.sleepBroadcast (ln : Line) : Bool :=
  match ln.frame with
  | some (.running (some e) _) => e.dest == .broadcast && e.cmd.kind == 1
  | _ => false

/-- The frame in flight is a test frame. -/
def Line.drivesTest (ln : Line) : Bool :=
  match ln.frame with
  | some (.test _) => true
  | _ => false

/-- The slots that come back during the frame in flight are taken: it is a running frame and no SLEEP
broadcast (R131, R147). -/
def Line.takesSlots (ln : Line) : Bool :=
  match ln.frame with
  | some (.running _ _) => !ln.sleepBroadcast
  | _ => false

end Sys2Proof.Machine
end

