-- ==== Sys2Proof/Machine/Rings.lean ====
section
/-! DEFINITION. The Indicator Unit (chapter 8): reference values, placement of RING entries, refusal pulses,
acknowledgement, the refresh on join. -/

namespace Sys2Proof.Machine

open Sys2Proof

/-- The reference value of a pod's ring (R154): the pending RING, else the last acknowledged ring. -/
def State.ringReference (s : State) (c : Nat) : Option Ring :=
  match pendingRing (s.line (lineOf c)).table (posOf c) with
  | some (v, _) => some v
  | none => (s.chan c).ring

/-- A RING entry with the derived ring is placed for a pod. -/
def placeRing (c : Nat) (pulse : Bool) (s : State) : State :=
  s.place (lineOf c) (.position (posOf c)) (.ring (s.derivedRing c) pulse)

/-- The derived ring of a pod is compared with its reference (R154). A position that is not ONLINE gets no entry. -/
def refreshRing (c : Nat) (s : State) : State :=
  if s.present c then
    if s.ringReference c = some (s.derivedRing c) then s else placeRing c (s.chan c).pulseOwed s
  else s

/-- Every pod's ring at the end of an event that changes inputs of R152 (R153; log 17). -/
def refreshRings (s : State) : State := runOver refreshRing pods s

/-- A refusal handed to the Indicator Unit (R156). -/
def owePulse (c : Nat) (s : State) : State :=
  if s.present c then placeRing c true (s.modChan c (fun k => { k with pulseOwed := true })) else s

/-- The pulse of an acknowledged RING is settled (R156): no pulse is owed, and a newer RING that still carries it
is replaced by one that does not. -/
def settlePulse (c : Nat) (s : State) : State :=
  let s := s.modChan c (fun k => { k with pulseOwed := false })
  match pendingRing (s.line (lineOf c)).table (posOf c) with
  | some (v, true) => s.place (lineOf c) (.position (posOf c)) (.ring v false)
  | _ => s

/-- An acknowledged RING (R155). -/
def acknowledgeRing (c : Nat) (v : Ring) (pulse : Bool) (s : State) : State :=
  let s := s.modChan c (fun k => { k with ring := some v })
  if pulse then settlePulse c s else s

/-- What the Indicator Unit forgets when a pod joins (R157). -/
def forgetRing (c : Nat) (s : State) : State :=
  s.modChan c (fun k => { k with ring := none, pulseOwed := false })

end Sys2Proof.Machine
end

