-- ==== Sys2Proof/Machine/Floor.lean ====
section
/-! DEFINITION. The Floor Controller (chapters 3 and 4): joining and leaving the lists, the guard timer, service of
the Wait List, eviction, floor requests, the chair's override and latch, the talk limit, the floor quantities. -/

namespace Sys2Proof.Machine

open Sys2Proof

/-! ### Notices -/

/-- FLOOR_CHANGE, with the lengths and n as they stand (R68). -/
def floorChange (c : Nat) (before after : Gate) (cause : FloorCause) (s : State) : State :=
  raise (.floorChange c before after cause s.floor.list.length s.floor.wait.length s.floor.leaving.length
    s.floor.openCount) s

/-- FLOOR_REFUSED (R68). -/
def floorRefused (c : Nat) (s : State) : State :=
  raise (.floorRefused c s.floor.list.length s.floor.wait.length) s

/-! ### Timers -/

/-- The talk timer of an entry that becomes OPEN (R80). -/
def Floor.newTalk (f : Floor) (c : Nat) : Option TalkTimer :=
  if f.mode == .queue && f.cfg.talkLimit != 0 && !f.isChair c then some ⟨0, 0, false⟩ else none

/-- Each stopped hold timer restarts from HOLDTIME (R58). -/
def Floor.restartHolds (f : Floor) : Floor :=
  { f with list := f.list.map (fun e =>
      if e.hold = .stopped then { e with hold := .running f.cfg.holdTime } else e) }

/-- Every PENDING entry becomes OPEN, in Floor List order, with FLOOR_CHANGE cause GUARD for each (R62). -/
def openPending (s : State) : State :=
  let waiting := (s.floor.list.filter (fun e => e.st == .pending)).map (fun e => e.ch)
  let s := s.modFloor (fun f => { f with guard := none })
  runOver (fun c s =>
      floorChange c .pending .opened .guard
        (s.modFloor (fun f => f.modEntry c (fun e => { e with st := .opened, talk := f.newTalk c })))) waiting s

/-- The guard timer after a change of the lists (R62): it stops while the Leaving List is not empty or no PENDING
entry exists; else it starts, and with GUARD 0 expires at once. -/
def settleGuard (s : State) : State :=
  if !s.floor.hasPending || !s.floor.leaving.isEmpty then s.modFloor (fun f => { f with guard := none })
  else if s.floor.guard.isSome then s
  else if s.floor.cfg.guard = 0 then openPending s
  else s.modFloor (fun f => { f with guard := some f.cfg.guard })

/-! ### Joining the Floor List -/

/-- A channel joins the tail of the Floor List (R47): stopped hold timers restart (R58), its attack count is
discarded, and an OPEN entry starts its talk timer (R80). -/
def joinFloor (c : Nat) (st : EntryState) (s : State) : State :=
  let s := s.modChan c (fun k => { k with attack := 0 })
  s.modFloor (fun f =>
    let f := f.restartHolds
    { f with list := f.list ++
        [⟨c, st, s.sys.blocks, .none, if st = .opened then f.newTalk c else none⟩] })

/-- A channel joins the tail of the Wait List (R48). -/
def joinWait (c : Nat) (s : State) : State :=
  (s.modChan c (fun k => { k with attack := 0 })).modFloor
    (fun f => { f with wait := f.wait ++ [⟨c, s.sys.blocks, 0, 0⟩] })

/-- The conditions under which the head of the Wait List is admitted (R60, R75). -/
def Floor.canServe (f : Floor) : Bool :=
  f.placeFree && f.leaving.isEmpty && !f.wait.isEmpty && (f.mode == .voice || f.cfg.autoGrant)

/-- The head of the Wait List is admitted as OPEN (R60). -/
def admitHead (s : State) : State :=
  match s.floor.wait with
  | [] => s
  | w :: rest =>
    floorChange w.ch .waiting .opened .admitted
      (joinFloor w.ch .opened (s.modFloor (fun f => { f with wait := rest })))

/-- Heads are admitted in turn while the conditions hold (R60); at most `n` of them. -/
def serve : Nat → State → State
  | 0, s => s
  | n + 1, s => if s.floor.canServe then serve n (admitHead s) else s

/-- The end of every event of the Floor Controller: the guard timer, then the Wait List (R54, R60, R62). -/
def afterFloor (s : State) : State :=
  let s := settleGuard s
  serve s.floor.wait.length s

/-! ### Eviction (R64) -/

/-- An eviction: `victim` goes to the Leaving List, `c` joins as PENDING. Each FLOOR_CHANGE carries the lengths after
its own change (R68). -/
def evict (victim c : Nat) (cause : FloorCause) (s : State) : State :=
  let vGate := s.gate victim
  let cGate := s.gate c
  let s := s.modFloor (fun f => f.dropEntry victim)
  let s := s.modFloor (fun f => { f with leaving := f.leaving ++ [⟨victim, s.sys.blocks⟩] })
  let s := floorChange victim vGate .closed .evicted s
  let s := joinFloor c .pending (s.modFloor (fun f => f.dropWait c))
  floorChange c cGate .pending cause s

/-- The oldest HOLD entry that is not the chair (R53). -/
def Floor.oldestHeld (f : Floor) : Option FloorEntry := f.list.find? (fun e => e.st == .held && !f.isChair e.ch)
/-- The oldest OPEN or HOLD entry that is not the chair (R76). -/
def Floor.oldestHeard (f : Floor) : Option FloorEntry :=
  f.list.find? (fun e => e.st != .pending && !f.isChair e.ch)
/-- The oldest entry that is not the chair (R84). -/
def Floor.oldestOther (f : Floor) : Option FloorEntry := f.list.find? (fun e => !f.isChair e.ch)
/-- The oldest PENDING entry that is not the chair (R84). -/
def Floor.oldestPending (f : Floor) : Option FloorEntry :=
  f.list.find? (fun e => e.st == .pending && !f.isChair e.ch)

/-! ### The chair's override (R84) -/

/-- Rows 2 and 4 of R84: a PENDING entry leaves, the chair joins as OPEN. -/
def overridePending (victim c : Nat) (cGate : Gate) (s : State) : State :=
  let s := floorChange victim .pending .closed .evicted (s.modFloor (fun f => f.dropEntry victim))
  floorChange c cGate .opened .override (joinFloor c .opened s)

/-- Row 5 of R84: refused. A chair taken from the Wait List stands there again, at the place it held. -/
def overrideRefused (c : Nat) (wait : List WaitEntry) (s : State) : State :=
  let s := (s.modFloor (fun f => { f with wait := wait })).modChan c (fun k => { k with attack := 0 })
  owePulse c (floorRefused c s)

/-- The chair `c` makes an override (R84). `cGate` is its gate state before. -/
def override (c : Nat) (s : State) : State :=
  let cGate := s.gate c
  let wait := s.floor.wait
  let s := settleGuard (s.modFloor (fun f => (f.dropWait c).dropLeaving c))
  let f := s.floor
  afterFloor <|
    if f.placeFree then floorChange c cGate .opened .override (joinFloor c .opened s)
    else
      match f.oldestOther with
      | none => overrideRefused c wait s
      | some e =>
        if e.st = .pending then overridePending e.ch c cGate s
        else if f.leavingRoom then
          let s := s.modFloor (fun g => g.dropEntry e.ch)
          let s := s.modFloor (fun g => { g with leaving := g.leaving ++ [⟨e.ch, s.sys.blocks⟩] })
          let s := floorChange e.ch e.st.gate .closed .evicted s
          floorChange c cGate .pending .override (joinFloor c .pending s)
        else
          match f.oldestPending with
          | some q => overridePending q.ch c cGate s
          | none => overrideRefused c wait s

/-! ### Level floor requests (R53, R54, R86) -/

/-- The gate returns to CLOSED and FLOOR_REFUSED is raised (R53, R54). -/
def refuseRequest (c : Nat) (s : State) : State :=
  floorRefused c (s.modChan c (fun k => { k with attack := 0 }))

/-- A floor request of a channel in the Leaving List (R54). -/
def requestFromLeaving (c : Nat) (s : State) : State :=
  if s.floor.waitRoom then
    let g := s.gate c
    floorChange c g .waiting .level (joinWait c (s.modFloor (fun f => f.dropLeaving c)))
  else refuseRequest c s

/-- A floor request taken against the lists (R53). -/
def requestByLists (c : Nat) (s : State) : State :=
  let f := s.floor
  let g := s.gate c
  if f.placeFree && f.wait.isEmpty then floorChange c g .opened .level (joinFloor c .opened s)
  else
    match (if f.wait.isEmpty && f.leavingRoom then f.oldestHeld else none) with
    | some e => evict e.ch c .level s
    | none =>
      if f.waitRoom then floorChange c g .waiting .level (joinWait c s) else refuseRequest c s

/-- A level floor request of channel `c` (R53, R54, R86). -/
def requestFloor (c : Nat) (s : State) : State :=
  if s.floor.isChair c then override c s
  else if s.floor.isLeaving c then afterFloor (requestFromLeaving c s)
  else afterFloor (requestByLists c s)

/-! ### Leaving the floor -/

/-- An entry leaves the Floor List without a handover; a latch on the channel clears (R57, R74, R77, R81, R88). -/
def takeOff (c : Nat) (s : State) : State :=
  s.modFloor (fun f => { f.dropEntry c with latch := f.latch && !f.isChair c })

/-- A Floor List entry leaves with FLOOR_CHANGE, and the place is served. -/
def leaveList (c : Nat) (cause : FloorCause) (s : State) : State :=
  let g := s.gate c
  afterFloor (floorChange c g .closed cause (takeOff c s))

/-- A Wait List entry leaves with FLOOR_CHANGE. -/
def leaveWait (c : Nat) (cause : FloorCause) (s : State) : State :=
  afterFloor (floorChange c .waiting .closed cause (s.modFloor (fun f => f.dropWait c)))

/-- A channel becomes muted (R20), or leaves ONLINE (R67): `cause` is MUTED or LEFT. A muted channel stays in the
Leaving List; one that leaves ONLINE does not. -/
def removeFromFloor (c : Nat) (cause : FloorCause) (s : State) : State :=
  let s := s.modChan c (fun k => { k with attack := 0 })
  if (s.floor.entry? c).isSome then leaveList c cause s
  else if (s.floor.waiting? c).isSome then leaveWait c cause s
  else if s.floor.isLeaving c && cause == .left then afterFloor (s.modFloor (fun f => f.dropLeaving c))
  else s

/-- The hold timer of a HOLD entry expires (R57). -/
def expireHold (c : Nat) (s : State) : State := leaveList c .holdExpired s

/-- A Wait List entry is dropped with WAIT_DROPPED (R59, R78). -/
def dropWaiting (c : Nat) (cause : DropCause) (s : State) : State :=
  let timer := match s.floor.waiting? c with
    | some w => w.timer
    | none => 0
  let s := s.modFloor (fun f => f.dropWait c)
  afterFloor (raise (.waitDropped c cause timer s.floor.wait.length) s)

/-- A channel whose ramp stands at 0 leaves the Leaving List (R63). -/
def removeLeaving (c : Nat) (s : State) : State := afterFloor (s.modFloor (fun f => f.dropLeaving c))

/-! ### TALK presses (R46, R73, R85, R87) -/

/-- A refusal of a press with FLOOR_REFUSED and a pulse (rows 3 and 4 of R73, row 2 of R87). -/
def refusePress (c : Nat) (s : State) : State := owePulse c (floorRefused c s)

/-- A TALK press of a channel that is not the chair, in QUEUE mode (R73). -/
def queuePress (c : Nat) (s : State) : State :=
  let f := s.floor
  if (f.entry? c).isSome then leaveList c .yield s
  else if (f.waiting? c).isSome then leaveWait c .withdrawn s
  else if s.muted c then refusePress c s
  else if f.isLeaving c then refusePress c s
  else if !f.waitRoom then owePulse c (raise (.waitFull c f.wait.length) s)
  else
    let g := s.gate c
    afterFloor (floorChange c g .waiting .request (joinWait c s))

/-- The chair's TALK press in QUEUE mode (R85). -/
def chairQueuePress (c : Nat) (s : State) : State :=
  if (s.floor.entry? c).isSome then leaveList c .yield s
  else if s.muted c then refusePress c s
  else override c s

/-- The latch is set or cleared with a FLOOR_CHANGE that carries the gate state before and after (R87). -/
def setLatch (c : Nat) (on : Bool) (before : Gate) (s : State) : State :=
  let s := s.modFloor (fun f => { f with latch := on })
  floorChange c before (s.gate c) (if on then .latched else .unlatched) s

/-- The chair's TALK press in VOICE mode (R87). In row 5 the override is taken whole, with what it brings about in the
Wait List (ADMITTED, R60), before the latch is set and LATCHED is raised (log 36). -/
def latchPress (c : Nat) (s : State) : State :=
  let g := s.gate c
  if s.floor.latch then setLatch c false g s
  else if s.muted c then refusePress c s
  else if g == .opened || g == .held then
    setLatch c true g (s.modFloor (fun f => f.modEntry c (fun e => { e with st := .opened, hold := .none })))
  else if g == .pending then setLatch c true g s
  else
    let s := override c s
    if (s.floor.entry? c).isSome then setLatch c true (s.gate c) s else s

/-- A TALK press of channel `c` as the Floor Controller takes it (R46, R73, R85, R87). -/
def pressTalk (c : Nat) (s : State) : State :=
  match s.floor.mode, s.floor.isChair c with
  | .queue, true => chairQueuePress c s
  | .queue, false => queuePress c s
  | .voice, true => latchPress c s
  | .voice, false => s

/-! ### The talk limit (R81) -/

/-- Talk-limit expiry: TALK_END stands for the FLOOR_CHANGE of the departure (R81). -/
def endTalk (c secs : Nat) (s : State) : State :=
  let s := takeOff c s
  let f := s.floor
  afterFloor (raise (.talkEnd c secs f.list.length f.wait.length f.leaving.length f.openCount) s)

/-- The warned flag of an entry set. -/
def setWarned (c : Nat) (b : Bool) (s : State) : State :=
  s.modFloor (fun f => f.modEntry c (fun e => { e with talk := e.talk.map (fun t => { t with warned := b }) }))

/-! ### Bulk changes -/

/-- The floor taken apart in one event (R71, R83, R93): lists, guard timer, latch, attack counts. -/
def emptyFloor (s : State) : State :=
  (s.mapChans (fun _ k => { k with attack := 0 })).modFloor
    (fun f => { f with list := [], wait := [], leaving := [], guard := none, latch := false })

/-- The mode-change rule (R83). -/
def changeMode (m : FloorMode) (s : State) : State :=
  let f := s.floor
  if f.mode = m then s
  else
    raise (.modeChange f.mode m f.list.length f.wait.length f.leaving.length)
      ((emptyFloor s).modFloor (fun g => { g with mode := m }))

/-- The designation moves (R12, R15, R90): the old chair's latch clears, an old chair that is OPEN in QUEUE mode under
a talk limit starts a talk timer, the new chair's talk timer is discarded. -/
def changeChair (new : Option Nat) (s : State) : State :=
  let old := s.floor.chair
  if old = new then s
  else
    let s := s.modFloor (fun f => { f with chair := new, latch := false })
    let s := match old with
      | some c => s.modFloor (fun f => f.modEntry c (fun e =>
          if e.st = .opened then { e with talk := f.newTalk c } else e))
      | none => s
    let s := match new with
      | some c => s.modFloor (fun f => f.modEntry c (fun e => { e with talk := none }))
      | none => s
    raise (.chairChange old new) s

/-! ### The floor quantities (R69, R70, R82, R97) -/

/-- A new RAMP rescales every ramp position (R97). -/
def rescaleRamps (old new : Nat) (s : State) : State :=
  if old = new then s else s.mapChans (fun _ k => { k with ramp := k.ramp * new / old })

/-- A written TALKLIMIT acts on running timers (R82). -/
def Floor.talkLimitWritten (f : Floor) (old : Nat) : Floor :=
  if f.cfg.talkLimit = 0 then { f with list := f.list.map (fun e => { e with talk := none }) }
  else if old = 0 then
    { f with list := f.list.map (fun e => if e.st = .opened then { e with talk := f.newTalk e.ch } else e) }
  else f

/-- The newest entries beyond MAXOPEN leave, newest first (R70); at most `n` of them. -/
def cutFloor : Nat → State → State
  | 0, s => s
  | n + 1, s =>
    if s.floor.cfg.maxOpen < s.floor.list.length then
      match s.floor.list.getLast? with
      | some e => cutFloor n (floorChange e.ch e.st.gate .closed .config (takeOff e.ch s))
      | none => s
    else s

/-- The floor quantities are written (R70, R82, R97). The cut acts in the FLOOR phase of a scene load only, since
FloorConfig is refused where it would act (R69). -/
def writeFloorCfg (new : FloorCfg) (s : State) : State :=
  let old := s.floor.cfg
  if old = new then s
  else
    let s := s.modFloor (fun f => { f with cfg := new })
    let s := rescaleRamps old.ramp new.ramp s
    let s := if new.lastMic then s else s.modFloor Floor.restartHolds
    let s := s.modFloor (fun f => f.talkLimitWritten old.talkLimit)
    afterFloor (cutFloor s.floor.list.length s)

end Sys2Proof.Machine
end

