-- ==== Sys2Proof/Machine/Claims.lean ====
section
/-! DEFINITION. The Claim Unit (chapter 2): the claim-change path, runs over channels, hands, presses, privacy. -/

namespace Sys2Proof.Machine

open Sys2Proof

/-! ### The claim-change path (R19 to R21) -/

/-- HAND_LOWER (R32). -/
def noteHandLower (c : Nat) (cause : HandCause) (s : State) : State :=
  raise (.handLower c (s.claims c) cause) s

/-- A raised hand is lowered with HAND_LOWER; a hand that is not raised is not changed (R29, R32). -/
def lowerHand (c : Nat) (cause : HandCause) (s : State) : State :=
  if (s.chan c).hand then noteHandLower c cause (s.modChan c (fun k => { k with hand := false })) else s

/-- The new claim set of a channel, with the muted-talk counter at 0 and the flag armed for a pod (R19). -/
def Channel.withClaims (k : Channel) (c : Nat) (new : ClaimSet) : Channel :=
  if c < 32 then { k with claims := new, talkCount := 0, armed := true } else { k with claims := new }

/-- The claim-change path (R19): nothing where the set does not change; else the new set, CLAIM_CHANGE unless the
owner's notice stands for it (`note` is none), then the floor (R20) or the hand (R21). -/
def changeClaims (c : Nat) (new : ClaimSet) (note : Option Origin) (s : State) : State :=
  let old := s.claims c
  if new = old then s
  else
    let s := s.modChan c (fun k => k.withClaims c new)
    let s := match note with
      | some o => raise (.claimChange c new (new.less old) (old.less new) o) s
      | none => s
    if old = ClaimSet.empty then
      if c < 32 then removeFromFloor c .muted s else s
    else if new = ClaimSet.empty then lowerHand c .cleared s
    else s

/-- One authority's claim placed or removed on a channel. -/
def putClaim (a : Authority) (b : Bool) (note : Option Origin) (c : Nat) (s : State) : State :=
  changeClaims c ((s.claims c).put a b) note s

/-- The members of a group, in increasing channel number (R10). -/
def State.members (s : State) (g : Nat) : List Nat := channels.filter (fun c => (s.chan c).groups.getLsbD g)

/-- The channels named by selector and number (R23): 0 CHANNEL, 1 GROUP, 2 ALL. -/
def State.named (s : State) (sel num : Nat) : List Nat :=
  if sel = 0 then [num] else if sel = 1 then s.members num else channels

/-! ### The MUTE button (R31, R33) -/

/-- The hand is raised with HAND_RAISE (R31, R32). -/
def raiseHand (c : Nat) (s : State) : State :=
  raise (.handRaise c (s.claims c)) (s.modChan c (fun k => { k with hand := true }))

/-- A short MUTE press (R31). -/
def shortPress (c : Nat) (s : State) : State :=
  let k := s.claims c
  if k = ClaimSet.empty then putClaim .pod true (some .podButton) c s
  else if k.pod then putClaim .pod false (some .podButton) c s
  else if (s.chan c).hand then lowerHand c .withdrawn s
  else raiseHand c s

/-- The chair's long MUTE press (R33): a run over the other pod channels. -/
def chairPress (c : Nat) (s : State) : State :=
  runOver (putClaim .chair true (some .chairPress)) (pods.filter (fun d => d != c)) s

/-! ### Privacy (R35 to R39) -/

/-- Channel `c` is in the privacy group. -/
def State.inPrivacyGroup (s : State) (c : Nat) : Bool := (s.chan c).groups.getLsbD s.privacy.group

/-- The channels whose PRIVACY claim differs from what `want` says. -/
def State.privacyDiffers (s : State) (want : Nat → Bool) : List Nat :=
  channels.filter (fun c => (s.claims c).privacy != want c)

/-- PRIVACY claims made as `want` says, as a run without CLAIM_CHANGE (R35, R36, R37). -/
def movePrivacy (want : Nat → Bool) (s : State) : State :=
  runOver (fun c s => putClaim .privacy (want c) none c s) channels s

/-- The PRIVACY claims match the privacy group, with PRIVACY_ON before the run's notices (R36, R38). -/
def matchPrivacy (s : State) : State :=
  let want := s.inPrivacyGroup
  movePrivacy want
    (raise (.privacyOn s.privacy.state s.privacy.group (s.privacyDiffers want).length) s)

/-- Every PRIVACY claim is removed and the state becomes OFF, with PRIVACY_OFF before the run's notices (R37, R39). -/
def releasePrivacy (s : State) : State :=
  let want : Nat → Bool := fun _ => false
  let s := { s with privacy := { s.privacy with state := .off } }
  movePrivacy want (raise (.privacyOff .off s.privacy.group (s.privacyDiffers want).length) s)

/-- An active edge of the privacy line (R36). -/
def privacyActive (s : State) : State :=
  matchPrivacy { s with privacy := { s.privacy with level := true, state := .on } }

/-- An inactive edge of the privacy line (R37). -/
def privacyInactive (s : State) : State :=
  let s := { s with privacy := { s.privacy with level := false } }
  if s.privacy.autoRelease then releasePrivacy s
  else
    raise (.privacyOff .retained s.privacy.group 0) { s with privacy := { s.privacy with state := .retained } }

/-- A change of a channel's groups while the privacy line is active moves its PRIVACY claim (R11). -/
def regroup (c : Nat) (o : Origin) (s : State) : State :=
  if s.privacy.state = .on then putClaim .privacy (s.inPrivacyGroup c) (some o) c s else s

/-! ### ConferenceClear (R44) -/

/-- The channels whose claim sets ConferenceClear changes (R187). -/
def State.clearable (s : State) : List Nat :=
  channels.filter (fun c => decide (s.claims c ≠ (s.claims c).onlyPrivacy))

/-- Every claim but PRIVACY removed and every hand lowered, muted-talk detection afresh, without notices (R44). -/
def clearClaims (s : State) : State :=
  s.mapChans (fun c k =>
    if c < 32 then { k with claims := k.claims.onlyPrivacy, hand := false, talkCount := 0, armed := true }
    else { k with claims := k.claims.onlyPrivacy })

end Sys2Proof.Machine
end

