-- ==== Sys2Proof/Machine/Silence.lean ====
section
/-! DEFINITION. The Silence Controller (chapter 6): sources, states, settings, the ramp restart it hands over. -/

namespace Sys2Proof.Machine

open Sys2Proof

/-- SILENCE, with the state, sources and covered sets as they stand (R123). -/
def noteSilence (cause : SilenceCause) (s : State) : State :=
  let q := s.silence
  raise (.silence q.state q.alarm q.requestLatch q.howl q.covered cause q.alarmLevel) s

/-- The state with the Silence Controller changed. -/
def State.modSilence (s : State) (f : Silence → Silence) : State := { s with silence := f s.silence }

/-- The covered sets widened by a source of a scope (R119). -/
def Covered.widen (k : Covered) (sc : Scope) : Covered :=
  match sc, k with
  | .all, _ => .ab
  | .a, .none => .a
  | .a, k => k

/-- A source of the scope becomes effective (R119). -/
def Silence.sourceEffective (q : Silence) (sc : Scope) : Silence :=
  match q.state with
  | .quiet => { q with state := .active, covered := Covered.widen .none sc, chime := 0 }
  | _ => { q with state := .active, covered := q.covered.widen sc }

/-- An active edge of the Alarm line (R113). -/
def alarmActive (s : State) : State :=
  let s := s.modSilence (fun q => { q with alarmLevel := true })
  if s.silence.cfg.alarmEnable then
    noteSilence .alarmOn (s.modSilence (fun q => q.sourceEffective q.cfg.alarmScope))
  else s

/-- ALARM has left the source set (R120): with auto-restore and an empty source set an ACTIVE state becomes RESTORING. -/
def Silence.autoRestores (q : Silence) : Bool := q.cfg.autoRestore && q.state == .active && !q.latched

/-- An inactive edge of the Alarm line (R113, R120). -/
def alarmInactive (s : State) : State :=
  let s := s.modSilence (fun q => { q with alarmLevel := false })
  if s.silence.cfg.alarmEnable then
    if s.silence.autoRestores then noteSilence .autoRestore (s.modSilence (fun q => { q with state := .restoring }))
    else noteSilence .alarmOff s
  else s

/-- A zone's howl latch is set (R114). -/
def latchHowl (z : Nat) (s : State) : State :=
  noteSilence (.howl z) (s.modSilence (fun q =>
    { q.sourceEffective q.cfg.howlScope with
      howl := q.howl ||| BitVec.twoPow 8 z, howlCount := q.howlCount.set z 0 }))

/-- The request latch is set (R115). -/
def raiseSilence (p : Port) (s : State) : State :=
  if s.silence.requestLatch then s
  else
    noteSilence (.request p) (s.modSilence (fun q =>
      { q.sourceEffective q.cfg.requestScope with requestLatch := true }))

/-- SilenceRestore (R121): in ACTIVE every latch is cleared and the state becomes RESTORING. -/
def restoreSilence (p : Port) (s : State) : State :=
  if s.silence.state = .active then
    noteSilence (.restore p) (s.modSilence (fun q =>
      { q with state := .restoring, requestLatch := false, howl := 0, howlCount := Tab.tabulate 8 (fun _ => 0) }))
  else s

/-- A ramp restart (R98). -/
def restartRamps (s : State) : State := s.mapChans (fun _ k => { k with ramp := 0 })

/-- RESTORING ends at a block boundary (R122). -/
def endRestoring (s : State) : State :=
  noteSilence .quiet
    (restartRamps (s.modSilence (fun q => { q with state := .quiet, covered := .none, chime := 0 })))

/-! ### SilenceConfig (R125) -/

/-- The latches of disabled sources are cleared (R125). -/
def Silence.dropDisabled (q : Silence) : Silence :=
  let q := if q.cfg.howlEnable then q else { q with howl := 0, howlCount := Tab.tabulate 8 (fun _ => 0) }
  if q.cfg.requestEnable then q else { q with requestLatch := false }

/-- A source that is effective has had its scope written to ALL (R125). -/
def Silence.scopeWidened (q : Silence) (old : SilenceCfg) : Bool :=
  (q.alarm && q.cfg.alarmScope == .all && old.alarmScope == .a)
    || (q.howl != 0 && q.cfg.howlScope == .all && old.howlScope == .a)
    || (q.requestLatch && q.cfg.requestScope == .all && old.requestScope == .a)

/-- The settings are written and act on the state in progress (R125). The answer says which cause the event has:
ALARM_ON where ALARM joins, AUTO_RESTORE where disabling it ends the silence, else CONFIG. The latches of disabled
sources are cleared first, so that a source disabled with ALARM does not hold the silence and does not widen it
(log 22). -/
def Silence.configure (q : Silence) (new : SilenceCfg) : Silence × SilenceCause :=
  let old := q.cfg
  let wasAlarm := q.alarm
  let q := { q with cfg := new }.dropDisabled
  let q := if q.inForce && q.scopeWidened old then { q with covered := .ab } else q
  if q.alarm && !wasAlarm then (q.sourceEffective q.cfg.alarmScope, .alarmOn)
  else if wasAlarm && !q.alarm && q.autoRestores then ({ q with state := .restoring }, .autoRestore)
  else (q, .config)

/-- The source set or the covered sets or the state differ (R123, R125). -/
def Silence.differs (q r : Silence) : Bool :=
  q.state != r.state || q.alarm != r.alarm || q.requestLatch != r.requestLatch || q.howl != r.howl
    || q.covered != r.covered

/-- SilenceConfig acts (R125): one SILENCE where the source set or the covered sets change. -/
def writeSilenceCfg (new : SilenceCfg) (s : State) : State :=
  let r := s.silence.configure new
  let s' := { s with silence := r.1 }
  if s.silence.differs r.1 then noteSilence r.2 s' else s'

end Sys2Proof.Machine
end

