-- ==== Sys2Proof/Machine/Lines.lean ====
section
/-! DEFINITION. The Line Controllers (chapter 7): leaving ONLINE, joins, roll call, sleep and wake, the line states,
the frame that is formed. -/

namespace Sys2Proof.Machine

open Sys2Proof

/-- The positions of a line. -/
abbrev positions : List Nat := List.range 8
/-- The lines. -/
abbrev lineNumbers : List Nat := List.range 4

/-- A counter that would pass 65535 stays there (R143). -/
def bump (n : Nat) : Nat := if n < Config.counterTop then n + 1 else Config.counterTop

/-! ### Leaving ONLINE (R135) -/

/-- POD_LOST with the three counters (R149). -/
def notePodLost (c : Nat) (cause : LostCause) (s : State) : State :=
  let q := s.position c
  raise (.podLost (lineOf c) (posOf c) cause q.checkFails q.missed q.rejoins) s

/-- A position leaves ONLINE for state `st` (R135): hold and levels discarded, its entries removed, POD_LOST, the
floor (R67, R91), the hand (R32). -/
def leaveOnline (c : Nat) (st : PosState) (cause : LostCause) (s : State) : State :=
  let s := s.modPos c (fun q => { q with state := st, levels := none, hold := none })
  let s := s.modLine (lineOf c) (fun ln => { ln with table := dropPosition ln.table (posOf c) })
  lowerHand c .left (removeFromFloor c .left (notePodLost c cause s))

/-- A JOINING position takes another state: its SLEEP entry leaves the table (R138). -/
def leaveJoining (c : Nat) (f : Position → Position) (s : State) : State :=
  (s.modPos c f).modLine (lineOf c) (fun ln => { ln with table := dropKind ln.table (posOf c) 1 })

/-- An ASLEEP position takes another state: its WAKE entry leaves the table (R138). -/
def leaveAsleep (c : Nat) (f : Position → Position) (s : State) : State :=
  (s.modPos c f).modLine (lineOf c) (fun ln => { ln with table := dropKind ln.table (posOf c) 2 })

/-! ### Roll call (R133) -/

/-- A position is in the called set: ABSENT, LOST, or ASLEEP with its wake timer running (R133). -/
def Position.called (q : Position) : Bool :=
  match q.state with
  | .absent => true
  | .lost => true
  | .asleep => q.wakeTimer.isSome
  | _ => false

/-- The called set of line `l` (R133). -/
def State.calledSet (s : State) (l : Nat) : BitVec 8 :=
  positions.foldl (fun m p => if (s.position (podOf l p)).called then m ||| BitVec.twoPow 8 p else m) 0

/-- A ROLLCALL entry is placed with the called set as it stands, and the roll-call count is 0 (R133). -/
def placeRollCall (l : Nat) (s : State) : State :=
  (s.place l .broadcast (.rollCall (s.calledSet l))).modLine l (fun ln => { ln with rollCount := 0 })

/-- The roll-call count has reached 64, or the line becomes RUNNING (R133): a roll call where anyone is called. -/
def rollCallNow (l : Nat) (s : State) : State :=
  let s := s.modLine l (fun ln => { ln with rollCount := 0 })
  if s.calledSet l = 0 then s else placeRollCall l s

/-- A called position answers with its identity (R133). -/
def answerRollCall (c : Nat) (rec : Identity) (s : State) : State :=
  leaveAsleep c (fun q =>
    { q with
      state := .joining
      fromLost := q.state == .lost
      newUnit := match q.identity with
        | some old => old.serial != rec.serial
        | none => true
      identity := some rec
      wakeTimer := none
      good := 0
      miss := 0 }) s

/-! ### Joining (R134) -/

/-- A JOINING position becomes ONLINE (R134, R157). -/
def joinPod (c : Nat) (s : State) : State :=
  let s := leaveJoining c (fun q =>
    { q with state := .online, miss := 0, rejoins := if q.fromLost then bump q.rejoins else q.rejoins }) s
  let q := s.position c
  raise (.podJoin (lineOf c) (posOf c) q.identity q.newUnit q.rejoins) (forgetRing c s)

/-- A join fails (R134): back to the origin. -/
def failJoin (c : Nat) (s : State) : State :=
  leaveJoining c (fun q => { q with state := if q.fromLost then .lost else .absent }) s

/-! ### Sleep and wake of one pod (R140, R141) -/

/-- An acknowledged SLEEP (R139, R140): the position is ASLEEP. Its SLEEP entry goes with the state it leaves (R138). -/
def sleepPod (c : Nat) (s : State) : State :=
  if (s.position c).state = .online then leaveOnline c .asleep .sleep s
  else leaveJoining c (fun q => { q with state := .asleep }) s

/-- The 12th consecutive WAKE frame has ended (R141). -/
def finishWake (c : Nat) (s : State) : State :=
  let s := s.modLine (lineOf c) (fun ln => { ln with table := dropKind ln.table (posOf c) 2 })
  placeRollCall (lineOf c) (s.modPos c (fun q => { q with wakeTimer := some Config.wakeTimerStart }))

/-- The wake timer has reached 0 (R141). -/
def failWake (c : Nat) (s : State) : State :=
  raise (.wakeFailed (lineOf c) (posOf c))
    (leaveAsleep c (fun q => { q with state := .absent, wakeTimer := none }) s)

/-! ### Line states (R128, R129, R145 to R148) -/

/-- A line that takes a state which sends a fixed number of frames (R128). -/
def Line.enter (ln : Line) (st : LineState) (frames : Nat) : Line := { ln with state := st, remaining := frames }

/-- A line goes OFF: its frame in flight is abandoned, its table emptied, its counts cleared (R145, R146). -/
def Line.off (ln : Line) : Line :=
  { ln with
    state := .off, remaining := 0, sent := 0, mismatch := 0, rollCount := 0, table := [], frame := none
    toForm := false, early := false }

/-- LINE_TEST (R146, R149). -/
def noteLineTest (l : Nat) (ending : TestEnding) (s : State) : State :=
  raise (.lineTest l (s.line l).sent (s.line l).mismatch ending) s

/-- A test ends (R146). -/
def endTest (l : Nat) (ending : TestEnding) (s : State) : State :=
  (noteLineTest l ending s).modLine l Line.off

/-- The 16th sync frame has ended (R129, R133). -/
def endStarting (l : Nat) (s : State) : State :=
  rollCallNow l (s.modLine l (fun ln => ln.enter .running 0))

/-- The 12th WAKE frame has ended (R148). -/
def endWaking (l : Nat) (s : State) : State :=
  let s := runOver (fun p s =>
      if (s.position (podOf l p)).state = .asleep then
        leaveAsleep (podOf l p) (fun q => { q with state := .absent, wakeTimer := none }) s
      else s) positions s
  s.modLine l (fun ln => ln.enter .starting Config.syncFrames)

/-- What standby leaves of the counts, levels and timers of a position: none (R150). -/
def Position.rested (q : Position) : Position :=
  { q with good := 0, miss := 0, levels := none, hold := none, wakeTimer := none }

/-- What standby leaves of a position of a line that sleeps (R147, R150). -/
def Position.slept (q : Position) : Position := { q.rested with state := .asleep }

/-- The positions of a line that stays OFF through standby: their states are kept (R150). -/
def restLine (l : Nat) (s : State) : State := runOver (fun p s => s.modPos (podOf l p) Position.rested) positions s

/-- The frame in flight at standby entry has ended (R147): every position ASLEEP, ONLINE positions leaving without
notices, and the SLEEP broadcast in an empty table. -/
def sleepLine (l : Nat) (s : State) : State :=
  let s := quietly (runOver (fun p s =>
      let s := if (s.position (podOf l p)).state = .online then leaveOnline (podOf l p) .asleep .sleep s else s
      s.modPos (podOf l p) Position.slept) positions) s
  s.modLine l (fun ln => { ln with rollCount := 0, table := [⟨.broadcast, .sleep, false⟩] })

/-- The SLEEP broadcast frame has ended (R147, R148). -/
def endSleeping (l : Nat) (s : State) : State :=
  s.modLine l (fun ln =>
    match s.sys.power with
    | .standby => { ln.enter .standby 0 with frame := none, toForm := false }
    | .running => ln.enter .waking Config.wakeFrames)

/-- LineStop (R145). A line in TESTING ends its test (R146). -/
def stopLine (l : Nat) (s : State) : State :=
  match (s.line l).state with
  | .off => s
  | .testing => endTest l .stopped s
  | _ =>
    let s := s.modLine l Line.off
    runOver (fun p s =>
      let c := podOf l p
      let s := if (s.position c).state = .online then leaveOnline c .absent .stopped s else s
      s.modPos c (fun q => { q with state := .absent, hold := none, wakeTimer := none })) positions s

/-- Standby entry of one line (R147, R150). -/
def standbyLine (l : Nat) (s : State) : State :=
  match (s.line l).state with
  | .off => restLine l s
  | .testing => restLine l (endTest l .stopped s)
  | .starting => s.modLine l (fun ln => ln.enter .sleeping 0)
  | .running => s.modLine l (fun ln => ln.enter .sleeping 0)
  | .waking => s.modLine l (fun ln => ln.enter .sleeping 0)
  | _ => s

/-- PowerWake at one line (R148). -/
def wakeLine (l : Nat) (s : State) : State :=
  s.modLine l (fun ln => if ln.state = .standby then ln.enter .waking Config.wakeFrames else ln)

/-! ### Frames (R128, R130, R139) -/

/-- The audio slots of a running frame (R109, R130): an ONLINE position gets the feed of its channel's zone, any
other silence. -/
def State.audioSlots (s : State) (l : Nat) : List (List Int) :=
  positions.map (fun p =>
    let c := podOf l p
    if s.present c then s.mix.outputs.get (9 + (s.chan c).maskZone) else [])

/-- The running frame of a line and the table after it (R130, R139). -/
def Line.runningFrame (ln : Line) (audio : List (List Int)) : Line :=
  match choose ln.table with
  | none => { ln with frame := some (.running none audio) }
  | some e =>
    let sent : Entry := { e with sent := true }
    { ln with frame := some (.running (some sent) audio), table := tableAfter ln.table e }

/-- The WAKE frame of a line in WAKING (R148), with what remains to be sent: WAKE to all, and audio slots of zero. -/
def wakeFrame (remaining : Nat) : LineFrame := .wake ⟨.broadcast, .wake remaining, true⟩ []

/-- The frame of a line formed by its state (R128): the remaining count falls with each frame of a state that sends a
fixed number. A test frame has the number given (log 35). -/
def Line.formed (ln : Line) (audio : List (List Int)) (number : Nat) : Line :=
  let ln := { ln with toForm := false, early := false }
  match ln.state with
  | .starting => { ln with frame := some .sync, remaining := ln.remaining - 1 }
  | .waking => { ln with frame := some (wakeFrame ln.remaining), remaining := ln.remaining - 1 }
  | .testing => { ln with frame := some (.test number), remaining := ln.remaining - 1 }
  | .running => ln.runningFrame audio
  | .sleeping => ln.runningFrame audio
  | _ => { ln with frame := none }

/-- The frame of line `l` is formed. -/
def formFrame (l : Nat) (s : State) : State := s.modLine l (fun ln => ln.formed (s.audioSlots l) s.sys.free)

end Sys2Proof.Machine
end

