-- ==== Sys2Proof/Machine/Meters.lean ====
section
/-! DEFINITION. The Meter Unit's captures and level watches, and the ends of a tone (chapter 9). -/

namespace Sys2Proof.Machine

open Sys2Proof

/-- A point at a capture (R160). -/
def Meter.capture (m : Meter) : Meter :=
  { running := -96, captured := m.running, fresh := true, overrun := m.overrun || m.fresh }

/-- A captured peak meets the condition of an entry (R163). -/
def Watch.meets (w : Watch) (peak : Int) : Bool :=
  match w.dir with
  | .above => decide (w.threshold ≤ peak)
  | .below => decide (peak < w.threshold)

/-- An armed entry at a capture (R163). -/
def Watch.judge (w : Watch) (peak : Int) : Watch :=
  if w.armed then { w with matched := if w.meets peak then w.matched + 1 else 0 } else w

/-- The entry has reached its count (R163). -/
def Watch.fires (w : Watch) : Bool := w.armed && decide (w.count ≤ w.matched)

/-- The entries of the Meter Unit. -/
abbrev watchNumbers : List Nat := List.range 8

/-- A capture (R160, R163): the points, the stamp, the match counts; the entries that reach their counts become
due, in increasing number. -/
def captureNow (s : State) : State :=
  let points := s.meters.points.mapIdx (fun _ m => m.capture)
  let watches := s.meters.watches.mapIdx (fun _ w => w.judge (points.get w.point).captured)
  let fired := watchNumbers.filter (fun e => (watches.get e).fires)
  { s with
    meters := { s.meters with
      points := points, counter := 0, stamp := s.sys.blocks.setWidth 16, watches := watches } }.addDue
    (fired.map Event.levelWatch)

/-- An entry raises LEVEL_WATCH and disarms (R163). -/
def fireWatch (e : Nat) (s : State) : State :=
  let w := s.meters.watches.get e
  let peak := (s.meters.points.get w.point).captured
  raise (.levelWatch e w.point peak w.threshold w.dir w.count)
    { s with meters := { s.meters with watches := s.meters.watches.set e { w with armed := false, matched := 0 } } }

/-- A tone ends (R167). -/
def endTone (ending : ToneEnding) (s : State) : State :=
  if s.tone.running then
    raise (.toneDone s.tone.target s.tone.freq ending s.tone.generated.toNat)
      { s with tone := { s.tone with running := false, remaining := none } }
  else s

end Sys2Proof.Machine
end

