-- ==== Sys2Proof/Machine/Scenes.lean ====
section
/-! DEFINITION. The Scene Unit (chapter 10): records, the steps of a load, touched marks, the ends of a load. -/

namespace Sys2Proof.Machine

open Sys2Proof

/-- The record holds a part (R170). -/
def SceneRecord.has (r : SceneRecord) : ScenePart → Bool
  | .channels => r.channels.isSome
  | .crosspoints => r.crosspoints.isSome
  | .floor => r.floor.isSome
  | .claims => r.claims.isSome

/-- The items of a part (R170). -/
def ScenePart.items : ScenePart → Nat
  | .channels => 42
  | .crosspoints => 17
  | .floor => 1
  | .claims => 1

/-- The place of a part in the order of a load (R172). -/
def ScenePart.order : ScenePart → Nat
  | .channels => 0
  | .crosspoints => 1
  | .floor => 2
  | .claims => 3

/-- The parts in the order a load takes them (R172). -/
def sceneParts : List ScenePart := [.channels, .crosspoints, .floor, .claims]

/-- The parts a record holds, in the order a load takes them. -/
def SceneRecord.parts (r : SceneRecord) : List ScenePart := sceneParts.filter r.has

/-- The steps of a load (R172). -/
def SceneRecord.steps (r : SceneRecord) : Nat := (r.parts.map ScenePart.items).foldl (· + ·) 0

/-- The part after `q` that the record holds (R173). -/
def SceneRecord.nextPart (r : SceneRecord) (q : ScenePart) : Option ScenePart :=
  r.parts.find? (fun p => decide (q.order < p.order))

/-- The record of the present state, of the parts named (R171). -/
def State.sceneRecord (s : State) (parts : BitVec 4) : SceneRecord where
  channels := if parts.getLsbD 0 then
      some (s.chans.mapIdx (fun _ k => ⟨k.trim, k.zone, k.groups⟩)) else none
  crosspoints := if parts.getLsbD 1 then some ⟨s.mix.xp, s.mix.bus⟩ else none
  floor := if parts.getLsbD 2 then some ⟨s.floor.mode, s.floor.cfg, s.floor.chair⟩ else none
  claims := if parts.getLsbD 3 then some (s.chans.mapIdx (fun _ k => k.claims.room)) else none

/-- Every touched mark set to no (R172, R176). -/
def clearTouched (s : State) : State :=
  { s.mapChans (fun _ k => { k with touched := false }) with
    mix := { s.mix with rowTouched := Tab.tabulate 17 (fun _ => false) } }

/-- A load ends (R176): its context and marks are discarded, SCENE_DONE is raised. -/
def endLoad (cause : SceneCause) (s : State) : State :=
  match s.scenes.load with
  | none => s
  | some ld =>
    raise (.sceneDone ld.slot cause ld.applied ld.passed)
      (clearTouched { s with scenes := { s.scenes with load := none } })

/-- The load in progress, if its record holds the part and has not yet reached the item (R174). -/
def State.notReached (s : State) (part : ScenePart) (item : Nat) : Bool :=
  match s.scenes.load with
  | none => false
  | some ld =>
    match s.scenes.slots.get ld.slot with
    | none => false
    | some r => r.has part
        && (decide (ld.phase.order < part.order) || (ld.phase == part && decide (ld.index ≤ item)))

/-- A request that writes a channel marks it where the load has not reached it (R174). -/
def touchChannel (c : Nat) (s : State) : State :=
  if s.notReached .channels c then s.modChan c (fun k => { k with touched := true }) else s

/-- A request that writes a row marks it where the load has not reached it (R174). -/
def touchRow (o : Nat) (s : State) : State :=
  if s.notReached .crosspoints o then
    { s with mix := { s.mix with rowTouched := s.mix.rowTouched.set o true } }
  else s

/-- The setup of a channel written by the ChannelWrite path (R14, R173): the zone for pods only, and the PRIVACY claim
that a change of groups moves (R11). -/
def writeSetup (c : Nat) (w : ChannelSetup) (o : Origin) (s : State) : State :=
  let old := (s.chan c).groups
  let s := s.modChan c (fun k =>
    { k with trim := w.trim, zone := if c < 32 then w.zone else k.zone, groups := w.groups })
  if old = w.groups then s else regroup c o s

/-- A row of the Crosspoint Table and its bus gain written (R103). -/
def writeRow (o : Nat) (part : XpPart) (s : State) : State :=
  { s with mix := { s.mix with
      xp := s.mix.xp.mapIdx (fun i g => if i / 42 = o then part.xp.get i else g)
      bus := s.mix.bus.set o (part.bus.get o) } }

/-- The FLOOR item (R175). -/
def applyFloorItem (part : FloorPart) (s : State) : State :=
  changeChair part.chair (writeFloorCfg part.cfg (changeMode part.mode s))

/-- The CLAIMS item (R175). -/
def applyClaimsItem (set : Tab 42 Bool) (s : State) : State :=
  runOver (fun c s => putClaim .room (set.get c) (some .scene) c s) channels s

/-- The item is passed over (R173, R174). -/
def State.passesOver (s : State) (ld : LoadContext) : Bool :=
  match ld.phase with
  | .channels => (s.chan ld.index).touched
  | .crosspoints => s.mix.rowTouched.get ld.index
  | _ => false

/-- The item of a step is applied (R173). -/
def applyItem (r : SceneRecord) (ld : LoadContext) (s : State) : State :=
  match ld.phase with
  | .channels =>
    match r.channels with
    | some t => writeSetup ld.index (t.get ld.index) .scene s
    | none => s
  | .crosspoints =>
    match r.crosspoints with
    | some part => writeRow ld.index part s
    | none => s
  | .floor =>
    match r.floor with
    | some part => applyFloorItem part s
    | none => s
  | .claims =>
    match r.claims with
    | some set => applyClaimsItem set s
    | none => s

/-- The load context after a step (R173), or none after the last item of the last part. -/
def LoadContext.advance (ld : LoadContext) (r : SceneRecord) (passed : Bool) : LoadContext × Bool :=
  let ld := if passed then { ld with passed := ld.passed + 1 } else { ld with applied := ld.applied + 1 }
  if ld.index + 1 < ld.phase.items then ({ ld with index := ld.index + 1 }, false)
  else
    match r.nextPart ld.phase with
    | some p => ({ ld with phase := p, index := 0 }, false)
    | none => (ld, true)

/-- One step of a load (R173). -/
def stepLoad (s : State) : State :=
  match s.scenes.load with
  | none => s
  | some ld =>
    match s.scenes.slots.get ld.slot with
    | none => s
    | some r =>
      let passed := s.passesOver ld
      let s := if passed then s else applyItem r ld s
      let next := ld.advance r passed
      let s := { s with scenes := { s.scenes with load := some next.1 } }
      if next.2 then endLoad .completed s else s

/-- A load starts (R172). -/
def startLoad (slot : Nat) (r : SceneRecord) (s : State) : State :=
  let s := clearTouched (endLoad .secondLoad s)
  { s with scenes := { s.scenes with load := some ⟨slot, r.parts.headD .channels, 0, 0, 0⟩ } }

end Sys2Proof.Machine
end

