-- ==== Sys2Proof/Machine/Power.lean ====
section
/-! DEFINITION. Power changes, ConferenceClear and resets (11.4, 11.5). -/

namespace Sys2Proof.Machine

open Sys2Proof

/-- PowerStandby taken in RUNNING (R184), in the order of its steps; the lines in increasing number (log 42). -/
def enterStandby (autowake : Bool) (s : State) : State :=
  let s := { s with sys := { s.sys with autowake := autowake, power := .standby } }
  let s := s.mapChans (fun _ k => { k with ramp := 0, atten := 0 })
  let s := emptyFloor s
  let s := raise (.power .standby .request autowake) s
  let s := endLoad .standby s
  let s := endTone .standby s
  runOver standbyLine lineNumbers s

/-- PowerStandby (R184): in STANDBY it writes AUTOWAKE and nothing else. -/
def standby (autowake : Bool) (s : State) : State :=
  match s.sys.power with
  | .standby => { s with sys := { s.sys with autowake := autowake } }
  | .running => enterStandby autowake s

/-- PowerWake (R185): in RUNNING it changes nothing. -/
def wake (cause : PowerCause) (s : State) : State :=
  match s.sys.power with
  | .running => s
  | .standby =>
    let s := { s with sys := { s.sys with power := .running } }
    let s := runOver wakeLine lineNumbers s
    raise (.power .running cause s.sys.autowake) s

/-- ConferenceClear (R187), in the order of its steps. -/
def clearConference (s : State) : State :=
  let f := s.floor
  let changed := s.clearable.length
  let s := clearClaims (emptyFloor s)
  let s := raise (.conferenceClear changed f.list.length f.wait.length f.leaving.length) s
  endTone .cleared (endLoad .cleared s)

/-- A reset begins (R186): outputs and lines idle, nothing is due. -/
def beginReset (cause : ResetCause) (s : State) : State :=
  { s with
    sys := { s.sys with inReset := some cause }
    mix := { s.mix with outputs := Tab.tabulate 17 (fun _ => []) }
    lines := s.lines.mapIdx (fun _ ln => { ln with frame := none, toForm := false, early := false })
    due := [] }

end Sys2Proof.Machine
end

