-- ==== Sys2Proof/Machine/Wire.lean ====
section
/-! DEFINITION. The wire formats (R189, R190): the CRC-16, the codes of fields, notice records, the bodies of
responses, response frames, pod-line frames and slots. Where R190 leaves a layout open, log 14 and 15 say how it is
read. -/

namespace Sys2Proof.Machine

open Sys2Proof

/-! ### The check (R189) -/

/-- One bit step of the CRC-16. -/
def crcBit (r : BitVec 16) : BitVec 16 :=
  if r.getLsbD 15 then (r <<< 1) ^^^ 0x1021#16 else r <<< 1

/-- `n` bit steps. -/
def crcBits : Nat → BitVec 16 → BitVec 16
  | 0, r => r
  | n + 1, r => crcBits n (crcBit r)

/-- One byte, its most significant bit first. -/
def crcByte (r : BitVec 16) (b : Byte) : BitVec 16 := crcBits 8 (r ^^^ (b.setWidth 16 <<< 8))

/-- The CRC-16 of some bytes, from all ones. -/
def crc16 (bs : List Byte) : BitVec 16 := bs.foldl crcByte 0xFFFF#16

/-! ### Codes of fields (R190) -/

/-- A number without sign in `n` bytes, the most significant first. -/
def uN : Nat → Nat → List Byte
  | 0, _ => []
  | n + 1, v => BitVec.ofNat 8 (v / 256 ^ n) :: uN n v

/-- One byte. -/
def u8 (v : Nat) : List Byte := uN 1 v
/-- Two bytes. -/
def u16 (v : Nat) : List Byte := uN 2 v
/-- Four bytes. -/
def u32 (v : Nat) : List Byte := uN 4 v
/-- A signed byte. -/
def s8 (v : Int) : List Byte := [BitVec.ofInt 8 v]
/-- Yes or no. -/
def flag (b : Bool) : List Byte := u8 (if b then 1 else 0)
/-- A gain or OFF. -/
def gain (g : Gain) : List Byte := s8 (g.getD (-128))
/-- A number in `n` bytes, or all ones for none. -/
def orOnes (n : Nat) (v : Option Nat) : List Byte := uN n (v.getD (256 ^ n - 1))
/-- A run or list, preceded by its number of items. -/
def listed {α : Type} (f : α → List Byte) (xs : List α) : List Byte := u8 xs.length ++ xs.flatMap f

/-- A claim set as a bit field (R18). -/
def ClaimSet.bits (k : ClaimSet) : Nat :=
  (if k.pod then 1 else 0) + (if k.chair then 2 else 0) + (if k.room then 4 else 0)
    + (if k.far then 8 else 0) + (if k.privacy then 16 else 0)

/-- Gate states in the order of section 1.1. -/
def Gate.code : Gate → Nat
  | .closed => 0
  | .attack => 1
  | .waiting => 2
  | .pending => 3
  | .opened => 4
  | .held => 5
  | .ungated => 6

/-- Floor List states in the order of R47. -/
def EntryState.code : EntryState → Nat
  | .pending => 0
  | .opened => 1
  | .held => 2

/-- Origins in the order of R19. -/
def Origin.code : Origin → Nat
  | .podButton => 0
  | .chairPress => 1
  | .roomPort => 2
  | .codecPort => 3
  | .privacyLine => 4
  | .scene => 5

/-- Floor modes in the order of R46. -/
def FloorMode.code : FloorMode → Nat
  | .voice => 0
  | .queue => 1

/-- Causes of FLOOR_CHANGE in the order of R68, continued by R92. -/
def FloorCause.code : FloorCause → Nat
  | .level => 0
  | .evicted => 1
  | .guard => 2
  | .holdExpired => 3
  | .admitted => 4
  | .muted => 5
  | .left => 6
  | .config => 7
  | .request => 8
  | .yield => 9
  | .withdrawn => 10
  | .granted => 11
  | .revoked => 12
  | .override => 13
  | .latched => 14
  | .unlatched => 15

/-- A port as a named value: Room, Codec (log 14). -/
def portCode : Port → Nat
  | .room => 0
  | .codec => 1

/-- Causes of HAND_LOWER in the order of R32, with the port of REQUEST, else all ones (log 14). -/
def HandCause.bytes : HandCause → List Byte
  | .cleared => u8 0 ++ u8 255
  | .request p => u8 1 ++ u8 (portCode p)
  | .withdrawn => u8 2 ++ u8 255
  | .left => u8 3 ++ u8 255

/-- Causes of WAIT_DROPPED in the order of R68, continued by R92 and R78, with the port (log 14). -/
def DropCause.bytes : DropCause → List Byte
  | .timeout => u8 0 ++ u8 255
  | .quiet => u8 1 ++ u8 255
  | .request p => u8 2 ++ u8 (portCode p)

/-- Privacy states in the order of R35. -/
def PrivacyState.code : PrivacyState → Nat
  | .off => 0
  | .on => 1
  | .retained => 2

/-- Silence states in the order of R112. -/
def SilenceState.code : SilenceState → Nat
  | .quiet => 0
  | .active => 1
  | .restoring => 2

/-- Covered sets as a bit field: A, B (R112). -/
def Covered.bits : Covered → Nat
  | .none => 0
  | .a => 1
  | .ab => 3

/-- A level input: active, inactive, in the order of R112. -/
def levelCode (active : Bool) : Nat := if active then 0 else 1

/-- Scopes in the order of R116. -/
def Scope.code : Scope → Nat
  | .all => 0
  | .a => 1

/-- Contents in the order of R116. -/
def Content.code : Content → Nat
  | .mute => 0
  | .program => 1
  | .alert => 2

/-- Causes of SILENCE in the order of R123, with the zone or port of the cause, else all ones (log 14). -/
def SilenceCause.bytes : SilenceCause → List Byte
  | .alarmOn => u8 0 ++ u8 255
  | .alarmOff => u8 1 ++ u8 255
  | .howl z => u8 2 ++ u8 z
  | .request p => u8 3 ++ u8 (portCode p)
  | .restore p => u8 4 ++ u8 (portCode p)
  | .autoRestore => u8 5 ++ u8 255
  | .quiet => u8 6 ++ u8 255
  | .config => u8 7 ++ u8 255

/-- Line states in the order of R128. -/
def LineState.code : LineState → Nat
  | .off => 0
  | .starting => 1
  | .running => 2
  | .sleeping => 3
  | .standby => 4
  | .waking => 5
  | .testing => 6

/-- Position states in the order of R132. -/
def PosState.code : PosState → Nat
  | .absent => 0
  | .joining => 1
  | .online => 2
  | .lost => 3
  | .asleep => 4

/-- Causes of POD_LOST in the order of R149. -/
def LostCause.code : LostCause → Nat
  | .missed => 0
  | .sleep => 1
  | .stopped => 2

/-- Endings of a line test in the order of R146. -/
def TestEnding.code : TestEnding → Nat
  | .complete => 0
  | .stopped => 1

/-- Endings of a tone in the order of R167. -/
def ToneEnding.code : ToneEnding → Nat
  | .count => 0
  | .stopped => 1
  | .cleared => 2
  | .standby => 3

/-- Causes of SCENE_DONE in the order of R176's table. -/
def SceneCause.code : SceneCause → Nat
  | .completed => 0
  | .sceneAbort => 1
  | .secondLoad => 2
  | .cleared => 3
  | .standby => 4

/-- Power states in the order of 11.4. -/
def Power.code : Power → Nat
  | .running => 0
  | .standby => 1

/-- Reset causes in the order of R186. -/
def ResetCause.code : ResetCause → Nat
  | .power => 0
  | .pin => 1

/-- Causes of POWER in the order of R184 and R185, with the line of a wake pulse, else all ones (log 14). -/
def PowerCause.bytes : PowerCause → List Byte
  | .request => u8 0 ++ u8 255
  | .wakePulse l => u8 1 ++ u8 l

/-- Directions in the order of R163. -/
def Direction.code : Direction → Nat
  | .above => 0
  | .below => 1

/-- A tone target as kind and number (R166). -/
def ToneTarget.bytes : ToneTarget → List Byte
  | .channel c => u8 0 ++ u8 c
  | .output o => u8 1 ++ u8 o

/-- Ring colours (R189). -/
def Colour.code : Colour → Nat
  | .off => 0
  | .red => 1
  | .green => 2
  | .amber => 3
  | .white => 4

/-- Ring functions (R189). -/
def RingFn.code : RingFn → Nat
  | .steady => 0
  | .slow => 1
  | .fast => 2
  | .sweep => 3

/-- Results (R189). -/
def Result.code : Result → Nat
  | .ok => 0
  | .denied => 1
  | .range => 2
  | .state => 3
  | .self => 4
  | .full => 5
  | .held => 6
  | .unknown => 7
  | .malformed => 8

/-- An identity record (R131). -/
def identityBytes (r : Identity) : List Byte :=
  u16 r.model ++ u8 r.major ++ u8 r.minor ++ u32 r.serial ++ flag r.talkButton

/-- An identity record or a mark that it is absent (R144; log 15). -/
def identityField : Option Identity → List Byte
  | some r => u8 1 ++ identityBytes r
  | none => u8 0 ++ List.replicate 9 0

/-- The identity record of POD_JOIN (R149): no optional field, so without a mark. A position that joins has one; none is
all ones in its width (R190). -/
def joinedBytes : Option Identity → List Byte
  | some r => identityBytes r
  | none => List.replicate 9 255

/-! ### Notice records (R189, R190; log 14) -/

/-- The object of a notice: its type and number. -/
def NoticeBody.object : NoticeBody → Nat × Nat
  | .claimChange c .. => (1, c)
  | .handRaise c .. => (1, c)
  | .handLower c .. => (1, c)
  | .mutedTalk c .. => (1, c)
  | .floorChange c .. => (1, c)
  | .floorRefused c .. => (1, c)
  | .waitDropped c .. => (1, c)
  | .waitFull c .. => (1, c)
  | .talkWarn c .. => (1, c)
  | .talkEnd c .. => (1, c)
  | .podJoin l p .. => (2, 8 * l + p)
  | .podLost l p .. => (2, 8 * l + p)
  | .wakeFailed l p => (2, 8 * l + p)
  | .wakeRequest l (some p) => (2, 8 * l + p)
  | .wakeRequest l none => (5, l)
  | .lineTest l .. => (5, l)
  | .sceneDone slot .. => (3, slot)
  | .silence _ _ _ _ _ (.howl z) _ => (4, z)
  | _ => (0, 0)

/-- The fields of a notice after byte 5. A channel, line, position or slot that its object carries in bytes 4 and 5 is
not repeated (log 14). -/
def NoticeBody.fields : NoticeBody → List Byte
  | .reset cause => u8 cause.code
  | .claimChange _ after added removed o => u8 after.bits ++ u8 added.bits ++ u8 removed.bits ++ u8 o.code
  | .handRaise _ k => u8 k.bits
  | .handLower _ k cause => u8 k.bits ++ cause.bytes
  | .privacyOn st g n => u8 st.code ++ u8 g ++ u8 n
  | .privacyOff st g n => u8 st.code ++ u8 g ++ u8 n
  | .mutedTalk _ peak => s8 peak
  | .floorChange _ b a cause nf nw nl n => u8 b.code ++ u8 a.code ++ u8 cause.code ++ u8 nf ++ u8 nw ++ u8 nl ++ u8 n
  | .floorRefused _ nf nw => u8 nf ++ u8 nw
  | .waitDropped _ cause t nw => cause.bytes ++ u16 t ++ u8 nw
  | .waitFull _ nw => u8 nw
  | .talkWarn _ secs lim => u16 secs ++ u16 lim
  | .talkEnd _ secs nf nw nl n => u16 secs ++ u8 nf ++ u8 nw ++ u8 nl ++ u8 n
  | .modeChange o m nf nw nl => u8 o.code ++ u8 m.code ++ u8 nf ++ u8 nw ++ u8 nl
  | .chairChange o n => orOnes 1 o ++ orOnes 1 n
  | .silence st al rq z k cause lv =>
      u8 st.code ++ flag al ++ flag rq ++ u8 z.toNat ++ u8 k.bits ++ cause.bytes ++ u8 (levelCode lv)
  | .podJoin l p rec new rj => u8 (8 * l + p) ++ joinedBytes rec ++ flag new ++ u16 rj
  | .podLost l p cause cf ms rj => u8 (8 * l + p) ++ u8 cause.code ++ u16 cf ++ u16 ms ++ u16 rj
  | .wakeFailed _ _ => []
  | .wakeRequest _ _ => []
  | .lineTest _ sent mis e => u16 sent ++ u16 mis ++ u8 e.code
  | .levelWatch e pt pk th d n => u8 e ++ u8 pt ++ s8 pk ++ s8 th ++ u8 d.code ++ u16 n
  | .toneDone t f e g => t.bytes ++ u16 f ++ u8 e.code ++ u32 g
  | .sceneDone _ cause ap ps => u8 cause.code ++ u8 ap ++ u8 ps
  | .conferenceClear n nf nw nl => u8 n ++ u8 nf ++ u8 nw ++ u8 nl
  | .power st cause aw => u8 st.code ++ cause.bytes ++ flag aw

/-- A notice record (R189). -/
def Notice.bytes (n : Notice) : List Byte :=
  u8 n.body.kind ++ u8 n.body.fields.length ++ u16 n.stamp.toNat ++ u8 n.body.object.1 ++ u8 n.body.object.2
    ++ n.body.fields

/-! ### Bodies of OK responses (R190; log 15) -/

/-- The record of a channel (R13). -/
def State.channelRecord (s : State) (c : Nat) : List Byte :=
  let k := s.chan c
  let pod := decide (c < 32)
  u8 c ++ u8 (if c < 32 then 0 else if c < 40 then 1 else 2) ++ flag (s.present c) ++ s8 k.trim
    ++ orOnes 1 (if pod then some k.zone else none) ++ u8 k.groups.toNat ++ flag (pod && s.floor.isChair c)
    ++ s8 k.peak ++ s8 (if pod then k.noise else -1) ++ u8 k.claims.bits ++ flag (pod && k.hand)
    ++ u8 (s.gate c).code ++ u8 k.ramp

/-- The hold timer of an entry: blocks remaining, or stopped (R47). -/
def HoldTimer.bytes : HoldTimer → List Byte
  | .running n => u16 n
  | _ => u16 65535

/-- A Floor List entry in Status (R181). -/
def FloorEntry.bytes (e : FloorEntry) : List Byte :=
  u8 e.ch ++ u8 e.st.code ++ u32 e.stamp.toNat ++ e.hold.bytes
    ++ orOnes 2 (e.talk.map (fun t => t.secs)) ++ flag e.warned

/-- A Wait List entry in Status (R181); in QUEUE mode, where it has neither timer, both are reported as 0 (log 37). -/
def WaitEntry.bytes (e : WaitEntry) : List Byte := u8 e.ch ++ u32 e.stamp.toNat ++ u16 e.timer ++ u16 e.quiet

/-- A Leaving List entry in Status (R181). -/
def LeavingEntry.bytes (e : LeavingEntry) : List Byte := u8 e.ch ++ u32 e.stamp.toNat

/-- The Tone Generator's context (R165); the sample phase, in samples, is one byte (log 43). -/
def Tone.bytes (t : Tone) : List Byte :=
  u8 (if t.running then 1 else 0) ++ t.target.bytes ++ u16 t.freq ++ s8 t.level ++ u8 (if t.burst then 0 else 1)
    ++ orOnes 2 t.remaining ++ u32 t.generated.toNat ++ u8 t.phase

/-- The load context, or none (R172). -/
def loadBytes : Option LoadContext → List Byte
  | some ld => u8 ld.slot ++ u8 ld.phase.order ++ u8 ld.index ++ u8 ld.applied ++ u8 ld.passed
  | none => List.replicate 5 255

/-- The body of an OK response to Status from port `p` (R181). The runs of fixed length, the 32 attenuations and the four
line states, have no count byte before them (log 15). The silence source set is coded as R123 lists it for SILENCE, ALARM
yes or no, REQUEST yes or no and the bit field of howl zones: the model's choice (log 45). -/
def State.statusBody (s : State) (p : Port) : List Byte :=
  let f := s.floor
  let q := s.silence
  u8 s.sys.power.code ++ u8 s.sys.resetCause.code ++ u32 s.sys.blocks.toNat ++ flag s.sys.farmod ++ flag s.sys.autowake
    ++ flag (s.port p).loss ++ u8 (s.port p).queue.length
    ++ u8 s.privacy.state.code ++ u8 s.privacy.group
    ++ u8 f.mode.code ++ orOnes 1 f.chair ++ flag f.latch ++ flag f.duck ++ u8 f.openCount
    ++ pods.flatMap (fun c => s8 (s.chan c).atten)
    ++ listed FloorEntry.bytes f.list ++ listed WaitEntry.bytes f.wait ++ listed LeavingEntry.bytes f.leaving
    ++ orOnes 1 f.guard
    ++ u8 q.state.code ++ flag q.alarm ++ flag q.requestLatch ++ u8 q.howl.toNat ++ u8 q.covered.bits
    ++ u8 (levelCode q.alarmLevel)
    ++ lineNumbers.flatMap (fun l => u8 (s.line l).state.code)
    ++ s.tone.bytes ++ loadBytes s.scenes.load

/-- Every floor quantity (R69). -/
def FloorCfg.bytes (g : FloorCfg) : List Byte :=
  u8 g.maxOpen ++ u8 g.openMargin ++ u8 g.closeMargin ++ u8 g.attack ++ u16 g.holdTime ++ u16 g.waitMax ++ u8 g.guard
    ++ flag g.lastMic ++ u8 g.ramp ++ u16 g.talkLimit ++ u8 g.talkWarn ++ flag g.autoGrant ++ s8 g.chairDuck

/-- Every setting of the Silence Controller (R124). -/
def SilenceCfg.bytes (g : SilenceCfg) : List Byte :=
  flag g.alarmEnable ++ flag g.howlEnable ++ flag g.requestEnable
    ++ u8 g.alarmScope.code ++ u8 g.howlScope.code ++ u8 g.requestScope.code
    ++ uN 3 g.maskA.toNat ++ uN 3 g.maskB.toNat ++ u8 g.contentA.code ++ u8 g.contentB.code
    ++ s8 g.howlLevel ++ u16 g.howlBlocks ++ flag g.autoRestore

/-- A run of crosspoints with masked flags, after the bus gain (R104). -/
def State.crosspointBody (s : State) (o first count : Nat) : List Byte :=
  gain (s.mix.bus.get o)
    ++ listed (fun c => gain (s.mix.xp.get (42 * o + c)) ++ flag (s.maskedNow o c)) (List.range' first count)

/-- A run of meter points, after the window and the stamp (R162). -/
def State.meterBody (s : State) (first count : Nat) : List Byte :=
  u8 s.meters.window ++ u16 s.meters.stamp.toNat
    ++ listed (fun i => let m := s.meters.points.get i; s8 m.captured ++ flag m.fresh ++ flag m.overrun)
        (List.range' first count)

/-- The three counters of a position (R143). -/
def Position.counterBody (q : Position) : List Byte := u16 q.checkFails ++ u16 q.missed ++ u16 q.rejoins

/-! ### Response frames (R189) -/

/-- The response frame: length, tag, kind, result, body, check. -/
def Response.frame (r : Response) : List Byte :=
  let inner := u16 (r.body.length + 3) ++ [r.tag] ++ u8 r.kind ++ u8 r.result.code ++ r.body
  inner ++ u16 (crc16 inner).toNat

/-- The empty frame: a length field of 0. -/
def emptyFrame : List Byte := [0, 0]

/-! ### Pod-line frames and slots (R189) -/

/-- Byte 4 of a running frame. -/
def LineCmd.argByte : LineCmd → Nat
  | .rollCall called => called.toNat
  | .ring v pulse => v.colour.code + 8 * v.fn.code + (if pulse then 32 else 0)
  | _ => 0

/-- 24 bits of a sample, the most significant byte first. -/
def sample24 (x : Int) : List Byte := uN 3 (BitVec.ofInt 24 x).toNat

/-- An audio slot: 48 samples. -/
def audioBytes (x : List Int) : List Byte := (List.range Config.blockLen).flatMap (fun i => sample24 (sampleAt x i))

/-- A downstream running frame as bytes (R189). -/
def runningBytes (cmd : Option Entry) (audio : List (List Int)) : List Byte :=
  let head := match cmd with
    | some e =>
      (match e.dest with
        | .position p => u8 p
        | .broadcast => u8 0xFF) ++ u8 e.cmd.kind ++ u8 e.cmd.argByte ++ u8 0
    | none => u8 0xFE ++ u8 0 ++ u8 0 ++ u8 0
  let inner := head ++ positions.flatMap (fun p => audioBytes (audio.getD p []))
  u16 0x3C96 ++ inner ++ u16 (crc16 inner).toNat

/-- How many test patterns there are: eight audio slots of 144 bytes. -/
def testPatterns : Nat := 256 ^ 1152

/-- The test pattern of line `l` in its test frame of a number (R146): any at first, and another one from frame to frame
(log 35). -/
def testPattern (l : Nat) : Nat → Nat
  | 0 => Config.testStart l % testPatterns
  | n + 1 => (testPattern l n + 1 + Config.testStep l n % (testPatterns - 1)) % testPatterns

/-- A test frame as bytes (R146, R189): the test sync word, an empty command slot, the pattern, the check. -/
def testBytes (l n : Nat) : List Byte :=
  let inner := u8 0xFE ++ u8 0 ++ u8 0 ++ u8 0 ++ uN 1152 (testPattern l n)
  u16 0xC369 ++ inner ++ u16 (crc16 inner).toNat

/-- A downstream frame of line `l` as bytes (R189; log 35). -/
def LineFrame.bytes (l : Nat) : LineFrame → List Byte
  | .sync => Config.startPattern
  | .running cmd audio => runningBytes cmd audio
  | .wake cmd audio => runningBytes (some cmd) audio
  | .test n => testBytes l n

/-- The number that some bytes hold, the most significant first. -/
def ofBytes (bs : List Byte) : Nat := bs.foldl (fun n b => 256 * n + b.toNat) 0

/-- The check of a slot matches its bytes. -/
def checkMatches (bs : List Byte) : Bool :=
  ofBytes (bs.drop (bs.length - 2)) == (crc16 (bs.take (bs.length - 2))).toNat

/-- The 24-bit sample at byte `i`. -/
def sampleOf (bs : List Byte) (i : Nat) : Int := (BitVec.ofNat 24 (ofBytes ((bs.drop i).take 3))).toInt

/-- A slot as received, sorted by its layout and check (R131, R189): 147 bytes of a status slot, or 12 bytes of an
identity slot that starts with the marker. Bytes of neither layout are bad, and a TALK-button-present byte that is
neither 0 nor 1 says no (log 18). -/
def sortSlot : UpSlot → UpSlot
  | .bytes bs =>
    if bs.isEmpty then .missed
    else if !checkMatches bs then .bad
    else if bs.length = 147 then
      let b := bs.getD 0 0
      .status ⟨b.getLsbD 0, b.getLsbD 1, b.getLsbD 2, b.getLsbD 3, block (fun i => sampleOf bs (1 + 3 * i))⟩
    else if bs.length = 12 && bs.getD 0 0 == 0x80#8 then
      .identity ⟨ofBytes ((bs.drop 1).take 2), (bs.getD 3 0).toNat, (bs.getD 4 0).toNat,
        ofBytes ((bs.drop 5).take 4), (bs.getD 9 0) == 1#8⟩
    else .bad
  | u => u

end Sys2Proof.Machine
end

