-- ==== Sys2Proof/Machine/Boundary.lean ====
section
/-! DEFINITION. What every unit does at a block boundary (R99 and chapter by chapter): inputs, measures, ramps,
outputs, content, meters, gates, timers, slots, and the events the boundary makes due (log 1). -/

namespace Sys2Proof.Machine

open Sys2Proof

/-! ### Inputs (R5) and measures (R6, R7, R51) -/

/-- The slot of pod channel `c` in the block just ended: none is taken where the line's frame in flight brings
none (R131, R147). -/
def State.slotIn (s : State) (inp : BoundaryIn) (c : Nat) : UpSlot :=
  if (s.line (lineOf c)).takesSlots then sortSlot (inp.slots.getD c .missed) else .missed

/-- The source samples of a channel (R5, R108). -/
def State.source (s : State) (inp : BoundaryIn) (c : Nat) : List Int :=
  if c < 32 then
    match s.slotIn inp c with
    | .status st => st.samples
    | _ => []
  else inp.lanes.getD (c - 32) []

/-- The tone's block at this boundary. -/
def State.toneNow (s : State) : List Int := toneBlock s.sys.free s.tone.freq s.tone.level s.tone.phase

/-- The input of a channel (R5): silence where it is not present, the tone where it is the tone's target, else
the trimmed source. `s` is the state before the events of the boundary: at the boundary that ends the frame in flight
after PowerStandby a pod that is still ONLINE has the samples of its slot (R147, R184), though R17 and R159 give pods
-96 there: the model's choice (log 46). -/
def State.inputOf (s : State) (inp : BoundaryIn) (c : Nat) : List Int :=
  if s.present c then
    if s.tone.running && s.tone.target == .channel c then s.toneNow
    else trimmed s.sys.free c (s.chan c).trim (s.source inp c)
  else []

/-- The inputs of the 42 channels. -/
def State.inputs (s : State) (inp : BoundaryIn) : Tab 42 (List Int) := Tab.tabulate 42 (s.inputOf inp)

/-- The noise floor and rise count against a new block peak (R7). A rise count of 200 stands until its event. -/
def Channel.track (k : Channel) (peak : Int) : Channel :=
  if peak < k.noise then { k with noise := peak, rise := 0 }
  else if k.noise < peak ∧ k.noise < -20 then { k with rise := k.rise + 1 }
  else k

/-- The noise floor as R7 leaves it at this boundary, its rise included. -/
def Channel.floorNow (k : Channel) : Int := if Config.riseBlocks ≤ k.rise then k.noise + 1 else k.noise

/-- The thresholds from the noise floor (R51). -/
def Channel.withThresholds (k : Channel) (g : FloorCfg) : Channel :=
  let open' := max (k.floorNow + g.openMargin) (-60)
  { k with openThr := open', closeThr := open' - g.closeMargin }

/-- The measures of a channel at a boundary (R6, R7, R51). -/
def Channel.measure (k : Channel) (g : FloorCfg) (pod present : Bool) (x : List Int) : Channel :=
  let peak := peakOf x
  let k := { k with peak := peak }
  if pod then (if present then k.track peak else k).withThresholds g else k

/-! ### Ramps and outputs (R94, R99, R118) -/

/-- One step of a ramp toward its target (R94). -/
def stepRamp (target : Bool) (ramp pos : Nat) : Nat :=
  if target then (if pos < ramp then pos + 1 else pos) else pos - 1

/-- What the Mix Engine applies from this boundary (R94, R100, R102): the ramp step while RUNNING, the
attenuation and the zone of the mask. -/
def State.mixStep (s : State) (c : Nat) (k : Channel) : Channel :=
  { k with
    ramp := if s.sys.power = .running then stepRamp (s.target c) s.floor.cfg.ramp k.ramp else k.ramp
    atten := s.floor.attenHalf c
    maskZone := k.zone }

/-- Output `o` as the Mix Engine forms it (R99, R110). `chans` are the channels after the step. -/
def State.formOutput (s : State) (chans : Tab 42 Channel) (x : Tab 42 (List Int)) (o : Nat) : List Int :=
  if s.sys.power = .running then
    outputBlock s.sys.free o
      (channels.filterMap (fun c => contribution o c (s.mix.xp.get (42 * o + c)) (chans.get c) (x.get c)))
      (s.mix.bus.get o) s.floor.cfg.ramp
      (if s.tone.running && s.tone.target == .output o then s.toneNow else [])
  else []

/-- The content that covers output `o`, or none (R116, R118): set A's where both cover it. -/
def Silence.contentFor (q : Silence) (o : Nat) : Option Content :=
  if !q.inForce then none
  else if q.covered != .none && q.cfg.maskA.getLsbD o then some q.cfg.contentA
  else if q.covered == .ab && q.cfg.maskB.getLsbD o then some q.cfg.contentB
  else none

/-- Output `o` after substitution (R117, R118). -/
def State.deliver (s : State) (x : Tab 42 (List Int)) (formed : Tab 17 (List Int)) (o : Nat) : List Int :=
  match s.silence.contentFor o with
  | none => formed.get o
  | some .mute => []
  | some .program => programBlock s.sys.free o (x.get 40) (x.get 41) (s.mix.bus.get o)
  | some .alert => chimeBlock s.silence.chime

/-- One howl counter (R114). -/
def Silence.howlStep (q : Silence) (z : Nat) (peak : Int) (n : Nat) : Nat :=
  if !q.cfg.howlEnable || q.howl.getLsbD z then 0
  else if q.cfg.howlLevel ≤ peak then n + 1
  else 0

/-- The Silence Controller's counters at a boundary (R114, R117). -/
def Silence.tick (q : Silence) (formed : Tab 17 (List Int)) : Silence :=
  { q with
    howlCount := q.howlCount.mapIdx (fun z n => q.howlStep z (peakOf (formed.get (9 + z))) n)
    chime := if q.inForce then (q.chime + 1) % Config.chimeCycle else q.chime }

/-! ### Meters and tone (R160, R167) -/

/-- The level of a meter point (R159). In standby the pod points give -96 because no pod is present; at the boundary that
ends the frame in flight after PowerStandby they still give the level of the slot (log 46). -/
def meterLevel (chans : Tab 42 Channel) (outs : Tab 17 (List Int)) (i : Nat) : Int :=
  if i < 42 then (chans.get i).peak else peakOf (outs.get (i - 42))

/-- The Meter Unit before a capture (R160, steps 1 and 2). -/
def Meters.tick (m : Meters) (level : Nat → Int) : Meters :=
  { m with
    points := m.points.mapIdx (fun i q => { q with running := max q.running (level i) })
    counter := m.counter + 1 }

/-- The count of blocks generated after one more (R165; log 12). -/
def countGenerated (free : Nat) (n : BitVec 32) : BitVec 32 :=
  if n = 0xFFFFFFFF#32 then Config.toneCountPastTop free else n + 1

/-- The Tone Generator serves a block (R165, R167). -/
def Tone.tick (t : Tone) (free : Nat) : Tone :=
  if t.running then
    { t with
      generated := countGenerated free t.generated
      remaining := t.remaining.map (fun n => n - 1)
      phase := (t.phase + Config.blockLen) % toneCycle t.freq }
  else t

/-! ### Gates, waits and talk (R52, R56 to R59, R80) -/

/-- A block qualifies (R52). -/
def State.qualifies (s : State) (c : Nat) : Bool :=
  decide ((s.chan c).openThr ≤ (s.chan c).peak) && s.present c && !s.muted c

/-- The attack count at a boundary in VOICE mode (R52): counted in CLOSED and ATTACK only. -/
def State.attackStep (s : State) (c : Nat) : Nat :=
  let g := s.gate c
  if (g == .closed || g == .attack) && s.qualifies c then (s.chan c).attack + 1 else 0

/-- A latched chair is held open (R88). -/
def Floor.latched (f : Floor) (c : Nat) : Bool := f.latch && f.isChair c

/-- An OPEN or HOLD entry at a boundary in VOICE mode (R56, R57, R58, R88). Under LASTMIC the entry is sole by the Floor
List before the events of the boundary (log 40), and one that enters HOLD here runs until the next boundary (log 41). -/
def FloorEntry.gateStep (e : FloorEntry) (f : Floor) (k : Channel) : FloorEntry :=
  match e.st with
  | .pending => e
  | .opened =>
    if k.peak < k.closeThr ∧ ¬ f.latched e.ch then { e with st := .held, hold := .running f.cfg.holdTime } else e
  | .held =>
    if k.openThr ≤ k.peak then { e with st := .opened, hold := .none }
    else if f.cfg.lastMic ∧ f.list.length = 1 then { e with hold := .stopped }
    else
      match e.hold with
      | .running n => { e with hold := .running (n - 1) }
      | _ => e

/-- One pod's gate at a boundary in VOICE mode, with the FLOOR_CHANGE of OPEN to HOLD and HOLD to OPEN (R52,
R56, R57). -/
def gateStep (c : Nat) (s : State) : State :=
  let n := s.attackStep c
  let s := s.modChan c (fun k => { k with attack := n })
  let before := s.gate c
  let s := s.modFloor (fun f => f.modEntry c (fun e => e.gateStep f (s.chan c)))
  if s.gate c = before then s else floorChange c before (s.gate c) .level s

/-- A waiting entry at a boundary in VOICE mode (R59). -/
def WaitEntry.step (w : WaitEntry) (k : Channel) : WaitEntry :=
  { w with timer := w.timer + 1, quiet := if k.peak < k.closeThr then w.quiet + 1 else 0 }

/-- The gate machines and the waits at a boundary (R46, R52, R59, R72). -/
def stepGates (s : State) : State :=
  match s.floor.mode with
  | .voice =>
    (runOver gateStep pods s).modFloor (fun f => { f with wait := f.wait.map (fun w => w.step (s.chan w.ch)) })
  | .queue => s

/-- The guard timer and the talk timers at a boundary (R62, R80). -/
def Floor.tick (f : Floor) : Floor :=
  { f with
    guard := f.guard.map (fun n => n - 1)
    list := f.list.map (fun e => { e with talk := e.talk.map (fun t => { t with blocks := t.blocks + 1 }) }) }

/-! ### Muted talk (R41, R42) -/

/-- The muted-talk counter at a boundary. -/
def Channel.talkStep (k : Channel) (present : Bool) : Channel :=
  if !present then { k with talkCount := 0 }
  else if k.armed then
    if k.claims = { ClaimSet.empty with pod := true } then
      if k.openThr ≤ k.peak then { k with talkCount := k.talkCount + 1 }
      else if k.peak < k.closeThr then { k with talkCount := 0 }
      else k
    else k
  else if k.peak < k.closeThr then { k with talkCount := k.talkCount + 1 }
  else { k with talkCount := 0 }

/-! ### Slots (R131 to R136, R142) -/

/-- A JOINING or ONLINE position whose slot is bad or missed (R134, R135). -/
def Position.lose (q : Position) (bad : Bool) : Position :=
  let q := if bad then { q with checkFails := bump q.checkFails } else { q with missed := bump q.missed }
  { q with good := 0, miss := q.miss + 1 }

/-- The MUTE hold counts one boundary (R136). -/
def Position.holdStep (q : Position) : Position :=
  { q with hold := q.hold.map (fun n => if n < Config.longHold then n + 1 else n) }

/-- The MUTE hold and the levels after a good slot of an ONLINE position (R136): a press edge starts the hold, a
release edge ends it. The hold has counted this boundary already. -/
def Position.edges (q : Position) (st : StatusSlot) : Position :=
  let was := q.levels.getD ⟨st.mute, st.talk⟩
  { q with
    levels := some ⟨st.mute, st.talk⟩
    hold := if st.mute && !was.mute then some 0 else if was.mute && !st.mute then none else q.hold }

/-- A position after the slot of this boundary (R133 to R136). A slot of the other layout counts as bad where a
status slot is due, and is discarded where an identity slot is (log 18). -/
def Position.takeSlot (q : Position) (called : Bool) (u : UpSlot) : Position :=
  match q.state with
  | .joining =>
    match u with
    | .status st => { q with good := q.good + 1, miss := 0, levels := some ⟨st.mute, st.talk⟩ }
    | .missed => q.lose false
    | _ => q.lose true
  | .online =>
    let q := q.holdStep
    match u with
    | .status st => { q with miss := 0 }.edges st
    | .missed => { q.lose false with good := q.good }
    | _ => { q.lose true with good := q.good }
  | _ =>
    if called then
      match u with
      | .bad => { q with checkFails := bump q.checkFails }
      | _ => q
    else q

/-- A pod whose identity record says that it has no TALK button has its TALK level ignored (R136). -/
def Position.talkButton (q : Position) : Bool :=
  match q.identity with
  | some r => r.talkButton
  | none => true

/-- The presses of a good slot of an ONLINE position (R136, R137). -/
def Position.presses (q : Position) (c : Nat) (st : StatusSlot) : List Event :=
  let was := q.levels.getD ⟨st.mute, st.talk⟩
  let held := q.holdStep.hold
  (if was.mute && !st.mute && held.any (fun n => decide (n < Config.longHold)) then [.muteShortPress c] else [])
    ++ (if st.talk && !was.talk && q.talkButton then [.talkPress c] else [])

/-- The acknowledgement of the command that the frame carried for this position (R139). -/
def ackEvent (l p : Nat) : Option LineCmd → List Event
  | some .sleep => [.sleepAcknowledged l p]
  | some (.ring _ _) => [.ringAcknowledged l p]
  | _ => []

/-- The events that the slot of this boundary makes due; `q` is the position before it. -/
def Position.slotEvents (q : Position) (ln : Line) (l p : Nat) (u : UpSlot) : List Event :=
  let after := q.takeSlot false u
  match q.state with
  | .joining =>
    (match u with
      | .status st => if st.ack then ackEvent l p (ln.sentTo p) else []
      | _ => [])
      ++ (if Config.joinGood ≤ after.good then [.podJoin l p] else [])
      ++ (if Config.loseMiss ≤ after.miss then [.joinFailed l p] else [])
  | .online =>
    (match u with
      | .status st => (if st.ack then ackEvent l p (ln.sentTo p) else []) ++ q.presses (podOf l p) st
      | _ => [])
      ++ (if q.holdStep.hold = some Config.longHold ∧ q.hold ≠ some Config.longHold then [.longPress (podOf l p)] else [])
      ++ (if Config.loseMiss ≤ after.miss then [.podLost l p] else [])
  | .asleep =>
    match u with
    | .status st => if st.wakePulse then [.wakeRequest l p] else []
    | .identity rec => if (ln.calledNow.getD 0).getLsbD p then [.rollCallAnswer l p rec] else []
    | _ => []
  | _ =>
    match u with
    | .identity rec => if (ln.calledNow.getD 0).getLsbD p then [.rollCallAnswer l p rec] else []
    | _ => []

/-- The position of pod channel `c` after this boundary, its wake timer included (R141). -/
def State.stepPosition (s : State) (inp : BoundaryIn) (c : Nat) (q : Position) : Position :=
  let ln := s.line (lineOf c)
  let q := if ln.takesSlots then q.takeSlot ((ln.calledNow.getD 0).getLsbD (posOf c)) (s.slotIn inp c)
    else q.holdStep
  { q with wakeTimer := q.wakeTimer.map (fun n => n - 1) }

/-- The events of line `l`'s slots. -/
def State.lineSlotEvents (s : State) (inp : BoundaryIn) (l : Nat) : List Event :=
  let ln := s.line l
  if ln.takesSlots then
    positions.flatMap (fun p => (s.position (podOf l p)).slotEvents ln l p (s.slotIn inp (podOf l p)))
  else []

/-- The counts of a line at a boundary (R128, R133, R146), and its frame to be formed. -/
def Line.tick (ln : Line) (differs early : Bool) : Line :=
  let ln := { ln with early := early }
  match ln.state with
  | .running => { ln with rollCount := ln.rollCount + 1, toForm := true }
  | .testing =>
    if ln.drivesTest then
      { ln with sent := ln.sent + 1, mismatch := if differs then ln.mismatch + 1 else ln.mismatch, toForm := true }
    else { ln with toForm := true }
  | .off => { ln with early := false }
  | .standby => { ln with early := false }
  | _ => { ln with toForm := true }

/-! ### What becomes due -/

/-- The ends of a line's state or frame, and its roll call (R128, R133). -/
def Line.endEvents (ln : Line) (l : Nat) (pulse : Bool) : List Event :=
  match ln.state with
  | .starting => if ln.remaining = 0 then [.startingEnd l] else []
  | .waking => if ln.remaining = 0 then [.wakingEnd l] else []
  | .testing => if ln.remaining = 0 then [.lineTestComplete l] else []
  | .sleeping => if ln.sleepBroadcast then [.sleepingEnd l] else [.standbyFrameEnd l]
  | .running => if Config.rollCallPeriod ≤ ln.rollCount then [.rollCall l] else []
  | .standby => if pulse then [.wakePulse l] else []
  | .off => []

/-- The wake events of a position (R141). -/
def State.wakeEvents (s : State) (l p : Nat) : List Event :=
  (if (s.line l).table.any (fun e => e.dest == .position p && e.cmd == .wake 0) then [.wakeFramesDone l p] else [])
    ++ (if (s.position (podOf l p)).wakeTimer = some 0 then [.wakeFailed l p] else [])

/-- The events of a pod channel's own timers and counters. `s` is the state after the boundary's steps. -/
def State.channelEvents (s : State) (c : Nat) : List Event :=
  let k := s.chan c
  (if Config.riseBlocks ≤ k.rise then [.noiseFloorRise c] else [])
    ++ (if k.armed && decide (Config.mutedTalkBlocks ≤ k.talkCount) then [.mutedTalk c] else [])
    ++ (if !k.armed && decide (Config.rearmBlocks ≤ k.talkCount) then [.mutedTalkRearm c] else [])
    ++ (if s.floor.isLeaving c && k.ramp == 0 then [.leavingRemoval c] else [])
    ++ (if s.floor.list.any (fun e => e.ch == c && e.hold == .running 0) then [.holdExpired c] else [])
    ++ (match s.floor.waiting? c with
      | some w =>
        if s.floor.mode = .queue then []
        else if s.floor.cfg.waitMax ≤ w.timer then [.waitTimeout c]
        else if s.floor.cfg.holdTime ≤ w.quiet then [.waitQuietDrop c]
        else []
      | none => [])
    ++ (if s.floor.mode = .voice ∧ 0 < k.attack ∧ s.floor.cfg.attack ≤ k.attack then [.floorRequest c] else [])
    ++ (if s.floor.list.any (fun e => e.ch == c && e.talk.any (fun t => decide (Config.secondBlocks ≤ t.blocks)))
        then [.talkTimerTick c] else [])

/-- The events of the level inputs (R35, R113). -/
def State.pinEvents (s : State) (inp : BoundaryIn) : List Event :=
  (if s.privacy.level = inp.privacyActive then []
    else if inp.privacyActive then [.privacyActiveEdge] else [.privacyInactiveEdge])
    ++ (if s.silence.alarmLevel = inp.alarmActive then []
      else if inp.alarmActive then [.alarmActiveEdge] else [.alarmInactiveEdge])

/-- The events of the Silence Controller, the Meter Unit, the Tone Generator and the Scene Unit. `was` is the state
before the boundary. -/
def State.unitEvents (s was : State) : List Event :=
  ((List.range 8).filter (fun z =>
      decide (was.silence.howlCount.get z < s.silence.howlCount.get z
        ∧ s.silence.cfg.howlBlocks ≤ s.silence.howlCount.get z))).map Event.howlLatch
    ++ (if was.silence.state = .restoring then [.restoringEnd] else [])
    ++ (if s.meters.window ≤ s.meters.counter then [.capture] else [])
    ++ (if s.tone.running && s.tone.remaining == some 0 then [.toneCountEnd] else [])
    ++ (if s.scenes.load.isSome then [.sceneLoadStep] else [])

/-- The events that a boundary makes due. -/
def State.dueNow (s was : State) (inp : BoundaryIn) : List Event :=
  s.pinEvents inp
    ++ lineNumbers.flatMap (fun l => was.lineSlotEvents inp l)
    ++ lineNumbers.flatMap (fun l => positions.flatMap (s.wakeEvents l))
    ++ lineNumbers.flatMap (fun l => (s.line l).endEvents l (inp.wakePulse.getD l false))
    ++ pods.flatMap s.channelEvents
    ++ (if s.floor.guard = some 0 then [.guardExpiry] else [])
    ++ s.unitEvents was

/-! ### The boundary -/

/-- The steps of the units at a boundary, before any of its events is taken. -/
def boundarySteps (inp : BoundaryIn) (s : State) : State :=
  let x := s.inputs inp
  let chans := s.chans.mapIdx (fun c k =>
    (s.mixStep c k).measure s.floor.cfg (decide (c < 32)) (s.present c) (x.get c))
  let formed := Tab.tabulate 17 (s.formOutput chans x)
  let outs := Tab.tabulate 17 (s.deliver x formed)
  let t : State := { s with
    chans := chans
    mix := { s.mix with outputs := outs }
    silence := s.silence.tick formed
    meters := s.meters.tick (meterLevel chans outs)
    tone := s.tone.tick s.sys.free
    sys := { s.sys with blocks := s.sys.blocks + 1, free := s.sys.free + 1 }
    pos := s.pos.mapIdx (s.stepPosition inp)
    lines := s.lines.mapIdx (fun l ln =>
      ln.tick (inp.readBackDiffers.getD l false) (inp.frameEarly.getD l false)) }
  let t := { t with
    chans := t.chans.mapIdx (fun c k => if c < 32 then k.talkStep (s.present c) else k)
    floor := t.floor.tick }
  stepGates t

/-- A block boundary: the steps, and the events they make due. -/
def boundary (inp : BoundaryIn) (s : State) : State :=
  let t := boundarySteps inp s
  { t with due := t.dueNow s inp }

end Sys2Proof.Machine
end

