-- ==== Sys2Proof/Machine/Events.lean ====
section
/-! DEFINITION. The events: what each does when it is taken, which of them must be due, the settling of a boundary
whose events the sender has not all named, the close of the frames (log 1 to 4). -/

namespace Sys2Proof.Machine

open Sys2Proof

/-! ### What each event does -/

/-- Changes of a channel's state that a condition guards. -/
def when (b : Bool) (f : State → State) (s : State) : State := if b then f s else s

/-- The noise floor rises by 1 dB (R7). -/
def actNoiseFloorRise (c : Nat) (s : State) : State :=
  when (decide (Config.riseBlocks ≤ (s.chan c).rise))
    (fun s => s.modChan c (fun k => { k with noise := k.noise + 1, rise := 0 })) s

/-- MUTED_TALK (R41). -/
def actMutedTalk (c : Nat) (s : State) : State :=
  when ((s.chan c).armed && decide (Config.mutedTalkBlocks ≤ (s.chan c).talkCount))
    (fun s => raise (.mutedTalk c (s.chan c).peak)
      (s.modChan c (fun k => { k with armed := false, talkCount := 0 }))) s

/-- Muted-talk detection is armed again (R42). -/
def actMutedTalkRearm (c : Nat) (s : State) : State :=
  when (!(s.chan c).armed && decide (Config.rearmBlocks ≤ (s.chan c).talkCount))
    (fun s => s.modChan c (fun k => { k with armed := true, talkCount := 0 })) s

/-- A short MUTE press is delivered (R30, R31). -/
def actMuteShortPress (c : Nat) (s : State) : State :=
  when (decide (c < 32) && s.present c) (fun s => refreshRings (shortPress c s)) s

/-- A long MUTE press is delivered (R30, R33): it acts where the channel is the chair. -/
def actLongPress (c : Nat) (s : State) : State :=
  when (decide (c < 32) && s.present c && s.floor.isChair c) (fun s => refreshRings (chairPress c s)) s

/-- A TALK press is delivered (R46, R73, R137). -/
def actTalkPress (c : Nat) (s : State) : State :=
  when (decide (c < 32) && s.present c && (s.position c).talkButton) (fun s => refreshRings (pressTalk c s)) s

/-- A floor request (R53). The attack count was compared with ATTACK at the boundary that made it due: an ATTACK
written since is compared at the next qualifying block (R70). -/
def actFloorRequest (c : Nat) (s : State) : State :=
  when (s.gate c == .attack && s.floor.mode == .voice)
    (fun s => refreshRings (requestFloor c s)) s

/-- A hold timer expires (R57), also of an entry that another event of the boundary has left alone (R58; log 40). -/
def actHoldExpired (c : Nat) (s : State) : State :=
  when (s.floor.list.any (fun e => e.ch == c && e.hold == .running 0)) (fun s => refreshRings (expireHold c s)) s

/-- A count of a waiting entry whose drop is due: it was compared at the boundary with the limit that stood there, and
a limit written since acts from the next boundary (R70). A count of 0 belongs to an entry that joined since. -/
def lapsed (limit n : Nat) : Bool := decide (0 < n) || decide (limit ≤ n)

/-- A wait timer reaches WAITMAX (R59). -/
def actWaitTimeout (c : Nat) (s : State) : State :=
  when (s.floor.wait.any (fun w => w.ch == c && lapsed s.floor.cfg.waitMax w.timer))
    (fun s => refreshRings (dropWaiting c .timeout s)) s

/-- A quiet counter reaches HOLDTIME (R59). -/
def actWaitQuietDrop (c : Nat) (s : State) : State :=
  when (s.floor.wait.any (fun w => w.ch == c && lapsed s.floor.cfg.holdTime w.quiet))
    (fun s => refreshRings (dropWaiting c .quiet s)) s

/-- The guard timer expires (R62). -/
def actGuardExpiry (s : State) : State :=
  when (s.floor.guard == some 0) (fun s => refreshRings (openPending s)) s

/-- A ramp at 0 in the Leaving List (R63, R96). -/
def actLeavingRemoval (c : Nat) (s : State) : State :=
  when (s.floor.isLeaving c && (s.chan c).ramp == 0) (fun s => refreshRings (removeLeaving c s)) s

/-- The warning point of a talk timer (R81). -/
def FloorCfg.warnAt (g : FloorCfg) : Nat := g.talkLimit - g.talkWarn

/-- A talk timer increases (R80, R81, R82): a warned flag below the warning point clears; the warning or the expiry
becomes due. -/
def actTalkTimerTick (c : Nat) (s : State) : State :=
  match (s.floor.entry? c).bind (fun e => e.talk) with
  | none => s
  | some t =>
    if t.blocks < Config.secondBlocks then s
    else
      let g := s.floor.cfg
      let t' : TalkTimer := { secs := t.secs + 1, blocks := 0, warned := t.warned && decide (g.warnAt ≤ t.secs + 1) }
      let s := s.modFloor (fun f => f.modEntry c (fun e => { e with talk := some t' }))
      let s := refreshRings s
      if g.talkLimit ≤ t'.secs then s.addDue [.talkEnd c]
      else if g.warnAt ≤ t'.secs && !t'.warned then s.addDue [.talkWarn c]
      else s

/-- The timer has increased at this boundary, in the event that made its warning or its expiry due (R81). -/
def TalkTimer.ticked (t : TalkTimer) : Bool := decide (0 < t.secs) && t.blocks == 0

/-- TALK_WARN (R81). The timer was compared when it increased: a limit written since is compared at the next increase
(R82). -/
def actTalkWarn (c : Nat) (s : State) : State :=
  match (s.floor.entry? c).bind (fun e => e.talk) with
  | none => s
  | some t =>
    when ((t.ticked || decide (s.floor.cfg.warnAt ≤ t.secs ∧ t.secs < s.floor.cfg.talkLimit)) && !t.warned)
      (fun s => refreshRings (raise (.talkWarn c t.secs s.floor.cfg.talkLimit) (setWarned c true s))) s

/-- TALK_END (R81), compared like TALK_WARN (R82). -/
def actTalkEnd (c : Nat) (s : State) : State :=
  match (s.floor.entry? c).bind (fun e => e.talk) with
  | none => s
  | some t =>
    when (t.ticked || decide (s.floor.cfg.talkLimit ≤ t.secs)) (fun s => refreshRings (endTalk c t.secs s)) s

/-- A zone's howl latch (R114). -/
def actHowlLatch (z : Nat) (s : State) : State :=
  when (s.silence.cfg.howlEnable && !s.silence.howl.getLsbD z
      && decide (s.silence.cfg.howlBlocks ≤ s.silence.howlCount.get z))
    (fun s => refreshRings (latchHowl z s)) s

/-- RESTORING ends (R122). -/
def actRestoringEnd (s : State) : State :=
  when (s.silence.state == .restoring) (fun s => refreshRings (endRestoring s)) s

/-- An active edge of the privacy line (R36). -/
def actPrivacyActive (s : State) : State :=
  when (!s.privacy.level) (fun s => refreshRings (privacyActive s)) s
/-- An inactive edge of the privacy line (R37). -/
def actPrivacyInactive (s : State) : State :=
  when s.privacy.level (fun s => refreshRings (privacyInactive s)) s
/-- An active edge of the Alarm line (R113). -/
def actAlarmActive (s : State) : State :=
  when (!s.silence.alarmLevel) (fun s => refreshRings (alarmActive s)) s
/-- An inactive edge of the Alarm line (R113). -/
def actAlarmInactive (s : State) : State :=
  when s.silence.alarmLevel (fun s => refreshRings (alarmInactive s)) s

/-- A wake pulse on a STANDBY line (R147, R185). -/
def actWakePulse (l : Nat) (s : State) : State :=
  when ((s.line l).state == .standby)
    (fun s =>
      let s := raise (.wakeRequest l none) s
      if s.sys.autowake then wake (.wakePulse l) s else s) s

/-- The roll-call count has reached 64 (R133). -/
def actRollCall (l : Nat) (s : State) : State :=
  when ((s.line l).state == .running && decide (Config.rollCallPeriod ≤ (s.line l).rollCount)) (rollCallNow l) s

/-- A called position answers (R133). -/
def actRollCallAnswer (l p : Nat) (rec : Identity) (s : State) : State :=
  let st := (s.position (podOf l p)).state
  when ((((s.line l).calledNow.getD 0).getLsbD p) && (st == .absent || st == .lost || st == .asleep))
    (answerRollCall (podOf l p) rec) s

/-- A join completes (R134, R157). -/
def actPodJoin (l p : Nat) (s : State) : State :=
  let q := s.position (podOf l p)
  when (q.state == .joining && decide (Config.joinGood ≤ q.good)) (fun s => refreshRings (joinPod (podOf l p) s)) s

/-- A join fails (R134). -/
def actJoinFailed (l p : Nat) (s : State) : State :=
  let q := s.position (podOf l p)
  when (q.state == .joining && decide (Config.loseMiss ≤ q.miss)) (failJoin (podOf l p)) s

/-- A pod is lost (R135). -/
def actPodLost (l p : Nat) (s : State) : State :=
  let q := s.position (podOf l p)
  when (q.state == .online && decide (Config.loseMiss ≤ q.miss))
    (fun s => refreshRings (leaveOnline (podOf l p) .lost .missed s)) s

/-- A RING is acknowledged (R139, R155, R156). -/
def actRingAcknowledged (l p : Nat) (s : State) : State :=
  match (s.line l).sentTo p with
  | some (.ring v pulse) =>
    when (s.present (podOf l p))
      (fun s => acknowledgeRing (podOf l p) v pulse
        (s.modLine l (fun ln => { ln with table := tableAcked ln.table p 4 }))) s
  | _ => s

/-- A SLEEP is acknowledged (R139, R140). -/
def actSleepAcknowledged (l p : Nat) (s : State) : State :=
  let st := (s.position (podOf l p)).state
  when ((s.line l).sentTo p == some .sleep && (st == .online || st == .joining))
    (fun s => refreshRings (sleepPod (podOf l p) s)) s

/-- The wake-pulse flag of an ASLEEP position (R142). -/
def actWakeRequest (l p : Nat) (s : State) : State :=
  when (decide (l < 4 ∧ p < 8) && (s.line l).takesSlots && (s.position (podOf l p)).state == .asleep)
    (raise (.wakeRequest l (some p))) s

/-- The 12th WAKE frame has ended (R141). -/
def actWakeFramesDone (l p : Nat) (s : State) : State :=
  when ((s.line l).table.any (fun e => e.dest == .position p && e.cmd == .wake 0)) (finishWake (podOf l p)) s

/-- A wake timer has reached 0 (R141). -/
def actWakeFailed (l p : Nat) (s : State) : State :=
  let q := s.position (podOf l p)
  when (q.state == .asleep && q.wakeTimer == some 0) (failWake (podOf l p)) s

/-- The 16th sync frame has ended (R129). -/
def actStartingEnd (l : Nat) (s : State) : State :=
  when ((s.line l).state == .starting && (s.line l).remaining == 0) (endStarting l) s
/-- The 12th WAKE frame has ended (R148). -/
def actWakingEnd (l : Nat) (s : State) : State :=
  when ((s.line l).state == .waking && (s.line l).remaining == 0) (endWaking l) s
/-- The last frame before sleep has ended (R147). -/
def actStandbyFrameEnd (l : Nat) (s : State) : State :=
  when ((s.line l).state == .sleeping && !(s.line l).sleepBroadcast) (fun s => refreshRings (sleepLine l s)) s
/-- The SLEEP broadcast frame has ended (R147, R148). -/
def actSleepingEnd (l : Nat) (s : State) : State :=
  when ((s.line l).state == .sleeping && (s.line l).sleepBroadcast) (endSleeping l) s
/-- The N-th test frame has ended (R146). -/
def actLineTestComplete (l : Nat) (s : State) : State :=
  when ((s.line l).state == .testing && (s.line l).remaining == 0) (endTest l .complete) s

/-- A capture (R160). -/
def actCapture (s : State) : State :=
  when (decide (s.meters.window ≤ s.meters.counter)) captureNow s
/-- A level watch fires (R163). -/
def actLevelWatch (e : Nat) (s : State) : State := when (s.meters.watches.get e).fires (fireWatch e) s
/-- A BURST has run out (R167). -/
def actToneCountEnd (s : State) : State :=
  when (s.tone.running && s.tone.remaining == some 0) (fun s => refreshRings (endTone .count s)) s
/-- A step of a load (R173). -/
def actSceneLoadStep (s : State) : State :=
  when s.scenes.load.isSome (fun s => refreshRings (stepLoad s)) s

/-- What an event does, where the state still gives cause for it. -/
def act : Event → State → State
  | .privacyActiveEdge => actPrivacyActive
  | .privacyInactiveEdge => actPrivacyInactive
  | .alarmActiveEdge => actAlarmActive
  | .alarmInactiveEdge => actAlarmInactive
  | .wakePulse l => actWakePulse l
  | .noiseFloorRise c => actNoiseFloorRise c
  | .mutedTalk c => actMutedTalk c
  | .mutedTalkRearm c => actMutedTalkRearm c
  | .muteShortPress c => actMuteShortPress c
  | .longPress c => actLongPress c
  | .talkPress c => actTalkPress c
  | .floorRequest c => actFloorRequest c
  | .holdExpired c => actHoldExpired c
  | .waitTimeout c => actWaitTimeout c
  | .waitQuietDrop c => actWaitQuietDrop c
  | .guardExpiry => actGuardExpiry
  | .leavingRemoval c => actLeavingRemoval c
  | .talkTimerTick c => actTalkTimerTick c
  | .talkWarn c => actTalkWarn c
  | .talkEnd c => actTalkEnd c
  | .howlLatch z => actHowlLatch z
  | .restoringEnd => actRestoringEnd
  | .rollCall l => actRollCall l
  | .rollCallAnswer l p rec => actRollCallAnswer l p rec
  | .podJoin l p => actPodJoin l p
  | .joinFailed l p => actJoinFailed l p
  | .podLost l p => actPodLost l p
  | .ringAcknowledged l p => actRingAcknowledged l p
  | .sleepAcknowledged l p => actSleepAcknowledged l p
  | .wakeRequest l p => actWakeRequest l p
  | .wakeFramesDone l p => actWakeFramesDone l p
  | .wakeFailed l p => actWakeFailed l p
  | .startingEnd l => actStartingEnd l
  | .wakingEnd l => actWakingEnd l
  | .standbyFrameEnd l => actStandbyFrameEnd l
  | .sleepingEnd l => actSleepingEnd l
  | .lineTestComplete l => actLineTestComplete l
  | .capture => actCapture
  | .levelWatch e => actLevelWatch e
  | .toneCountEnd => actToneCountEnd
  | .sceneLoadStep => actSceneLoadStep

/-! ### Which events must be due, and in what order -/

/-- The event comes from outside the part: a pin, a pod's button, slot or pulse. It is taken whenever it is sent;
every other event is taken where the last boundary has made it due (log 4). -/
def Event.external : Event → Bool
  | .privacyActiveEdge => true
  | .privacyInactiveEdge => true
  | .alarmActiveEdge => true
  | .alarmInactiveEdge => true
  | .wakePulse _ => true
  | .muteShortPress _ => true
  | .longPress _ => true
  | .talkPress _ => true
  | .rollCallAnswer _ _ _ => true
  | .ringAcknowledged _ _ => true
  | .sleepAcknowledged _ _ => true
  | .wakeRequest _ _ => true
  | _ => false

/-- The pod line an event belongs to: the frame of the line waits for it (log 3). -/
def Event.lineOf? : Event → Option Nat
  | .wakePulse l => some l
  | .muteShortPress c => some (lineOf c)
  | .longPress c => some (lineOf c)
  | .talkPress c => some (lineOf c)
  | .rollCall l => some l
  | .rollCallAnswer l _ _ => some l
  | .podJoin l _ => some l
  | .joinFailed l _ => some l
  | .podLost l _ => some l
  | .ringAcknowledged l _ => some l
  | .sleepAcknowledged l _ => some l
  | .wakeRequest l _ => some l
  | .wakeFramesDone l _ => some l
  | .wakeFailed l _ => some l
  | .startingEnd l => some l
  | .wakingEnd l => some l
  | .standbyFrameEnd l => some l
  | .sleepingEnd l => some l
  | .lineTestComplete l => some l
  | _ => none

/-- An event is taken: where it comes from outside or is due, it acts; it is no longer due. -/
def takeOne (e : Event) (s : State) : State :=
  if e.external || s.isDue e then act e (s.undue e) else s

/-- The due events that the manual puts before an event: every other event of a line before the line sleeps (R147),
lower-numbered level watches before a higher one (R163). -/
def Event.forerunners (e : Event) (s : State) : List Event :=
  match e with
  | .standbyFrameEnd l => s.due.filter (fun d => d.lineOf? == some l && d != e)
  | .levelWatch n => s.due.filter (fun d =>
      match d with
      | .levelWatch m => decide (m < n)
      | _ => false)
  | _ => []

/-- An event is taken, after those that must come before it. -/
def takeEvent (e : Event) (s : State) : State :=
  if e.external || s.isDue e then takeOne e ((e.forerunners s).foldl (fun s d => takeOne d s) s) else s

/-! ### Frames and settling -/

/-- The frame of line `l` can be formed: it is still to be formed, none of the line's own events waits, and either
it is formed early or nothing at all waits (R154; log 3). -/
def State.frameReady (s : State) (l : Nat) : Bool :=
  let ln := s.line l
  ln.toForm && !s.due.any (fun e => e.lineOf? == some l) && (ln.early || s.due.isEmpty)

/-- Frames are formed where they can be. -/
def closeFrames (s : State) : State :=
  runOver (fun l s => if s.frameReady l then formFrame l s else s) lineNumbers s

/-- The takings that an event can lead to: a capture makes up to eight level watches due (R163), a tick of a talk timer
its warning or its expiry (R81). -/
def Event.takings : Event → Nat
  | .capture => 9
  | .talkTimerTick _ => 2
  | _ => 1

/-- The takings that a list of due events can lead to. -/
def takings (due : List Event) : Nat := (due.map Event.takings).sum

/-- The event at the head of the due events is taken, frames being formed as they can be, and so on until none is due;
at most `n` of them. -/
def drain : Nat → State → State
  | 0, s => s
  | n + 1, s =>
    match s.due with
    | [] => s
    | e :: _ => drain n (closeFrames (takeEvent e s))

/-- The boundary is settled: every event still due is taken, in the order of the list, those that these make due behind
them, and every frame is formed (log 1, 2). -/
@[irreducible] def settle (s : State) : State :=
  let s := closeFrames s
  closeFrames { drain (takings s.due) s with due := [] }

/-- An event as a command: no effect in reset (R186). -/
def runEvent (e : Event) (s : State) : State :=
  if s.sys.inReset.isSome then s else closeFrames (takeEvent e s)

end Sys2Proof.Machine
end

