-- ==== Sys2Proof/Machine/EventCommands.lean ====
section
/-! DEFINITION. BLOCK_BOUNDARY and the events as commands: one meaning for each row, over `boundary` and `runEvent`. -/

namespace Sys2Proof.Machine

open Sys2Proof

/-- BLOCK_BOUNDARY (R99 and every rule of 95's list): the boundary before it is settled, the units take their steps,
the events become due, frames that wait for none of them are formed. No effect in reset (R186). -/
def execBlockBoundary (inp : BoundaryIn) (s : State) : Host.Outcome State Fault Refusal :=
  if s.sys.inReset.isSome then .next s else .next (closeFrames (boundary inp (settle s)))

/-- PRIVACY_ACTIVE_EDGE (R36). -/
def execPrivacyActiveEdge (s : State) : Host.Outcome State Fault Refusal :=
  .next (runEvent .privacyActiveEdge s)

/-- PRIVACY_INACTIVE_EDGE (R37). -/
def execPrivacyInactiveEdge (s : State) : Host.Outcome State Fault Refusal :=
  .next (runEvent .privacyInactiveEdge s)

/-- ALARM_ACTIVE_EDGE (R113). -/
def execAlarmActiveEdge (s : State) : Host.Outcome State Fault Refusal :=
  .next (runEvent .alarmActiveEdge s)

/-- ALARM_INACTIVE_EDGE (R113). -/
def execAlarmInactiveEdge (s : State) : Host.Outcome State Fault Refusal :=
  .next (runEvent .alarmInactiveEdge s)

/-- WAKE_PULSE (R147). -/
def execWakePulse (line : Nat) (s : State) : Host.Outcome State Fault Refusal :=
  .next (runEvent (.wakePulse line) s)

/-- NOISE_FLOOR_RISE (R7). -/
def execNoiseFloorRise (ch : Nat) (s : State) : Host.Outcome State Fault Refusal :=
  .next (runEvent (.noiseFloorRise ch) s)

/-- MUTED_TALK (R41). -/
def execMutedTalk (ch : Nat) (s : State) : Host.Outcome State Fault Refusal :=
  .next (runEvent (.mutedTalk ch) s)

/-- MUTED_TALK_REARM (R42). -/
def execMutedTalkRearm (ch : Nat) (s : State) : Host.Outcome State Fault Refusal :=
  .next (runEvent (.mutedTalkRearm ch) s)

/-- MUTE_SHORT_PRESS (R31). -/
def execMuteShortPress (ch : Nat) (s : State) : Host.Outcome State Fault Refusal :=
  .next (runEvent (.muteShortPress ch) s)

/-- LONG_PRESS (R33). -/
def execLongPress (ch : Nat) (s : State) : Host.Outcome State Fault Refusal :=
  .next (runEvent (.longPress ch) s)

/-- TALK_PRESS (R73). -/
def execTalkPress (ch : Nat) (s : State) : Host.Outcome State Fault Refusal :=
  .next (runEvent (.talkPress ch) s)

/-- FLOOR_REQUEST (R53). -/
def execFloorRequest (ch : Nat) (s : State) : Host.Outcome State Fault Refusal :=
  .next (runEvent (.floorRequest ch) s)

/-- HOLD_EXPIRED (R57). -/
def execHoldExpired (ch : Nat) (s : State) : Host.Outcome State Fault Refusal :=
  .next (runEvent (.holdExpired ch) s)

/-- WAIT_TIMEOUT (R59). -/
def execWaitTimeout (ch : Nat) (s : State) : Host.Outcome State Fault Refusal :=
  .next (runEvent (.waitTimeout ch) s)

/-- WAIT_QUIET_DROP (R59). -/
def execWaitQuietDrop (ch : Nat) (s : State) : Host.Outcome State Fault Refusal :=
  .next (runEvent (.waitQuietDrop ch) s)

/-- GUARD_EXPIRY (R62). -/
def execGuardExpiry (s : State) : Host.Outcome State Fault Refusal :=
  .next (runEvent .guardExpiry s)

/-- LEAVING_REMOVAL (R63). -/
def execLeavingRemoval (ch : Nat) (s : State) : Host.Outcome State Fault Refusal :=
  .next (runEvent (.leavingRemoval ch) s)

/-- TALK_TIMER_TICK (R80). -/
def execTalkTimerTick (ch : Nat) (s : State) : Host.Outcome State Fault Refusal :=
  .next (runEvent (.talkTimerTick ch) s)

/-- TALK_WARN (R81). -/
def execTalkWarn (ch : Nat) (s : State) : Host.Outcome State Fault Refusal :=
  .next (runEvent (.talkWarn ch) s)

/-- TALK_END (R81). -/
def execTalkEnd (ch : Nat) (s : State) : Host.Outcome State Fault Refusal :=
  .next (runEvent (.talkEnd ch) s)

/-- HOWL_LATCH (R114). -/
def execHowlLatch (zone : Nat) (s : State) : Host.Outcome State Fault Refusal :=
  .next (runEvent (.howlLatch zone) s)

/-- RESTORING_END (R122). -/
def execRestoringEnd (s : State) : Host.Outcome State Fault Refusal :=
  .next (runEvent .restoringEnd s)

/-- ROLL_CALL (R133). -/
def execRollCall (line : Nat) (s : State) : Host.Outcome State Fault Refusal :=
  .next (runEvent (.rollCall line) s)

/-- ROLL_CALL_ANSWER (R133). -/
def execRollCallAnswer (line pos : Nat) (rec : Identity) (s : State) : Host.Outcome State Fault Refusal :=
  .next (runEvent (.rollCallAnswer line pos rec) s)

/-- POD_JOIN (R134). -/
def execPodJoin (line pos : Nat) (s : State) : Host.Outcome State Fault Refusal :=
  .next (runEvent (.podJoin line pos) s)

/-- JOIN_FAILED (R134). -/
def execJoinFailed (line pos : Nat) (s : State) : Host.Outcome State Fault Refusal :=
  .next (runEvent (.joinFailed line pos) s)

/-- POD_LOST (R135). -/
def execPodLost (line pos : Nat) (s : State) : Host.Outcome State Fault Refusal :=
  .next (runEvent (.podLost line pos) s)

/-- RING_ACKNOWLEDGED (R155). -/
def execRingAcknowledged (line pos : Nat) (s : State) : Host.Outcome State Fault Refusal :=
  .next (runEvent (.ringAcknowledged line pos) s)

/-- SLEEP_ACKNOWLEDGED (R140). -/
def execSleepAcknowledged (line pos : Nat) (s : State) : Host.Outcome State Fault Refusal :=
  .next (runEvent (.sleepAcknowledged line pos) s)

/-- WAKE_REQUEST (R142). -/
def execWakeRequest (line pos : Nat) (s : State) : Host.Outcome State Fault Refusal :=
  .next (runEvent (.wakeRequest line pos) s)

/-- WAKE_FRAMES_DONE (R141). -/
def execWakeFramesDone (line pos : Nat) (s : State) : Host.Outcome State Fault Refusal :=
  .next (runEvent (.wakeFramesDone line pos) s)

/-- WAKE_FAILED (R141). -/
def execWakeFailed (line pos : Nat) (s : State) : Host.Outcome State Fault Refusal :=
  .next (runEvent (.wakeFailed line pos) s)

/-- STARTING_END (R129). -/
def execStartingEnd (line : Nat) (s : State) : Host.Outcome State Fault Refusal :=
  .next (runEvent (.startingEnd line) s)

/-- WAKING_END (R148). -/
def execWakingEnd (line : Nat) (s : State) : Host.Outcome State Fault Refusal :=
  .next (runEvent (.wakingEnd line) s)

/-- STANDBY_FRAME_END (R147). -/
def execStandbyFrameEnd (line : Nat) (s : State) : Host.Outcome State Fault Refusal :=
  .next (runEvent (.standbyFrameEnd line) s)

/-- SLEEPING_END (R147). -/
def execSleepingEnd (line : Nat) (s : State) : Host.Outcome State Fault Refusal :=
  .next (runEvent (.sleepingEnd line) s)

/-- LINE_TEST_COMPLETE (R146). -/
def execLineTestComplete (line : Nat) (s : State) : Host.Outcome State Fault Refusal :=
  .next (runEvent (.lineTestComplete line) s)

/-- CAPTURE (R160). -/
def execCapture (s : State) : Host.Outcome State Fault Refusal :=
  .next (runEvent .capture s)

/-- LEVEL_WATCH (R163). -/
def execLevelWatch (entry : Nat) (s : State) : Host.Outcome State Fault Refusal :=
  .next (runEvent (.levelWatch entry) s)

/-- TONE_COUNT_END (R167). -/
def execToneCountEnd (s : State) : Host.Outcome State Fault Refusal :=
  .next (runEvent .toneCountEnd s)

/-- SCENE_LOAD_STEP (R173). -/
def execSceneLoadStep (s : State) : Host.Outcome State Fault Refusal :=
  .next (runEvent .sceneLoadStep s)

end Sys2Proof.Machine
end

