-- ==== Sys2Proof/Machine/Operands.lean ====
section
/-! DEFINITION. The operands of requests: optional fields and their ranges (R190), the authority and origin a request
carries (R24, R180), the frame of every request: settling, the ordered checks (R179), the response (R178). -/

namespace Sys2Proof.Machine

open Sys2Proof

/-! ### Optional fields (R190) -/

/-- The presence byte codes a value. -/
def okPresence (f : OptField) : Bool := decide (f.presence ≤ 1)
/-- The field is present. -/
def isGiven (f : OptField) : Bool := f.presence == 1
/-- The presence byte codes a value, and a field present lies within its range. -/
def within (f : OptField) (lo hi : Int) : Bool :=
  okPresence f && (!isGiven f || decide (lo ≤ f.value ∧ f.value ≤ hi))
/-- A yes-or-no field. -/
def yesNo (f : OptField) : Bool := within f 0 1
/-- The value that stands after the request. -/
def orKeep (f : OptField) (old : Int) : Int := if isGiven f then f.value else old
/-- The number that stands after the request. -/
def orKeepN (f : OptField) (old : Nat) : Nat := if isGiven f then f.value.toNat else old
/-- The flag that stands after the request. -/
def orKeepB (f : OptField) (old : Bool) : Bool := if isGiven f then f.value == 1 else old

/-- A yes-or-no byte. -/
def okFlag (v : Nat) : Bool := decide (v ≤ 1)

/-- A gain code (R189): OFF, or half decibels from -60.0 dB to `hi`. -/
def okGain (hi v : Int) : Bool := v == -128 || decide (-120 ≤ v ∧ v ≤ hi)
/-- The gain a code stands for (R189). -/
def gainOf (v : Int) : Gain := if v = -128 then none else some v

/-- A run of `count` numbers from `first` lies below `top` and is not empty (R13, R104, R162). -/
def okRun (top first count : Nat) : Bool := decide (1 ≤ count ∧ first + count ≤ top)

/-! ### Rights (R180) and what a request carries -/

/-- The requests open to the Room Port only. -/
def roomOnly (p : Port) : Bool := p == .room
/-- Grant, Revoke and WaitDrop: the Codec Port has them while FARMOD is yes (R180). -/
def moderates (p : Port) (s : State) : Bool := p == .room || s.sys.farmod
/-- ClaimSet and ClaimRelease: from the Codec Port the chair flag is clear (R24). -/
def claimRight (p : Port) (chairFlag : Nat) : Bool := p == .room || chairFlag == 0

/-- The authority that a claim request carries (R24). -/
def authorityOf (p : Port) (chairFlag : Nat) : Authority :=
  match p with
  | .codec => .far
  | .room => if chairFlag = 0 then .room else .chair
/-- The origin that a claim request carries (R24, R27). -/
def originOf : Port → Origin
  | .room => .roomPort
  | .codec => .codecPort

/-- The number of a target lies in the range of its selector (R23): channels below `top`, groups 0 to 7. -/
def okTarget (top sel num : Nat) : Bool :=
  if sel = 0 then decide (num < top) else if sel = 1 then decide (num < 8) else true

/-! ### The frame of every request (R178, R179) -/

/-- The result of the first check that fails (R179). -/
def firstFail : List (Bool × Result) → Option Result
  | [] => none
  | (ok, r) :: rest => if ok then firstFail rest else some r

/-- The response of a request (R178, R179): the result of the first check that fails, with no body and nothing
else changed, or OK with what `run` does and the body. `body` sees the state before and after. -/
def answer (p : Port) (tag : Byte) (kind : Nat) (checks : State → List (Bool × Result)) (run : State → State)
    (body : State → State → List Byte) (s : State) : State :=
  match firstFail (checks s) with
  | some r => respond p ⟨tag, kind, r, []⟩ s
  | none => respond p ⟨tag, kind, .ok, body s (run s)⟩ (run s)

/-- A request is taken: not in reset (R186); the boundary before it is settled first (log 2). -/
def takeRequest (p : Port) (tag : Byte) (kind : Nat) (checks : State → List (Bool × Result))
    (run : State → State) (body : State → State → List Byte) (s : State) : Host.Outcome State Fault Refusal :=
  if s.sys.inReset.isSome then .next s else .next (answer p tag kind checks run body (settle s))

/-- An OK response with no body. -/
def noBody : State → State → List Byte := fun _ _ => []

end Sys2Proof.Machine
end

