-- ==== Sys2Proof/Machine/ChannelRequests.lean ====
section
/-! DEFINITION. ChannelRead, ChannelWrite, ChairSet, SiteState (chapter 1). -/

namespace Sys2Proof.Machine

open Sys2Proof

/-- CHANNEL_READ (R13): one state of the part gives every record. -/
def execChannelRead (p : Port) (tag : Byte) (first count : Nat) (s : State) : Host.Outcome State Fault Refusal :=
  takeRequest p tag 4 (fun _ => [(decide (first < 42), .range), (okRun 42 first count, .range)]) id
    (fun t _ => listed t.channelRecord (List.range' first count)) s

/-- The fields of ChannelWrite over a channel's setup (R14). -/
def setupOf (k : Channel) (trim zone groups : OptField) : ChannelSetup :=
  ⟨orKeep trim k.trim, orKeepN zone k.zone, if isGiven groups then BitVec.ofInt 8 groups.value else k.groups⟩

/-- CHANNEL_WRITE (R14, R174). -/
def execChannelWrite (p : Port) (tag : Byte) (ch : Nat) (trim zone groups : OptField) (s : State) :
    Host.Outcome State Fault Refusal :=
  takeRequest p tag 5
    (fun _ => [(roomOnly p, .denied), (decide (ch < 42), .range), (within trim (-40) 40, .range),
      (within zone 0 7 && (!isGiven zone || decide (ch < 32)), .range), (okPresence groups, .range)])
    (fun t => refreshRings (writeSetup ch (setupOf (t.chan ch) trim zone groups) .roomPort (touchChannel ch t)))
    noBody s

/-- The channel or NONE that a byte names (R190). -/
def chairOf (v : Nat) : Option Nat := if v = 255 then none else some v

/-- CHAIR_SET (R15). -/
def execChairSet (p : Port) (tag : Byte) (ch : Nat) (s : State) : Host.Outcome State Fault Refusal :=
  takeRequest p tag 6
    (fun _ => [(roomOnly p, .denied), (ch == 255 || decide (ch < 32), .range)])
    (fun t => refreshRings (changeChair (chairOf ch) t)) noBody s

/-- SITE_STATE (R16). -/
def execSiteState (p : Port) (tag : Byte) (site connected : Nat) (s : State) :
    Host.Outcome State Fault Refusal :=
  takeRequest p tag 22
    (fun _ => [(decide (site < 8), .range), (okFlag connected, .range)])
    (fun t => t.modChan (32 + site) (fun k => { k with siteUp := connected == 1 })) noBody s

end Sys2Proof.Machine
end

