-- ==== Sys2Proof/Machine/ClaimRequests.lean ====
section
/-! DEFINITION. The requests of the Claim Unit (chapter 2). -/

namespace Sys2Proof.Machine

open Sys2Proof

/-- One authority's claim placed or removed on the channels named, as a run (R22). -/
def claimRun (a : Authority) (b : Bool) (o : Origin) (sel num : Nat) (t : State) : State :=
  refreshRings (runOver (putClaim a b (some o)) (t.named sel num) t)

/-- The checks of ClaimSet and ClaimRelease (R24, R25). -/
def claimChecks (p : Port) (sel num chairFlag : Nat) : List (Bool × Result) :=
  [(claimRight p chairFlag, .denied), (decide (sel ≤ 1), .range), (okTarget 42 sel num, .range),
    (okFlag chairFlag, .range)]

/-- CLAIM_SET (R24). -/
def execClaimSet (p : Port) (tag : Byte) (sel num chairFlag : Nat) (s : State) :
    Host.Outcome State Fault Refusal :=
  takeRequest p tag 7 (fun _ => claimChecks p sel num chairFlag)
    (claimRun (authorityOf p chairFlag) true (originOf p) sel num) noBody s

/-- CLAIM_RELEASE (R25). -/
def execClaimRelease (p : Port) (tag : Byte) (sel num chairFlag : Nat) (s : State) :
    Host.Outcome State Fault Refusal :=
  takeRequest p tag 8 (fun _ => claimChecks p sel num chairFlag)
    (claimRun (authorityOf p chairFlag) false (originOf p) sel num) noBody s

/-- Every claim but PRIVACY removed from one channel (R26). A set that empties is unmuted with its hand lowered (R21, R26)
even where a FAR claim comes next, for which row 1 of R28 says 'muted throughout': the model's choice (log 44). -/
def clearChannel (c : Nat) (s : State) : State := changeClaims c (s.claims c).onlyPrivacy (some .roomPort) s

/-- CLAIMS_CLEAR (R26). -/
def execClaimsClear (p : Port) (tag : Byte) (sel num : Nat) (s : State) : Host.Outcome State Fault Refusal :=
  takeRequest p tag 9
    (fun _ => [(roomOnly p, .denied), (decide (sel ≤ 2), .range), (okTarget 42 sel num, .range)])
    (fun t => refreshRings (runOver clearChannel (t.named sel num) t)) noBody s

/-- FAR_CLEAR (R27). -/
def execFarClear (p : Port) (tag : Byte) (s : State) : Host.Outcome State Fault Refusal :=
  takeRequest p tag 10 (fun _ => []) (claimRun .far false (originOf p) 2 0) noBody s

/-- HAND_LOWER (R29). -/
def execHandLower (p : Port) (tag : Byte) (sel num : Nat) (s : State) : Host.Outcome State Fault Refusal :=
  takeRequest p tag 11 (fun _ => [(decide (sel ≤ 1), .range), (okTarget 32 sel num, .range)])
    (fun t => refreshRings (runOver (fun c => lowerHand c (.request p))
      ((t.named sel num).filter (fun c => decide (c < 32))) t)) noBody s

/-- The fields of PrivacyConfig act (R38). -/
def configurePrivacy (group auto : OptField) (s : State) : State :=
  let old := s.privacy
  let new : Privacy := { old with
    group := orKeepN group old.group, autoRelease := orKeepB auto old.autoRelease }
  let s := { s with privacy := new }
  if new.group = old.group then s
  else if old.state = .on then refreshRings (matchPrivacy s)
  else s

/-- PRIVACY_CONFIG (R38). -/
def execPrivacyConfig (p : Port) (tag : Byte) (group auto : OptField) (s : State) :
    Host.Outcome State Fault Refusal :=
  takeRequest p tag 12
    (fun _ => [(roomOnly p, .denied), (within group 0 7, .range), (yesNo auto, .range)])
    (configurePrivacy group auto) noBody s

/-- PRIVACY_RELEASE (R39). -/
def execPrivacyRelease (p : Port) (tag : Byte) (s : State) : Host.Outcome State Fault Refusal :=
  takeRequest p tag 13
    (fun t => [(roomOnly p, .denied), (t.privacy.state != .on, .held)])
    (fun t => if t.privacy.state = .retained then refreshRings (releasePrivacy t) else t) noBody s

end Sys2Proof.Machine
end

