-- ==== Sys2Proof/Machine/FloorRequests.lean ====
section
/-! DEFINITION. The requests of the Floor Controller (chapters 3 and 4). -/

namespace Sys2Proof.Machine

open Sys2Proof

/-- The floor mode that a byte names (R190). -/
def modeOf (v : Nat) : FloorMode := if v = 0 then .voice else .queue

/-- MODE_SET (R83). -/
def execModeSet (p : Port) (tag : Byte) (mode : Nat) (s : State) : Host.Outcome State Fault Refusal :=
  takeRequest p tag 14 (fun _ => [(roomOnly p, .denied), (decide (mode ≤ 1), .range)])
    (fun t => refreshRings (changeMode (modeOf mode) t)) noBody s

/-- The floor quantities that stand after a FloorConfig (R69). -/
def floorCfgOf (f : FloorFields) (g : FloorCfg) : FloorCfg where
  maxOpen := orKeepN f.maxOpen g.maxOpen
  openMargin := orKeepN f.openMargin g.openMargin
  closeMargin := orKeepN f.closeMargin g.closeMargin
  attack := orKeepN f.attack g.attack
  holdTime := orKeepN f.holdTime g.holdTime
  waitMax := orKeepN f.waitMax g.waitMax
  guard := orKeepN f.guard g.guard
  lastMic := orKeepB f.lastMic g.lastMic
  ramp := orKeepN f.ramp g.ramp
  talkLimit := orKeepN f.talkLimit g.talkLimit
  talkWarn := orKeepN f.talkWarn g.talkWarn
  autoGrant := orKeepB f.autoGrant g.autoGrant
  chairDuck := orKeepN f.chairDuck g.chairDuck

/-- Each field present lies within its range (R69). -/
def floorFieldsOk (f : FloorFields) : Bool :=
  within f.maxOpen 1 6 && within f.openMargin 3 30 && within f.closeMargin 2 20 && within f.attack 1 50
    && within f.holdTime 100 5000 && within f.waitMax 100 5000 && within f.guard 0 20 && yesNo f.lastMic
    && within f.ramp 1 64
    && within f.talkLimit 0 3600 && (!isGiven f.talkLimit || f.talkLimit.value == 0 || decide (10 ≤ f.talkLimit.value))
    && within f.talkWarn 5 60 && yesNo f.autoGrant && within f.chairDuck 0 60

/-- FLOOR_CONFIG (R69). -/
def execFloorConfig (p : Port) (tag : Byte) (f : FloorFields) (s : State) : Host.Outcome State Fault Refusal :=
  takeRequest p tag 15
    (fun t =>
      let new := floorCfgOf f t.floor.cfg
      [(roomOnly p, .denied), (floorFieldsOk f, .range),
        (new.talkLimit == 0 || decide (new.talkWarn < new.talkLimit), .range),
        (decide (t.floor.list.length ≤ new.maxOpen), .state)])
    (fun t => refreshRings (writeFloorCfg (floorCfgOf f t.floor.cfg) t)) (fun _ t => t.floor.cfg.bytes) s

/-- The entry that a Grant with the evict flag would evict (R76). -/
def Floor.grantVictim (f : Floor) (evict : Nat) : Option FloorEntry :=
  if evict = 1 ∧ f.leavingRoom then f.oldestHeard else none

/-- A Grant of a waiting channel (R76). -/
def grantFloor (c ev : Nat) (s : State) : State :=
  if s.floor.placeFree then
    afterFloor (floorChange c .waiting .opened .granted (joinFloor c .opened (s.modFloor (fun f => f.dropWait c))))
  else
    match s.floor.grantVictim ev with
    | some e => afterFloor (evict e.ch c .granted s)
    | none => s

/-- GRANT (R76). -/
def execGrant (p : Port) (tag : Byte) (ch evict : Nat) (s : State) : Host.Outcome State Fault Refusal :=
  takeRequest p tag 16
    (fun t => [(moderates p t, .denied), (decide (ch < 32), .range), (okFlag evict, .range),
      ((t.floor.waiting? ch).isSome, .state),
      (t.floor.placeFree || (t.floor.grantVictim evict).isSome, .full)])
    (fun t => refreshRings (grantFloor ch evict t)) (fun _ t => u8 (t.gate ch).code) s

/-- REVOKE (R77). -/
def execRevoke (p : Port) (tag : Byte) (ch : Nat) (s : State) : Host.Outcome State Fault Refusal :=
  takeRequest p tag 17
    (fun t => [(moderates p t, .denied), (decide (ch < 32), .range), ((t.floor.entry? ch).isSome, .state)])
    (fun t => refreshRings (leaveList ch .revoked t)) noBody s

/-- WAIT_DROP (R78). -/
def execWaitDrop (p : Port) (tag : Byte) (ch : Nat) (s : State) : Host.Outcome State Fault Refusal :=
  takeRequest p tag 18
    (fun t => [(moderates p t, .denied), (decide (ch < 32), .range), ((t.floor.waiting? ch).isSome, .state)])
    (fun t => refreshRings (dropWaiting ch (.request p) t)) noBody s

end Sys2Proof.Machine
end

