-- ==== Sys2Proof/Machine/LineRequests.lean ====
section
/-! DEFINITION. The requests of the Line Controllers (chapter 7). -/

namespace Sys2Proof.Machine

open Sys2Proof

/-- The line and position of a request are there (R140). -/
def okPos (line pos : Nat) : Bool := decide (line < 4 ∧ pos < 8)

/-- LINE_START (R129). -/
def execLineStart (p : Port) (tag : Byte) (line : Nat) (s : State) : Host.Outcome State Fault Refusal :=
  takeRequest p tag 34
    (fun t => [(roomOnly p, .denied), (decide (line < 4), .range), (t.sys.power == .running, .state),
      ((t.line line).state == .off, .state)])
    (fun t => t.modLine line (fun ln => ln.enter .starting Config.syncFrames)) noBody s

/-- LINE_STOP (R145). -/
def execLineStop (p : Port) (tag : Byte) (line : Nat) (s : State) : Host.Outcome State Fault Refusal :=
  takeRequest p tag 35 (fun _ => [(roomOnly p, .denied), (decide (line < 4), .range)])
    (fun t => refreshRings (stopLine line t)) noBody s

/-- LINE_TEST (R146). -/
def execLineTest (p : Port) (tag : Byte) (line frames : Nat) (s : State) : Host.Outcome State Fault Refusal :=
  takeRequest p tag 36
    (fun t => [(roomOnly p, .denied), (decide (line < 4), .range), (decide (1 ≤ frames ∧ frames ≤ 10000), .range),
      (t.sys.power == .running, .state), ((t.line line).state == .off, .state)])
    (fun t => t.modLine line (fun ln => { ln.enter .testing frames with sent := 0, mismatch := 0 })) noBody s

/-- POD_SLEEP (R140). -/
def execPodSleep (p : Port) (tag : Byte) (line pos : Nat) (s : State) : Host.Outcome State Fault Refusal :=
  takeRequest p tag 37
    (fun t => [(roomOnly p, .denied), (okPos line pos, .range), ((t.line line).state == .running, .state),
      ((t.position (podOf line pos)).state == .online || (t.position (podOf line pos)).state == .joining, .state)])
    (fun t => t.place line (.position pos) .sleep) noBody s

/-- POD_WAKE (R141): the entry counts 12 frames, and no wake timer runs. -/
def execPodWake (p : Port) (tag : Byte) (line pos : Nat) (s : State) : Host.Outcome State Fault Refusal :=
  takeRequest p tag 38
    (fun t => [(roomOnly p, .denied), (okPos line pos, .range), ((t.line line).state == .running, .state),
      ((t.position (podOf line pos)).state == .asleep, .state)])
    (fun t => (t.place line (.position pos) (.wake Config.wakeFrames)).modPos (podOf line pos)
      (fun q => { q with wakeTimer := none })) noBody s

/-- POD_COUNTERS (R143). -/
def execPodCounters (p : Port) (tag : Byte) (line pos : Nat) (s : State) : Host.Outcome State Fault Refusal :=
  takeRequest p tag 39 (fun _ => [(roomOnly p, .denied), (okPos line pos, .range)])
    (fun t => t.modPos (podOf line pos) (fun q => { q with checkFails := 0, missed := 0, rejoins := 0 }))
    (fun t _ => (t.position (podOf line pos)).counterBody) s

/-- POD_IDENTITY (R144). -/
def execPodIdentity (p : Port) (tag : Byte) (line pos : Nat) (s : State) : Host.Outcome State Fault Refusal :=
  takeRequest p tag 40 (fun _ => [(roomOnly p, .denied), (okPos line pos, .range)]) id
    (fun t _ => u8 (t.line line).state.code ++ u8 (t.position (podOf line pos)).state.code
      ++ identityField (t.position (podOf line pos)).identity) s

end Sys2Proof.Machine
end

