-- ==== Sys2Proof/Machine/MeterRequests.lean ====
section
/-! DEFINITION. The requests of the Meter Unit and the Tone Generator (chapter 9). -/

namespace Sys2Proof.Machine

open Sys2Proof

/-- The capture window written (R161). -/
def writeWindow (window : OptField) (s : State) : State :=
  let w := orKeepN window s.meters.window
  if w = s.meters.window then s
  else
    { s with meters := { s.meters with
        window := w, counter := 0, points := s.meters.points.mapIdx (fun _ m => { m with running := -96 }) } }

/-- METER_CONFIG (R161). -/
def execMeterConfig (p : Port) (tag : Byte) (window : OptField) (s : State) :
    Host.Outcome State Fault Refusal :=
  takeRequest p tag 23
    (fun _ => [(roomOnly p, .denied),
      (okPresence window && (!isGiven window || window.value == 1 || window.value == 4 || window.value == 16), .range)])
    (writeWindow window) (fun _ t => u8 t.meters.window) s

/-- The flags of the points returned are cleared (R162). -/
def readPoints (first count : Nat) (s : State) : State :=
  { s with meters := { s.meters with
      points := s.meters.points.mapIdx (fun i m =>
        if first ≤ i ∧ i < first + count then { m with fresh := false, overrun := false } else m) } }

/-- METER_READ (R162). -/
def execMeterRead (p : Port) (tag : Byte) (first count : Nat) (s : State) : Host.Outcome State Fault Refusal :=
  takeRequest p tag 24 (fun _ => [(decide (first < 59), .range), (okRun 59 first count, .range)])
    (readPoints first count) (fun t _ => t.meterBody first count) s

/-- The entry that a WatchSet writes (R164). -/
def watchOf (point : Nat) (threshold : Int) (direction count arm : Nat) : Watch :=
  ⟨point, threshold, if direction = 0 then .above else .below, count, arm == 1, 0⟩

/-- WATCH_SET (R164). -/
def execWatchSet (p : Port) (tag : Byte) (entry point : Nat) (threshold : Int) (direction count arm : Nat)
    (s : State) : Host.Outcome State Fault Refusal :=
  takeRequest p tag 25
    (fun _ => [(roomOnly p, .denied), (decide (entry < 8), .range), (decide (point < 59), .range),
      (decide (-96 ≤ threshold ∧ threshold ≤ 0), .range), (decide (direction ≤ 1), .range),
      (decide (1 ≤ count ∧ count ≤ 1000), .range), (okFlag arm, .range)])
    (fun t => { t with meters := { t.meters with
        watches := t.meters.watches.set entry (watchOf point threshold direction count arm) } }) noBody s

/-- The context that a ToneStart writes (R166). -/
def toneOf (kind num freq : Nat) (level : Int) (mode count : Nat) : Tone where
  running := true
  target := if kind = 0 then .channel num else .output num
  freq := freq
  level := level
  burst := mode == 0
  remaining := if mode = 0 then some count else none
  generated := 0
  phase := 0

/-- TONE_START (R166). -/
def execToneStart (p : Port) (tag : Byte) (kind num freq : Nat) (level : Int) (mode count : Nat) (s : State) :
    Host.Outcome State Fault Refusal :=
  takeRequest p tag 29
    (fun t => [(roomOnly p, .denied), (decide (kind ≤ 1), .range),
      (decide (num < if kind = 0 then 42 else 17), .range),
      (freq == 250 || freq == 1000 || freq == 2000 || freq == 4000, .range),
      (decide (-60 ≤ level ∧ level ≤ 0), .range), (decide (mode ≤ 1), .range),
      (mode == 1 || decide (1 ≤ count ∧ count ≤ 10000), .range),
      (t.sys.power == .running, .state), (!t.tone.running, .state)])
    (fun t => refreshRings { t with tone := toneOf kind num freq level mode count }) noBody s

/-- TONE_STOP (R168). -/
def execToneStop (p : Port) (tag : Byte) (s : State) : Host.Outcome State Fault Refusal :=
  takeRequest p tag 30 (fun _ => [(roomOnly p, .denied)]) (fun t => refreshRings (endTone .stopped t)) noBody s

end Sys2Proof.Machine
end

