-- ==== Sys2Proof/Machine/MixRequests.lean ====
section
/-! DEFINITION. The requests of the Mix Engine (chapter 5). -/

namespace Sys2Proof.Machine

open Sys2Proof

/-- CROSSPOINT_READ (R104). -/
def execCrosspointRead (p : Port) (tag : Byte) (out first count : Nat) (s : State) :
    Host.Outcome State Fault Refusal :=
  takeRequest p tag 19
    (fun _ => [(decide (out < 17), .range), (decide (first < 42), .range), (okRun 42 first count, .range)]) id
    (fun t _ => t.crosspointBody out first count) s

/-- No channel of the run that is masked is given a gain (R105). -/
def noSelf (t : State) (out first : Nat) (values : List Int) : Bool :=
  (List.range values.length).all (fun i =>
    !t.maskedNow out (first + i) || values.getD i 0 == -128)

/-- The values of a run are written in one row (R105). -/
def writeRun (out first : Nat) (values : List Int) (s : State) : State :=
  { s with mix := { s.mix with
      xp := runOver (fun i x => x.set (42 * out + (first + i)) (gainOf (values.getD i 0)))
        (List.range values.length) s.mix.xp } }

/-- CROSSPOINT_WRITE (R105, R174). -/
def execCrosspointWrite (p : Port) (tag : Byte) (out first count : Nat) (values : List Int) (s : State) :
    Host.Outcome State Fault Refusal :=
  takeRequest p tag 20
    (fun t => [(roomOnly p, .denied), (values.length == count, .malformed), (decide (out < 17), .range),
      (decide (first < 42), .range), (okRun 42 first count, .range), (values.all (okGain 0), .range),
      (noSelf t out first values, .self)])
    (fun t => writeRun out first values (touchRow out t)) noBody s

/-- BUS_GAIN_WRITE (R106, R174). -/
def execBusGainWrite (p : Port) (tag : Byte) (out : Nat) (value : Int) (s : State) :
    Host.Outcome State Fault Refusal :=
  takeRequest p tag 21
    (fun _ => [(roomOnly p, .denied), (decide (out < 17), .range), (okGain 24 value, .range)])
    (fun t =>
      let t := touchRow out t
      { t with mix := { t.mix with bus := t.mix.bus.set out (gainOf value) } }) noBody s

end Sys2Proof.Machine
end

