-- ==== Sys2Proof/Machine/PortRequests.lean ====
section
/-! DEFINITION. The requests of chapter 11, the other transactions of a port, and the resets. -/

namespace Sys2Proof.Machine

open Sys2Proof

/-- STATUS (R181): the requesting port's loss flag is cleared. -/
def execStatus (p : Port) (tag : Byte) (s : State) : Host.Outcome State Fault Refusal :=
  takeRequest p tag 1 (fun _ => []) (fun t => t.modPort p (fun ps => { ps with loss := false }))
    (fun t _ => t.statusBody p) s

/-- The body of NoticeRead's response (R183). -/
def noticeBody (ps : PortState) (count : Nat) : List Byte :=
  listed Notice.bytes (ps.queue.take count) ++ u8 (ps.queue.drop count).length ++ flag ps.loss

/-- NOTICE_READ (R183). -/
def execNoticeRead (p : Port) (tag : Byte) (count : Nat) (s : State) : Host.Outcome State Fault Refusal :=
  takeRequest p tag 2 (fun _ => [(decide (1 ≤ count ∧ count ≤ 8), .range)])
    (fun t => t.modPort p (fun ps => { ps with queue := ps.queue.drop count }))
    (fun t _ => noticeBody (t.port p) count) s

/-- The notice mask that stands after the request (R183); members that name no kind are ignored (log 16). -/
def noticeMaskOf (mask : OptField) (old : BitVec 26) : BitVec 26 :=
  if isGiven mask then BitVec.ofInt 26 mask.value else old

/-- NOTICE_MASK (R183). -/
def execNoticeMask (p : Port) (tag : Byte) (mask : OptField) (s : State) : Host.Outcome State Fault Refusal :=
  takeRequest p tag 3 (fun _ => [(okPresence mask, .range)])
    (fun t => t.modPort p (fun ps => { ps with mask := noticeMaskOf mask ps.mask }))
    (fun _ t => u32 (t.port p).mask.toNat) s

/-- POWER_STANDBY (R184). -/
def execPowerStandby (p : Port) (tag : Byte) (autowake : Nat) (s : State) : Host.Outcome State Fault Refusal :=
  takeRequest p tag 41 (fun _ => [(roomOnly p, .denied), (okFlag autowake, .range)])
    (fun t => refreshRings (standby (autowake == 1) t)) noBody s

/-- POWER_WAKE (R185). -/
def execPowerWake (p : Port) (tag : Byte) (s : State) : Host.Outcome State Fault Refusal :=
  takeRequest p tag 42 (fun _ => [(roomOnly p, .denied)]) (wake .request) noBody s

/-- CONFERENCE_CLEAR (R187). -/
def execConferenceClear (p : Port) (tag : Byte) (s : State) : Host.Outcome State Fault Refusal :=
  takeRequest p tag 43 (fun _ => [(roomOnly p, .denied)]) (fun t => refreshRings (clearConference t)) noBody s

/-- RIGHTS_SET (R180). -/
def execRightsSet (p : Port) (tag : Byte) (farmod : Nat) (s : State) : Host.Outcome State Fault Refusal :=
  takeRequest p tag 44 (fun _ => [(roomOnly p, .denied), (okFlag farmod, .range)])
    (fun t => { t with sys := { t.sys with farmod := farmod == 1 } }) noBody s

/-- The frame that a read transaction clocks out (R178). -/
def PortState.readFrame (ps : PortState) : List Byte :=
  match ps.slot with
  | some r => if ps.read then emptyFrame else r.frame
  | none => emptyFrame

/-- A read transaction of `n` bytes (R178; log 23). -/
def PortState.readOut (ps : PortState) (n : Nat) : PortState :=
  { ps with
    dataOut := ps.readFrame.take n
    read := ps.read || (ps.slot.isSome && decide (ps.readFrame.length ≤ n)) }

/-- READ_TRANSACTION (R178). -/
def execReadTransaction (p : Port) (clocked : Nat) (s : State) : Host.Outcome State Fault Refusal :=
  if s.sys.inReset.isSome then .next s else .next (s.modPort p (fun ps => ps.readOut clocked))

/-- TRANSACTION_IGNORED (R178): data out carries all ones, the slot is not touched. -/
def execTransactionIgnored (p : Port) (_first : Byte) (clocked : Nat) (s : State) :
    Host.Outcome State Fault Refusal :=
  if s.sys.inReset.isSome then .next s
  else .next (s.modPort p (fun ps => { ps with dataOut := List.replicate clocked 255 }))

/-- POWER_ON_RESET (R186): the end of power-on reset, with the level inputs as they stand; within a pin reset it has
no effect of its own (log 24). -/
def execPowerOnReset (privacyActive alarmActive : Bool) (s : State) : Host.Outcome State Fault Refusal :=
  if s.sys.inReset = some .pin then .next s
  else .next (State.afterReset .power privacyActive alarmActive emptySlots s.sys.free s.pending)

/-- PIN_RESET (R186): the end of pin reset; within a power-on reset it has no effect of its own. -/
def execPinReset (privacyActive alarmActive : Bool) (s : State) : Host.Outcome State Fault Refusal :=
  if s.sys.inReset = some .power then .next s
  else .next (State.afterReset .pin privacyActive alarmActive s.scenes.slots s.sys.free s.pending)

/-- RESET_PIN_ASSERTED (R186): a reset that begins while another is in force has no effect of its own. -/
def execResetPinAsserted (s : State) : Host.Outcome State Fault Refusal :=
  if s.sys.inReset.isSome then .next s else .next (beginReset .pin s)

end Sys2Proof.Machine
end

