-- ==== Sys2Proof/Machine/SceneRequests.lean ====
section
/-! DEFINITION. The requests of the Scene Unit (chapter 10). -/

namespace Sys2Proof.Machine

open Sys2Proof

/-- A load is in progress from the slot (R171). -/
def State.loadsFrom (s : State) (slot : Nat) : Bool := s.scenes.load.any (fun ld => ld.slot == slot)

/-- SCENE_STORE (R171). A parts set with a member that names no part gives RANGE (log 38). -/
def execSceneStore (p : Port) (tag : Byte) (slot parts : Nat) (s : State) : Host.Outcome State Fault Refusal :=
  takeRequest p tag 31
    (fun t => [(roomOnly p, .denied), (decide (slot < 16), .range), (decide (1 ≤ parts ∧ parts < 16), .range),
      (!t.loadsFrom slot, .state)])
    (fun t => { t with scenes := { t.scenes with
        slots := t.scenes.slots.set slot (some (t.sceneRecord (BitVec.ofNat 4 parts))) } })
    (fun _ _ => u8 slot ++ u8 parts) s

/-- SceneLoad acts where its slot holds a record (R172). -/
def loadScene (slot : Nat) (s : State) : State :=
  match s.scenes.slots.get slot with
  | some r => startLoad slot r s
  | none => s

/-- SCENE_LOAD (R172). -/
def execSceneLoad (p : Port) (tag : Byte) (slot : Nat) (s : State) : Host.Outcome State Fault Refusal :=
  takeRequest p tag 32
    (fun t => [(roomOnly p, .denied), (decide (slot < 16), .range), (t.sys.power == .running, .state),
      ((t.scenes.slots.get slot).isSome, .state)])
    (loadScene slot)
    (fun t _ => u8 slot ++ u8 (match t.scenes.slots.get slot with
      | some r => r.steps
      | none => 0)) s

/-- SCENE_ABORT (R176). -/
def execSceneAbort (p : Port) (tag : Byte) (s : State) : Host.Outcome State Fault Refusal :=
  takeRequest p tag 33 (fun _ => [(roomOnly p, .denied)]) (endLoad .sceneAbort) noBody s

end Sys2Proof.Machine
end

