-- ==== Sys2Proof/Machine/SilenceRequests.lean ====
section
/-! DEFINITION. The requests of the Silence Controller (chapter 6). -/

namespace Sys2Proof.Machine

open Sys2Proof

/-- The scope that a field's value names (R190). -/
def scopeOf (f : OptField) (old : Scope) : Scope := if isGiven f then (if f.value = 0 then .all else .a) else old
/-- The content that a field's value names (R190). -/
def contentOf (f : OptField) (old : Content) : Content :=
  if isGiven f then (if f.value = 0 then .mute else if f.value = 1 then .program else .alert) else old
/-- The output mask that a field's value names (R190). -/
def maskOf (f : OptField) (old : BitVec 17) : BitVec 17 := if isGiven f then BitVec.ofInt 17 f.value else old

/-- The settings that stand after a SilenceConfig (R124). -/
def silenceCfgOf (f : SilenceFields) (g : SilenceCfg) : SilenceCfg where
  alarmEnable := orKeepB f.alarmEnable g.alarmEnable
  howlEnable := orKeepB f.howlEnable g.howlEnable
  requestEnable := orKeepB f.requestEnable g.requestEnable
  alarmScope := scopeOf f.alarmScope g.alarmScope
  howlScope := scopeOf f.howlScope g.howlScope
  requestScope := scopeOf f.requestScope g.requestScope
  maskA := maskOf f.maskA g.maskA
  maskB := maskOf f.maskB g.maskB
  contentA := contentOf f.contentA g.contentA
  contentB := contentOf f.contentB g.contentB
  howlLevel := orKeep f.howlLevel g.howlLevel
  howlBlocks := orKeepN f.howlBlocks g.howlBlocks
  autoRestore := orKeepB f.autoRestore g.autoRestore

/-- Each field present lies within its range (R124). -/
def silenceFieldsOk (f : SilenceFields) : Bool :=
  yesNo f.alarmEnable && yesNo f.howlEnable && yesNo f.requestEnable
    && within f.alarmScope 0 1 && within f.howlScope 0 1 && within f.requestScope 0 1
    && within f.maskA 0 131071 && within f.maskB 0 131071 && within f.contentA 0 2 && within f.contentB 0 2
    && within f.howlLevel (-20) 0 && within f.howlBlocks 50 2000 && yesNo f.autoRestore

/-- SILENCE_CONFIG (R124, R125). -/
def execSilenceConfig (p : Port) (tag : Byte) (f : SilenceFields) (s : State) :
    Host.Outcome State Fault Refusal :=
  takeRequest p tag 26 (fun _ => [(roomOnly p, .denied), (silenceFieldsOk f, .range)])
    (fun t => refreshRings (writeSilenceCfg (silenceCfgOf f t.silence.cfg) t)) (fun _ t => t.silence.cfg.bytes) s

/-- SILENCE_RAISE (R115). -/
def execSilenceRaise (p : Port) (tag : Byte) (s : State) : Host.Outcome State Fault Refusal :=
  takeRequest p tag 27 (fun t => [(t.silence.cfg.requestEnable, .state)])
    (fun t => refreshRings (raiseSilence p t)) noBody s

/-- SILENCE_RESTORE (R121). -/
def execSilenceRestore (p : Port) (tag : Byte) (s : State) : Host.Outcome State Fault Refusal :=
  takeRequest p tag 28 (fun t => [(roomOnly p, .denied), (!t.silence.alarm, .held)])
    (fun t => refreshRings (restoreSilence p t)) noBody s

end Sys2Proof.Machine
end

