-- ==== Sys2Proof/Machine/FrameRequests.lean ====
section
/-! DEFINITION. A request frame given as bytes (R179, R189, R190): malformed, of an unknown kind, or read as the
request it spells (log 31). -/

namespace Sys2Proof.Machine

open Sys2Proof

/-! ### Reading fields -/

/-- The number without sign in `n` bytes at byte `i`. -/
def numAt (bs : List Byte) (i n : Nat) : Nat := ofBytes ((bs.drop i).take n)
/-- The signed byte at byte `i`. -/
def signedAt (bs : List Byte) (i : Nat) : Int := (bs.getD i 0).toInt
/-- The optional field of `n` bytes without sign at byte `i` (R190). -/
def optAt (bs : List Byte) (i n : Nat) : OptField := ⟨numAt bs i 1, numAt bs (i + 1) n⟩
/-- The optional signed byte at byte `i` (R190). -/
def optSignedAt (bs : List Byte) (i : Nat) : OptField := ⟨numAt bs i 1, signedAt bs (i + 1)⟩

/-- The fields of FloorConfig (R69). -/
def floorFieldsAt (bs : List Byte) : FloorFields :=
  ⟨optAt bs 0 1, optAt bs 2 1, optAt bs 4 1, optAt bs 6 1, optAt bs 8 2, optAt bs 11 2, optAt bs 14 1, optAt bs 16 1,
    optAt bs 18 1, optAt bs 20 2, optAt bs 23 1, optAt bs 25 1, optSignedAt bs 27⟩

/-- The fields of SilenceConfig (R124). -/
def silenceFieldsAt (bs : List Byte) : SilenceFields :=
  ⟨optAt bs 0 1, optAt bs 2 1, optAt bs 4 1, optAt bs 6 1, optAt bs 8 1, optAt bs 10 1, optAt bs 12 3, optAt bs 16 3,
    optAt bs 20 1, optAt bs 22 1, optSignedAt bs 24, optAt bs 26 2, optAt bs 29 1⟩

/-- The length of the body of each kind (R190); a run's length follows its count. -/
def bodyLength (kind : Nat) (body : List Byte) : Nat :=
  match kind with
  | 2 => 1
  | 3 => 5
  | 4 => 2
  | 5 => 7
  | 6 => 1
  | 7 => 3
  | 8 => 3
  | 9 => 2
  | 11 => 2
  | 12 => 4
  | 14 => 1
  | 15 => 29
  | 16 => 2
  | 17 => 1
  | 18 => 1
  | 19 => 3
  | 20 => 3 + numAt body 2 1
  | 21 => 2
  | 22 => 2
  | 23 => 2
  | 24 => 2
  | 25 => 7
  | 26 => 31
  | 29 => 8
  | 31 => 2
  | 32 => 1
  | 34 => 1
  | 35 => 1
  | 36 => 3
  | 37 => 2
  | 38 => 2
  | 39 => 2
  | 40 => 2
  | 41 => 1
  | 44 => 1
  | _ => 0

/-- The kinds that the Codec Port may use (R180); Grant, Revoke and WaitDrop while FARMOD is yes. -/
def codecKind (kind : Nat) (farmod : Bool) : Bool :=
  [1, 2, 3, 4, 7, 8, 10, 11, 22, 24, 19, 27].contains kind || (farmod && [16, 17, 18].contains kind)

/-- The rights check by kind (R180). -/
def kindRight (p : Port) (kind : Nat) (s : State) : Bool := p == .room || codecKind kind s.sys.farmod

/-- A body of the right length taken as the request it spells, field by field in the order of R190. -/
def takeBody (p : Port) (tag : Byte) (kind : Nat) (b : List Byte) (s : State) :
    Host.Outcome State Fault Refusal :=
  match kind with
  | 1 => execStatus p tag s
  | 2 => execNoticeRead p tag (numAt b 0 1) s
  | 3 => execNoticeMask p tag (optAt b 0 4) s
  | 4 => execChannelRead p tag (numAt b 0 1) (numAt b 1 1) s
  | 5 => execChannelWrite p tag (numAt b 0 1) (optSignedAt b 1) (optAt b 3 1) (optAt b 5 1) s
  | 6 => execChairSet p tag (numAt b 0 1) s
  | 7 => execClaimSet p tag (numAt b 0 1) (numAt b 1 1) (numAt b 2 1) s
  | 8 => execClaimRelease p tag (numAt b 0 1) (numAt b 1 1) (numAt b 2 1) s
  | 9 => execClaimsClear p tag (numAt b 0 1) (numAt b 1 1) s
  | 10 => execFarClear p tag s
  | 11 => execHandLower p tag (numAt b 0 1) (numAt b 1 1) s
  | 12 => execPrivacyConfig p tag (optAt b 0 1) (optAt b 2 1) s
  | 13 => execPrivacyRelease p tag s
  | 14 => execModeSet p tag (numAt b 0 1) s
  | 15 => execFloorConfig p tag (floorFieldsAt b) s
  | 16 => execGrant p tag (numAt b 0 1) (numAt b 1 1) s
  | 17 => execRevoke p tag (numAt b 0 1) s
  | 18 => execWaitDrop p tag (numAt b 0 1) s
  | 19 => execCrosspointRead p tag (numAt b 0 1) (numAt b 1 1) (numAt b 2 1) s
  | 20 => execCrosspointWrite p tag (numAt b 0 1) (numAt b 1 1) (numAt b 2 1) ((b.drop 3).map BitVec.toInt) s
  | 21 => execBusGainWrite p tag (numAt b 0 1) (signedAt b 1) s
  | 22 => execSiteState p tag (numAt b 0 1) (numAt b 1 1) s
  | 23 => execMeterConfig p tag (optAt b 0 1) s
  | 24 => execMeterRead p tag (numAt b 0 1) (numAt b 1 1) s
  | 25 => execWatchSet p tag (numAt b 0 1) (numAt b 1 1) (signedAt b 2) (numAt b 3 1) (numAt b 4 2) (numAt b 6 1) s
  | 26 => execSilenceConfig p tag (silenceFieldsAt b) s
  | 27 => execSilenceRaise p tag s
  | 28 => execSilenceRestore p tag s
  | 29 => execToneStart p tag (numAt b 0 1) (numAt b 1 1) (numAt b 2 2) (signedAt b 4) (numAt b 5 1) (numAt b 6 2) s
  | 30 => execToneStop p tag s
  | 31 => execSceneStore p tag (numAt b 0 1) (numAt b 1 1) s
  | 32 => execSceneLoad p tag (numAt b 0 1) s
  | 33 => execSceneAbort p tag s
  | 34 => execLineStart p tag (numAt b 0 1) s
  | 35 => execLineStop p tag (numAt b 0 1) s
  | 36 => execLineTest p tag (numAt b 0 1) (numAt b 1 2) s
  | 37 => execPodSleep p tag (numAt b 0 1) (numAt b 1 1) s
  | 38 => execPodWake p tag (numAt b 0 1) (numAt b 1 1) s
  | 39 => execPodCounters p tag (numAt b 0 1) (numAt b 1 1) s
  | 40 => execPodIdentity p tag (numAt b 0 1) (numAt b 1 1) s
  | 41 => execPowerStandby p tag (numAt b 0 1) s
  | 42 => execPowerWake p tag s
  | 43 => execConferenceClear p tag s
  | 44 => execRightsSet p tag (numAt b 0 1) s
  | _ => .next s

/-- The frame check (R179): the length field is held and counts kind, tag and body, and the CRC-16 over all before it is
right. -/
def frameOk (bs : List Byte) : Bool :=
  decide (2 ≤ bs.length) && numAt bs 0 2 + 4 == bs.length
    && ofBytes (bs.drop (bs.length - 2)) == (crc16 (bs.take (bs.length - 2))).toNat

/-- The kind byte of a frame, before its check; 0 where the frame is too short to hold it (R179). -/
def frameKind (bs : List Byte) : Nat := if 5 ≤ bs.length then numAt bs 2 1 else 0
/-- The tag of a frame, between kind and check; 0 where the frame is too short to hold it (R179). -/
def frameTag (bs : List Byte) : Byte := if 6 ≤ bs.length then bs.getD 3 0 else 0

/-- The result and echo of a frame that is no request of this part (R179): MALFORMED or UNKNOWN. -/
def badFrame (p : Port) (bs : List Byte) (r : Result) (s : State) : Host.Outcome State Fault Refusal :=
  takeRequest p (frameTag bs) (frameKind bs) (fun _ => [(false, r)]) id noBody s

/-- The bytes of a known kind (R179): rights, then the length, then the request. A frame without a tag is too short for
any kind. The chair flag of a claim request from the Codec Port (R24, R25) is a field, read once the length is right
(log 39). -/
def knownFrame (p : Port) (bs : List Byte) (s : State) : Host.Outcome State Fault Refusal :=
  let body := (bs.drop 4).take (bs.length - 6)
  if !kindRight p (frameKind bs) s then badFrame p bs .denied s
  else if bs.length < 6 ∨ body.length ≠ bodyLength (frameKind bs) body then badFrame p bs .malformed s
  else takeBody p (frameTag bs) (frameKind bs) body s

/-- UNKNOWN_KIND_FRAME (R179): the bytes clocked in after the start byte. -/
def execUnknownKindFrame (p : Port) (bytes : List Byte) (s : State) : Host.Outcome State Fault Refusal :=
  if !frameOk bytes then badFrame p bytes .malformed s
  else if frameKind bytes = 0 ∨ 44 < frameKind bytes then badFrame p bytes .unknown s
  else knownFrame p bytes s

end Sys2Proof.Machine
end

