-- ==== Sys2Proof/Machine/Dispatch.lean ====
section
/-! DEFINITION. The meaning of each command, arm by arm. -/

namespace Sys2Proof.Machine

open Sys2Proof

/-- What a command does to everything but the queue. -/
def exec (i : Instr) (s : State) : Host.Outcome State Fault Refusal :=
  match i with
  | .status p tag => Sys2Proof.Machine.execStatus p tag s
  | .noticeRead p tag count => Sys2Proof.Machine.execNoticeRead p tag count s
  | .noticeMask p tag mask => Sys2Proof.Machine.execNoticeMask p tag mask s
  | .channelRead p tag first count => Sys2Proof.Machine.execChannelRead p tag first count s
  | .channelWrite p tag ch trim zone groups => Sys2Proof.Machine.execChannelWrite p tag ch trim zone groups s
  | .chairSet p tag ch => Sys2Proof.Machine.execChairSet p tag ch s
  | .siteState p tag site connected => Sys2Proof.Machine.execSiteState p tag site connected s
  | .claimSet p tag sel num chairFlag => Sys2Proof.Machine.execClaimSet p tag sel num chairFlag s
  | .claimRelease p tag sel num chairFlag => Sys2Proof.Machine.execClaimRelease p tag sel num chairFlag s
  | .claimsClear p tag sel num => Sys2Proof.Machine.execClaimsClear p tag sel num s
  | .farClear p tag => Sys2Proof.Machine.execFarClear p tag s
  | .handLower p tag sel num => Sys2Proof.Machine.execHandLower p tag sel num s
  | .privacyConfig p tag group autoRelease => Sys2Proof.Machine.execPrivacyConfig p tag group autoRelease s
  | .privacyRelease p tag => Sys2Proof.Machine.execPrivacyRelease p tag s
  | .modeSet p tag mode => Sys2Proof.Machine.execModeSet p tag mode s
  | .floorConfig p tag fields => Sys2Proof.Machine.execFloorConfig p tag fields s
  | .grant p tag ch evict => Sys2Proof.Machine.execGrant p tag ch evict s
  | .revoke p tag ch => Sys2Proof.Machine.execRevoke p tag ch s
  | .waitDrop p tag ch => Sys2Proof.Machine.execWaitDrop p tag ch s
  | .crosspointRead p tag out first count => Sys2Proof.Machine.execCrosspointRead p tag out first count s
  | .crosspointWrite p tag out first count values => Sys2Proof.Machine.execCrosspointWrite p tag out first count values s
  | .busGainWrite p tag out value => Sys2Proof.Machine.execBusGainWrite p tag out value s
  | .meterConfig p tag window => Sys2Proof.Machine.execMeterConfig p tag window s
  | .meterRead p tag first count => Sys2Proof.Machine.execMeterRead p tag first count s
  | .watchSet p tag entry point threshold direction count arm => Sys2Proof.Machine.execWatchSet p tag entry point threshold direction count arm s
  | .silenceConfig p tag fields => Sys2Proof.Machine.execSilenceConfig p tag fields s
  | .silenceRaise p tag => Sys2Proof.Machine.execSilenceRaise p tag s
  | .silenceRestore p tag => Sys2Proof.Machine.execSilenceRestore p tag s
  | .toneStart p tag kind num freq level mode count => Sys2Proof.Machine.execToneStart p tag kind num freq level mode count s
  | .toneStop p tag => Sys2Proof.Machine.execToneStop p tag s
  | .sceneStore p tag slot parts => Sys2Proof.Machine.execSceneStore p tag slot parts s
  | .sceneLoad p tag slot => Sys2Proof.Machine.execSceneLoad p tag slot s
  | .sceneAbort p tag => Sys2Proof.Machine.execSceneAbort p tag s
  | .lineStart p tag line => Sys2Proof.Machine.execLineStart p tag line s
  | .lineStop p tag line => Sys2Proof.Machine.execLineStop p tag line s
  | .lineTest p tag line frames => Sys2Proof.Machine.execLineTest p tag line frames s
  | .podSleep p tag line pos => Sys2Proof.Machine.execPodSleep p tag line pos s
  | .podWake p tag line pos => Sys2Proof.Machine.execPodWake p tag line pos s
  | .podCounters p tag line pos => Sys2Proof.Machine.execPodCounters p tag line pos s
  | .podIdentity p tag line pos => Sys2Proof.Machine.execPodIdentity p tag line pos s
  | .powerStandby p tag autowake => Sys2Proof.Machine.execPowerStandby p tag autowake s
  | .powerWake p tag => Sys2Proof.Machine.execPowerWake p tag s
  | .conferenceClear p tag => Sys2Proof.Machine.execConferenceClear p tag s
  | .rightsSet p tag farmod => Sys2Proof.Machine.execRightsSet p tag farmod s
  | .unknownKindFrame p bytes => Sys2Proof.Machine.execUnknownKindFrame p bytes s
  | .readTransaction p clocked => Sys2Proof.Machine.execReadTransaction p clocked s
  | .transactionIgnored p first clocked => Sys2Proof.Machine.execTransactionIgnored p first clocked s
  | .powerOnReset privacyActive alarmActive => Sys2Proof.Machine.execPowerOnReset privacyActive alarmActive s
  | .pinReset privacyActive alarmActive => Sys2Proof.Machine.execPinReset privacyActive alarmActive s
  | .resetPinAsserted => Sys2Proof.Machine.execResetPinAsserted s
  | .blockBoundary inp => Sys2Proof.Machine.execBlockBoundary inp s
  | .privacyActiveEdge => Sys2Proof.Machine.execPrivacyActiveEdge s
  | .privacyInactiveEdge => Sys2Proof.Machine.execPrivacyInactiveEdge s
  | .alarmActiveEdge => Sys2Proof.Machine.execAlarmActiveEdge s
  | .alarmInactiveEdge => Sys2Proof.Machine.execAlarmInactiveEdge s
  | .wakePulse line => Sys2Proof.Machine.execWakePulse line s
  | .noiseFloorRise ch => Sys2Proof.Machine.execNoiseFloorRise ch s
  | .mutedTalk ch => Sys2Proof.Machine.execMutedTalk ch s
  | .mutedTalkRearm ch => Sys2Proof.Machine.execMutedTalkRearm ch s
  | .muteShortPress ch => Sys2Proof.Machine.execMuteShortPress ch s
  | .longPress ch => Sys2Proof.Machine.execLongPress ch s
  | .talkPress ch => Sys2Proof.Machine.execTalkPress ch s
  | .floorRequest ch => Sys2Proof.Machine.execFloorRequest ch s
  | .holdExpired ch => Sys2Proof.Machine.execHoldExpired ch s
  | .waitTimeout ch => Sys2Proof.Machine.execWaitTimeout ch s
  | .waitQuietDrop ch => Sys2Proof.Machine.execWaitQuietDrop ch s
  | .guardExpiry => Sys2Proof.Machine.execGuardExpiry s
  | .leavingRemoval ch => Sys2Proof.Machine.execLeavingRemoval ch s
  | .talkTimerTick ch => Sys2Proof.Machine.execTalkTimerTick ch s
  | .talkWarn ch => Sys2Proof.Machine.execTalkWarn ch s
  | .talkEnd ch => Sys2Proof.Machine.execTalkEnd ch s
  | .howlLatch zone => Sys2Proof.Machine.execHowlLatch zone s
  | .restoringEnd => Sys2Proof.Machine.execRestoringEnd s
  | .rollCall line => Sys2Proof.Machine.execRollCall line s
  | .rollCallAnswer line pos rec => Sys2Proof.Machine.execRollCallAnswer line pos rec s
  | .podJoin line pos => Sys2Proof.Machine.execPodJoin line pos s
  | .joinFailed line pos => Sys2Proof.Machine.execJoinFailed line pos s
  | .podLost line pos => Sys2Proof.Machine.execPodLost line pos s
  | .ringAcknowledged line pos => Sys2Proof.Machine.execRingAcknowledged line pos s
  | .sleepAcknowledged line pos => Sys2Proof.Machine.execSleepAcknowledged line pos s
  | .wakeRequest line pos => Sys2Proof.Machine.execWakeRequest line pos s
  | .wakeFramesDone line pos => Sys2Proof.Machine.execWakeFramesDone line pos s
  | .wakeFailed line pos => Sys2Proof.Machine.execWakeFailed line pos s
  | .startingEnd line => Sys2Proof.Machine.execStartingEnd line s
  | .wakingEnd line => Sys2Proof.Machine.execWakingEnd line s
  | .standbyFrameEnd line => Sys2Proof.Machine.execStandbyFrameEnd line s
  | .sleepingEnd line => Sys2Proof.Machine.execSleepingEnd line s
  | .lineTestComplete line => Sys2Proof.Machine.execLineTestComplete line s
  | .capture => Sys2Proof.Machine.execCapture s
  | .levelWatch entry => Sys2Proof.Machine.execLevelWatch entry s
  | .toneCountEnd => Sys2Proof.Machine.execToneCountEnd s
  | .sceneLoadStep => Sys2Proof.Machine.execSceneLoadStep s

end Sys2Proof.Machine
end

