-- ==== Sys2Proof/Safety.lean ====
section
/-! DEFINITION. The words that statements about the part are made of: what it means for a state to be lawful (the
bounds and laws that the manual gives), and what it means that a command changes some parts of the state and no
others. -/

namespace Sys2Proof.Machine

open Sys2Proof

/-! ### Parts of the state and frames -/

/-- The parts of the state that a statement can name. -/
inductive Part
  /-- Trim, zone, groups and connected flag of the channels (chapter 1). -/
  | setup
  /-- Block peak, noise floor, rise count and thresholds (R6, R7, R51). -/
  | measures
  /-- Claim sets, hands, muted-talk counters and flags (chapter 2). -/
  | claims | hands | talk
  /-- Attack counts, and the three lists with the guard timer (chapter 3). -/
  | attack | floor
  | mode | cfg | chair | latch
  /-- Ramp positions; attenuations and zone masks last applied (chapter 5). -/
  | ramps | applied
  /-- Crosspoints with bus gains; outputs (chapter 5). -/
  | gains | outputs
  | privacy | silence
  /-- Position Tables; pending command tables; the rest of the Line Controllers (chapter 7). -/
  | pos | tables | lines
  /-- Last acknowledged rings and owed pulses (chapter 8). -/
  | rings
  | meters | tone
  /-- Scene slots; the load context; the touched marks (chapter 10). -/
  | slots | load | marks
  /-- Power state and AUTOWAKE; FARMOD; block counter and free counter; reset cause and reset in force. -/
  | power | rights | clock | resets
  | due | pending
  deriving DecidableEq, Repr

/-- A part is the same in two states. -/
def Part.same (s t : State) : Part → Prop
  | .setup => ∀ c, (t.chan c).trim = (s.chan c).trim ∧ (t.chan c).zone = (s.chan c).zone
      ∧ (t.chan c).groups = (s.chan c).groups ∧ (t.chan c).siteUp = (s.chan c).siteUp
  | .measures => ∀ c, (t.chan c).peak = (s.chan c).peak ∧ (t.chan c).noise = (s.chan c).noise
      ∧ (t.chan c).rise = (s.chan c).rise ∧ (t.chan c).openThr = (s.chan c).openThr
      ∧ (t.chan c).closeThr = (s.chan c).closeThr
  | .claims => ∀ c, (t.chan c).claims = (s.chan c).claims
  | .hands => ∀ c, (t.chan c).hand = (s.chan c).hand
  | .talk => ∀ c, (t.chan c).talkCount = (s.chan c).talkCount ∧ (t.chan c).armed = (s.chan c).armed
  | .attack => ∀ c, (t.chan c).attack = (s.chan c).attack
  | .floor => t.floor.list = s.floor.list ∧ t.floor.wait = s.floor.wait ∧ t.floor.leaving = s.floor.leaving
      ∧ t.floor.guard = s.floor.guard
  | .mode => t.floor.mode = s.floor.mode
  | .cfg => t.floor.cfg = s.floor.cfg
  | .chair => t.floor.chair = s.floor.chair
  | .latch => t.floor.latch = s.floor.latch
  | .ramps => ∀ c, (t.chan c).ramp = (s.chan c).ramp
  | .applied => ∀ c, (t.chan c).atten = (s.chan c).atten ∧ (t.chan c).maskZone = (s.chan c).maskZone
  | .gains => t.mix.xp = s.mix.xp ∧ t.mix.bus = s.mix.bus
  | .outputs => t.mix.outputs = s.mix.outputs
  | .privacy => t.privacy = s.privacy
  | .silence => t.silence = s.silence
  | .pos => t.pos = s.pos
  | .tables => ∀ l, (t.line l).table = (s.line l).table
  | .lines => ∀ l, t.line l = { s.line l with table := (t.line l).table }
  | .rings => ∀ c, (t.chan c).ring = (s.chan c).ring ∧ (t.chan c).pulseOwed = (s.chan c).pulseOwed
  | .meters => t.meters = s.meters
  | .tone => t.tone = s.tone
  | .slots => t.scenes.slots = s.scenes.slots
  | .load => t.scenes.load = s.scenes.load
  | .marks => t.mix.rowTouched = s.mix.rowTouched ∧ ∀ c, (t.chan c).touched = (s.chan c).touched
  | .power => t.sys.power = s.sys.power ∧ t.sys.autowake = s.sys.autowake
  | .rights => t.sys.farmod = s.sys.farmod
  | .clock => t.sys.blocks = s.sys.blocks ∧ t.sys.free = s.sys.free
  | .resets => t.sys.resetCause = s.sys.resetCause ∧ t.sys.inReset = s.sys.inReset
  | .due => t.due = s.due
  | .pending => t.pending = s.pending

/-- Every part but those named is the same. -/
def State.onlyIn (changed : List Part) (s t : State) : Prop := ∀ p, p ∉ changed → p.same s t

/-- A port after notices are offered to it, in their order (R182). -/
def PortState.offers (ps : PortState) (ns : List Notice) : PortState := ns.foldl PortState.offer ps

/-- The notices of some bodies with the block stamp of a state (R182). -/
def State.stamped (s : State) (bs : List NoticeBody) : List Notice := bs.map (fun b => ⟨b, s.sys.blocks.setWidth 16⟩)

/-- The bodies that go to a port (R182): WAKE_REQUEST goes to the Room Port only. -/
def goesTo (p : Port) (bs : List NoticeBody) : List NoticeBody :=
  match p with
  | .room => bs
  | .codec => bs.filter (fun b => !b.roomOnly)

/-- The ports differ by these notices alone, offered in this order with the block stamp of `s`. -/
def State.raised (s t : State) (bs : List NoticeBody) : Prop :=
  ∀ p, t.port p = (s.port p).offers (s.stamped (goesTo p bs))

/-- A change of the parts named, with some notices. -/
def State.changes (changed : List Part) (s t : State) : Prop :=
  s.onlyIn changed t ∧ ∃ bs, s.raised t bs

/-! ### The parts that groups of commands can change -/

/-- The parts that a floor request or a TALK press can change. -/
abbrev requestParts : List Part := [.attack, .floor, .rings, .tables]

/-- The parts that a departure from the floor can change. -/
abbrev departParts : List Part := [.attack, .floor, .latch]

/-- The parts that a TALK press can change. -/
abbrev pressParts : List Part := [.attack, .floor, .latch, .rings, .tables]

/-- The parts that a write of the floor quantities can change. -/
abbrev quantityParts : List Part := [.attack, .floor, .latch, .cfg, .ramps]

/-- The parts that a change of claims can change. -/
abbrev claimParts : List Part := [.claims, .hands, .talk, .attack, .floor, .latch]

/-- The parts that a change of privacy can change. -/
abbrev privacyParts : List Part := .privacy :: claimParts

/-- The parts that a departure from ONLINE can change. -/
abbrev offlineParts : List Part := [.pos, .tables, .hands, .attack, .floor, .latch]

/-- The parts that the FLOOR item can change. -/
abbrev floorItemParts : List Part := [.attack, .floor, .latch, .cfg, .ramps, .mode, .chair]

/-- The parts that a step of a load can change. -/
abbrev loadParts : List Part :=
  [.setup, .claims, .hands, .talk, .gains, .attack, .floor, .latch, .cfg, .ramps, .mode, .chair, .load, .marks]

/-- The parts that a power change can change. -/
abbrev standbyParts : List Part :=
  [.power, .ramps, .applied, .attack, .floor, .latch, .load, .marks, .tone, .pos, .tables, .lines]

/-- The parts that ConferenceClear can change. -/
abbrev clearParts : List Part := [.claims, .hands, .talk, .attack, .floor, .latch, .load, .marks, .tone]

/-- The parts that the events of a boundary, and the frames formed after them, can change. -/
abbrev settleParts : List Part :=
  [.setup, .measures, .claims, .hands, .talk, .attack, .floor, .mode, .cfg, .chair, .latch, .ramps, .applied, .gains,
    .privacy, .silence, .pos, .tables, .lines, .rings, .meters, .tone, .load, .marks, .power, .due]

/-! ### Responses -/

/-- The OK response of a request from port `p` in the slot of that port, unread, on a state (R178). -/
def okReply (p : Port) (tag : Byte) (kind : Nat) (body : List Byte) (u : State) : State :=
  respond p ⟨tag, kind, .ok, body⟩ u

/-- A response with another result, which has no body (R179, R190). -/
def failReply (p : Port) (tag : Byte) (kind : Nat) (r : Result) (u : State) : State :=
  respond p ⟨tag, kind, r, []⟩ u

/-! ### Lawful states -/

/-- Nothing of the last boundary is left over: no event is due and no frame is still to be formed (log 1, 3). -/
def State.settled (s : State) : Prop := s.due = [] ∧ ∀ l, l < 4 → (s.line l).toForm = false

/-- Both notice queues hold at most 32 notices (R182). -/
def State.queuesBounded (s : State) : Prop := s.room.queue.length ≤ 32 ∧ s.codec.queue.length ≤ 32

/-- The channels of the three floor lists, list by list. -/
def Floor.members (f : Floor) : List Nat :=
  f.list.map (fun e => e.ch) ++ f.wait.map (fun e => e.ch) ++ f.leaving.map (fun e => e.ch)

/-- The floor lists hold no more than their capacities (R50). -/
def Floor.bounded (f : Floor) : Prop :=
  f.list.length ≤ f.cfg.maxOpen ∧ f.wait.length ≤ 8 ∧ f.leaving.length ≤ 6

/-- No list holds a channel twice, no channel is in two of them, and every one is a pod channel (R47, R50). -/
def Floor.exclusive (f : Floor) : Prop := f.members.Nodup ∧ ∀ c, c ∈ f.members → c < 32

/-- A muted pod channel is in neither the Floor List nor the Wait List, and its gate is not ATTACK (R20, R50). -/
def State.mutedOffFloor (s : State) : Prop :=
  ∀ c, c < 32 → s.muted c = true →
    s.floor.entry? c = none ∧ s.floor.waiting? c = none ∧ (s.chan c).attack = 0

/-- A pod channel that is not present is in no floor list, and its gate is not ATTACK (R4, R67). -/
def State.absentOffFloor (s : State) : Prop :=
  ∀ c, c < 32 → s.present c = false →
    s.floor.entry? c = none ∧ s.floor.waiting? c = none ∧ s.floor.isLeaving c = false ∧ (s.chan c).attack = 0

/-- The guard timer runs where the Leaving List is empty and a PENDING entry exists, and only there (R62): a PENDING
entry exists only while the Leaving List is not empty or the timer runs. -/
def Floor.guarded (f : Floor) : Prop := f.guard.isSome = (f.hasPending && f.leaving.isEmpty)

/-- The laws of the floor. -/
def State.floorLawful (s : State) : Prop :=
  s.floor.bounded ∧ s.floor.exclusive ∧ s.floor.guarded ∧ s.mutedOffFloor ∧ s.absentOffFloor

/-- The counters of every position are at most 65535, its MUTE hold at most 2000, its wake timer at most 200
(R132, R143). -/
def State.positionsBounded (s : State) : Prop :=
  ∀ c, c < 32 →
    (s.position c).checkFails ≤ 65535 ∧ (s.position c).missed ≤ 65535 ∧ (s.position c).rejoins ≤ 65535
      ∧ (∀ n, (s.position c).hold = some n → n ≤ 2000) ∧ (∀ n, (s.position c).wakeTimer = some n → n ≤ 200)

/-- What R112 and R121 say of the silence state: in QUIET nothing is covered and the chime phase is 0; outside
ACTIVE no latched source stands; the chime phase stays below 1000. -/
def State.silenceLawful (s : State) : Prop :=
  (s.silence.state = .quiet → s.silence.covered = .none ∧ s.silence.chime = 0)
    ∧ (s.silence.state ≠ .active → s.silence.requestLatch = false ∧ s.silence.howl = 0)
    ∧ s.silence.chime < 1000

/-- Every ramp position is at most RAMP (R94). -/
def State.rampsBounded (s : State) : Prop := ∀ c, c < 42 → (s.chan c).ramp ≤ s.floor.cfg.ramp

/-- Block peaks lie in -96 to 0 dBFS, noise floors in -96 to -20 dBFS, and a noise floor at -20 has no rise count
(R6, R7). -/
def State.levelsLawful (s : State) : Prop :=
  ∀ c, c < 42 → -96 ≤ (s.chan c).peak ∧ (s.chan c).peak ≤ 0 ∧ -96 ≤ (s.chan c).noise ∧ (s.chan c).noise ≤ -20
    ∧ (0 < (s.chan c).rise → (s.chan c).noise < -20)

/-- Each pending command table holds at most one entry for each key (R138). -/
def State.tablesKeyed (s : State) : Prop :=
  ∀ l, l < 4 → (s.line l).table.Pairwise (fun e f => e.sameKey f = false)

/-- The reference value of every ONLINE pod's ring is its derived ring (R154). -/
def State.ringsMatch (s : State) : Prop :=
  ∀ c, c < 32 → s.present c = true → s.ringReference c = some (s.derivedRing c)

/-- The frame in flight on line `l` is true to the table (R139): a RING entry that is marked sent is the RING of the
frame. -/
def State.sentTrue (s : State) (l : Nat) : Prop :=
  ∀ p v pulse, (s.line l).sentTo p = some (.ring v pulse) →
    ∀ e ∈ (s.line l).table, e.dest = .position p → e.cmd.kind = 4 → e.sent = true → e.cmd = .ring v pulse

/-- A line that is OFF or in TESTING takes no slots, and no pod of it is ONLINE or JOINING (R129, R145, R146). -/
def State.idleLinesEmpty (s : State) : Prop :=
  ∀ l, l < 4 → (s.line l).state = .off ∨ (s.line l).state = .testing →
    (s.line l).takesSlots = false
      ∧ ∀ p, p < 8 → (s.position (8 * l + p)).state ≠ .online ∧ (s.position (8 * l + p)).state ≠ .joining

/-- The laws of the rings (R138, R139, R154): one entry for each key, references that are the derived rings, no pod on a
line that is not in use, frames that are true to their tables, and, for an ONLINE pod whose RING is in the frame in
flight, a RING that waits in the table or that value as the last acknowledged ring. -/
def State.ringsLawful (s : State) : Prop :=
  s.tablesKeyed ∧ s.ringsMatch ∧ s.idleLinesEmpty ∧ (∀ l, l < 4 → s.sentTrue l)
    ∧ ∀ l p, l < 4 → p < 8 → s.present (8 * l + p) = true → ∀ v pulse, (s.line l).sentTo p = some (.ring v pulse) →
        (∃ e ∈ (s.line l).table, e.dest = .position p ∧ e.cmd.kind = 4) ∨ (s.chan (8 * l + p)).ring = some v

/-! ### Rounding, line commands, the override -/

/-- `v` is `num / den` taken down or up to a whole number; the quotient itself where it is whole (log 5). -/
def roundedTo (num : Int) (den : Nat) (v : Int) : Prop := num / (den : Int) ≤ v ∧ v * den < num + den

/-- The arbiter puts entry `e` before entry `f` (R138, R139): SLEEP, WAKE, ROLLCALL, RING; among equals a broadcast, then
the lowest position. -/
def Entry.goesBefore (e f : Entry) : Prop :=
  e.cmd.kind < f.cmd.kind
    ∨ (e.cmd.kind = f.cmd.kind ∧ ((e.dest = .broadcast ∧ f.dest ≠ .broadcast)
      ∨ ∃ p q, e.dest = .position p ∧ f.dest = .position q ∧ p < q))

/-- The notices of the Floor Controller where channel `c` is taken off the floor with cause MUTED or LEFT (R20, R60, R62,
R67): its own where it is in the Floor List or the Wait List, then those of channels that open in place or are admitted. -/
def State.offFloor (s : State) (c : Nat) (cause : FloorCause) (bs : List NoticeBody) : Prop :=
  ∃ own served, bs = own ++ served
    ∧ (if s.floor.entry? c = none ∧ s.floor.waiting? c = none then own = []
      else ∃ g nf nw nl n, own = [.floorChange c g .closed cause nf nw nl n])
    ∧ ∀ b ∈ served, ∃ d g k nf nw nl n, d ≠ c ∧ (k = .guard ∨ k = .admitted) ∧ b = .floorChange d g .opened k nf nw nl n

/-- The notices of pod `c` that leaves ONLINE (R135): POD_LOST, the floor's, HAND_LOWER. -/
def State.departs (s : State) (c : Nat) (lost : NoticeBody) (bs : List NoticeBody) : Prop :=
  ∃ off, s.offFloor c .left off
    ∧ bs = lost :: off ++ (if (s.chan c).hand then [.handLower c (s.claims c) .left] else [])

/-- The notices that follow the CLAIM_CHANGE of channel `c` from one claim set to another (R19, R20, R21): the floor's
where a pod becomes muted, HAND_LOWER where a raised hand becomes unmuted. -/
def State.claimMoved (s : State) (c : Nat) (old new : ClaimSet) (rest : List NoticeBody) : Prop :=
  (old = ClaimSet.empty → if c < 32 then s.offFloor c .muted rest else rest = [])
    ∧ (old ≠ ClaimSet.empty → rest = if new = ClaimSet.empty ∧ (s.chan c).hand then [.handLower c new .cleared] else [])

/-- An override of the chair `c` raises `bs` (R84, R87), after the GUARD openings where its departure from the Leaving List
opens the PENDING entries at once (R62), and before the channels admitted (R60) and LATCHED. -/
def State.overrideRaises (s : State) (c : Nat) (u : State) (bs : List NoticeBody) : Prop :=
  ∃ pre post, s.raised u (pre ++ bs ++ post)
    ∧ (∀ b ∈ pre, ∃ d nf nw nl n, d ≠ c ∧ b = .floorChange d .pending .opened .guard nf nw nl n)
    ∧ ∀ b ∈ post, ∃ d g k nf nw nl n, (d ≠ c ∧ k = .admitted ∨ d = c ∧ k = .latched)
      ∧ b = .floorChange d g (u.gate d) k nf nw nl n

/-- What an override of the chair `c`, which is not in the Floor List of `s`, leaves in `u` and raises, row by row (R84).
With `L` the Leaving List without the chair: row 1 where a place is free, rows 2 to 5 where none is. Where the chair's own
departure empties the Leaving List and GUARD is 0, the PENDING entries open before the rows are read (R62), and rows 2
to 5 say nothing here. -/
def State.overrideRows (s : State) (c : Nat) (u : State) : Prop :=
  let f := s.floor
  let L := f.leaving.filter (fun e => e.ch != c)
  let opened := u.floor.entry? c = some ⟨c, .opened, s.sys.blocks, .none, none⟩ ∧ u.floor.waiting? c = none
    ∧ u.floor.isLeaving c = false
  let joined (g : Gate) (nf nl n : Nat) : NoticeBody :=
    .floorChange c (s.gate c) g .override nf (f.dropWait c).wait.length nl n
  let evicted (d : Nat) (g : Gate) (nl n : Nat) : NoticeBody :=
    .floorChange d g .closed .evicted (f.list.length - 1) (f.dropWait c).wait.length nl n
  (f.list.length < f.cfg.maxOpen → opened ∧ ∃ n, s.overrideRaises c u [joined .opened (f.list.length + 1) L.length n])
    ∧ (f.cfg.maxOpen ≤ f.list.length → f.isLeaving c = false ∨ L ≠ [] ∨ f.cfg.guard ≠ 0 →
      ∀ e, f.list.head? = some e →
        (e.st = .pending → opened ∧ u.floor.entry? e.ch = none ∧ u.floor.leaving = L
          ∧ s.overrideRaises c u [evicted e.ch .pending L.length f.openCount,
            joined .opened f.list.length L.length (f.openCount + 1)])
        ∧ (e.st ≠ .pending → L.length < 6 →
          u.floor.entry? c = some ⟨c, .pending, s.sys.blocks, .none, none⟩ ∧ u.floor.waiting? c = none
            ∧ u.floor.entry? e.ch = none ∧ u.floor.leaving = L ++ [⟨e.ch, s.sys.blocks⟩] ∧ u.floor.guard = none
            ∧ s.overrideRaises c u [evicted e.ch e.st.gate (L.length + 1) (f.openCount - 1),
              joined .pending f.list.length (L.length + 1) (f.openCount - 1)])
        ∧ (e.st ≠ .pending → 6 ≤ L.length →
          (∀ q, f.list.find? (fun x => x.st == .pending) = some q →
            opened ∧ u.floor.entry? q.ch = none ∧ (u.floor.entry? e.ch).isSome = true ∧ u.floor.leaving = L
              ∧ s.overrideRaises c u [evicted q.ch .pending L.length f.openCount,
                joined .opened f.list.length L.length (f.openCount + 1)])
          ∧ (f.list.find? (fun x => x.st == .pending) = none →
            u.floor = f ∧ (u.chan c).attack = 0 ∧ (u.chan c).pulseOwed = true
              ∧ s.raised u [.floorRefused c f.list.length f.wait.length])))

end Sys2Proof.Machine

namespace Sys2Proof

/-! ### Requests by port, tag and kind -/

/-- The port, tag and kind number of a request (R189); none for a command that is no request. -/
def Instr.request : Instr → Option (Port × Byte × Nat)
  | .status p t => some (p, t, 1)
  | .noticeRead p t _ => some (p, t, 2)
  | .noticeMask p t _ => some (p, t, 3)
  | .channelRead p t _ _ => some (p, t, 4)
  | .channelWrite p t _ _ _ _ => some (p, t, 5)
  | .chairSet p t _ => some (p, t, 6)
  | .claimSet p t _ _ _ => some (p, t, 7)
  | .claimRelease p t _ _ _ => some (p, t, 8)
  | .claimsClear p t _ _ => some (p, t, 9)
  | .farClear p t => some (p, t, 10)
  | .handLower p t _ _ => some (p, t, 11)
  | .privacyConfig p t _ _ => some (p, t, 12)
  | .privacyRelease p t => some (p, t, 13)
  | .modeSet p t _ => some (p, t, 14)
  | .floorConfig p t _ => some (p, t, 15)
  | .grant p t _ _ => some (p, t, 16)
  | .revoke p t _ => some (p, t, 17)
  | .waitDrop p t _ => some (p, t, 18)
  | .crosspointRead p t _ _ _ => some (p, t, 19)
  | .crosspointWrite p t _ _ _ _ => some (p, t, 20)
  | .busGainWrite p t _ _ => some (p, t, 21)
  | .siteState p t _ _ => some (p, t, 22)
  | .meterConfig p t _ => some (p, t, 23)
  | .meterRead p t _ _ => some (p, t, 24)
  | .watchSet p t _ _ _ _ _ _ => some (p, t, 25)
  | .silenceConfig p t _ => some (p, t, 26)
  | .silenceRaise p t => some (p, t, 27)
  | .silenceRestore p t => some (p, t, 28)
  | .toneStart p t _ _ _ _ _ _ => some (p, t, 29)
  | .toneStop p t => some (p, t, 30)
  | .sceneStore p t _ _ => some (p, t, 31)
  | .sceneLoad p t _ => some (p, t, 32)
  | .sceneAbort p t => some (p, t, 33)
  | .lineStart p t _ => some (p, t, 34)
  | .lineStop p t _ => some (p, t, 35)
  | .lineTest p t _ _ => some (p, t, 36)
  | .podSleep p t _ _ => some (p, t, 37)
  | .podWake p t _ _ => some (p, t, 38)
  | .podCounters p t _ _ => some (p, t, 39)
  | .podIdentity p t _ _ => some (p, t, 40)
  | .powerStandby p t _ => some (p, t, 41)
  | .powerWake p t => some (p, t, 42)
  | .conferenceClear p t => some (p, t, 43)
  | .rightsSet p t _ => some (p, t, 44)
  | _ => none

/-- The command is a reset: it alone acts while a reset is in force (R186). -/
def Instr.isReset : Instr → Bool
  | .powerOnReset _ _ => true
  | .pinReset _ _ => true
  | .resetPinAsserted => true
  | _ => false

/-- The requests after which every ring is compared with its reference, whatever they have changed (R153). Of the
others, PrivacyConfig and PrivacyRelease change what the rings are derived from where they move PRIVACY claims (R38,
R39), and compare then. -/
def Instr.movesRings : Instr → Bool
  | .channelWrite .. => true
  | .chairSet .. => true
  | .claimSet .. => true
  | .claimRelease .. => true
  | .claimsClear .. => true
  | .farClear .. => true
  | .handLower .. => true
  | .modeSet .. => true
  | .floorConfig .. => true
  | .grant .. => true
  | .revoke .. => true
  | .waitDrop .. => true
  | .silenceConfig .. => true
  | .silenceRaise .. => true
  | .silenceRestore .. => true
  | .toneStart .. => true
  | .toneStop .. => true
  | .lineStop .. => true
  | .powerStandby .. => true
  | .conferenceClear .. => true
  | _ => false

/-- An optional field of `n` bytes without sign (R190). -/
def OptField.spelled (n : Nat) (f : OptField) : List Byte := Machine.u8 f.presence ++ Machine.uN n f.value.toNat
/-- An optional signed byte (R190). -/
def OptField.spelledS (f : OptField) : List Byte := Machine.u8 f.presence ++ Machine.s8 f.value

open Machine in
/-- The body of a request, its fields in the order in which its entry names them (R190); empty for a command that is no
request. -/
def Instr.body : Instr → List Byte
  | .noticeRead _ _ n => u8 n
  | .noticeMask _ _ mask => mask.spelled 4
  | .channelRead _ _ first n => u8 first ++ u8 n
  | .channelWrite _ _ c trim zone groups => u8 c ++ trim.spelledS ++ zone.spelled 1 ++ groups.spelled 1
  | .chairSet _ _ c => u8 c
  | .siteState _ _ site on => u8 site ++ u8 on
  | .claimSet _ _ sel num fl => u8 sel ++ u8 num ++ u8 fl
  | .claimRelease _ _ sel num fl => u8 sel ++ u8 num ++ u8 fl
  | .claimsClear _ _ sel num => u8 sel ++ u8 num
  | .handLower _ _ sel num => u8 sel ++ u8 num
  | .privacyConfig _ _ group auto => group.spelled 1 ++ auto.spelled 1
  | .modeSet _ _ m => u8 m
  | .floorConfig _ _ f => f.maxOpen.spelled 1 ++ f.openMargin.spelled 1 ++ f.closeMargin.spelled 1 ++ f.attack.spelled 1
      ++ f.holdTime.spelled 2 ++ f.waitMax.spelled 2 ++ f.guard.spelled 1 ++ f.lastMic.spelled 1 ++ f.ramp.spelled 1
      ++ f.talkLimit.spelled 2 ++ f.talkWarn.spelled 1 ++ f.autoGrant.spelled 1 ++ f.chairDuck.spelledS
  | .grant _ _ c ev => u8 c ++ u8 ev
  | .revoke _ _ c => u8 c
  | .waitDrop _ _ c => u8 c
  | .crosspointRead _ _ o first n => u8 o ++ u8 first ++ u8 n
  | .crosspointWrite _ _ o first n values => u8 o ++ u8 first ++ u8 n ++ values.flatMap s8
  | .busGainWrite _ _ o v => u8 o ++ s8 v
  | .meterConfig _ _ w => w.spelled 1
  | .meterRead _ _ first n => u8 first ++ u8 n
  | .watchSet _ _ e point thr dir n arm => u8 e ++ u8 point ++ s8 thr ++ u8 dir ++ u16 n ++ u8 arm
  | .silenceConfig _ _ f => f.alarmEnable.spelled 1 ++ f.howlEnable.spelled 1 ++ f.requestEnable.spelled 1
      ++ f.alarmScope.spelled 1 ++ f.howlScope.spelled 1 ++ f.requestScope.spelled 1 ++ f.maskA.spelled 3
      ++ f.maskB.spelled 3 ++ f.contentA.spelled 1 ++ f.contentB.spelled 1 ++ f.howlLevel.spelledS
      ++ f.howlBlocks.spelled 2 ++ f.autoRestore.spelled 1
  | .toneStart _ _ kind num freq level mode n => u8 kind ++ u8 num ++ u16 freq ++ s8 level ++ u8 mode ++ u16 n
  | .sceneStore _ _ slot parts => u8 slot ++ u8 parts
  | .sceneLoad _ _ slot => u8 slot
  | .lineStart _ _ l => u8 l
  | .lineStop _ _ l => u8 l
  | .lineTest _ _ l n => u8 l ++ u16 n
  | .podSleep _ _ l q => u8 l ++ u8 q
  | .podWake _ _ l q => u8 l ++ u8 q
  | .podCounters _ _ l q => u8 l ++ u8 q
  | .podIdentity _ _ l q => u8 l ++ u8 q
  | .powerStandby _ _ v => u8 v
  | .rightsSet _ _ v => u8 v
  | _ => []

open Machine in
/-- The frame of a request after its start byte (R189): length, kind, tag, body, and the check over all of them. -/
def Instr.frame (i : Instr) (kind : Nat) (tag : Byte) : List Byte :=
  let inner := u16 (i.body.length + 2) ++ u8 kind ++ [tag] ++ i.body
  inner ++ u16 (crc16 inner).toNat

/-- The count of a run is the number of its items: other bytes spell no such request. -/
def Instr.countsItems : Instr → Bool
  | .crosspointWrite _ _ _ _ n values => n == values.length
  | _ => true

/-- The event that a command is; none for a request, a transaction, a reset or the boundary itself. -/
def Instr.event : Instr → Option Machine.Event
  | .privacyActiveEdge => some .privacyActiveEdge
  | .privacyInactiveEdge => some .privacyInactiveEdge
  | .alarmActiveEdge => some .alarmActiveEdge
  | .alarmInactiveEdge => some .alarmInactiveEdge
  | .wakePulse line => some (.wakePulse line)
  | .noiseFloorRise ch => some (.noiseFloorRise ch)
  | .mutedTalk ch => some (.mutedTalk ch)
  | .mutedTalkRearm ch => some (.mutedTalkRearm ch)
  | .muteShortPress ch => some (.muteShortPress ch)
  | .longPress ch => some (.longPress ch)
  | .talkPress ch => some (.talkPress ch)
  | .floorRequest ch => some (.floorRequest ch)
  | .holdExpired ch => some (.holdExpired ch)
  | .waitTimeout ch => some (.waitTimeout ch)
  | .waitQuietDrop ch => some (.waitQuietDrop ch)
  | .guardExpiry => some .guardExpiry
  | .leavingRemoval ch => some (.leavingRemoval ch)
  | .talkTimerTick ch => some (.talkTimerTick ch)
  | .talkWarn ch => some (.talkWarn ch)
  | .talkEnd ch => some (.talkEnd ch)
  | .howlLatch zone => some (.howlLatch zone)
  | .restoringEnd => some .restoringEnd
  | .rollCall line => some (.rollCall line)
  | .rollCallAnswer line pos rec => some (.rollCallAnswer line pos rec)
  | .podJoin line pos => some (.podJoin line pos)
  | .joinFailed line pos => some (.joinFailed line pos)
  | .podLost line pos => some (.podLost line pos)
  | .ringAcknowledged line pos => some (.ringAcknowledged line pos)
  | .sleepAcknowledged line pos => some (.sleepAcknowledged line pos)
  | .wakeRequest line pos => some (.wakeRequest line pos)
  | .wakeFramesDone line pos => some (.wakeFramesDone line pos)
  | .wakeFailed line pos => some (.wakeFailed line pos)
  | .startingEnd line => some (.startingEnd line)
  | .wakingEnd line => some (.wakingEnd line)
  | .standbyFrameEnd line => some (.standbyFrameEnd line)
  | .sleepingEnd line => some (.sleepingEnd line)
  | .lineTestComplete line => some (.lineTestComplete line)
  | .capture => some .capture
  | .levelWatch entry => some (.levelWatch entry)
  | .toneCountEnd => some .toneCountEnd
  | .sceneLoadStep => some .sceneLoadStep
  | _ => none

end Sys2Proof
end

