-- ==== Sys2Proof/WellFormed.lean ====
section
/-! DEFINITION. Which commands can be sent at all: every code fits the bytes R190 gives its field, every
block of samples is silent or has 48 samples of 24 bits, every number of a pod, line or zone is one the part has.
A command that is not well formed is still taken, by the same definitions. -/

namespace Sys2Proof

/-- The code fits `n` bytes without sign. -/
def fitsU (n : Nat) (v : Int) : Bool := decide (0 ≤ v ∧ v < 256 ^ n)
/-- The code fits one signed byte. -/
def fitsS (v : Int) : Bool := decide (-128 ≤ v ∧ v ≤ 127)

/-- An unsigned optional field of `n` bytes. -/
def OptField.fitsU (n : Nat) (f : OptField) : Bool := decide (f.presence < 256) && Sys2Proof.fitsU n f.value
/-- A signed optional field of one byte. -/
def OptField.fitsS (f : OptField) : Bool := decide (f.presence < 256) && Sys2Proof.fitsS f.value

/-- The widths of FloorConfig's fields (R190). -/
def FloorFields.wf (f : FloorFields) : Bool :=
  f.maxOpen.fitsU 1 && f.openMargin.fitsU 1 && f.closeMargin.fitsU 1 && f.attack.fitsU 1 && f.holdTime.fitsU 2
    && f.waitMax.fitsU 2 && f.guard.fitsU 1 && f.lastMic.fitsU 1 && f.ramp.fitsU 1 && f.talkLimit.fitsU 2
    && f.talkWarn.fitsU 1 && f.autoGrant.fitsU 1 && f.chairDuck.fitsS

/-- The widths of SilenceConfig's fields (R190). -/
def SilenceFields.wf (f : SilenceFields) : Bool :=
  f.alarmEnable.fitsU 1 && f.howlEnable.fitsU 1 && f.requestEnable.fitsU 1 && f.alarmScope.fitsU 1
    && f.howlScope.fitsU 1 && f.requestScope.fitsU 1 && f.maskA.fitsU 3 && f.maskB.fitsU 3
    && f.contentA.fitsU 1 && f.contentB.fitsU 1 && f.howlLevel.fitsS && f.howlBlocks.fitsU 2
    && f.autoRestore.fitsU 1

/-- The widths of an identity record (R131). -/
def Identity.wf (r : Identity) : Bool :=
  decide (r.model < 65536 ∧ r.major < 256 ∧ r.minor < 256 ∧ r.serial < 4294967296)

/-- A block of samples: silence, or 48 samples of 24 bits. -/
def samplesWf (l : List Int) : Bool :=
  (l.length == 0 || l.length == Config.blockLen) && l.all (fun x => decide (-8388608 ≤ x ∧ x ≤ 8388607))

/-- A slot as it can be received. -/
def UpSlot.wf : UpSlot → Bool
  | .missed => true
  | .bad => true
  | .status st => samplesWf st.samples
  | .identity rec => rec.wf
  | .bytes bs => !bs.isEmpty

/-- What one boundary can bring. -/
def BoundaryIn.wf (b : BoundaryIn) : Bool :=
  decide (b.lanes.length ≤ 10) && b.lanes.all samplesWf && decide (b.slots.length ≤ Config.numPods)
    && b.slots.all UpSlot.wf && decide (b.wakePulse.length ≤ 4) && decide (b.readBackDiffers.length ≤ 4)
    && decide (b.frameEarly.length ≤ 4)

/-- Every check on a command. -/
def Instr.wf : Instr → Bool
  | .status _ _ => true
  | .noticeRead _ _ count => fitsU 1 count
  | .noticeMask _ _ mask => mask.fitsU 4
  | .channelRead _ _ first count => fitsU 1 first && fitsU 1 count
  | .channelWrite _ _ ch trim zone groups => fitsU 1 ch && trim.fitsS && zone.fitsU 1 && groups.fitsU 1
  | .chairSet _ _ ch => fitsU 1 ch
  | .siteState _ _ site connected => fitsU 1 site && fitsU 1 connected
  | .claimSet _ _ sel num flag => fitsU 1 sel && fitsU 1 num && fitsU 1 flag
  | .claimRelease _ _ sel num flag => fitsU 1 sel && fitsU 1 num && fitsU 1 flag
  | .claimsClear _ _ sel num => fitsU 1 sel && fitsU 1 num
  | .farClear _ _ => true
  | .handLower _ _ sel num => fitsU 1 sel && fitsU 1 num
  | .privacyConfig _ _ group auto => group.fitsU 1 && auto.fitsU 1
  | .privacyRelease _ _ => true
  | .modeSet _ _ mode => fitsU 1 mode
  | .floorConfig _ _ f => f.wf
  | .grant _ _ ch evict => fitsU 1 ch && fitsU 1 evict
  | .revoke _ _ ch => fitsU 1 ch
  | .waitDrop _ _ ch => fitsU 1 ch
  | .crosspointRead _ _ out first count => fitsU 1 out && fitsU 1 first && fitsU 1 count
  | .crosspointWrite _ _ out first count values =>
      fitsU 1 out && fitsU 1 first && fitsU 1 count && values.all fitsS
  | .busGainWrite _ _ out value => fitsU 1 out && fitsS value
  | .meterConfig _ _ window => window.fitsU 1
  | .meterRead _ _ first count => fitsU 1 first && fitsU 1 count
  | .watchSet _ _ entry point thr dir count arm =>
      fitsU 1 entry && fitsU 1 point && fitsS thr && fitsU 1 dir && fitsU 2 count && fitsU 1 arm
  | .silenceConfig _ _ f => f.wf
  | .silenceRaise _ _ => true
  | .silenceRestore _ _ => true
  | .toneStart _ _ kind num freq level mode count =>
      fitsU 1 kind && fitsU 1 num && fitsU 2 freq && fitsS level && fitsU 1 mode && fitsU 2 count
  | .toneStop _ _ => true
  | .sceneStore _ _ slot parts => fitsU 1 slot && fitsU 1 parts
  | .sceneLoad _ _ slot => fitsU 1 slot
  | .sceneAbort _ _ => true
  | .lineStart _ _ line => fitsU 1 line
  | .lineStop _ _ line => fitsU 1 line
  | .lineTest _ _ line frames => fitsU 1 line && fitsU 2 frames
  | .podSleep _ _ line pos => fitsU 1 line && fitsU 1 pos
  | .podWake _ _ line pos => fitsU 1 line && fitsU 1 pos
  | .podCounters _ _ line pos => fitsU 1 line && fitsU 1 pos
  | .podIdentity _ _ line pos => fitsU 1 line && fitsU 1 pos
  | .powerStandby _ _ auto => fitsU 1 auto
  | .powerWake _ _ => true
  | .conferenceClear _ _ => true
  | .rightsSet _ _ farmod => fitsU 1 farmod
  | .unknownKindFrame _ _ => true
  | .readTransaction _ _ => true
  | .transactionIgnored _ first _ => decide (first ≠ 0xA5#8 ∧ first ≠ 0x5A#8)
  | .powerOnReset _ _ => true
  | .pinReset _ _ => true
  | .resetPinAsserted => true
  | .blockBoundary inp => inp.wf
  | .privacyActiveEdge => true
  | .privacyInactiveEdge => true
  | .alarmActiveEdge => true
  | .alarmInactiveEdge => true
  | .wakePulse line => decide (line < 4)
  | .noiseFloorRise ch => decide (ch < 32)
  | .mutedTalk ch => decide (ch < 32)
  | .mutedTalkRearm ch => decide (ch < 32)
  | .muteShortPress ch => decide (ch < 32)
  | .longPress ch => decide (ch < 32)
  | .talkPress ch => decide (ch < 32)
  | .floorRequest ch => decide (ch < 32)
  | .holdExpired ch => decide (ch < 32)
  | .waitTimeout ch => decide (ch < 32)
  | .waitQuietDrop ch => decide (ch < 32)
  | .guardExpiry => true
  | .leavingRemoval ch => decide (ch < 32)
  | .talkTimerTick ch => decide (ch < 32)
  | .talkWarn ch => decide (ch < 32)
  | .talkEnd ch => decide (ch < 32)
  | .howlLatch zone => decide (zone < 8)
  | .restoringEnd => true
  | .rollCall line => decide (line < 4)
  | .rollCallAnswer line pos rec => decide (line < 4 ∧ pos < 8) && rec.wf
  | .podJoin line pos => decide (line < 4 ∧ pos < 8)
  | .joinFailed line pos => decide (line < 4 ∧ pos < 8)
  | .podLost line pos => decide (line < 4 ∧ pos < 8)
  | .ringAcknowledged line pos => decide (line < 4 ∧ pos < 8)
  | .sleepAcknowledged line pos => decide (line < 4 ∧ pos < 8)
  | .wakeRequest line pos => decide (line < 4 ∧ pos < 8)
  | .wakeFramesDone line pos => decide (line < 4 ∧ pos < 8)
  | .wakeFailed line pos => decide (line < 4 ∧ pos < 8)
  | .startingEnd line => decide (line < 4)
  | .wakingEnd line => decide (line < 4)
  | .standbyFrameEnd line => decide (line < 4)
  | .sleepingEnd line => decide (line < 4)
  | .lineTestComplete line => decide (line < 4)
  | .capture => true
  | .levelWatch entry => decide (entry < 8)
  | .toneCountEnd => true
  | .sceneLoadStep => true

end Sys2Proof
end

