-- ==== Sys2Proof/Certificates/Slice0/Obligations.lean ====
section
/-! DEFINITION. The statements for the provers, chapter by chapter of the spec. A request is taken at the boundary
settled before it (log 2): `settle s` is the state its checks and its effect read. An event's frame is closed after
it (log 3): `closeFrames`. -/

open Sys2Proof Sys2Proof.Machine

/-! ### The step, resets, ports -/

/-- A step takes the command at the front of the queue; on an empty queue the part idles (the model's choice, log 29).
-/
def Obligations.StepTakesFrontCommand : Prop :=
  ∀ (c : Instr) (rest : List Instr) (s : State),
    step { s with pending := c :: rest } = exec c { s with pending := rest }
      ∧ step { s with pending := [] } = .next { s with pending := [] }

/-- Every command answers a next state and leaves the queue as it is: the part has no error state (R179). -/
def Obligations.EveryCommandCompletes : Prop :=
  ∀ (c : Instr) (s : State), ∃ t, exec c s = .next t ∧ t.pending = s.pending

/-- What power-on reset leaves (R17, R45, R51, R69, R71, R93, R97, R103, R111, R116, R124, R126, R150, R158, R169, R186,
R188), the level inputs inactive (the model's choice, log 9). -/
def Obligations.ResetValues : Prop :=
  let s := State.reset
  (∀ c, c < 42 →
      (s.chan c).trim = 0 ∧ (s.chan c).claims = ClaimSet.empty ∧ (s.chan c).hand = false
        ∧ (s.chan c).touched = false ∧ (s.chan c).peak = -96 ∧ (s.chan c).ramp = 0 ∧ (s.chan c).siteUp = false
        ∧ (s.chan c).atten = 0
        ∧ (s.chan c).groups = (if c < 32 then 1 else if c < 40 then 2 else 4))
    ∧ (∀ c, c < 32 →
      (s.chan c).zone = c / 8 * 2 + c % 8 / 4 ∧ (s.chan c).maskZone = c / 8 * 2 + c % 8 / 4
        ∧ (s.chan c).noise = -70 ∧ (s.chan c).rise = 0 ∧ (s.chan c).openThr = -58 ∧ (s.chan c).closeThr = -64
        ∧ (s.chan c).talkCount = 0 ∧ (s.chan c).armed = true ∧ (s.chan c).attack = 0
        ∧ (s.chan c).ring = none ∧ (s.chan c).pulseOwed = false
        ∧ (s.position c).state = .absent ∧ (s.position c).identity = none
        ∧ (s.position c).good = 0 ∧ (s.position c).miss = 0
        ∧ (s.position c).levels = none ∧ (s.position c).hold = none ∧ (s.position c).wakeTimer = none
        ∧ (s.position c).checkFails = 0 ∧ (s.position c).missed = 0 ∧ (s.position c).rejoins = 0)
    ∧ (∀ l, l < 4 → (s.line l).state = .off ∧ (s.line l).table = [] ∧ (s.line l).rollCount = 0
        ∧ (s.line l).frame = none)
    ∧ s.floor.mode = .voice ∧ s.floor.list = [] ∧ s.floor.wait = [] ∧ s.floor.leaving = [] ∧ s.floor.guard = none
    ∧ s.floor.chair = none ∧ s.floor.latch = false
    ∧ s.floor.cfg = { maxOpen := 4, openMargin := 12, closeMargin := 6, attack := 8, holdTime := 800, waitMax := 1500,
                      guard := 4, lastMic := false, ramp := 16, talkLimit := 0, talkWarn := 15, autoGrant := false,
                      chairDuck := 20 }
    ∧ (∀ o, o < 17 → ∀ c, c < 42 → s.mix.xp.get (42 * o + c) =
        if o < 8 then (if c = 32 + o then none else some 0) else if o = 8 then some 0 else if c < 32 then none else some 0)
    ∧ (∀ o, o < 17 → s.mix.bus.get o = some 0 ∧ s.mix.rowTouched.get o = false)
    ∧ s.privacy.state = .off ∧ s.privacy.group = 0 ∧ s.privacy.autoRelease = true
    ∧ s.silence.state = .quiet ∧ s.silence.covered = .none ∧ s.silence.requestLatch = false ∧ s.silence.howl = 0
    ∧ s.silence.chime = 0 ∧ s.silence.alarmLevel = false ∧ (∀ z, z < 8 → s.silence.howlCount.get z = 0)
    ∧ s.silence.cfg = { alarmEnable := true, howlEnable := true, requestEnable := true, alarmScope := .all,
                        howlScope := .a, requestScope := .all, maskA := 0x1FE00#17, maskB := 0x001FF#17,
                        contentA := .alert, contentB := .mute, howlLevel := -3, howlBlocks := 400, autoRestore := false }
    ∧ s.meters.window = 4 ∧ s.meters.counter = 0 ∧ s.meters.stamp = 0
    ∧ (∀ i, i < 59 → s.meters.points.get i = ⟨-96, -96, false, false⟩)
    ∧ (∀ e, e < 8 → s.meters.watches.get e
        = { point := 0, threshold := 0, dir := .above, count := 1, armed := false, matched := 0 })
    ∧ s.tone.running = false ∧ s.tone.target = .channel 0 ∧ s.tone.freq = 1000 ∧ s.tone.level = -20
    ∧ s.tone.burst = false ∧ s.tone.generated = 0
    ∧ (∀ i, i < 16 → s.scenes.slots.get i = none) ∧ s.scenes.load = none
    ∧ (∀ p, (s.port p).slot = none ∧ (s.port p).queue = [⟨.reset .power, 0⟩] ∧ (s.port p).mask = 0x3FFFFFF#26
        ∧ (s.port p).loss = false)
    ∧ s.sys.power = .running ∧ s.sys.resetCause = .power ∧ s.sys.farmod = false ∧ s.sys.autowake = false
    ∧ s.sys.blocks = 0 ∧ s.pending = []

/-- Power-on reset and pin reset leave the reset state but for what they take from outside (R186): an active privacy line
gives every channel of group 0 its PRIVACY claim and turns privacy ON (R40), an active Alarm line starts ACTIVE with both
sets covered (R126), each without a notice but RESET. Pin reset has its own cause and keeps the scene slots. A pin reset
within a power-on reset has no effect of its own (R186); nor has, by the model's choice, a power-on reset within a pin
reset (log 24). The free counter and the queue of commands, which are the model's own, run on (log 10, 29). -/
def Obligations.ResetsRestart : Prop :=
  ∀ (pv al : Bool) (s : State),
    let restarted (cause : ResetCause) (slots : Tab 16 (Option SceneRecord)) (u : State) : Prop :=
      u = { State.reset with
          chans := u.chans
          privacy := { State.reset.privacy with state := if pv then .on else .off, level := pv }
          silence := { State.reset.silence with
            state := if al then .active else .quiet
            covered := if al then .ab else .none
            alarmLevel := al }
          scenes := { slots := slots, load := none }
          room := { State.reset.room with queue := [⟨.reset cause, 0⟩] }
          codec := { State.reset.codec with queue := [⟨.reset cause, 0⟩] }
          sys := { State.reset.sys with resetCause := cause, free := s.sys.free }
          pending := s.pending }
        ∧ ∀ c, c < 42 → u.chan c
            = { State.reset.chan c with claims := { ClaimSet.empty with privacy := pv && decide (c < 32) } }
    (s.sys.inReset ≠ some .pin →
        ∃ u, exec (.powerOnReset pv al) s = .next u ∧ restarted .power State.reset.scenes.slots u)
      ∧ (s.sys.inReset = some .pin → exec (.powerOnReset pv al) s = .next s)
      ∧ (s.sys.inReset ≠ some .power → ∃ u, exec (.pinReset pv al) s = .next u ∧ restarted .pin s.scenes.slots u)
      ∧ (s.sys.inReset = some .power → exec (.pinReset pv al) s = .next s)

/-- While the reset pin is asserted the outputs are silent (no samples: the model's way to write zeros, log 27), no line
drives a frame and both ATTN outputs are released (R186). In reset no request is taken and nothing is clocked out (R186).
That no register changes before the end of the reset but the one that names the reset in force, and that every other
command leaves the state as it is, is the model's choice (log 24). -/
def Obligations.ResetPinHoldsThePart : Prop :=
  (∀ s : State, s.sys.inReset = none →
      ∃ u, exec .resetPinAsserted s = .next u ∧ u.sys = { s.sys with inReset := some .pin }
        ∧ (∀ o, o < 17 → u.mix.outputs.get o = []) ∧ (∀ l, l < 4 → (u.line l).frame = none)
        ∧ (∀ p, u.attn p = false ∧ u.port p = s.port p)
        ∧ s.onlyIn [.outputs, .lines, .resets, .due] u)
  ∧ (∀ (c : Instr) (s : State), s.sys.inReset ≠ none → c.isReset = false → exec c s = .next s)

/-- Every request is answered in its port's slot, unread, with its tag and kind; one that fails a check changes
nothing but that slot and has no body (R178, R179). -/
def Obligations.EveryRequestIsAnswered : Prop :=
  ∀ (i : Instr) (p : Port) (tag : Byte) (kind : Nat) (s : State), i.request = some (p, tag, kind) →
    s.sys.inReset = none →
    (∃ body u, exec i s = .next (okReply p tag kind body u))
      ∨ ∃ r, r ≠ .ok ∧ exec i s = .next (failReply p tag kind r (settle s))

/-- The Codec Port's rights (R180): any request of a kind it may not use is DENIED, Grant, Revoke and WaitDrop while
FARMOD is no, and ClaimSet and ClaimRelease with the chair flag set (R24, R25); a denied request changes nothing. -/
def Obligations.CodecPortIsDenied : Prop :=
  ∀ (i : Instr) (tag : Byte) (kind : Nat) (s : State), i.request = some (.codec, tag, kind) → s.sys.inReset = none →
    (kind ∉ [1, 2, 3, 4, 7, 8, 10, 11, 22, 24, 19, 27, 16, 17, 18] ∨ (kind ∈ [16, 17, 18] ∧ s.sys.farmod = false)
      ∨ (∃ sel num flag, flag ≠ 0 ∧ (i = .claimSet .codec tag sel num flag ∨ i = .claimRelease .codec tag sel num flag))) →
    exec i s = .next (failReply .codec tag kind .denied (settle s))

/-- A frame whose length or check is wrong gives MALFORMED; a whole frame of a kind that the part does not have gives
UNKNOWN; one of a kind that the port may not use gives DENIED; one whose body has not its kind's length gives MALFORMED,
after the rights check (R179). All echo the kind and the tag, or 0 for one that the frame is too short to hold (R179;
that the last two bytes of a whole frame are its check, and hold neither, is log 31). That a claim request of the Codec
Port whose length is wrong gives MALFORMED whatever its chair flag byte is the model's choice (log 39). A whole frame
that spells a request is taken as that request (R189, R190). A read transaction clocks out the response in the slot, or
an empty frame where there is none unread; it marks the response read when every byte has been clocked out, and changes
nothing else; a transaction whose first byte names neither kind carries all ones and leaves the slot (R178). That what
was clocked out is kept, and that a longer read ends with the frame, is the model's choice (log 23). -/
def Obligations.TransactionsAndBadFrames : Prop :=
  (∀ (p : Port) (bs : List Byte) (s : State), s.sys.inReset = none →
      let whole := 2 ≤ bs.length ∧ numAt bs 0 2 + 4 = bs.length
        ∧ ofBytes (bs.drop (bs.length - 2)) = (crc16 (bs.take (bs.length - 2))).toNat
      let kind := if 5 ≤ bs.length then numAt bs 2 1 else 0
      let tag : Byte := if 6 ≤ bs.length then bs.getD 3 0 else 0
      let body := (bs.drop 4).take (bs.length - 6)
      (¬ whole → exec (.unknownKindFrame p bs) s = .next (failReply p tag kind .malformed (settle s)))
      ∧ (whole → kind = 0 ∨ 44 < kind →
        exec (.unknownKindFrame p bs) s = .next (failReply p tag kind .unknown (settle s)))
      ∧ (whole → 1 ≤ kind → kind ≤ 44 →
        (kindRight p kind s = false →
          exec (.unknownKindFrame p bs) s = .next (failReply p tag kind .denied (settle s)))
        ∧ (kindRight p kind s = true → bs.length < 6 ∨ body.length ≠ bodyLength kind body →
          exec (.unknownKindFrame p bs) s = .next (failReply p tag kind .malformed (settle s)))))
  ∧ (∀ (i : Instr) (p : Port) (tag : Byte) (kind : Nat) (s : State), i.request = some (p, tag, kind) → i.wf = true →
      i.countsItems = true → exec (.unknownKindFrame p (i.frame kind tag)) s = exec i s)
  ∧ (∀ (p : Port) (n : Nat) (s : State), s.sys.inReset = none →
      (∀ r, (s.port p).slot = some r → (s.port p).read = false →
        exec (.readTransaction p n) s = .next (s.modPort p (fun ps =>
          { ps with dataOut := r.frame.take n, read := decide (r.frame.length ≤ n) })))
      ∧ ((s.port p).slot = none ∨ ((s.port p).slot.isSome ∧ (s.port p).read = true) →
        exec (.readTransaction p n) s = .next (s.modPort p (fun ps => { ps with dataOut := [0, 0].take n })))
      ∧ (∀ b : Byte, exec (.transactionIgnored p b n) s
          = .next (s.modPort p (fun ps => { ps with dataOut := List.replicate n 255 }))))

/-- A notice is offered to each port to which its kind goes (R182): it joins the tail of the queue where the mask holds
its kind and the queue holds fewer than 32, sets the loss flag where the queue is full, and is not queued where the mask
does not hold the kind; WAKE_REQUEST goes to the Room Port only; the stamp is the low 16 bits of the block counter, which
no notice moves; no queue grows past 32. ATTN is asserted while the response slot holds an unread response or the queue
is not empty, and only then, outside a reset (R186). -/
def Obligations.NoticesAreOffered : Prop :=
  (∀ (b : NoticeBody) (s : State) (p : Port),
    let n : Notice := ⟨b, s.sys.blocks.setWidth 16⟩
    let goes := p = .room ∨ b.kind ≠ 20
    (¬ goes → (raise b s).port p = s.port p)
    ∧ (goes → (s.port p).mask.getLsbD (b.kind - 1) = false → (raise b s).port p = s.port p)
    ∧ (goes → (s.port p).mask.getLsbD (b.kind - 1) = true → (s.port p).queue.length < 32 →
        (raise b s).port p = { s.port p with queue := (s.port p).queue ++ [n] })
    ∧ (goes → (s.port p).mask.getLsbD (b.kind - 1) = true → 32 ≤ (s.port p).queue.length →
        (raise b s).port p = { s.port p with loss := true })
    ∧ (raise b s).sys = s.sys
    ∧ ((s.port p).queue.length ≤ 32 → ((raise b s).port p).queue.length ≤ 32))
  ∧ (∀ (s : State) (p : Port), s.sys.inReset = none →
      (s.attn p = true ↔ ((s.port p).slot ≠ none ∧ (s.port p).read = false) ∨ (s.port p).queue ≠ []))

/-- Settling a boundary takes the event at the head of those due, forms the frames that wait for nothing, and goes on so;
where none is due it forms the frames; it leaves neither an event due nor a frame to be formed, and changes nothing where
neither was left (the model's choice, log 1, 2, 3). An event that is due or comes from outside is taken as a command in
the same way. The frame of a line is formed by its state (R128, R129, R130, R146, R148): a sync frame, a WAKE frame to all
without audio, a test frame, each of these counted, or a running frame. The arbiter gives a running frame the entry that
goes before every other (R138, R139), or no command where the table is empty: the entry is marked sent and no other is, a
broadcast leaves at once, a WAKE counts down and one that is held back starts again from 12 (R141). An audio slot carries
the feed of the zone of an ONLINE pod (R109, R130). The bytes are those of R189; a WAKE frame has the layout of a running
frame and a test frame its check (log 35), and the test pattern changes from frame to frame (R146). -/
def Obligations.SettlingTakesEventsAndFormsFrames : Prop :=
  (∀ s : State, (settle s).settled ∧ (s.settled → settle s = s)
    ∧ (s.due = [] → settle s = closeFrames s)
    ∧ (∀ e rest, s.due = e :: rest → settle s = settle (closeFrames (takeEvent e (closeFrames s))))
    ∧ (∀ i e, i.event = some e → s.sys.inReset = none → exec i s = .next (closeFrames (takeEvent e s)))
    ∧ (∀ l, l < 4 → (closeFrames s).line l
        = if s.frameReady l then (s.line l).formed (s.audioSlots l) s.sys.free else s.line l)
    ∧ s.onlyIn [.tables, .lines] (closeFrames s)
    ∧ (∀ l p, p < 8 → (s.audioSlots l).length = 8 ∧ (s.audioSlots l).getD p []
        = if s.present (8 * l + p) then s.mix.outputs.get (9 + (s.chan (8 * l + p)).maskZone) else []))
  ∧ (∀ (ln : Line) (audio : List (List Int)) (n : Nat),
      let formed := ln.formed audio n
      (ln.state = .starting → formed = { ln with
          frame := some .sync, remaining := ln.remaining - 1, toForm := false, early := false })
      ∧ (ln.state = .waking → formed = { ln with
          frame := some (.wake ⟨.broadcast, .wake ln.remaining, true⟩ []), remaining := ln.remaining - 1
          toForm := false, early := false })
      ∧ (ln.state = .testing → formed = { ln with
          frame := some (.test n), remaining := ln.remaining - 1, toForm := false, early := false })
      ∧ (ln.state = .running ∨ ln.state = .sleeping →
        (ln.table = [] → formed = { ln with frame := some (.running none audio), toForm := false, early := false })
        ∧ (∀ e ∈ ln.table, (∀ f ∈ ln.table, f = e ∨ e.goesBefore f) →
          (∀ f ∈ ln.table, ∀ p, f.dest = .position p → p < 8) →
          formed = { ln with
            frame := some (.running (some { e with sent := true }) audio)
            table := (ln.table.filter (fun f => !(f == e && e.dest == .broadcast))).map (fun f =>
              match f.cmd with
              | .wake k => ⟨f.dest, .wake (if f = e then k - 1 else 12), decide (f = e)⟩
              | _ => { f with sent := decide (f = e) })
            toForm := false, early := false })))
  ∧ (∀ (l n : Nat) (e : Entry) (audio : List (List Int)),
      let framed (sync : Nat) (inner : List Byte) : List Byte := u16 sync ++ inner ++ u16 (crc16 inner).toNat
      let slots : List Byte := (List.range 8).flatMap (fun p => (List.range 48).flatMap (fun i =>
        uN 3 (BitVec.ofInt 24 ((audio.getD p []).getD i 0)).toNat))
      let head : List Byte := (match e.dest with
          | .position p => u8 p
          | .broadcast => [0xFF]) ++ u8 e.cmd.kind ++ (match e.cmd with
          | .rollCall called => u8 called.toNat
          | .ring v pulse => u8 (v.colour.code + 8 * v.fn.code + (if pulse then 32 else 0))
          | _ => [0]) ++ [0]
      (LineFrame.running none audio).bytes l = framed 0x3C96 ([0xFE, 0, 0, 0] ++ slots)
      ∧ (LineFrame.running (some e) audio).bytes l = framed 0x3C96 (head ++ slots)
      ∧ (LineFrame.wake e audio).bytes l = framed 0x3C96 (head ++ slots)
      ∧ (LineFrame.test n).bytes l = framed 0xC369 ([0xFE, 0, 0, 0] ++ uN 1152 (testPattern l n))
      ∧ testPattern l n < 256 ^ 1152 ∧ testPattern l (n + 1) ≠ testPattern l n)

/-! ### Reads -/

/-- ChannelRead: one record for each channel of the run, from one state of the part; nothing changes (R13). -/
def Obligations.ChannelReadReports : Prop :=
  ∀ (p : Port) (tag : Byte) (first count : Nat) (s : State), s.sys.inReset = none →
    let t := settle s
    (first < 42 → 1 ≤ count → first + count ≤ 42 →
      exec (.channelRead p tag first count) s = .next (okReply p tag 4
        (u8 count ++ (List.range' first count).flatMap (fun c =>
          let k := t.chan c
          u8 c ++ u8 (if c < 32 then 0 else if c < 40 then 1 else 2) ++ flag (t.present c) ++ s8 k.trim
            ++ (if c < 32 then u8 k.zone else u8 255) ++ u8 k.groups.toNat
            ++ flag (decide (c < 32 ∧ t.floor.chair = some c)) ++ s8 k.peak ++ (if c < 32 then s8 k.noise else u8 255)
            ++ u8 k.claims.bits ++ flag (decide (c < 32) && k.hand) ++ u8 (t.gate c).code ++ u8 k.ramp)) t))
    ∧ (42 ≤ first ∨ count = 0 ∨ 42 < first + count →
      exec (.channelRead p tag first count) s = .next (failReply p tag 4 .range t))

/-- CrosspointRead (R104): the checks in their order, the bus gain, the stored values with their masked flags under
the zones of the channel records, and no change of state. The state read is that of the boundary settled before it (the
model's choice, log 2); the bytes are coded as R189 and R190 say. -/
def Obligations.CrosspointReadReports : Prop :=
  ∀ (p : Port) (tag : Byte) (out first count : Nat) (s : State), s.sys.inReset = none →
    let t := settle s
    (out < 17 → first < 42 → 1 ≤ count → count ≤ 42 → first + count ≤ 42 →
      exec (.crosspointRead p tag out first count) s = .next (okReply p tag 19
        (gain (t.mix.bus.get out) ++ u8 count ++ (List.range' first count).flatMap (fun c =>
          gain (t.mix.xp.get (42 * out + c)) ++ flag (masked out c (t.chan c).zone))) t))
    ∧ (17 ≤ out ∨ 42 ≤ first ∨ count = 0 ∨ 42 < count ∨ 42 < first + count →
      exec (.crosspointRead p tag out first count) s = .next (failReply p tag 19 .range t))

/-- PodIdentity and PodCounters from the Room Port (R143, R144): the stored record of a position in any state, with no
change; the three counters as they stand, set to 0 in the same event. MeterRead (R162): the window and stamp, then
each point's captured peak and flags; the flags of the points returned are cleared, for both ports, and nothing else
changes. -/
def Obligations.PodAndMeterReadsReport : Prop :=
  (∀ (tag : Byte) (l p : Nat) (s : State), s.sys.inReset = none →
      let t := settle s
      let q := t.position (8 * l + p)
      (l < 4 → p < 8 →
        exec (.podIdentity .room tag l p) s = .next (okReply .room tag 40
            (u8 (t.line l).state.code ++ u8 q.state.code ++ identityField q.identity) t)
        ∧ exec (.podCounters .room tag l p) s = .next (okReply .room tag 39
            (u16 q.checkFails ++ u16 q.missed ++ u16 q.rejoins)
            (t.modPos (8 * l + p) (fun q => { q with checkFails := 0, missed := 0, rejoins := 0 }))))
      ∧ (4 ≤ l ∨ 8 ≤ p →
        exec (.podIdentity .room tag l p) s = .next (failReply .room tag 40 .range t)
        ∧ exec (.podCounters .room tag l p) s = .next (failReply .room tag 39 .range t)))
  ∧ (∀ (p : Port) (tag : Byte) (first count : Nat) (s : State), s.sys.inReset = none →
      let t := settle s
      (first < 59 → 1 ≤ count → first + count ≤ 59 →
        ∃ u, exec (.meterRead p tag first count) s = .next (okReply p tag 24
            (u8 t.meters.window ++ u16 t.meters.stamp.toNat ++ u8 count
              ++ (List.range' first count).flatMap (fun i =>
                s8 (t.meters.points.get i).captured ++ flag (t.meters.points.get i).fresh
                  ++ flag (t.meters.points.get i).overrun)) u)
          ∧ u = { t with meters := { t.meters with points := u.meters.points } }
          ∧ ∀ i, i < 59 → u.meters.points.get i =
              if first ≤ i ∧ i < first + count then { t.meters.points.get i with fresh := false, overrun := false }
              else t.meters.points.get i)
      ∧ (59 ≤ first ∨ count = 0 ∨ 59 < first + count →
        exec (.meterRead p tag first count) s = .next (failReply p tag 24 .range t)))

/-- Status reports the state of the part, field by field (R181), and clears the requesting port's loss flag; the other
port's is not touched. NoticeRead takes the oldest notices from the head of the requesting port's queue and reports what
is left and the loss flag, which it keeps; NoticeMask writes that port's mask where present and answers the mask as it
stands (R183). Neither touches the other port. The runs of fixed length carry no count, and the timers of an entry that has
none are 0, the sample phase of the tone is one byte, and the silence source set is two yes-or-no bytes and a byte of howl
zones (the model's choice, log 15, 37, 43, 45). -/
def Obligations.StatusAndNoticesServeOnePort : Prop :=
  (∀ (p : Port) (tag : Byte) (s : State), s.sys.inReset = none →
      let t := settle s
      let f := t.floor
      let q := t.silence
      let none1 (v : Option Nat) : List Byte := u8 (v.getD 255)
      exec (.status p tag) s = .next (okReply p tag 1
        (u8 t.sys.power.code ++ u8 t.sys.resetCause.code ++ u32 t.sys.blocks.toNat
          ++ flag t.sys.farmod ++ flag t.sys.autowake ++ flag (t.port p).loss ++ u8 (t.port p).queue.length
          ++ u8 t.privacy.state.code ++ u8 t.privacy.group
          ++ u8 f.mode.code ++ none1 f.chair ++ flag f.latch ++ flag f.duck
          ++ u8 (f.list.countP (fun e => e.st != .pending))
          ++ (List.range 32).flatMap (fun c => s8 (t.chan c).atten)
          ++ u8 f.list.length ++ f.list.flatMap (fun e =>
              u8 e.ch ++ u8 e.st.code ++ u32 e.stamp.toNat
                ++ u16 (match e.hold with
                  | .running n => n
                  | _ => 65535)
                ++ u16 ((e.talk.map (fun k => k.secs)).getD 65535) ++ flag (e.talk.any (fun k => k.warned)))
          ++ u8 f.wait.length ++ f.wait.flatMap (fun w => u8 w.ch ++ u32 w.stamp.toNat ++ u16 w.timer ++ u16 w.quiet)
          ++ u8 f.leaving.length ++ f.leaving.flatMap (fun e => u8 e.ch ++ u32 e.stamp.toNat)
          ++ none1 f.guard
          ++ u8 q.state.code ++ flag (q.alarmLevel && q.cfg.alarmEnable) ++ flag q.requestLatch ++ u8 q.howl.toNat
          ++ u8 (match q.covered with
              | .none => 0
              | .a => 1
              | .ab => 3)
          ++ u8 (if q.alarmLevel then 0 else 1)
          ++ (List.range 4).flatMap (fun l => u8 (t.line l).state.code)
          ++ u8 (if t.tone.running then 1 else 0) ++ t.tone.target.bytes ++ u16 t.tone.freq ++ s8 t.tone.level
          ++ u8 (if t.tone.burst then 0 else 1) ++ u16 (t.tone.remaining.getD 65535) ++ u32 t.tone.generated.toNat
          ++ u8 t.tone.phase
          ++ (match t.scenes.load with
            | some ld => u8 ld.slot ++ u8 ld.phase.order ++ u8 ld.index ++ u8 ld.applied ++ u8 ld.passed
            | none => [255, 255, 255, 255, 255]))
        (t.modPort p (fun ps => { ps with loss := false }))))
  ∧ (∀ (p : Port) (tag : Byte) (s : State), s.sys.inReset = none →
      let t := settle s
      (∀ n, 1 ≤ n → n ≤ 8 →
        exec (.noticeRead p tag n) s = .next (okReply p tag 2
          (u8 ((t.port p).queue.take n).length ++ ((t.port p).queue.take n).flatMap Notice.bytes
            ++ u8 ((t.port p).queue.length - n) ++ flag (t.port p).loss)
          (t.modPort p (fun ps => { ps with queue := ps.queue.drop n }))))
      ∧ (∀ n, n = 0 ∨ 8 < n → exec (.noticeRead p tag n) s = .next (failReply p tag 2 .range t))
      ∧ (∀ v, exec (.noticeMask p tag ⟨0, v⟩) s = .next (okReply p tag 3 (u32 (t.port p).mask.toNat) t))
      ∧ (∀ v, exec (.noticeMask p tag ⟨1, v⟩) s
          = .next (okReply p tag 3 (u32 (BitVec.ofInt 26 v).toNat) (t.modPort p (fun ps => { ps with mask := BitVec.ofInt 26 v })))))

/-! ### Channels and groups (chapter 1) -/

/-- ChannelWrite from the Room Port writes the fields that are present in one event, the zone of pods only, and no
other channel's; the PRIVACY claim of the channel follows its groups while the privacy state is ON (R11); a write
during a load marks the channel where the load has not reached it (R14, R174). -/
def Obligations.ChannelWriteWritesSetup : Prop :=
  ∀ (tag : Byte) (c : Nat) (trim zone groups : OptField) (s : State), s.sys.inReset = none →
    let t := settle s
    c < 42 → within trim (-40) 40 = true → within zone 0 7 = true → (zone.presence = 1 → c < 32) →
    okPresence groups = true →
    ∃ u, exec (.channelWrite .room tag c trim zone groups) s = .next (okReply .room tag 5 [] u)
      ∧ (u.chan c).trim = (if trim.presence = 1 then trim.value else (t.chan c).trim)
      ∧ (u.chan c).zone = (if zone.presence = 1 then zone.value.toNat else (t.chan c).zone)
      ∧ (u.chan c).groups = (if groups.presence = 1 then BitVec.ofInt 8 groups.value else (t.chan c).groups)
      ∧ (∀ d, d ≠ c → (u.chan d).trim = (t.chan d).trim ∧ (u.chan d).zone = (t.chan d).zone
          ∧ (u.chan d).groups = (t.chan d).groups ∧ u.claims d = t.claims d)
      ∧ u.claims c = { t.claims c with
          privacy := if t.privacy.state = .on ∧ (u.chan c).groups ≠ (t.chan c).groups
            then (u.chan c).groups.getLsbD t.privacy.group else (t.claims c).privacy }
      ∧ (u.chan c).siteUp = (t.chan c).siteUp
      ∧ (u.chan c).touched = ((t.chan c).touched || t.notReached .channels c)
      ∧ t.changes (.setup :: .marks :: .tables :: claimParts) u

/-- ChairSet from the Room Port moves the designation, clears the latch and raises CHAIR_CHANGE; one that names the
present chair changes nothing in the designation and raises nothing (R12, R15, R90). SiteState from either port writes
the connected flag of channel 32 + site and nothing else (R3, R16). -/
def Obligations.ChairAndSitesAreSet : Prop :=
  (∀ (tag : Byte) (v : Nat) (s : State), s.sys.inReset = none → (v = 255 ∨ v < 32) →
      let t := settle s
      let new : Option Nat := if v = 255 then none else some v
      ∃ u, exec (.chairSet .room tag v) s = .next (okReply .room tag 6 [] u)
        ∧ u.floor.chair = new
        ∧ (t.floor.chair = new → u.floor = t.floor ∧ t.raised u [])
        ∧ (t.floor.chair ≠ new → u.floor.latch = false ∧ t.raised u [.chairChange t.floor.chair new]
            ∧ u.floor.list.map (fun e => (e.ch, e.st, e.stamp, e.hold))
                = t.floor.list.map (fun e => (e.ch, e.st, e.stamp, e.hold)))
        ∧ t.changes [.chair, .floor, .latch, .tables] u ∧ u.floor.wait = t.floor.wait ∧ u.floor.leaving = t.floor.leaving)
  ∧ (∀ (p : Port) (tag : Byte) (site v : Nat) (s : State), s.sys.inReset = none →
      let t := settle s
      (site < 8 → v ≤ 1 →
        ∃ u, exec (.siteState p tag site v) s = .next (okReply p tag 22 [] u)
          ∧ u = t.modChan (32 + site) (fun k => { k with siteUp := v == 1 })
          ∧ u.present (32 + site) = decide (v = 1)
          ∧ ∀ c, c ≠ 32 + site → u.present c = t.present c)
      ∧ (8 ≤ site ∨ 1 < v → exec (.siteState p tag site v) s = .next (failReply p tag 22 .range t)))

/-! ### Claims, hands, privacy (chapter 2) -/

/-- ClaimSet and ClaimRelease place and remove the claim of the port's authority (ROOM, or CHAIR with the chair flag;
FAR) on the channel named or on every member of the group, and no other claim of any channel (R22 to R25). A pod that
becomes muted is neither on the floor nor waiting, and its gate is not ATTACK (R20). A channel that becomes unmuted
has its hand lowered (R21). Either request, where it names one channel, raises CLAIM_CHANGE first where the claim set
changes, with what was added and removed and the port as origin, and raises nothing where it does not (R19, R24, R25).
A short MUTE press of a present pod (R31): an unmuted pod is muted with a POD claim and leaves floor and waiting; a pod
that holds a POD claim loses it; any other muted pod raises its hand, or lowers it where it is raised; where claims change
CLAIM_CHANGE comes first, with origin POD_BUTTON. No other channel's claims or hand change. The chair's long MUTE press
gives every other pod channel, present or not, a CHAIR claim, and leaves the chair's own claims and those of sites and
programs (R33). -/
def Obligations.ClaimsMoveByRequestAndPress : Prop :=
  (∀ (p : Port) (tag : Byte) (sel num fl : Nat) (s : State), s.sys.inReset = none →
      let t := settle s
      let a : Authority := match p with
        | .codec => .far
        | .room => if fl = 0 then .room else .chair
      let named : List Nat := if sel = 0 then [num] else (List.range 42).filter (fun c => (t.chan c).groups.getLsbD num)
      fl ≤ 1 → (p = .codec → fl = 0) → (sel = 0 ∧ num < 42 ∨ sel = 1 ∧ num < 8) →
      ∀ b : Bool, ∃ u,
        exec (if b then .claimSet p tag sel num fl else .claimRelease p tag sel num fl) s
            = .next (okReply p tag (if b then 7 else 8) [] u)
        ∧ (∀ c, u.claims c = if c ∈ named then (t.claims c).put a b else t.claims c)
        ∧ (t.floorLawful → ∀ c, c < 32 → t.muted c = false → u.muted c = true →
            u.floor.entry? c = none ∧ u.floor.waiting? c = none ∧ (u.chan c).attack = 0)
        ∧ (∀ c, (u.chan c).hand = ((t.chan c).hand && !(t.muted c && !u.muted c)))
        ∧ (sel = 0 →
          let old := t.claims num
          let new := old.put a b
          (new = old → t.raised u [])
          ∧ (new ≠ old → t.floorLawful → ∃ rest, t.raised u
              (.claimChange num new (new.less old) (old.less new)
                (match p with
                  | .room => .roomPort
                  | .codec => .codecPort) :: rest)
            ∧ t.claimMoved num old new rest))
        ∧ t.changes (.tables :: claimParts) u)
  ∧ (∀ (c : Nat) (s : State), s.sys.inReset = none → c < 32 → s.present c = true →
      ∃ u, exec (.muteShortPress c) s = .next (closeFrames u)
        ∧ (s.muted c = false → u.claims c = { ClaimSet.empty with pod := true } ∧ (u.chan c).hand = (s.chan c).hand
            ∧ (s.floorLawful → u.floor.entry? c = none ∧ u.floor.waiting? c = none ∧ (u.chan c).attack = 0))
        ∧ ((s.claims c).pod = true → u.claims c = { s.claims c with pod := false }
            ∧ (u.chan c).hand = ((s.chan c).hand && u.muted c))
        ∧ (s.muted c = false ∨ (s.claims c).pod = true → s.floorLawful → ∃ rest, s.raised u
            (.claimChange c (u.claims c) ((u.claims c).less (s.claims c)) ((s.claims c).less (u.claims c)) .podButton
              :: rest)
          ∧ s.claimMoved c (s.claims c) (u.claims c) rest)
        ∧ (s.muted c = true → (s.claims c).pod = false → u.claims c = s.claims c ∧ (u.chan c).hand = !(s.chan c).hand
            ∧ s.raised u [if (s.chan c).hand then .handLower c (s.claims c) .withdrawn else .handRaise c (s.claims c)])
        ∧ (∀ d, d ≠ c → u.claims d = s.claims d ∧ (u.chan d).hand = (s.chan d).hand)
        ∧ s.changes (.due :: .tables :: claimParts) u)
  ∧ (∀ (c : Nat) (s : State), s.sys.inReset = none → c < 32 → s.present c = true → s.floor.chair = some c →
      ∃ u, exec (.longPress c) s = .next (closeFrames u)
        ∧ (∀ d, d < 32 → d ≠ c → u.claims d = { s.claims d with chair := true }
            ∧ (s.floorLawful → s.muted d = false →
              u.floor.entry? d = none ∧ u.floor.waiting? d = none ∧ (u.chan d).attack = 0))
        ∧ (∀ d, d = c ∨ 32 ≤ d → u.claims d = s.claims d)
        ∧ (∀ d, (u.chan d).hand = (s.chan d).hand)
        ∧ s.changes (.due :: .tables :: claimParts) u)

/-- ClaimsClear from the Room Port removes every claim but PRIVACY from the channels named (R26); FarClear from either
port removes FAR from every channel (R27). A channel that becomes unmuted has its hand lowered (R21); that ClaimsClear
does so also to a set that it empties before a FAR claim comes, which row 1 of R28 calls muted throughout, is the model's
choice (log 44). HandLower from either port lowers the hand of the pod named or of every pod of the group, and changes no
claim set (R29). -/
def Obligations.ClaimsAndHandsAreCleared : Prop :=
  (∀ (tag : Byte) (s : State), s.sys.inReset = none →
      let t := settle s
      (∀ sel num : Nat, (sel = 0 ∧ num < 42 ∨ sel = 1 ∧ num < 8 ∨ sel = 2) →
        let named : List Nat := if sel = 0 then [num]
          else if sel = 1 then (List.range 42).filter (fun c => (t.chan c).groups.getLsbD num) else List.range 42
        ∃ u, exec (.claimsClear .room tag sel num) s = .next (okReply .room tag 9 [] u)
          ∧ (∀ c, u.claims c = if c ∈ named then { ClaimSet.empty with privacy := (t.claims c).privacy } else t.claims c)
          ∧ (∀ c, (u.chan c).hand = ((t.chan c).hand && !(t.muted c && !u.muted c)))
          ∧ t.changes (.tables :: claimParts) u)
      ∧ (∀ p : Port, ∃ u, exec (.farClear p tag) s = .next (okReply p tag 10 [] u)
          ∧ (∀ c, c < 42 → u.claims c = { t.claims c with far := false })
          ∧ (∀ c, c < 42 → (u.chan c).hand = ((t.chan c).hand && !(t.muted c && !u.muted c)))
          ∧ t.changes (.tables :: claimParts) u))
  ∧ (∀ (p : Port) (tag : Byte) (sel num : Nat) (s : State), s.sys.inReset = none →
      let t := settle s
      (sel = 0 ∧ num < 32 ∨ sel = 1 ∧ num < 8) →
      let named : List Nat := if sel = 0 then [num] else (List.range 32).filter (fun c => (t.chan c).groups.getLsbD num)
      ∃ u, exec (.handLower p tag sel num) s = .next (okReply p tag 11 [] u)
        ∧ (∀ c, (u.chan c).hand = ((t.chan c).hand && !(named.contains c)))
        ∧ t.raised u ((named.filter (fun c => (t.chan c).hand)).map (fun c => .handLower c (t.claims c) (.request p)))
        ∧ t.changes [.hands, .tables] u)

/-- PrivacyConfig writes the group and auto-release; a new group while the state is ON moves the PRIVACY claims to the
new group, with PRIVACY_ON first (R38). PrivacyRelease is HELD while the state is ON, removes every PRIVACY claim and
turns OFF where it is RETAINED, and changes nothing where it is OFF (R39). -/
def Obligations.PrivacyRequests : Prop :=
  ∀ (tag : Byte) (s : State), s.sys.inReset = none →
    let t := settle s
    (∀ group auto : OptField, within group 0 7 = true → yesNo auto = true →
      ∃ u, exec (.privacyConfig .room tag group auto) s = .next (okReply .room tag 12 [] u)
        ∧ u.privacy = { t.privacy with
            group := if group.presence = 1 then group.value.toNat else t.privacy.group
            autoRelease := if auto.presence = 1 then decide (auto.value = 1) else t.privacy.autoRelease }
        ∧ (∀ c, c < 42 → (u.claims c).privacy =
            if t.privacy.state = .on ∧ u.privacy.group ≠ t.privacy.group then (t.chan c).groups.getLsbD u.privacy.group
            else (t.claims c).privacy)
        ∧ (t.privacy.state = .on → u.privacy.group ≠ t.privacy.group → ∃ n rest,
            t.raised u (.privacyOn .on u.privacy.group n :: rest))
        ∧ t.changes (.tables :: privacyParts) u)
    ∧ (t.privacy.state = .on → exec (.privacyRelease .room tag) s = .next (failReply .room tag 13 .held t))
    ∧ (t.privacy.state = .off → exec (.privacyRelease .room tag) s = .next (okReply .room tag 13 [] t))
    ∧ (t.privacy.state = .retained →
      ∃ u, exec (.privacyRelease .room tag) s = .next (okReply .room tag 13 [] u)
        ∧ u.privacy = { t.privacy with state := .off }
        ∧ (∀ c, c < 42 → u.claims c = { t.claims c with privacy := false })
        ∧ (∃ rest, t.raised u (.privacyOff .off t.privacy.group
            ((List.range 42).countP (fun c => (t.claims c).privacy)) :: rest))
        ∧ t.changes (.tables :: privacyParts) u)

/-- The edges of the privacy line (R36, R37): an active edge turns the state ON and gives the members of the privacy
group, and no other channel, the PRIVACY claim; an inactive edge turns it OFF and removes every PRIVACY claim, or with
auto-release no turns it RETAINED and keeps them. PRIVACY_ON or PRIVACY_OFF comes first. -/
def Obligations.PrivacyLineEdges : Prop :=
  ∀ s : State, s.sys.inReset = none →
    (s.privacy.level = false → ∃ u, exec .privacyActiveEdge s = .next (closeFrames u)
      ∧ u.privacy = { s.privacy with level := true, state := .on }
      ∧ (∀ c, c < 42 → u.claims c = { s.claims c with privacy := (s.chan c).groups.getLsbD s.privacy.group })
      ∧ (∃ n rest, s.raised u (.privacyOn .on s.privacy.group n :: rest))
      ∧ s.changes (.due :: .tables :: privacyParts) u)
    ∧ (s.privacy.level = true → s.privacy.autoRelease = true → ∃ u, exec .privacyInactiveEdge s = .next (closeFrames u)
      ∧ u.privacy = { s.privacy with level := false, state := .off }
      ∧ (∀ c, c < 42 → u.claims c = { s.claims c with privacy := false })
      ∧ (∃ n rest, s.raised u (.privacyOff .off s.privacy.group n :: rest))
      ∧ s.changes (.due :: .tables :: privacyParts) u)
    ∧ (s.privacy.level = true → s.privacy.autoRelease = false → ∃ u, exec .privacyInactiveEdge s = .next (closeFrames u)
      ∧ u.privacy = { s.privacy with level := false, state := .retained }
      ∧ s.raised u [.privacyOff .retained s.privacy.group 0]
      ∧ s.changes [.due, .tables, .privacy] u)

/-- The counters of a pod's own (R7, R41, R42): a rise count of 200 raises the noise floor by 1 dB; 1500 talking
blocks of an armed muted pod raise MUTED_TALK and disarm; 500 quiet blocks arm again. Nothing else changes. -/
def Obligations.ChannelCountersAct : Prop :=
  ∀ (c : Nat) (s : State), s.sys.inReset = none →
    (s.isDue (.noiseFloorRise c) = true → 200 ≤ (s.chan c).rise →
      exec (.noiseFloorRise c) s = .next (closeFrames ((s.undue (.noiseFloorRise c)).modChan c
        (fun k => { k with noise := k.noise + 1, rise := 0 }))))
    ∧ (s.isDue (.mutedTalk c) = true → (s.chan c).armed = true → 1500 ≤ (s.chan c).talkCount →
      exec (.mutedTalk c) s = .next (closeFrames (raise (.mutedTalk c (s.chan c).peak)
        ((s.undue (.mutedTalk c)).modChan c (fun k => { k with armed := false, talkCount := 0 })))))
    ∧ (s.isDue (.mutedTalkRearm c) = true → (s.chan c).armed = false → 500 ≤ (s.chan c).talkCount →
      exec (.mutedTalkRearm c) s = .next (closeFrames ((s.undue (.mutedTalkRearm c)).modChan c
        (fun k => { k with armed := true, talkCount := 0 }))))

/-! ### The floor (chapters 3 and 4) -/

/-- ModeSet to the other mode empties the three lists, stops the guard timer, discards every attack count and the
latch, and raises MODE_CHANGE alone with the lengths before; the mode in force changes nothing (R83): the state is as it
was where the rings match, which every step keeps. -/
def Obligations.ModeSetEmptiesTheFloor : Prop :=
  ∀ (tag : Byte) (v : Nat) (s : State), s.sys.inReset = none → v ≤ 1 →
    let t := settle s
    let m : FloorMode := if v = 0 then .voice else .queue
    ∃ u, exec (.modeSet .room tag v) s = .next (okReply .room tag 14 [] u)
      ∧ (t.floor.mode = m → t.onlyIn [.tables] u ∧ t.raised u [] ∧ (t.ringsMatch → u = t))
      ∧ (t.floor.mode ≠ m →
          u.floor = { t.floor with mode := m, list := [], wait := [], leaving := [], guard := none, latch := false }
          ∧ (∀ c, c < 42 → (u.chan c).attack = 0)
          ∧ t.raised u [.modeChange t.floor.mode m t.floor.list.length t.floor.wait.length t.floor.leaving.length])
      ∧ t.changes [.attack, .floor, .latch, .mode, .tables] u

/-- FloorConfig (R69): every field present is written, the response carries the quantities as they stand; a MAXOPEN
below the number of members, or TALKWARN not below a TALKLIMIT that is not 0, is refused and writes nothing. A new
RAMP rescales every ramp position (R97). The members of the lists stay members (R70). -/
def Obligations.FloorConfigWritesQuantities : Prop :=
  ∀ (tag : Byte) (f : FloorFields) (s : State), s.sys.inReset = none → floorFieldsOk f = true →
    let t := settle s
    let old := t.floor.cfg
    let new : FloorCfg :=
      { maxOpen := if f.maxOpen.presence = 1 then f.maxOpen.value.toNat else old.maxOpen
        openMargin := if f.openMargin.presence = 1 then f.openMargin.value.toNat else old.openMargin
        closeMargin := if f.closeMargin.presence = 1 then f.closeMargin.value.toNat else old.closeMargin
        attack := if f.attack.presence = 1 then f.attack.value.toNat else old.attack
        holdTime := if f.holdTime.presence = 1 then f.holdTime.value.toNat else old.holdTime
        waitMax := if f.waitMax.presence = 1 then f.waitMax.value.toNat else old.waitMax
        guard := if f.guard.presence = 1 then f.guard.value.toNat else old.guard
        lastMic := if f.lastMic.presence = 1 then decide (f.lastMic.value = 1) else old.lastMic
        ramp := if f.ramp.presence = 1 then f.ramp.value.toNat else old.ramp
        talkLimit := if f.talkLimit.presence = 1 then f.talkLimit.value.toNat else old.talkLimit
        talkWarn := if f.talkWarn.presence = 1 then f.talkWarn.value.toNat else old.talkWarn
        autoGrant := if f.autoGrant.presence = 1 then decide (f.autoGrant.value = 1) else old.autoGrant
        chairDuck := if f.chairDuck.presence = 1 then f.chairDuck.value.toNat else old.chairDuck }
    (new.talkLimit ≠ 0 → new.talkLimit ≤ new.talkWarn →
      exec (.floorConfig .room tag f) s = .next (failReply .room tag 15 .range t))
    ∧ ((new.talkLimit = 0 ∨ new.talkWarn < new.talkLimit) → new.maxOpen < t.floor.list.length →
      exec (.floorConfig .room tag f) s = .next (failReply .room tag 15 .state t))
    ∧ ((new.talkLimit = 0 ∨ new.talkWarn < new.talkLimit) → t.floor.list.length ≤ new.maxOpen →
      ∃ u, exec (.floorConfig .room tag f) s = .next (okReply .room tag 15 new.bytes u)
        ∧ u.floor.cfg = new
        ∧ (∀ c, c < 42 → (u.chan c).ramp =
            if old.ramp = new.ramp then (t.chan c).ramp else (t.chan c).ramp * new.ramp / old.ramp)
        ∧ (∀ c, (t.floor.entry? c).isSome → (u.floor.entry? c).isSome)
        ∧ u.floor.leaving = t.floor.leaving ∧ u.floor.mode = t.floor.mode ∧ u.floor.chair = t.floor.chair
        ∧ t.changes [.attack, .floor, .latch, .cfg, .ramps, .tables] u)

/-- Grant (R76) of a waiting channel: with a place free it joins as OPEN; else with the evict flag the oldest OPEN or
HOLD entry but the chair's goes to the Leaving List, which has room, and the channel joins as PENDING; else FULL. A
channel that does not wait gives STATE. The body carries the gate state. The notices are FLOOR_CHANGE of the channel,
cause GRANTED, after that of the channel evicted (R68, R92); what follows is of channels admitted (R60), nothing where
the Leaving List holds a channel or QUEUE mode does not grant by itself. -/
def Obligations.GrantGivesTheFloor : Prop :=
  ∀ (p : Port) (tag : Byte) (c ev : Nat) (s : State), s.sys.inReset = none →
    let t := settle s
    t.floorLawful → (p = .codec → t.sys.farmod = true) → c < 32 → ev ≤ 1 →
    let oldest := t.floor.list.find? (fun e => e.st != .pending && t.floor.chair != some e.ch)
    (t.floor.waiting? c = none → exec (.grant p tag c ev) s = .next (failReply p tag 16 .state t))
    ∧ (t.floor.waiting? c ≠ none → t.floor.list.length < t.floor.cfg.maxOpen →
      ∃ u, exec (.grant p tag c ev) s = .next (okReply p tag 16 [4] u)
        ∧ u.floor.entry? c = some ⟨c, .opened, t.sys.blocks, .none, t.floor.newTalk c⟩ ∧ u.floor.waiting? c = none
        ∧ u.floor.leaving = t.floor.leaving
        ∧ (∃ rest, t.raised u (.floorChange c .waiting .opened .granted (t.floor.list.length + 1)
              (t.floor.dropWait c).wait.length t.floor.leaving.length (t.floor.openCount + 1) :: rest)
            ∧ (t.floor.leaving ≠ [] ∨ t.floor.mode = .queue ∧ t.floor.cfg.autoGrant = false → rest = [])
            ∧ ∀ b ∈ rest, ∃ d nf nw nl n, d ≠ c ∧ b = .floorChange d .waiting .opened .admitted nf nw nl n)
        ∧ t.changes [.attack, .floor, .tables] u)
    ∧ (t.floor.waiting? c ≠ none → t.floor.cfg.maxOpen ≤ t.floor.list.length → ev = 1 → t.floor.leaving.length < 6 →
      ∀ e, oldest = some e →
      ∃ u, exec (.grant p tag c ev) s = .next (okReply p tag 16 [3] u)
        ∧ u.floor.entry? c = some ⟨c, .pending, t.sys.blocks, .none, none⟩ ∧ u.floor.waiting? c = none
        ∧ u.floor.entry? e.ch = none ∧ u.floor.leaving = t.floor.leaving ++ [⟨e.ch, t.sys.blocks⟩]
        ∧ u.floor.guard = none
        ∧ t.raised u [
            .floorChange e.ch e.st.gate .closed .evicted (t.floor.list.length - 1) t.floor.wait.length
              (t.floor.leaving.length + 1) (t.floor.openCount - 1),
            .floorChange c .waiting .pending .granted t.floor.list.length (t.floor.dropWait c).wait.length
              (t.floor.leaving.length + 1) (t.floor.openCount - 1)]
        ∧ t.changes [.attack, .floor, .tables] u)
    ∧ (t.floor.waiting? c ≠ none → t.floor.cfg.maxOpen ≤ t.floor.list.length →
      ev = 0 ∨ 6 ≤ t.floor.leaving.length ∨ oldest = none →
      exec (.grant p tag c ev) s = .next (failReply p tag 16 .full t))

/-- Revoke takes a member off the floor in any state, with FLOOR_CHANGE cause REVOKED, clearing a latch on it, and
leaves the Leaving List; WaitDrop takes a waiting channel off the Wait List with WAIT_DROPPED (R77, R78). A channel
that is not in the list gives STATE. -/
def Obligations.RevokeAndWaitDrop : Prop :=
  ∀ (p : Port) (tag : Byte) (c : Nat) (s : State), s.sys.inReset = none →
    let t := settle s
    t.floorLawful → (p = .codec → t.sys.farmod = true) → c < 32 →
    (t.floor.entry? c = none → exec (.revoke p tag c) s = .next (failReply p tag 17 .state t))
    ∧ (t.floor.entry? c ≠ none →
      ∃ u, exec (.revoke p tag c) s = .next (okReply p tag 17 [] u)
        ∧ u.floor.entry? c = none ∧ u.floor.waiting? c = none ∧ u.floor.leaving = t.floor.leaving
        ∧ u.floor.latch = (t.floor.latch && t.floor.chair != some c)
        ∧ (∃ rest, let f := t.floor.dropEntry c
            t.raised u (.floorChange c (t.gate c) .closed .revoked f.list.length f.wait.length f.leaving.length
              f.openCount :: rest))
        ∧ t.changes [.attack, .floor, .latch, .tables] u)
    ∧ (t.floor.waiting? c = none → exec (.waitDrop p tag c) s = .next (failReply p tag 18 .state t))
    ∧ (∀ w, t.floor.waiting? c = some w →
      ∃ u, exec (.waitDrop p tag c) s = .next (okReply p tag 18 [] u)
        ∧ u.floor.entry? c = none ∧ u.floor.waiting? c = none ∧ u.floor.leaving = t.floor.leaving
        ∧ (∃ rest, t.raised u (.waitDropped c (.request p) w.timer (t.floor.dropWait c).wait.length :: rest))
        ∧ t.changes [.attack, .floor, .tables] u)

/-- A level floor request (R53) of a channel that is neither the chair nor in the Leaving List, row by row: it opens
where a place is free and nobody waits; else, nobody waiting, it evicts the oldest HOLD entry but the chair's and is
PENDING; else it waits at the tail; else it is refused with FLOOR_REFUSED. Its attack count is discarded. The chair's
level floor request is an override (R84, R86): with a place free it opens at the tail, leaving the Leaving List if it
stood there. With none free, the oldest entry but its own leaves: a PENDING one for good, and the chair opens; another
one to the Leaving List, where that has room, and the chair is PENDING; where it has none, the oldest PENDING entry
leaves, or the override is refused (State.overrideRows, row by row). A channel in the Leaving List other than the chair
(R54) moves to the tail of the Wait List where that has room, from where it may be admitted at once, the guard timer
starting where it was the last that left; else it is refused and stays. Each move raises FLOOR_CHANGE (R68), an evicted
channel's first; an override raises what State.overrideRows says. That the FLOOR_CHANGE of a level request carries ATTACK
as the gate state before is the model's choice (log 13). -/
def Obligations.FloorRequestTakesTheTables : Prop :=
  (∀ (c : Nat) (s : State), s.sys.inReset = none → s.floorLawful → s.isDue (.floorRequest c) = true →
      s.gate c = .attack → s.floor.cfg.attack ≤ (s.chan c).attack → s.floor.mode = .voice →
      s.floor.chair ≠ some c → s.floor.isLeaving c = false →
      let free := s.floor.list.length < s.floor.cfg.maxOpen
      let oldest := s.floor.list.find? (fun e => e.st == .held && s.floor.chair != some e.ch)
      ∃ u, exec (.floorRequest c) s = .next (closeFrames u) ∧ (u.chan c).attack = 0
        ∧ (free → s.floor.wait = [] →
            u.floor.entry? c = some ⟨c, .opened, s.sys.blocks, .none, none⟩ ∧ u.floor.leaving = s.floor.leaving
              ∧ s.raised u [.floorChange c .attack .opened .level (s.floor.list.length + 1) 0 s.floor.leaving.length
                (s.floor.openCount + 1)])
        ∧ (¬ free → s.floor.wait = [] → s.floor.leaving.length < 6 → ∀ e, oldest = some e →
            u.floor.entry? c = some ⟨c, .pending, s.sys.blocks, .none, none⟩ ∧ u.floor.entry? e.ch = none
              ∧ u.floor.leaving = s.floor.leaving ++ [⟨e.ch, s.sys.blocks⟩] ∧ u.floor.guard = none
              ∧ s.raised u [
                .floorChange e.ch .held .closed .evicted (s.floor.list.length - 1) 0 (s.floor.leaving.length + 1)
                  (s.floor.openCount - 1),
                .floorChange c .attack .pending .level s.floor.list.length 0 (s.floor.leaving.length + 1)
                  (s.floor.openCount - 1)])
        ∧ (¬ free ∨ s.floor.leaving ≠ [] →
            s.floor.wait ≠ [] ∨ (¬ free ∧ (6 ≤ s.floor.leaving.length ∨ oldest = none)) → s.floor.wait.length < 8 →
            u.floor.wait = s.floor.wait ++ [⟨c, s.sys.blocks, 0, 0⟩] ∧ u.floor.entry? c = none
              ∧ s.raised u [.floorChange c .attack .waiting .level s.floor.list.length (s.floor.wait.length + 1)
                s.floor.leaving.length s.floor.openCount])
        ∧ (¬ free ∨ s.floor.leaving ≠ [] → s.floor.wait.length = 8 →
            u.floor.wait = s.floor.wait ∧ u.floor.entry? c = none ∧ u.gate c = .closed
              ∧ s.raised u [.floorRefused c s.floor.list.length 8])
        ∧ s.changes [.due, .attack, .floor, .tables] u)
  ∧ (∀ (c : Nat) (s : State), s.sys.inReset = none → s.floorLawful → s.isDue (.floorRequest c) = true →
      s.gate c = .attack → s.floor.cfg.attack ≤ (s.chan c).attack → s.floor.mode = .voice → s.floor.chair = some c →
      ∃ u, exec (.floorRequest c) s = .next (closeFrames u)
        ∧ (s.floor.list.length < s.floor.cfg.maxOpen →
            u.floor.entry? c = some ⟨c, .opened, s.sys.blocks, .none, none⟩ ∧ u.floor.isLeaving c = false)
        ∧ (s.floor.cfg.maxOpen ≤ s.floor.list.length → s.floor.isLeaving c = false →
            ∀ e, s.floor.list.find? (fun e => e.ch != c) = some e →
            (e.st = .pending →
              u.floor.entry? c = some ⟨c, .opened, s.sys.blocks, .none, none⟩ ∧ u.floor.entry? e.ch = none
                ∧ u.floor.leaving = s.floor.leaving)
            ∧ (e.st ≠ .pending → s.floor.leaving.length < 6 →
              u.floor.entry? c = some ⟨c, .pending, s.sys.blocks, .none, none⟩ ∧ u.floor.entry? e.ch = none
                ∧ u.floor.leaving = s.floor.leaving ++ [⟨e.ch, s.sys.blocks⟩]))
        ∧ s.overrideRows c u
        ∧ s.changes (.due :: requestParts) u)
  ∧ (∀ (c : Nat) (s : State), s.sys.inReset = none → s.floorLawful → s.isDue (.floorRequest c) = true →
      s.gate c = .attack → s.floor.mode = .voice → s.floor.chair ≠ some c → s.floor.isLeaving c = true →
      let f := s.floor
      let L := f.leaving.filter (fun e => e.ch != c)
      ∃ u, exec (.floorRequest c) s = .next (closeFrames u) ∧ (u.chan c).attack = 0
        ∧ (f.wait.length < 8 → u.floor.leaving = L
          ∧ (f.cfg.maxOpen ≤ f.list.length ∨ L ≠ [] →
            u.floor.wait = f.wait ++ [⟨c, s.sys.blocks, 0, 0⟩] ∧ u.floor.entry? c = none)
          ∧ (f.list.length < f.cfg.maxOpen → L = [] → f.wait = [] →
            u.floor.entry? c = some ⟨c, .opened, s.sys.blocks, .none, none⟩ ∧ u.floor.wait = [])
          ∧ (L = [] → f.hasPending = true → f.cfg.guard ≠ 0 → u.floor.guard = some f.cfg.guard)
          ∧ ∃ rest, s.raised u
            (.floorChange c .attack .waiting .level f.list.length (f.wait.length + 1) L.length f.openCount :: rest))
        ∧ (f.wait.length = 8 → u.floor = f ∧ s.raised u [.floorRefused c f.list.length 8])
        ∧ s.changes [.due, .attack, .floor, .tables] u)

/-- A member whose hold timer stands at 0 leaves the floor with FLOOR_CHANGE cause HOLD_EXPIRED (R57); a member whose
talk timer has reached TALKLIMIT leaves it with TALK_END, which stands for its FLOOR_CHANGE: what follows it is of the
channels admitted in its place alone (R60, R81). A latch on it clears; the Leaving List stays. A waiting channel whose wait timer
has reached WAITMAX, or whose quiet counter has reached HOLDTIME, is dropped with WAIT_DROPPED, cause TIMEOUT or QUIET
(R59). That a hold timer at 0 expires under LASTMIC too, where another event of the boundary left its entry alone, is the
model's choice (log 40). -/
def Obligations.FloorTimersExpire : Prop :=
  (∀ (c : Nat) (s : State), s.sys.inReset = none → s.floorLawful →
      let f := s.floor.dropEntry c
      (∀ e, s.isDue (.holdExpired c) = true → s.floor.entry? c = some e → e.hold = .running 0 →
        ∃ u, exec (.holdExpired c) s = .next (closeFrames u)
          ∧ u.floor.entry? c = none ∧ u.floor.waiting? c = none ∧ u.floor.leaving = s.floor.leaving
          ∧ u.floor.latch = (s.floor.latch && s.floor.chair != some c)
          ∧ (∃ rest, s.raised u (.floorChange c (s.gate c) .closed .holdExpired f.list.length f.wait.length
              f.leaving.length f.openCount :: rest))
          ∧ s.changes (.due :: .tables :: departParts) u)
      ∧ (∀ e k, s.isDue (.talkEnd c) = true → s.floor.entry? c = some e → e.talk = some k →
        s.floor.cfg.talkLimit ≤ k.secs →
        ∃ u, exec (.talkEnd c) s = .next (closeFrames u)
          ∧ u.floor.entry? c = none ∧ u.floor.waiting? c = none ∧ u.floor.leaving = s.floor.leaving
          ∧ u.floor.latch = (s.floor.latch && s.floor.chair != some c)
          ∧ (∃ rest, s.raised u (.talkEnd c k.secs f.list.length f.wait.length f.leaving.length f.openCount :: rest)
              ∧ ∀ b ∈ rest, ∃ d nf nw nl n, d ≠ c ∧ b = .floorChange d .waiting .opened .admitted nf nw nl n)
          ∧ s.changes (.due :: .tables :: departParts) u))
  ∧ (∀ (c : Nat) (w : WaitEntry) (s : State), s.sys.inReset = none → s.floorLawful → s.floor.waiting? c = some w →
      (s.isDue (.waitTimeout c) = true → s.floor.cfg.waitMax ≤ w.timer →
        ∃ u, exec (.waitTimeout c) s = .next (closeFrames u)
          ∧ u.floor.entry? c = none ∧ u.floor.waiting? c = none ∧ u.floor.leaving = s.floor.leaving
          ∧ (∃ rest, s.raised u (.waitDropped c .timeout w.timer (s.floor.dropWait c).wait.length :: rest))
          ∧ s.changes [.due, .attack, .floor, .tables] u)
      ∧ (s.isDue (.waitQuietDrop c) = true → s.floor.cfg.holdTime ≤ w.quiet →
        ∃ u, exec (.waitQuietDrop c) s = .next (closeFrames u)
          ∧ u.floor.entry? c = none ∧ u.floor.waiting? c = none ∧ u.floor.leaving = s.floor.leaving
          ∧ (∃ rest, s.raised u (.waitDropped c .quiet w.timer (s.floor.dropWait c).wait.length :: rest))
          ∧ s.changes [.due, .attack, .floor, .tables] u))

/-- The end of a handover (R62, R63): a channel whose ramp stands at 0 leaves the Leaving List without a notice of its
own, and the guard timer starts from GUARD where the list is then empty and a PENDING entry exists; what notices follow
are of other channels, opened by the guard or admitted. At the expiry of the guard timer every PENDING entry opens in
place, in order, with FLOOR_CHANGE cause GUARD for each, and the timer stops. A second of talk time (R80, R81, R82): the
talk timer of the entry rises by 1, a warned flag below the warning point clears, and expiry or the warning becomes due;
the warning sets the flag and raises TALK_WARN. -/
def Obligations.HandoversAndTalkTimersRun : Prop :=
  (∀ s : State, s.sys.inReset = none → s.floorLawful →
      (∀ c, s.isDue (.leavingRemoval c) = true → s.floor.isLeaving c = true → (s.chan c).ramp = 0 →
        ∃ u, exec (.leavingRemoval c) s = .next (closeFrames u)
          ∧ u.floor.leaving = s.floor.leaving.filter (fun e => e.ch != c)
          ∧ (∀ e ∈ s.floor.leaving, e.ch = c → s.floor.leaving.length = 1 → s.floor.hasPending = true →
              s.floor.cfg.guard ≠ 0 → u.floor.guard = some s.floor.cfg.guard)
          ∧ (s.floor.wait = [] → s.floor.cfg.guard ≠ 0 → s.raised u [])
          ∧ (∃ bs, s.raised u bs ∧ ∀ b ∈ bs, ∃ d g k nf nw nl n, d ≠ c ∧ (k = .guard ∨ k = .admitted)
              ∧ b = .floorChange d g .opened k nf nw nl n)
          ∧ s.changes [.due, .attack, .floor, .tables] u)
      ∧ (s.isDue .guardExpiry = true → s.floor.guard = some 0 →
        ∃ u, exec .guardExpiry s = .next (closeFrames u)
          ∧ u.floor = { s.floor with
              guard := none
              list := s.floor.list.map (fun e =>
                if e.st = .pending then { e with st := .opened, talk := s.floor.newTalk e.ch } else e) }
          ∧ s.raised u ((s.floor.list.filter (fun e => e.st == .pending)).zipIdx.map (fun e =>
              .floorChange e.1.ch .pending .opened .guard s.floor.list.length s.floor.wait.length
                s.floor.leaving.length (s.floor.openCount + e.2 + 1)))
          ∧ s.changes [.due, .floor, .tables] u))
  ∧ (∀ (c : Nat) (e : FloorEntry) (k : TalkTimer) (s : State), s.sys.inReset = none → s.floorLawful →
      s.floor.entry? c = some e → e.talk = some k →
      let warnAt := s.floor.cfg.talkLimit - s.floor.cfg.talkWarn
      let w := k.warned && decide (warnAt ≤ k.secs + 1)
      (s.isDue (.talkTimerTick c) = true → 1000 ≤ k.blocks →
        ∃ u, exec (.talkTimerTick c) s = .next (closeFrames u)
          ∧ u.floor = { s.floor with list := s.floor.list.map (fun x =>
              if x.ch = c then { e with talk := some ⟨k.secs + 1, 0, w⟩ } else x) }
          ∧ u.due = (s.undue (.talkTimerTick c)).due ++
              (if s.floor.cfg.talkLimit ≤ k.secs + 1 then [.talkEnd c]
               else if warnAt ≤ k.secs + 1 ∧ w = false then [.talkWarn c] else [])
          ∧ s.raised u [] ∧ s.changes [.due, .floor, .tables] u)
      ∧ (s.isDue (.talkWarn c) = true → warnAt ≤ k.secs → k.secs < s.floor.cfg.talkLimit → k.warned = false →
        ∃ u, exec (.talkWarn c) s = .next (closeFrames u)
          ∧ u.floor = { s.floor with list := s.floor.list.map (fun x =>
              if x.ch = c then { e with talk := some { k with warned := true } } else x) }
          ∧ s.raised u [.talkWarn c k.secs s.floor.cfg.talkLimit]
          ∧ s.changes [.due, .floor, .tables] u))

/-- A TALK press of a present pod that is not the chair, in QUEUE mode, row by row (R73): a member yields, a waiting
channel withdraws, a muted or leaving one and one that finds the Wait List full are refused with a pulse owed to the
ring, any other waits at the tail (or, admitted at once under AUTOGRANT, is OPEN); FLOOR_CHANGE carries YIELD, WITHDRAWN
or REQUEST, and LATCHED or UNLATCHED for the chair's latch (R92). In VOICE mode it has no effect on the floor (R46).
The chair's TALK press in VOICE mode toggles the latch (R87): set, it clears; muted, refused; a member in OPEN or HOLD
is latched and OPEN without a hold timer, one PENDING is latched in place; off the floor it overrides, and is latched
where that admits it (with a place free it opens). In QUEUE mode a member yields, a muted chair is refused, any other
overrides (R85). The override is taken row by row, with its notices (State.overrideRows, R84). LATCHED comes after the
notices of R84 (R87); that it is the last notice of the press, after ADMITTED of a Wait List that is served in it too,
with the lengths at the end, is the model's choice (log 36). That a FLOOR_CHANGE of a chair in ATTACK carries ATTACK
as the gate state before is the model's choice (log 13). -/
def Obligations.TalkPressTakesTheTables : Prop :=
  (∀ (c : Nat) (s : State), s.sys.inReset = none → s.floorLawful → c < 32 → s.present c = true →
      (s.position c).talkButton = true → s.floor.chair ≠ some c →
      ∃ u, exec (.talkPress c) s = .next (closeFrames u)
        ∧ (s.floor.mode = .voice → u.floor = s.floor ∧ s.raised u [])
        ∧ (s.floor.mode = .queue →
            (s.floor.entry? c ≠ none ∨ s.floor.waiting? c ≠ none →
              u.floor.entry? c = none ∧ u.floor.waiting? c = none ∧ u.floor.leaving = s.floor.leaving
                ∧ ∃ nf nw nl n rest, s.raised u (.floorChange c (s.gate c) .closed
                    (if s.floor.entry? c = none then .withdrawn else .yield) nf nw nl n :: rest))
            ∧ (s.floor.entry? c = none → s.floor.waiting? c = none →
              (s.muted c = true ∨ s.floor.isLeaving c = true →
                u.floor = s.floor ∧ (u.chan c).pulseOwed = true
                  ∧ s.raised u [.floorRefused c s.floor.list.length s.floor.wait.length])
              ∧ (s.muted c = false → s.floor.isLeaving c = false → s.floor.wait.length = 8 →
                u.floor = s.floor ∧ (u.chan c).pulseOwed = true ∧ s.raised u [.waitFull c 8])
              ∧ (s.muted c = false → s.floor.isLeaving c = false → s.floor.wait.length < 8 →
                (s.floor.cfg.autoGrant = false → u.floor.wait = s.floor.wait ++ [⟨c, s.sys.blocks, 0, 0⟩])
                ∧ (u.gate c = .waiting ∨ u.gate c = .opened)
                ∧ ∃ rest, s.raised u (.floorChange c (s.gate c) .waiting .request s.floor.list.length
                    (s.floor.wait.length + 1) s.floor.leaving.length s.floor.openCount :: rest))))
        ∧ s.changes (.due :: pressParts) u)
  ∧ (∀ (c : Nat) (s : State), s.sys.inReset = none → s.floorLawful → c < 32 → s.present c = true →
      (s.position c).talkButton = true → s.floor.chair = some c →
      ∃ u, exec (.talkPress c) s = .next (closeFrames u)
        ∧ (s.floor.mode = .voice →
            (s.floor.latch = true → u.floor = { s.floor with latch := false }
              ∧ s.raised u [.floorChange c (s.gate c) (s.gate c) .unlatched s.floor.list.length s.floor.wait.length
                s.floor.leaving.length s.floor.openCount])
            ∧ (s.floor.latch = false → s.muted c = true → u.floor = s.floor ∧ (u.chan c).pulseOwed = true
                ∧ s.raised u [.floorRefused c s.floor.list.length s.floor.wait.length])
            ∧ (s.floor.latch = false → s.muted c = false → ∀ e, s.floor.entry? c = some e →
                u.floor = { s.floor with
                  latch := true
                  list := s.floor.list.map (fun x =>
                    if x.ch = c ∧ e.st ≠ .pending then { x with st := .opened, hold := .none } else x) }
                  ∧ s.raised u [.floorChange c (s.gate c) (if e.st = .pending then .pending else .opened) .latched
                    s.floor.list.length s.floor.wait.length s.floor.leaving.length s.floor.openCount])
            ∧ (s.floor.latch = false → s.muted c = false → s.floor.entry? c = none →
                s.floor.list.length < s.floor.cfg.maxOpen →
                u.floor.entry? c = some ⟨c, .opened, s.sys.blocks, .none, none⟩ ∧ u.floor.latch = true)
            ∧ (s.floor.latch = false → s.muted c = false → s.floor.entry? c = none →
                s.overrideRows c u ∧ u.floor.latch = (u.floor.entry? c).isSome
                  ∧ (u.floor.latch = true → ∃ bs, s.raised u (bs ++
                    [.floorChange c (u.gate c) (u.gate c) .latched u.floor.list.length u.floor.wait.length
                      u.floor.leaving.length u.floor.openCount]))))
        ∧ (s.floor.mode = .queue →
            (s.floor.entry? c ≠ none → u.floor.entry? c = none ∧ u.floor.latch = false
              ∧ ∃ nf nw nl n rest, s.raised u (.floorChange c (s.gate c) .closed .yield nf nw nl n :: rest))
            ∧ (s.floor.entry? c = none → s.muted c = true → u.floor = s.floor ∧ (u.chan c).pulseOwed = true
              ∧ s.raised u [.floorRefused c s.floor.list.length s.floor.wait.length])
            ∧ (s.floor.entry? c = none → s.muted c = false → s.floor.list.length < s.floor.cfg.maxOpen →
                u.floor.entry? c = some ⟨c, .opened, s.sys.blocks, .none, none⟩ ∧ u.floor.isLeaving c = false)
            ∧ (s.floor.entry? c = none → s.muted c = false → s.overrideRows c u))
        ∧ s.changes (.due :: pressParts) u)

/-! ### Mixing (chapter 5) -/

/-- CrosspointWrite from the Room Port writes its run in one row and nothing else (R105): a gain for a masked pair is
refused with SELF and writes nothing, OFF for one is taken. BusGainWrite writes one bus gain (R106). Each marks its
row while a load has not reached it (R174). -/
def Obligations.GainWrites : Prop :=
  ∀ (tag : Byte) (o : Nat) (s : State), s.sys.inReset = none → o < 17 →
    let t := settle s
    (∀ (first : Nat) (values : List Int), values ≠ [] → first + values.length ≤ 42 →
      (∀ v ∈ values, v = -128 ∨ (-120 ≤ v ∧ v ≤ 0)) →
      ((∃ i, i < values.length ∧ masked o (first + i) (t.chan (first + i)).zone = true ∧ values.getD i 0 ≠ -128) →
        exec (.crosspointWrite .room tag o first values.length values) s = .next (failReply .room tag 20 .self t))
      ∧ ((∀ i, i < values.length → masked o (first + i) (t.chan (first + i)).zone = true → values.getD i 0 = -128) →
        ∃ u, exec (.crosspointWrite .room tag o first values.length values) s = .next (okReply .room tag 20 [] u)
          ∧ (∀ r c, r < 17 → c < 42 → u.mix.xp.get (42 * r + c) =
              if r = o ∧ first ≤ c ∧ c < first + values.length then
                (if values.getD (c - first) 0 = -128 then none else some (values.getD (c - first) 0))
              else t.mix.xp.get (42 * r + c))
          ∧ u.mix.bus = t.mix.bus
          ∧ (∀ r, r < 17 → u.mix.rowTouched.get r
              = (t.mix.rowTouched.get r || (decide (r = o) && t.notReached .crosspoints o)))
          ∧ t.changes [.gains, .marks] u))
    ∧ (∀ v : Int, (v = -128 ∨ (-120 ≤ v ∧ v ≤ 24)) →
      ∃ u, exec (.busGainWrite .room tag o v) s = .next (okReply .room tag 21 [] u)
        ∧ (∀ r, r < 17 → u.mix.bus.get r = if r = o then (if v = -128 then none else some v) else t.mix.bus.get r)
        ∧ u.mix.xp = t.mix.xp
        ∧ (∀ r, r < 17 → u.mix.rowTouched.get r
            = (t.mix.rowTouched.get r || (decide (r = o) && t.notReached .crosspoints o)))
        ∧ t.changes [.gains, .marks] u)

/-- The self mask (R101): site send k masks channel 32 + k, the record send none, zone feed z every pod whose zone is
z, and every other pair is unmasked. A masked pair contributes nothing to the output, whatever the crosspoint, the ramp
and the channel's input, a tone on it included: the output formed is the same whatever the masked channels bring. A tone
added to an output is not masked: it is heard with every channel silent. Shutdown content replaces an output after the
mask has acted: it does not depend on the output formed. -/
def Obligations.MaskedPairsContributeNothing : Prop :=
  (∀ k c z, k < 8 → c < 42 → (masked k c z = true ↔ c = 32 + k))
    ∧ (∀ c z, masked 8 c z = false)
    ∧ (∀ k c z, k < 8 → c < 42 → (masked (9 + k) c z = true ↔ c < 32 ∧ z = k))
    ∧ (∀ o c xp k x, masked o c k.maskZone = true → contribution o c xp k x = none)
    ∧ (∀ (s : State) (o : Nat) (chans : Tab 42 Channel) (x y : Tab 42 (List Int)),
      (∀ c, c < 42 → masked o c (chans.get c).maskZone = false → x.get c = y.get c) →
      s.formOutput chans x o = s.formOutput chans y o)
    ∧ (∀ (s : State) (o i : Nat) (chans : Tab 42 Channel), s.sys.power = .running → s.tone.running = true →
      s.tone.target = .output o → 1 ≤ s.floor.cfg.ramp → i < 48 →
      sampleAt (s.formOutput chans (Tab.tabulate 42 (fun _ => [])) o) i = limit (sampleAt s.toneNow i))
    ∧ (∀ (s : State) (o : Nat) (x : Tab 42 (List Int)) (y z : Tab 17 (List Int)), s.silence.contentFor o ≠ none →
      s.deliver x y o = s.deliver x z o)
    ∧ (∀ (s : State) (c : Nat) (k : Channel), (s.mixStep c k).maskZone = k.zone)

/-- What a block boundary does to every channel (R2, R6, R7, R51, R94, R100, R102): the block counter advances; a ramp
takes one step toward its target; a channel that is not present has a block peak of -96 and, as a pod, keeps its noise
floor; a quieter block takes a present pod's noise floor at once; the thresholds follow; the attenuation and the mask
zone are those of the state before. Neither set-up, claims nor hands change. That the block counter returns to 0 past
4294967295 is presumed (log 11), and the free counter is the model's own (log 10).
That pods still ONLINE take their slots' level also at the boundary that ends the frame in flight after PowerStandby is the
model's choice (log 46). -/
def Obligations.BoundaryStepsChannels : Prop :=
  ∀ (inp : BoundaryIn) (s : State), s.sys.inReset = none →
    let t := settle s
    ∃ u, exec (.blockBoundary inp) s = .next u
      ∧ u.sys = { t.sys with blocks := t.sys.blocks + 1, free := t.sys.free + 1 }
      ∧ (∀ c, c < 42 →
        (u.chan c).ramp = (if t.sys.power = .standby then (t.chan c).ramp
          else if t.target c then (if (t.chan c).ramp < t.floor.cfg.ramp then (t.chan c).ramp + 1 else (t.chan c).ramp)
          else (t.chan c).ramp - 1)
        ∧ (u.chan c).atten = t.floor.attenHalf c ∧ (u.chan c).maskZone = (t.chan c).zone
        ∧ (t.present c = false → (u.chan c).peak = -96))
      ∧ (∀ c, c < 32 →
        (t.present c = false → (u.chan c).noise = (t.chan c).noise ∧ (u.chan c).rise = (t.chan c).rise)
        ∧ (t.present c = true →
          ((u.chan c).peak < (t.chan c).noise → (u.chan c).noise = (u.chan c).peak ∧ (u.chan c).rise = 0)
          ∧ ((u.chan c).peak = (t.chan c).noise → (u.chan c).noise = (t.chan c).noise ∧ (u.chan c).rise = (t.chan c).rise)
          ∧ ((t.chan c).noise < (u.chan c).peak → (t.chan c).noise < -20 →
            (u.chan c).noise = (t.chan c).noise ∧ (u.chan c).rise = (t.chan c).rise + 1)
          ∧ ((t.chan c).noise < (u.chan c).peak → -20 ≤ (t.chan c).noise →
            (u.chan c).noise = (t.chan c).noise ∧ (u.chan c).rise = (t.chan c).rise))
        ∧ (let noise := if 200 ≤ (u.chan c).rise then (u.chan c).noise + 1 else (u.chan c).noise
          (u.chan c).openThr = max (noise + t.floor.cfg.openMargin) (-60)
            ∧ (u.chan c).closeThr = (u.chan c).openThr - t.floor.cfg.closeMargin))
      ∧ (∀ p ∈ [Part.setup, .claims, .hands, .mode, .cfg, .chair, .latch, .gains, .privacy, .rings, .slots, .load, .marks],
          p.same t u)

/-- The floor at a block boundary (R52, R56, R57, R59, R62, R72, R80): in VOICE mode a pod in CLOSED or ATTACK counts
a qualifying block and discards its count at any other, a waiting channel's timers run, an OPEN entry below the close
threshold goes to HOLD with HOLDTIME, a HOLD entry at the open threshold opens and below it counts down; in QUEUE mode
no gate moves. In both the guard timer and the talk timers count. No list gains or loses a channel. OPEN to HOLD and HOLD
to OPEN raise FLOOR_CHANGE, cause LEVEL (R68), by channel number (the model's choice, log 19). That LASTMIC (R58)
reads the Floor List before the events of the boundary, and stops no timer at the boundary at which it starts, is the
model's choice (log 40, 41).
That pods still ONLINE take their slots' level also at the boundary that ends the frame in flight after PowerStandby is the
model's choice (log 46). -/
def Obligations.BoundaryStepsTheFloor : Prop :=
  ∀ (inp : BoundaryIn) (s : State), s.sys.inReset = none →
    let t := settle s
    t.floorLawful →
    ∃ u, exec (.blockBoundary inp) s = .next u
      ∧ u.floor.leaving = t.floor.leaving ∧ u.floor.guard = t.floor.guard.map (fun n => n - 1)
      ∧ u.floor.list.map (fun e => (e.ch, e.stamp)) = t.floor.list.map (fun e => (e.ch, e.stamp))
      ∧ { t with sys := u.sys }.raised u (((List.range 32).filter (fun c =>
            (t.gate c, u.gate c) == (Gate.opened, Gate.held) || (t.gate c, u.gate c) == (Gate.held, Gate.opened))).map (fun c =>
          .floorChange c (t.gate c) (u.gate c) .level t.floor.list.length t.floor.wait.length t.floor.leaving.length
            t.floor.openCount))
      ∧ (t.floor.mode = .queue → u.floor.wait = t.floor.wait
          ∧ u.floor.list = t.floor.list.map (fun e =>
              { e with talk := e.talk.map (fun k => { k with blocks := k.blocks + 1 }) }))
      ∧ (t.floor.mode = .voice →
        u.floor.wait = t.floor.wait.map (fun w =>
          { w with
            timer := w.timer + 1
            quiet := if (u.chan w.ch).peak < (u.chan w.ch).closeThr then w.quiet + 1 else 0 })
        ∧ (∀ c, c < 32 → (u.chan c).attack =
            if (t.gate c = .closed ∨ t.gate c = .attack) ∧ (u.chan c).openThr ≤ (u.chan c).peak
              ∧ t.present c = true ∧ t.muted c = false then (t.chan c).attack + 1 else 0)
        ∧ (∀ c e, t.floor.entry? c = some e → ∃ e', u.floor.entry? c = some e'
          ∧ (e.st = .pending → e'.st = .pending)
          ∧ (e.st = .opened → (t.floor.latch = true ∧ t.floor.chair = some c ∨ (u.chan c).closeThr ≤ (u.chan c).peak) →
              e'.st = .opened)
          ∧ (e.st = .opened → ¬ (t.floor.latch = true ∧ t.floor.chair = some c) → (u.chan c).peak < (u.chan c).closeThr →
              e'.st = .held ∧ e'.hold = .running t.floor.cfg.holdTime)
          ∧ (e.st = .held → (u.chan c).openThr ≤ (u.chan c).peak → e'.st = .opened ∧ e'.hold = .none)
          ∧ (e.st = .held → (u.chan c).peak < (u.chan c).openThr → t.floor.cfg.lastMic = true →
              t.floor.list.length = 1 → e'.st = .held ∧ e'.hold = .stopped)
          ∧ (∀ n, e.st = .held → (u.chan c).peak < (u.chan c).openThr →
              (t.floor.cfg.lastMic = false ∨ t.floor.list.length ≠ 1) → e.hold = .running n →
              e'.st = .held ∧ e'.hold = .running (n - 1))))

/-- The other units at a block boundary (R112, R114, R117, R160, R165, R167): the window counter advances and every
running peak is the larger of itself and the point's level; a running tone counts its blocks; a howl counter counts a
block peak of its zone feed, as the Mix Engine forms it, at or above HOWLLEVEL and returns to 0 below it, and stands at 0
while HOWL is disabled or the zone latched; the chime phase advances while substitution is in force. An output that MUTE
covers is silent (no samples, log 27). The events that a boundary makes due, of the level inputs, the channels and these
units (R7, R35, R41, R42, R53, R57, R59, R62, R63, R80, R113, R114, R122, R160, R167, R173), each for its cause and no
other (the model's choice is that they are due until taken, log 1); TALK_WARN, TALK_END and LEVEL_WATCH are made due by
other events alone.
That pods still ONLINE take their slots' level also at the boundary that ends the frame in flight after PowerStandby is the
model's choice (log 46). -/
def Obligations.BoundaryStepsUnits : Prop :=
  ∀ (inp : BoundaryIn) (s : State), s.sys.inReset = none →
    let t := settle s
    ∃ u, exec (.blockBoundary inp) s = .next u
      ∧ u.meters.counter = t.meters.counter + 1 ∧ u.meters.window = t.meters.window
      ∧ u.meters.stamp = t.meters.stamp ∧ u.meters.watches = t.meters.watches
      ∧ (∀ c, c < 42 → u.meters.points.get c =
          { t.meters.points.get c with running := max (t.meters.points.get c).running (u.chan c).peak })
      ∧ (∀ o, o < 17 → u.meters.points.get (42 + o) =
          { t.meters.points.get (42 + o) with
            running := max (t.meters.points.get (42 + o)).running (peakOf (u.mix.outputs.get o)) })
      ∧ (∀ o, o < 17 → t.silence.state ≠ .quiet → t.silence.covered ≠ .none → t.silence.cfg.maskA.getLsbD o = true →
          t.silence.cfg.contentA = .mute → u.mix.outputs.get o = [])
      ∧ (t.tone.running = false → u.tone = t.tone)
      ∧ (t.tone.running = true → u.tone.remaining = t.tone.remaining.map (fun n => n - 1)
          ∧ (t.tone.generated ≠ 0xFFFFFFFF#32 → u.tone.generated = t.tone.generated + 1))
      ∧ u.silence.chime = (if t.silence.state = .quiet then t.silence.chime else (t.silence.chime + 1) % 1000)
      ∧ (∀ z, z < 8 → u.silence.howlCount.get z =
          if t.silence.cfg.howlEnable = true ∧ t.silence.howl.getLsbD z = false
              ∧ t.silence.cfg.howlLevel ≤ peakOf (t.formOutput u.chans (t.inputs inp) (9 + z))
            then t.silence.howlCount.get z + 1 else 0)
      ∧ { u.silence with chime := t.silence.chime, howlCount := t.silence.howlCount } = t.silence
      ∧ (.privacyActiveEdge ∈ u.due ↔ t.privacy.level = false ∧ inp.privacyActive = true)
      ∧ (.privacyInactiveEdge ∈ u.due ↔ t.privacy.level = true ∧ inp.privacyActive = false)
      ∧ (.alarmActiveEdge ∈ u.due ↔ t.silence.alarmLevel = false ∧ inp.alarmActive = true)
      ∧ (.alarmInactiveEdge ∈ u.due ↔ t.silence.alarmLevel = true ∧ inp.alarmActive = false)
      ∧ (∀ c, c < 32 →
        (.noiseFloorRise c ∈ u.due ↔ 200 ≤ (u.chan c).rise)
        ∧ (.mutedTalk c ∈ u.due ↔ (u.chan c).armed = true ∧ 1500 ≤ (u.chan c).talkCount)
        ∧ (.mutedTalkRearm c ∈ u.due ↔ (u.chan c).armed = false ∧ 500 ≤ (u.chan c).talkCount)
        ∧ (.floorRequest c ∈ u.due ↔ t.floor.mode = .voice ∧ 0 < (u.chan c).attack
            ∧ t.floor.cfg.attack ≤ (u.chan c).attack)
        ∧ (.holdExpired c ∈ u.due ↔ ∃ e ∈ u.floor.list, e.ch = c ∧ e.hold = .running 0)
        ∧ (.waitTimeout c ∈ u.due ↔ t.floor.mode = .voice
            ∧ ∃ w, u.floor.waiting? c = some w ∧ t.floor.cfg.waitMax ≤ w.timer)
        ∧ (.waitQuietDrop c ∈ u.due ↔ t.floor.mode = .voice
            ∧ ∃ w, u.floor.waiting? c = some w ∧ w.timer < t.floor.cfg.waitMax ∧ t.floor.cfg.holdTime ≤ w.quiet)
        ∧ (.leavingRemoval c ∈ u.due ↔ u.floor.isLeaving c = true ∧ (u.chan c).ramp = 0)
        ∧ (.talkTimerTick c ∈ u.due ↔ ∃ e ∈ u.floor.list, e.ch = c ∧ ∃ k, e.talk = some k ∧ 1000 ≤ k.blocks)
        ∧ .talkWarn c ∉ u.due ∧ .talkEnd c ∉ u.due)
      ∧ (.guardExpiry ∈ u.due ↔ u.floor.guard = some 0)
      ∧ (∀ z, z < 8 → (.howlLatch z ∈ u.due ↔ t.silence.howlCount.get z < u.silence.howlCount.get z
          ∧ t.silence.cfg.howlBlocks ≤ u.silence.howlCount.get z))
      ∧ (.restoringEnd ∈ u.due ↔ t.silence.state = .restoring)
      ∧ (.capture ∈ u.due ↔ t.meters.window ≤ u.meters.counter)
      ∧ (∀ e, .levelWatch e ∉ u.due)
      ∧ (.toneCountEnd ∈ u.due ↔ u.tone.running = true ∧ u.tone.remaining = some 0)
      ∧ (.sceneLoadStep ∈ u.due ↔ t.scenes.load ≠ none)

/-- The audio of a block boundary. The input of a channel (R5): silence where it is not present, the tone where it is the
tone's target, else its source samples times its trim, limited; the block peak is the level of its largest sample, rounded
down to whole dBFS and kept in -96 to 0 (R6). That a pod still ONLINE has the samples of its slot also at the boundary that
ends the frame in flight after PowerStandby is the model's choice (log 46). An output as the Mix Engine forms it (R99, R106, R107, R110): the sum of the
unmasked inputs times ramp, crosspoint and attenuation, times the bus gain, with a tone added to it, limited; silence in
standby. What is delivered (R116, R117, R118): the content of set A where it covers the output, else of set B, else the
output formed; MUTE is silence, PROGRAM the sum of both program inputs at the bus gain, limited, ALERT the chime of the
phase. A value that is no whole number of sample steps is taken down or up (the model's choice, log 5), full scale is
8388607 (presumed, log 6), and the gain of h half decibels is exact to 96 bits. A tone (R165) is the sine of its frequency
with its level as the amplitude, at the sample phase, taken up or down to a whole number and at the crest away from zero
(the model's choice, log 7); its phase runs on by 48 samples (log 43); its block peak is its level, and at 250 Hz the level
less 1 where the block stops short of the crest. The chime (R117) is the sine of 660 Hz, then of 880 Hz with no break, 12
dB below full scale, rounded to the nearest (computed to 2^-30 of a step, log 8). The muted-talk counter (R41, R42) counts
talking blocks of an armed pod muted by POD alone, and quiet blocks of one that is not armed. -/
def Obligations.BoundaryFormsAudio : Prop :=
  let clip (v : Int) : Int := max (-8388607) (min 8388607 v)
  (∀ (inp : BoundaryIn) (s : State), s.sys.inReset = none →
    let t := settle s
    let x := t.inputs inp
    (∀ c, c < 42 →
      let src : List Int := if c < 32 then (match t.slotIn inp c with
          | .status st => st.samples
          | _ => [])
        else inp.lanes.getD (c - 32) []
      (t.present c = false → x.get c = [])
      ∧ (t.present c = true → t.tone.running = true → t.tone.target = .channel c → x.get c = t.toneNow)
      ∧ (t.present c = true → t.tone.running = false ∨ t.tone.target ≠ .channel c →
        ∀ i, i < 48 → ∃ v, roundedTo (sampleAt src i * gainNum (t.chan c).trim) gainDen v
          ∧ sampleAt (x.get c) i = clip v))
    ∧ ∃ u, exec (.blockBoundary inp) s = .next u
      ∧ (t.tone.running = true → u.tone = { t.tone with
          phase := (t.tone.phase + 48) % (48000 / t.tone.freq), remaining := u.tone.remaining
          generated := u.tone.generated })
      ∧ (∀ c, c < 42 → (u.chan c).peak = peakOf (x.get c))
      ∧ (∀ o, o < 17 →
        let y := t.formOutput u.chans x o
        let bus : Int := match t.mix.bus.get o with
          | some g => gainNum g
          | none => 0
        (t.sys.power = .standby → y = [])
        ∧ (t.sys.power = .running → 1 ≤ t.floor.cfg.ramp → ∀ i, i < 48 →
          let den := t.floor.cfg.ramp * gainDen * gainDen
          let sum : Int := ((List.range 42).map (fun c => match t.mix.xp.get (42 * o + c) with
            | none => 0
            | some g => if masked o c (t.chan c).zone then 0
              else sampleAt (x.get c) i * ((u.chan c).ramp * gainNum (g - (u.chan c).atten) : Nat))).sum
          let tone : Int := if t.tone.running ∧ t.tone.target = .output o then sampleAt t.toneNow i else 0
          ∃ v, roundedTo (sum * bus + tone * den) den v ∧ sampleAt y i = clip v)
        ∧ (let q := t.silence
          let a := q.state ≠ .quiet ∧ q.covered ≠ .none ∧ q.cfg.maskA.getLsbD o = true
          let b := q.state ≠ .quiet ∧ q.covered = .ab ∧ q.cfg.maskB.getLsbD o = true
          let out := u.mix.outputs.get o
          let delivers (k : Content) : Prop :=
            (k = .mute → out = [])
            ∧ (k = .program → ∀ i, i < 48 →
              ∃ v, roundedTo ((sampleAt (x.get 40) i + sampleAt (x.get 41) i) * bus) gainDen v ∧ sampleAt out i = clip v)
            ∧ (k = .alert → out = chimeBlock q.chime)
          (a → delivers q.cfg.contentA) ∧ (¬ a → b → delivers q.cfg.contentB) ∧ (¬ a → ¬ b → out = y)))
      ∧ (∀ c, c < 32 → (u.chan c).armed = (t.chan c).armed ∧ (u.chan c).talkCount =
          if t.present c = false then 0
          else if (t.chan c).armed then
            if t.claims c ≠ { ClaimSet.empty with pod := true } then (t.chan c).talkCount
            else if (u.chan c).openThr ≤ (u.chan c).peak then (t.chan c).talkCount + 1
            else if (u.chan c).closeThr ≤ (u.chan c).peak then (t.chan c).talkCount
            else 0
          else if (u.chan c).peak < (u.chan c).closeThr then (t.chan c).talkCount + 1
          else 0))
  ∧ (∀ x : List Int,
      let a := crest x
      (∀ v ∈ x, v.natAbs ≤ a) ∧ (a ≠ 0 → ∃ v ∈ x, v.natAbs = a)
      ∧ (∀ j : Nat, j < 96 → (peakOf x = -(j : Int) ↔
          8388607 ^ 20 ≤ a ^ 20 * 10 ^ j ∧ ∀ i, i < j → a ^ 20 * 10 ^ i < 8388607 ^ 20))
      ∧ (peakOf x = -96 ↔ ∀ i, i < 96 → a ^ 20 * 10 ^ i < 8388607 ^ 20))
  ∧ (∀ s : State, s.tone.freq = 250 ∨ s.tone.freq = 1000 ∨ s.tone.freq = 2000 ∨ s.tone.freq = 4000 →
      -60 ≤ s.tone.level → s.tone.level ≤ 0 →
      let n := 48000 / s.tone.freq
      let amplitude := 8388607 * gainNum (2 * s.tone.level)
      (∀ i, i < 48 →
        let k := s.tone.phase + i
        let v := sampleAt s.toneNow i
        |(v : ℝ) - (amplitude : ℝ) / gainDen * Real.sin (2 * Real.pi * k / n)| ≤ 1 + 1 / 2 ^ 30
        ∧ (4 * (k % n) = n → (amplitude : Int) ≤ v * gainDen ∧ v * gainDen < amplitude + gainDen)
        ∧ (4 * (k % n) = 3 * n → (amplitude : Int) ≤ -v * gainDen ∧ -v * gainDen < amplitude + gainDen))
      ∧ (s.tone.freq ≠ 250 ∨ s.tone.phase % 96 = 48 → peakOf s.toneNow = s.tone.level)
      ∧ (s.tone.freq = 250 → s.tone.phase % 96 = 0 → peakOf s.toneNow = s.tone.level - 1))
  ∧ (∀ phase i : Nat, i < 48 →
      let k : ℝ := 48 * phase + i
      let chime (turns : ℝ) : Prop :=
        |(sampleAt (chimeBlock phase) i : ℝ) - 8388607 * gainNum (-24) / gainDen * Real.sin (2 * Real.pi * turns)|
          ≤ 1 / 2 + 1 / 2 ^ 30
      (phase < 250 → chime (660 * k / 48000))
      ∧ (250 ≤ phase → phase < 500 → chime ((660 * 12000 + 880 * (k - 12000)) / 48000))
      ∧ (500 ≤ phase → chimeBlock phase = []))
  ∧ (∀ h : Int, gainNum h = gainTable.getD (h % 40).toNat 0 * 10 ^ (h / 40 + 20).toNat)
  ∧ gainDen = 2 ^ 96 * 10 ^ 20
  ∧ (∀ r, r < 40 → (gainTable.getD r 0) ^ 40 ≤ 10 ^ r * (2 ^ 96) ^ 40
      ∧ 10 ^ r * (2 ^ 96) ^ 40 < (gainTable.getD r 0 + 1) ^ 40)

/-- The lines at a block boundary. A slot as received (R131, R189): nothing is missed, a wrong check is bad, a status or an
identity slot by its layout; bytes of neither layout are bad, and a button byte that is neither 0 nor 1 says no (the
model's choice, log 18). Slots are taken where the frame in flight is a running frame and no SLEEP broadcast. What a slot
does to a JOINING, an ONLINE and any other position (R133 to R136, R143), with the counters staying at 65535; the MUTE
hold counts to 2000 and the wake timer down (R136, R141). The events that slots make due: joins, failed joins, losses
(R134, R135), presses by the edges of the levels (R136, R137), acknowledgements of the command sent (R139), wake requests
(R142), answers to the roll call (R133); and the end of 12 WAKE frames and of a wake timer (R141). The counts of a line
(R133, R146), and the events of its state, its frames, its roll call and its wake pulse (R128, R129, R133, R146, R147,
R148). Its frame is formed at once where nothing due holds it back (log 3). That a SLEEPING line falls asleep at the next
boundary also where it has no frame in flight, which R147 leaves open, is the model's choice (log 20). -/
def Obligations.BoundaryServesTheLines : Prop :=
  (∀ (inp : BoundaryIn) (s : State), s.sys.inReset = none →
    let t := settle s
    ∃ u, exec (.blockBoundary inp) s = .next u
      ∧ (∀ l p, l < 4 → p < 8 →
        let c := 8 * l + p
        let q := t.position c
        let q' := u.position c
        let ln := t.line l
        let slot := t.slotIn inp c
        let takes := ln.takesSlots = true
        let called := (ln.calledNow.getD 0).getLsbD p = true
        let bump (n : Nat) : Nat := if n < 65535 then n + 1 else 65535
        let held := q.hold.map (fun n => if n < 2000 then n + 1 else n)
        let w := q.wakeTimer.map (fun n => n - 1)
        (¬ takes → q' = { q with hold := held, wakeTimer := w })
        ∧ (takes → q.state = .joining → q' = (match slot with
          | .status st => { q with good := q.good + 1, miss := 0, levels := some ⟨st.mute, st.talk⟩, wakeTimer := w }
          | .missed => { q with missed := bump q.missed, good := 0, miss := q.miss + 1, wakeTimer := w }
          | _ => { q with checkFails := bump q.checkFails, good := 0, miss := q.miss + 1, wakeTimer := w }))
        ∧ (takes → q.state = .online → q' = (match slot with
          | .status st => { q with
              miss := 0, levels := some ⟨st.mute, st.talk⟩, wakeTimer := w
              hold := match q.levels with
                | none => held
                | some was => if st.mute ∧ ¬ was.mute then some 0 else if was.mute ∧ ¬ st.mute then none else held }
          | .missed => { q with missed := bump q.missed, miss := q.miss + 1, hold := held, wakeTimer := w }
          | _ => { q with checkFails := bump q.checkFails, miss := q.miss + 1, hold := held, wakeTimer := w }))
        ∧ (takes → q.state ≠ .joining → q.state ≠ .online →
          q' = { q with checkFails := if slot = .bad ∧ called then bump q.checkFails else q.checkFails, wakeTimer := w })
        ∧ (.podJoin l p ∈ u.due ↔ takes ∧ q.state = .joining ∧ 4 ≤ q'.good)
        ∧ (.joinFailed l p ∈ u.due ↔ takes ∧ q.state = .joining ∧ 3 ≤ q'.miss)
        ∧ (.podLost l p ∈ u.due ↔ takes ∧ q.state = .online ∧ 3 ≤ q'.miss)
        ∧ (.muteShortPress c ∈ u.due ↔ takes ∧ q.state = .online ∧ ∃ st was n, slot = .status st
            ∧ q.levels = some was ∧ was.mute = true ∧ st.mute = false ∧ q.hold = some n ∧ n + 1 < 2000)
        ∧ (.longPress c ∈ u.due ↔ takes ∧ q.state = .online ∧ q.hold = some 1999)
        ∧ (.talkPress c ∈ u.due ↔ takes ∧ q.state = .online ∧ ∃ st was, slot = .status st
            ∧ q.levels = some was ∧ was.talk = false ∧ st.talk = true
            ∧ ∀ rec, q.identity = some rec → rec.talkButton = true)
        ∧ (.ringAcknowledged l p ∈ u.due ↔ takes ∧ (q.state = .joining ∨ q.state = .online)
            ∧ ∃ st v b, slot = .status st ∧ st.ack = true ∧ ln.sentTo p = some (.ring v b))
        ∧ (.sleepAcknowledged l p ∈ u.due ↔ takes ∧ (q.state = .joining ∨ q.state = .online)
            ∧ ∃ st, slot = .status st ∧ st.ack = true ∧ ln.sentTo p = some .sleep)
        ∧ (.wakeRequest l p ∈ u.due ↔ takes ∧ q.state = .asleep ∧ ∃ st, slot = .status st ∧ st.wakePulse = true)
        ∧ (∀ rec, .rollCallAnswer l p rec ∈ u.due ↔ takes
            ∧ (q.state = .absent ∨ q.state = .lost ∨ q.state = .asleep) ∧ slot = .identity rec ∧ called)
        ∧ (.wakeFramesDone l p ∈ u.due ↔ ∃ e ∈ ln.table, e.dest = .position p ∧ e.cmd = .wake 0)
        ∧ (.wakeFailed l p ∈ u.due ↔ q'.wakeTimer = some 0))
      ∧ (∀ l, l < 4 →
        let ln := t.line l
        let idle := ln.state = .off ∨ ln.state = .standby
        let counted : Line := { ln with
          rollCount := if ln.state = .running then ln.rollCount + 1 else ln.rollCount
          sent := if ln.state = .testing ∧ ln.drivesTest = true then ln.sent + 1 else ln.sent
          mismatch := if ln.state = .testing ∧ ln.drivesTest = true ∧ inp.readBackDiffers.getD l false = true
            then ln.mismatch + 1 else ln.mismatch }
        (idle → u.line l = { counted with early := false })
        ∧ (¬ idle → (∀ e ∈ u.due, e.lineOf? ≠ some l) → inp.frameEarly.getD l false = true ∨ u.due = [] →
          u.line l = counted.formed (u.audioSlots l) u.sys.free)
        ∧ (¬ idle → (∃ e ∈ u.due, e.lineOf? = some l) ∨ (inp.frameEarly.getD l false = false ∧ u.due ≠ []) →
          u.line l = { counted with toForm := true, early := inp.frameEarly.getD l false })
        ∧ (.startingEnd l ∈ u.due ↔ ln.state = .starting ∧ ln.remaining = 0)
        ∧ (.wakingEnd l ∈ u.due ↔ ln.state = .waking ∧ ln.remaining = 0)
        ∧ (.lineTestComplete l ∈ u.due ↔ ln.state = .testing ∧ ln.remaining = 0)
        ∧ (.sleepingEnd l ∈ u.due ↔ ln.state = .sleeping ∧ ln.sleepBroadcast = true)
        ∧ (.standbyFrameEnd l ∈ u.due ↔ ln.state = .sleeping ∧ ln.sleepBroadcast = false)
        ∧ (.rollCall l ∈ u.due ↔ ln.state = .running ∧ 64 ≤ ln.rollCount + 1)
        ∧ (.wakePulse l ∈ u.due ↔ ln.state = .standby ∧ inp.wakePulse.getD l false = true)))
  ∧ (∀ bs : List Byte,
      let n := bs.length
      let good := ofBytes (bs.drop (n - 2)) = (crc16 (bs.take (n - 2))).toNat
      sortSlot (.bytes []) = .missed
      ∧ (bs ≠ [] → ¬ good → sortSlot (.bytes bs) = .bad)
      ∧ (good → n = 147 → ∃ x : List Int, (∀ i, i < 48 →
            sampleAt x i = (BitVec.ofNat 24 (ofBytes ((bs.drop (1 + 3 * i)).take 3))).toInt)
          ∧ sortSlot (.bytes bs) = .status ⟨(bs.getD 0 0).getLsbD 0, (bs.getD 0 0).getLsbD 1, (bs.getD 0 0).getLsbD 2,
            (bs.getD 0 0).getLsbD 3, x⟩)
      ∧ (good → n = 12 → bs.getD 0 0 = 0x80#8 → sortSlot (.bytes bs) = .identity
          ⟨ofBytes ((bs.drop 1).take 2), (bs.getD 3 0).toNat, (bs.getD 4 0).toNat, ofBytes ((bs.drop 5).take 4),
            decide (bs.getD 9 0 = 1#8)⟩)
      ∧ (bs ≠ [] → good → n ≠ 147 → n ≠ 12 ∨ bs.getD 0 0 ≠ 0x80#8 → sortSlot (.bytes bs) = .bad))

/-! ### Room Silence (chapter 6) -/

/-- SilenceRaise (R115): open to both ports in any silence state and in standby; STATE where REQUEST is disabled; with
the latch clear it sets the latch, the state becomes ACTIVE, the covered sets widen by the scope of REQUEST and the chime
phase starts at 0 from QUIET (R119), and SILENCE is raised with cause REQUEST and the port (R123); with the latch set
nothing changes and no notice is raised. The state read is that of the boundary settled before it (the model's choice,
log 2). -/
def Obligations.SilenceRaiseSetsTheLatch : Prop :=
  ∀ (p : Port) (tag : Byte) (s : State), s.sys.inReset = none →
    let t := settle s
    let q := t.silence
    (q.cfg.requestEnable = false → exec (.silenceRaise p tag) s = .next (failReply p tag 27 .state t))
    ∧ (q.cfg.requestEnable = true →
      ∃ u, exec (.silenceRaise p tag) s = .next (okReply p tag 27 [] u)
        ∧ (q.requestLatch = true → u.silence = q ∧ t.raised u [])
        ∧ (q.requestLatch = false →
          u.silence = { q with
            requestLatch := true
            state := .active
            covered := if q.cfg.requestScope = .all then .ab
              else if q.state = .quiet ∨ q.covered = .none then .a else q.covered
            chime := if q.state = .quiet then 0 else q.chime }
          ∧ t.raised u [.silence .active q.alarm true q.howl u.silence.covered (.request p) q.alarmLevel])
        ∧ t.changes [.silence, .tables] u)

/-- SilenceRestore from the Room Port (R121): HELD while ALARM is effective; in ACTIVE every latch and howl counter is
cleared, the state becomes RESTORING and SILENCE is raised with cause RESTORE; otherwise nothing changes.
SilenceConfig from the Room Port writes the settings that are present and answers them all (R124); clearing an enable
clears the latches of that source; an Alarm line that becomes effective starts or renews ACTIVE (R125). -/
def Obligations.SilenceRestoreAndSettings : Prop :=
  (∀ (tag : Byte) (s : State), s.sys.inReset = none →
      let t := settle s
      let q := t.silence
      let alarm := q.alarmLevel && q.cfg.alarmEnable
      (alarm = true → exec (.silenceRestore .room tag) s = .next (failReply .room tag 28 .held t))
      ∧ (alarm = false →
        ∃ u, exec (.silenceRestore .room tag) s = .next (okReply .room tag 28 [] u)
          ∧ (q.state ≠ .active → u.silence = q ∧ t.raised u [])
          ∧ (q.state = .active →
            u.silence = { q with
              state := .restoring, requestLatch := false, howl := 0, howlCount := Tab.tabulate 8 (fun _ => 0) }
            ∧ t.raised u [.silence .restoring false false 0 q.covered (.restore .room) q.alarmLevel])
          ∧ t.changes [.silence, .tables] u))
  ∧ (∀ (tag : Byte) (f : SilenceFields) (s : State), s.sys.inReset = none → silenceFieldsOk f = true →
      let t := settle s
      let q := t.silence
      let new := silenceCfgOf f q.cfg
      ∃ u, exec (.silenceConfig .room tag f) s = .next (okReply .room tag 26 new.bytes u)
        ∧ u.silence.cfg = new ∧ u.silence.alarmLevel = q.alarmLevel
        ∧ u.silence.howl = (if new.howlEnable then q.howl else 0)
        ∧ (new.howlEnable = false → ∀ z, z < 8 → u.silence.howlCount.get z = 0)
        ∧ u.silence.requestLatch = (new.requestEnable && q.requestLatch)
        ∧ (q.alarmLevel = true → q.cfg.alarmEnable = false → new.alarmEnable = true → u.silence.state = .active)
        ∧ (q.state = .quiet → (q.alarmLevel && new.alarmEnable) = (q.alarmLevel && q.cfg.alarmEnable) →
            u.silence.state = .quiet)
        ∧ t.changes [.silence, .tables] u)

/-- The edges of the Alarm line (R113, R119, R120): while ALARM is enabled, an active edge makes the state ACTIVE with
the covered sets widened by its scope; an inactive edge with auto-restore and no latched source takes ACTIVE to
RESTORING, and changes no state otherwise; while it is disabled only the level is kept. A zone whose howl counter has
reached HOWLBLOCKS latches, its counter returns to 0 and the state becomes ACTIVE (R114, R119). RESTORING ends in
QUIET with nothing covered, the chime phase at 0 and every ramp at 0 (R98, R122). -/
def Obligations.SilenceSourcesAndEnds : Prop :=
  (∀ s : State, s.sys.inReset = none →
      let q := s.silence
      (q.alarmLevel = false → ∃ u, exec .alarmActiveEdge s = .next (closeFrames u)
        ∧ (q.cfg.alarmEnable = false → u.silence = { q with alarmLevel := true } ∧ s.raised u [])
        ∧ (q.cfg.alarmEnable = true →
          u.silence = { q with
            alarmLevel := true
            state := .active
            covered := if q.cfg.alarmScope = .all then .ab
              else if q.state = .quiet ∨ q.covered = .none then .a else q.covered
            chime := if q.state = .quiet then 0 else q.chime }
          ∧ s.raised u [.silence .active true q.requestLatch q.howl u.silence.covered .alarmOn true])
        ∧ s.changes [.due, .silence, .tables] u)
      ∧ (q.alarmLevel = true → ∃ u, exec .alarmInactiveEdge s = .next (closeFrames u)
        ∧ (q.cfg.alarmEnable = false → u.silence = { q with alarmLevel := false } ∧ s.raised u [])
        ∧ (q.cfg.alarmEnable = true →
          let ends := q.cfg.autoRestore && q.state == .active && !(q.requestLatch || q.howl != 0)
          u.silence = { q with alarmLevel := false, state := if ends then .restoring else q.state }
          ∧ s.raised u [.silence u.silence.state false q.requestLatch q.howl q.covered
              (if ends then .autoRestore else .alarmOff) false])
        ∧ s.changes [.due, .silence, .tables] u))
  ∧ (∀ s : State, s.sys.inReset = none →
      let q := s.silence
      (∀ z, z < 8 → s.isDue (.howlLatch z) = true → q.cfg.howlEnable = true → q.howl.getLsbD z = false →
        q.cfg.howlBlocks ≤ q.howlCount.get z →
        ∃ u, exec (.howlLatch z) s = .next (closeFrames u)
          ∧ u.silence = { q with
              howl := q.howl ||| BitVec.twoPow 8 z
              howlCount := q.howlCount.set z 0
              state := .active
              covered := if q.cfg.howlScope = .all then .ab
                else if q.state = .quiet ∨ q.covered = .none then .a else q.covered
              chime := if q.state = .quiet then 0 else q.chime }
          ∧ s.raised u [.silence .active q.alarm q.requestLatch u.silence.howl u.silence.covered (.howl z) q.alarmLevel]
          ∧ s.changes [.due, .silence, .tables] u)
      ∧ (s.isDue .restoringEnd = true → q.state = .restoring →
        ∃ u, exec .restoringEnd s = .next (closeFrames u)
          ∧ u.silence = { q with state := .quiet, covered := .none, chime := 0 }
          ∧ (∀ c, c < 42 → (u.chan c).ramp = 0)
          ∧ s.raised u [.silence .quiet q.alarm q.requestLatch q.howl .none .quiet q.alarmLevel]
          ∧ s.changes [.due, .silence, .ramps, .tables] u))

/-! ### Pod lines (chapter 7) and rings (chapter 8) -/

/-- LineStart and LineTest from the Room Port (R129, R146): a line that is OFF takes STARTING with 16 frames to send,
or TESTING with N and counts at 0; a line in use, or standby, gives STATE. No other line changes. -/
def Obligations.LineStartAndTest : Prop :=
  ∀ (tag : Byte) (l n : Nat) (s : State), s.sys.inReset = none → l < 4 → 1 ≤ n → n ≤ 10000 →
    let t := settle s
    (t.sys.power = .running → (t.line l).state = .off →
      exec (.lineStart .room tag l) s = .next (okReply .room tag 34 []
        (t.modLine l (fun ln => { ln with state := .starting, remaining := 16 })))
      ∧ exec (.lineTest .room tag l n) s = .next (okReply .room tag 36 []
        (t.modLine l (fun ln => { ln with state := .testing, remaining := n, sent := 0, mismatch := 0 }))))
    ∧ (t.sys.power = .standby ∨ (t.line l).state ≠ .off →
      exec (.lineStart .room tag l) s = .next (failReply .room tag 34 .state t)
      ∧ exec (.lineTest .room tag l n) s = .next (failReply .room tag 36 .state t))

/-- LineStop from the Room Port (R145, R146): the line is OFF with no frame and an empty table, every position of it
ABSENT, its identity records and counters kept; a test in progress ends with LINE_TEST, ending STOPPED; on a line that
is OFF nothing changes (where the rings match, which every step keeps). Each pod that was ONLINE leaves as R135 says, in
increasing position (what follows from each stands position by position: log 32): POD_LOST, cause STOPPED, what the floor
raises, HAND_LOWER; it is off the three lists, a latch on it clears, its hand is down. No other hand changes. Positions and
frames of other lines stay. -/
def Obligations.LineStopTakesTheLineOff : Prop :=
  ∀ (tag : Byte) (l : Nat) (s : State), s.sys.inReset = none → l < 4 →
    let t := settle s
    ∃ u, exec (.lineStop .room tag l) s = .next (okReply .room tag 35 [] u)
      ∧ (u.line l).state = .off
      ∧ ((t.line l).state = .off → t.onlyIn [.tables] u ∧ t.raised u [] ∧ (t.ringsMatch → u = t))
      ∧ ((t.line l).state = .testing →
          t.raised u [.lineTest l (t.line l).sent (t.line l).mismatch .stopped])
      ∧ ((t.line l).state ≠ .off → (u.line l).frame = none ∧ (u.line l).rollCount = 0)
      ∧ ((t.line l).state ≠ .off → (t.line l).state ≠ .testing → (u.line l).table = [] ∧ ∀ p, p < 8 →
          (u.position (8 * l + p)).state = .absent ∧ (u.position (8 * l + p)).hold = none
            ∧ (u.position (8 * l + p)).wakeTimer = none
            ∧ (u.position (8 * l + p)).identity = (t.position (8 * l + p)).identity
            ∧ (u.position (8 * l + p)).checkFails = (t.position (8 * l + p)).checkFails
            ∧ (u.position (8 * l + p)).missed = (t.position (8 * l + p)).missed
            ∧ (u.position (8 * l + p)).rejoins = (t.position (8 * l + p)).rejoins)
      ∧ ((t.line l).state ≠ .off → (t.line l).state ≠ .testing → t.floorLawful →
        let online (p : Nat) : Bool := t.present (8 * l + p)
        (∀ p, p < 8 → online p = true →
          let c := 8 * l + p
          u.floor.entry? c = none ∧ u.floor.waiting? c = none ∧ u.floor.isLeaving c = false ∧ (u.chan c).attack = 0
            ∧ (u.chan c).hand = false ∧ (u.position c).levels = none
            ∧ (t.floor.entry? c ≠ none → t.floor.chair = some c → u.floor.latch = false))
        ∧ (∀ d, (∀ p, p < 8 → d = 8 * l + p → online p = false) → (u.chan d).hand = (t.chan d).hand)
        ∧ ∃ parts : Nat → List NoticeBody, t.raised u (((List.range 8).filter online).flatMap parts)
          ∧ ∀ p, p < 8 → online p = true → t.departs (8 * l + p)
              (.podLost l p .stopped (t.position (8 * l + p)).checkFails (t.position (8 * l + p)).missed
                (t.position (8 * l + p)).rejoins) (parts p))
      ∧ (∀ c, c / 8 ≠ l → u.position c = t.position c)
      ∧ (∀ k, k ≠ l → (u.line k).state = (t.line k).state ∧ (u.line k).frame = (t.line k).frame)
      ∧ t.changes (.lines :: offlineParts) u

/-- PodSleep and PodWake from the Room Port (R140, R141): on a RUNNING line they place a SLEEP entry for an ONLINE or
JOINING position, a WAKE entry of 12 frames for an ASLEEP one, replacing an entry of the same key; a line or position
in another state gives STATE. The position itself does not change, but that no wake timer runs. -/
def Obligations.PodSleepAndWake : Prop :=
  ∀ (tag : Byte) (l p : Nat) (s : State), s.sys.inReset = none → l < 4 → p < 8 →
    let t := settle s
    let st := (t.position (8 * l + p)).state
    let key (k : Nat) : Entry → Bool := fun e => !(e.dest == .position p && e.cmd.kind == k)
    ((t.line l).state = .running → st = .online ∨ st = .joining →
      exec (.podSleep .room tag l p) s = .next (okReply .room tag 37 []
        (t.modLine l (fun ln => { ln with table := ln.table.filter (key 1) ++ [⟨.position p, .sleep, false⟩] }))))
    ∧ ((t.line l).state = .running → st = .asleep →
      exec (.podWake .room tag l p) s = .next (okReply .room tag 38 []
        ((t.modLine l (fun ln => { ln with table := ln.table.filter (key 2) ++ [⟨.position p, .wake 12, false⟩] })).modPos
          (8 * l + p) (fun q => { q with wakeTimer := none }))))
    ∧ ((t.line l).state ≠ .running ∨ (st ≠ .online ∧ st ≠ .joining) →
      exec (.podSleep .room tag l p) s = .next (failReply .room tag 37 .state t))
    ∧ ((t.line l).state ≠ .running ∨ st ≠ .asleep →
      exec (.podWake .room tag l p) s = .next (failReply .room tag 38 .state t))

/-- Roll call and joining (R133, R134, R157): at the 64th boundary a RUNNING line's count returns to 0 and, where a
position is to be called, a ROLLCALL entry with the called set is placed; a called position that answers is JOINING
with its record; a JOINING one with four good slots is ONLINE with POD_JOIN and nothing acknowledged of its ring; one
with three bad or missed slots returns to where it came from. -/
def Obligations.PodsJoin : Prop :=
  ∀ (l p : Nat) (s : State), s.sys.inReset = none → l < 4 → p < 8 →
    let c := 8 * l + p
    let q := s.position c
    (s.isDue (.rollCall l) = true → (s.line l).state = .running → 64 ≤ (s.line l).rollCount →
      ∃ u, exec (.rollCall l) s = .next (closeFrames u) ∧ (u.line l).rollCount = 0
        ∧ (s.calledSet l = 0 → (u.line l).table = (s.line l).table)
        ∧ (s.calledSet l ≠ 0 → ⟨.broadcast, .rollCall (s.calledSet l), false⟩ ∈ (u.line l).table)
        ∧ s.changes [.due, .tables, .lines] u)
    ∧ (∀ rec called, (s.line l).calledNow = some called → called.getLsbD p = true →
      (q.state = .absent ∨ q.state = .lost ∨ q.state = .asleep) →
      ∃ u, exec (.rollCallAnswer l p rec) s = .next (closeFrames u)
        ∧ (u.position c).state = .joining ∧ (u.position c).identity = some rec
        ∧ (u.position c).fromLost = decide (q.state = .lost) ∧ (u.position c).good = 0 ∧ (u.position c).miss = 0
        ∧ (u.position c).wakeTimer = none
        ∧ (u.position c).newUnit = (match q.identity with
            | some old => old.serial != rec.serial
            | none => true)
        ∧ (∀ d, d ≠ c → u.position d = s.position d) ∧ s.changes [.due, .pos, .tables] u)
    ∧ (s.isDue (.podJoin l p) = true → q.state = .joining → 4 ≤ q.good →
      ∃ u, exec (.podJoin l p) s = .next (closeFrames u)
        ∧ u.present c = true
        ∧ u.position c = { q with
            state := .online, miss := 0
            rejoins := if q.fromLost then (if q.rejoins < 65535 then q.rejoins + 1 else 65535) else q.rejoins }
        ∧ (u.chan c).ring = none ∧ (u.chan c).pulseOwed = false
        ∧ s.raised u [.podJoin l p q.identity q.newUnit (u.position c).rejoins]
        ∧ (∀ d, d ≠ c → u.position d = s.position d) ∧ s.changes [.due, .pos, .tables, .rings] u)
    ∧ (s.isDue (.joinFailed l p) = true → q.state = .joining → 3 ≤ q.miss →
      ∃ u, exec (.joinFailed l p) s = .next (closeFrames u)
        ∧ u.position c = { q with state := if q.fromLost then .lost else .absent }
        ∧ (∀ d, d ≠ c → u.position d = s.position d) ∧ s.changes [.due, .pos, .tables] u)

/-- Leaving ONLINE (R32, R67, R135, R139, R140, R149): after three bad or missed slots a position is LOST, after an
acknowledged SLEEP it is ASLEEP; POD_LOST comes first, with the counters; levels and hold are discarded, every entry
addressed to it goes, its channel leaves all three floor lists, its hand is lowered, and its identity record, claims
and set-up stay. -/
def Obligations.PodsLeave : Prop :=
  ∀ (l p : Nat) (s : State), s.sys.inReset = none → s.floorLawful → l < 4 → p < 8 →
    let c := 8 * l + p
    let q := s.position c
    let left (st : PosState) (cause : LostCause) (u : State) : Prop :=
      u.position c = { q with state := st, levels := none, hold := none }
        ∧ (∀ d, d ≠ c → u.position d = s.position d)
        ∧ (∀ e ∈ (u.line l).table, e.dest ≠ .position p)
        ∧ u.floor.entry? c = none ∧ u.floor.waiting? c = none ∧ u.floor.isLeaving c = false ∧ (u.chan c).attack = 0
        ∧ (u.chan c).hand = false ∧ (∀ d, d ≠ c → (u.chan d).hand = (s.chan d).hand)
        ∧ (∃ bs, s.departs c (.podLost l p cause q.checkFails q.missed q.rejoins) bs ∧ s.raised u bs)
        ∧ s.changes (.due :: offlineParts) u
    (s.isDue (.podLost l p) = true → q.state = .online → 3 ≤ q.miss →
      ∃ u, exec (.podLost l p) s = .next (closeFrames u) ∧ left .lost .missed u)
    ∧ ((s.line l).sentTo p = some .sleep → q.state = .online →
      ∃ u, exec (.sleepAcknowledged l p) s = .next (closeFrames u) ∧ left .asleep .sleep u)
    ∧ ((s.line l).sentTo p = some .sleep → q.state = .joining →
      ∃ u, exec (.sleepAcknowledged l p) s = .next (closeFrames u)
        ∧ u.position c = { q with state := .asleep } ∧ (∀ d, d ≠ c → u.position d = s.position d)
        ∧ s.changes [.due, .pos, .tables] u)

/-- The acknowledgement of a RING (R155, R156): its value is the last acknowledged ring, and one with a pulse settles
the pulse. A sleeping pod (R141, R142): its wake-pulse flag raises WAKE_REQUEST to the Room Port; the end of its 12th
WAKE frame takes the entry away, starts its wake timer of 200 and places a roll call; a wake timer at 0 makes it
ABSENT with WAKE_FAILED. -/
def Obligations.PodAnswersAndWaking : Prop :=
  (∀ (l p : Nat) (v : Ring) (pulse : Bool) (s : State), s.sys.inReset = none → l < 4 → p < 8 →
      let c := 8 * l + p
      (s.line l).sentTo p = some (.ring v pulse) → s.present c = true →
      ∃ u, exec (.ringAcknowledged l p) s = .next (closeFrames u)
        ∧ (u.chan c).ring = some v ∧ (u.chan c).pulseOwed = (if pulse then false else (s.chan c).pulseOwed)
        ∧ (∀ d, d ≠ c → (u.chan d).ring = (s.chan d).ring ∧ (u.chan d).pulseOwed = (s.chan d).pulseOwed)
        ∧ (∀ e ∈ (u.line l).table, e.dest = .position p → e.cmd.kind = 4 → e.sent = false)
        ∧ s.changes [.due, .rings, .tables] u)
  ∧ (∀ (l p : Nat) (s : State), s.sys.inReset = none → l < 4 → p < 8 →
      let c := 8 * l + p
      let q := s.position c
      ((s.line l).takesSlots = true → q.state = .asleep →
        exec (.wakeRequest l p) s
          = .next (closeFrames (raise (.wakeRequest l (some p)) (s.undue (.wakeRequest l p)))))
      ∧ (s.isDue (.wakeFramesDone l p) = true → ⟨.position p, .wake 0, true⟩ ∈ (s.line l).table →
        ∃ u, exec (.wakeFramesDone l p) s = .next (closeFrames u)
          ∧ u.position c = { q with wakeTimer := some 200 } ∧ (∀ d, d ≠ c → u.position d = s.position d)
          ∧ (∀ e ∈ (u.line l).table, ¬ (e.dest = .position p ∧ e.cmd.kind = 2))
          ∧ (∃ m, ⟨.broadcast, .rollCall m, false⟩ ∈ (u.line l).table ∧ (q.state = .asleep → m.getLsbD p = true))
          ∧ (u.line l).rollCount = 0 ∧ s.raised u [] ∧ s.changes [.due, .pos, .tables, .lines] u)
      ∧ (s.isDue (.wakeFailed l p) = true → q.state = .asleep → q.wakeTimer = some 0 →
        ∃ u, exec (.wakeFailed l p) s = .next (closeFrames u)
          ∧ u.position c = { q with state := .absent, wakeTimer := none } ∧ (∀ d, d ≠ c → u.position d = s.position d)
          ∧ s.raised u [.wakeFailed l p] ∧ s.changes [.due, .pos, .tables] u))

/-- The ends of a line's states (R128, R129, R133, R146, R147, R148): STARTING gives RUNNING with a roll call; WAKING
gives STARTING with 16 frames and every ASLEEP position ABSENT; a test gives OFF with LINE_TEST, ending COMPLETE; the
SLEEP broadcast gives STANDBY without a frame, or WAKING with 12 frames where the part is awake again. The last frame
before a line sleeps has ended, with nothing else of the line due, whatever other units have due (R147): every position
is ASLEEP, no notice is raised for any, hands of pods that were ONLINE are lowered, and the SLEEP broadcast alone stands
in the table. -/
def Obligations.LineStatesEnd : Prop :=
  (∀ (l : Nat) (s : State), s.sys.inReset = none → l < 4 →
      let ln := s.line l
      (s.isDue (.startingEnd l) = true → ln.state = .starting → ln.remaining = 0 →
        ∃ u, exec (.startingEnd l) s = .next (closeFrames u)
          ∧ (u.line l).state = .running ∧ (u.line l).rollCount = 0
          ∧ (s.calledSet l ≠ 0 → ⟨.broadcast, .rollCall (s.calledSet l), false⟩ ∈ (u.line l).table)
          ∧ s.raised u [] ∧ s.changes [.due, .tables, .lines] u)
      ∧ (s.isDue (.wakingEnd l) = true → ln.state = .waking → ln.remaining = 0 →
        ∃ u, exec (.wakingEnd l) s = .next (closeFrames u)
          ∧ (u.line l).state = .starting ∧ (u.line l).remaining = 16
          ∧ (∀ p, p < 8 → (u.position (8 * l + p)).state =
              if (s.position (8 * l + p)).state = .asleep then .absent else (s.position (8 * l + p)).state)
          ∧ s.raised u [] ∧ s.changes [.due, .pos, .tables, .lines] u)
      ∧ (s.isDue (.lineTestComplete l) = true → ln.state = .testing → ln.remaining = 0 →
        ∃ u, exec (.lineTestComplete l) s = .next (closeFrames u)
          ∧ (u.line l).state = .off ∧ (u.line l).frame = none
          ∧ s.raised u [.lineTest l ln.sent ln.mismatch .complete] ∧ s.changes [.due, .tables, .lines] u)
      ∧ (s.isDue (.sleepingEnd l) = true → ln.state = .sleeping → ln.sleepBroadcast = true →
        ∃ u, exec (.sleepingEnd l) s = .next (closeFrames u)
          ∧ (s.sys.power = .standby → (u.line l).state = .standby ∧ (u.line l).frame = none)
          ∧ (s.sys.power = .running → (u.line l).state = .waking ∧ (u.line l).remaining = 12)
          ∧ s.raised u [] ∧ s.changes [.due, .tables, .lines] u))
  ∧ (∀ (l : Nat) (s : State), s.sys.inReset = none → l < 4 → s.isDue (.standbyFrameEnd l) = true →
      (∀ e ∈ s.due, e ≠ .standbyFrameEnd l → e.lineOf? ≠ some l) →
      (s.line l).state = .sleeping → (s.line l).sleepBroadcast = false →
      ∃ u, exec (.standbyFrameEnd l) s = .next (closeFrames u)
        ∧ (∀ p, p < 8 → (u.position (8 * l + p)).state = .asleep ∧ (u.position (8 * l + p)).hold = none
            ∧ (u.position (8 * l + p)).wakeTimer = none
            ∧ (u.position (8 * l + p)).identity = (s.position (8 * l + p)).identity
            ∧ (s.present (8 * l + p) = true → (u.chan (8 * l + p)).hand = false))
        ∧ (u.line l).table = [⟨.broadcast, .sleep, false⟩] ∧ (u.line l).state = .sleeping
        ∧ u.due = (s.undue (.standbyFrameEnd l)).due
        ∧ s.raised u [] ∧ s.changes (.due :: .lines :: offlineParts) u)

/-- The Indicator Unit (R153, R154): after a request that compares every ring, answered OK, the reference of every
ONLINE pod's ring is its derived ring; a ring whose reference is right already gets no entry. Every step keeps the laws of
the rings, so whatever the step (a request, PrivacyConfig and PrivacyRelease among them, an event of R153, a boundary),
references that were right before it are right after it. The derived ring, first row that holds (R152): sweeping white in
Room Silence; slow white for a tone's target; fast red for PRIVACY; fast amber for a raised hand; slow red for CHAIR, ROOM
or FAR; steady red for POD; fast green for a warned member; steady green for a member; slow green for a waiting one; off.
-/
def Obligations.RingsAreDerivedAndFollow : Prop :=
  ((∀ (i : Instr) (p : Port) (tag : Byte) (kind : Nat) (body : List Byte) (s u : State), i.movesRings = true →
      i.request = some (p, tag, kind) → s.sys.inReset = none → exec i s = .next (okReply p tag kind body u) → u.ringsMatch)
    ∧ (∀ s : State, (refreshRings s).ringsMatch ∧ (s.ringsMatch → refreshRings s = s))
    ∧ State.reset.ringsLawful ∧ (∀ s t : State, step s = .next t → s.ringsLawful → t.ringsLawful))
  ∧ (∀ (c : Nat) (s : State), c < 32 →
      let k := s.claims c
      (s.silence.state ≠ .quiet → s.derivedRing c = ⟨.white, .sweep⟩)
      ∧ (s.silence.state = .quiet →
        (s.tone.running = true → s.tone.target = .channel c → s.derivedRing c = ⟨.white, .slow⟩)
        ∧ (s.tone.running = false ∨ s.tone.target ≠ .channel c →
          (k.privacy = true → s.derivedRing c = ⟨.red, .fast⟩)
          ∧ (k.privacy = false → (s.chan c).hand = true → s.derivedRing c = ⟨.amber, .fast⟩)
          ∧ (k.privacy = false → (s.chan c).hand = false →
            (k.chair = true ∨ k.room = true ∨ k.far = true → s.derivedRing c = ⟨.red, .slow⟩)
            ∧ (k = { ClaimSet.empty with pod := true } → s.derivedRing c = ⟨.red, .steady⟩)
            ∧ (k = ClaimSet.empty →
              (∀ e, s.floor.entry? c = some e → s.derivedRing c = if e.warned then ⟨.green, .fast⟩ else ⟨.green, .steady⟩)
              ∧ (s.floor.entry? c = none → s.floor.waiting? c ≠ none → s.derivedRing c = ⟨.green, .slow⟩)
              ∧ (s.floor.entry? c = none → s.floor.waiting? c = none → s.derivedRing c = ⟨.off, .steady⟩))))))

/-! ### Meters, level watches and the test tone (chapter 9) -/

/-- MeterConfig from the Room Port (R161): a new window starts a window, with the counter and every running peak
afresh, and keeps what is captured; the window it has changes nothing. WatchSet writes one entry whole and counts from
0 (R164); each value outside its range gives RANGE. -/
def Obligations.MeterAndWatchWrites : Prop :=
  ∀ (tag : Byte) (s : State), s.sys.inReset = none →
    let t := settle s
    (∀ w : Nat, (w = 1 ∨ w = 4 ∨ w = 16) →
      ∃ u, exec (.meterConfig .room tag ⟨1, w⟩) s = .next (okReply .room tag 23 (u8 w) u)
        ∧ u = { t with meters := u.meters }
        ∧ u.meters.window = w ∧ u.meters.watches = t.meters.watches ∧ u.meters.stamp = t.meters.stamp
        ∧ (w = t.meters.window → u.meters = t.meters)
        ∧ (w ≠ t.meters.window → u.meters.counter = 0
          ∧ ∀ i, i < 59 → u.meters.points.get i = { t.meters.points.get i with running := -96 }))
    ∧ (∀ v, exec (.meterConfig .room tag ⟨0, v⟩) s = .next (okReply .room tag 23 (u8 t.meters.window) t))
    ∧ (∀ (e point : Nat) (thr : Int) (dir count arm : Nat),
      (e < 8 → point < 59 → -96 ≤ thr → thr ≤ 0 → dir ≤ 1 → 1 ≤ count → count ≤ 1000 → arm ≤ 1 →
        ∃ u, exec (.watchSet .room tag e point thr dir count arm) s = .next (okReply .room tag 25 [] u)
          ∧ u = { t with meters := { t.meters with watches := u.meters.watches } }
          ∧ ∀ k, k < 8 → u.meters.watches.get k =
              if k = e then ⟨point, thr, if dir = 0 then .above else .below, count, decide (arm = 1), 0⟩
              else t.meters.watches.get k)
      ∧ (8 ≤ e ∨ 59 ≤ point ∨ thr < -96 ∨ 0 < thr ∨ 1 < dir ∨ count = 0 ∨ 1000 < count ∨ 1 < arm →
        exec (.watchSet .room tag e point thr dir count arm) s = .next (failReply .room tag 25 .range t)))

/-- A capture (R160, R163): each point's running peak becomes its captured peak, fresh, with overrun where it was
unread; the counter is 0 and the stamp the block counter's low half; each armed watch counts a capture that meets its
condition and starts again at one that does not, and those that reach their counts become due in their order. A watch
that fires, no lower one being due, raises LEVEL_WATCH and disarms; what else is due stays due. -/
def Obligations.CapturesAndWatches : Prop :=
  ∀ s : State, s.sys.inReset = none →
    (s.isDue .capture = true → s.meters.window ≤ s.meters.counter →
      ∃ u, exec .capture s = .next (closeFrames u)
        ∧ u.meters.counter = 0 ∧ u.meters.window = s.meters.window ∧ u.meters.stamp = s.sys.blocks.setWidth 16
        ∧ (∀ i, i < 59 → u.meters.points.get i =
            { running := -96, captured := (s.meters.points.get i).running, fresh := true,
              overrun := (s.meters.points.get i).overrun || (s.meters.points.get i).fresh })
        ∧ (∀ e, e < 8 → (s.meters.watches.get e).point < 59 →
            let w := s.meters.watches.get e
            let peak := (s.meters.points.get w.point).running
            u.meters.watches.get e = { w with
              matched := if w.armed = false then w.matched
                else if (match w.dir with
                  | .above => decide (w.threshold ≤ peak)
                  | .below => decide (peak < w.threshold)) then w.matched + 1
                else 0 })
        ∧ u.due = (s.undue .capture).due ++ ((List.range 8).filter (fun e => (u.meters.watches.get e).armed
            && decide ((u.meters.watches.get e).count ≤ (u.meters.watches.get e).matched))).map Event.levelWatch
        ∧ s.raised u [] ∧ s.changes [.due, .meters] u)
    ∧ (∀ e, e < 8 → s.isDue (.levelWatch e) = true → (∀ k, k < e → s.isDue (.levelWatch k) = false) →
      (s.meters.watches.get e).armed = true →
      (s.meters.watches.get e).count ≤ (s.meters.watches.get e).matched →
      let w := s.meters.watches.get e
      exec (.levelWatch e) s = .next (closeFrames (raise
        (.levelWatch e w.point (s.meters.points.get w.point).captured w.threshold w.dir w.count)
        { s.undue (.levelWatch e) with meters := { s.meters with
            watches := s.meters.watches.set e { w with armed := false, matched := 0 } } })))

/-- The Tone Generator (R166, R167, R168): ToneStart from the Room Port writes its context where the part is RUNNING
and no tone runs, else gives STATE; ToneStop and the end of a burst's count end a running tone with TONE_DONE;
ToneStop finds no tone with OK. -/
def Obligations.TonesStartAndEnd : Prop :=
  ∀ (tag : Byte) (s : State), s.sys.inReset = none →
    let t := settle s
    (∀ (kind num freq : Nat) (level : Int) (mode count : Nat),
      (kind = 0 ∧ num < 42 ∨ kind = 1 ∧ num < 17) → (freq = 250 ∨ freq = 1000 ∨ freq = 2000 ∨ freq = 4000) →
      -60 ≤ level → level ≤ 0 → (mode = 0 ∧ 1 ≤ count ∧ count ≤ 10000 ∨ mode = 1) →
      (t.sys.power = .running → t.tone.running = false →
        ∃ u, exec (.toneStart .room tag kind num freq level mode count) s = .next (okReply .room tag 29 [] u)
          ∧ u.tone = { running := true, target := if kind = 0 then .channel num else .output num, freq := freq,
                       level := level, burst := decide (mode = 0), remaining := if mode = 0 then some count else none,
                       generated := 0, phase := 0 }
          ∧ t.raised u [] ∧ t.changes [.tone, .tables] u)
      ∧ (t.sys.power = .standby ∨ t.tone.running = true →
        exec (.toneStart .room tag kind num freq level mode count) s = .next (failReply .room tag 29 .state t)))
    ∧ (∃ u, exec (.toneStop .room tag) s = .next (okReply .room tag 30 [] u)
        ∧ u.tone = { t.tone with running := false, remaining := if t.tone.running then none else t.tone.remaining }
        ∧ t.raised u (if t.tone.running then [.toneDone t.tone.target t.tone.freq .stopped t.tone.generated.toNat] else [])
        ∧ t.changes [.tone, .tables] u)
    ∧ (s.isDue .toneCountEnd = true → s.tone.running = true → s.tone.remaining = some 0 →
      ∃ u, exec .toneCountEnd s = .next (closeFrames u)
        ∧ u.tone = { s.tone with running := false, remaining := none }
        ∧ s.raised u [.toneDone s.tone.target s.tone.freq .count s.tone.generated.toNat]
        ∧ s.changes [.due, .tone, .tables] u)

/-! ### Scenes (chapter 10) -/

/-- SceneStore from the Room Port (R170, R171): the slot named holds the parts named of the present set-up, and no
other slot changes; a slot that a load reads gives STATE. -/
def Obligations.SceneStoreKeepsTheSetup : Prop :=
  ∀ (tag : Byte) (slot parts : Nat) (s : State), s.sys.inReset = none → slot < 16 → 1 ≤ parts → parts < 16 →
    let t := settle s
    (∀ ld, t.scenes.load = some ld → ld.slot = slot →
      exec (.sceneStore .room tag slot parts) s = .next (failReply .room tag 31 .state t))
    ∧ ((∀ ld, t.scenes.load = some ld → ld.slot ≠ slot) →
      ∃ u r, exec (.sceneStore .room tag slot parts) s = .next (okReply .room tag 31 (u8 slot ++ u8 parts) u)
        ∧ u = { t with scenes := { t.scenes with slots := u.scenes.slots } }
        ∧ (∀ k, k < 16 → u.scenes.slots.get k = if k = slot then some r else t.scenes.slots.get k)
        ∧ (r.channels.isSome = parts.testBit 0) ∧ (r.crosspoints.isSome = parts.testBit 1)
        ∧ (r.floor.isSome = parts.testBit 2) ∧ (r.claims.isSome = parts.testBit 3)
        ∧ (∀ x, r.channels = some x → ∀ c, c < 42 →
            x.get c = ⟨(t.chan c).trim, (t.chan c).zone, (t.chan c).groups⟩)
        ∧ (∀ x, r.crosspoints = some x → x = ⟨t.mix.xp, t.mix.bus⟩)
        ∧ (∀ x, r.floor = some x → x = ⟨t.floor.mode, t.floor.cfg, t.floor.chair⟩)
        ∧ (∀ x, r.claims = some x → ∀ c, c < 42 → x.get c = (t.claims c).room))

/-- SceneLoad from the Room Port (R172) starts a load of a stored record at the first item of its first part, with no
mark, and ends a load in progress with SCENE_DONE first; an empty slot, or standby, gives STATE. SceneAbort ends a
load and finds none with OK (R176). -/
def Obligations.SceneLoadsStartAndAbort : Prop :=
  ∀ (tag : Byte) (s : State), s.sys.inReset = none →
    let t := settle s
    (∀ slot, slot < 16 → (t.sys.power = .standby ∨ t.scenes.slots.get slot = none) →
      exec (.sceneLoad .room tag slot) s = .next (failReply .room tag 32 .state t))
    ∧ (∀ slot r, slot < 16 → t.sys.power = .running → t.scenes.slots.get slot = some r →
      ∃ u, exec (.sceneLoad .room tag slot) s = .next (okReply .room tag 32
          (u8 slot ++ u8 ((if r.channels.isSome then 42 else 0) + (if r.crosspoints.isSome then 17 else 0)
            + (if r.floor.isSome then 1 else 0) + (if r.claims.isSome then 1 else 0))) u)
        ∧ (∃ ph, u.scenes.load = some ⟨slot, ph, 0, 0, 0⟩
            ∧ (r.channels.isSome → ph = .channels) ∧ (r.channels = none → r.crosspoints.isSome → ph = .crosspoints)
            ∧ (r.channels = none → r.crosspoints = none → r.floor.isSome → ph = .floor)
            ∧ (r.channels = none → r.crosspoints = none → r.floor = none → r.claims.isSome → ph = .claims))
        ∧ (∀ c, c < 42 → (u.chan c).touched = false) ∧ (∀ o, o < 17 → u.mix.rowTouched.get o = false)
        ∧ t.raised u (match t.scenes.load with
            | some ld => [.sceneDone ld.slot .secondLoad ld.applied ld.passed]
            | none => [])
        ∧ t.changes [.load, .marks] u)
    ∧ (t.scenes.load = none → exec (.sceneAbort .room tag) s = .next (okReply .room tag 33 [] t))
    ∧ (∀ ld, t.scenes.load = some ld →
      ∃ u, exec (.sceneAbort .room tag) s = .next (okReply .room tag 33 [] u)
        ∧ u.scenes.load = none ∧ (∀ c, c < 42 → (u.chan c).touched = false)
        ∧ t.raised u [.sceneDone ld.slot .sceneAbort ld.applied ld.passed] ∧ t.changes [.load, .marks] u)

/-- A step of a load (R173, R174, R176): the item is applied, or passed over where it is marked, and counted so; the next
item of the part follows, after the last the first item of the next part that the record holds, and after the last item
of the last part, whichever that is, the load ends with SCENE_DONE, cause COMPLETED and both counts, and every mark is
cleared; no other SCENE_DONE is raised. A channel item writes what the record holds, with the PRIVACY claim that a change
of groups moves (R11), and no other channel; a crosspoint item writes its row and bus gain and no other; the FLOOR item
mode, quantities and chair; the CLAIMS item every ROOM claim (R175). -/
def Obligations.SceneLoadSteps : Prop :=
  ∀ (ld : LoadContext) (r : SceneRecord) (s : State), s.sys.inReset = none → s.isDue .sceneLoadStep = true →
    s.scenes.load = some ld → s.scenes.slots.get ld.slot = some r →
    let marked := match ld.phase with
      | .channels => (s.chan ld.index).touched
      | .crosspoints => s.mix.rowTouched.get ld.index
      | _ => false
    let applied := if marked then ld.applied else ld.applied + 1
    let passed := if marked then ld.passed + 1 else ld.passed
    let items : Nat := match ld.phase with
      | .channels => 42
      | .crosspoints => 17
      | _ => 1
    let after : Option ScenePart := match ld.phase with
      | .channels => if r.crosspoints.isSome then some .crosspoints else if r.floor.isSome then some .floor
          else if r.claims.isSome then some .claims else none
      | .crosspoints => if r.floor.isSome then some .floor else if r.claims.isSome then some .claims else none
      | .floor => if r.claims.isSome then some .claims else none
      | .claims => none
    ∃ u, exec .sceneLoadStep s = .next (closeFrames u)
      ∧ (ld.index + 1 < items →
          u.scenes.load = some { ld with index := ld.index + 1, applied := applied, passed := passed })
      ∧ (items ≤ ld.index + 1 → ∀ p, after = some p →
          u.scenes.load = some { ld with phase := p, index := 0, applied := applied, passed := passed })
      ∧ (ld.index + 1 < items ∨ after ≠ none → ∃ bs, s.raised u bs ∧ ∀ b ∈ bs, b.kind ≠ 24)
      ∧ (items ≤ ld.index + 1 → after = none → u.scenes.load = none
          ∧ (∀ c, c < 42 → (u.chan c).touched = false) ∧ (∀ o, o < 17 → u.mix.rowTouched.get o = false)
          ∧ ∃ bs, s.raised u (bs ++ [.sceneDone ld.slot .completed applied passed]) ∧ ∀ b ∈ bs, b.kind ≠ 24)
      ∧ (∀ x, ld.phase = .channels → r.channels = some x → ld.index < 42 →
          (∀ c, c ≠ ld.index → (u.chan c).trim = (s.chan c).trim ∧ (u.chan c).zone = (s.chan c).zone
            ∧ (u.chan c).groups = (s.chan c).groups ∧ u.claims c = s.claims c)
          ∧ (marked = true → (u.chan ld.index).trim = (s.chan ld.index).trim
            ∧ (u.chan ld.index).zone = (s.chan ld.index).zone ∧ (u.chan ld.index).groups = (s.chan ld.index).groups
            ∧ u.claims ld.index = s.claims ld.index)
          ∧ (marked = false → (u.chan ld.index).trim = (x.get ld.index).trim
            ∧ (u.chan ld.index).zone = (if ld.index < 32 then (x.get ld.index).zone else (s.chan ld.index).zone)
            ∧ (u.chan ld.index).groups = (x.get ld.index).groups
            ∧ u.claims ld.index = { s.claims ld.index with
                privacy := if s.privacy.state = .on ∧ (x.get ld.index).groups ≠ (s.chan ld.index).groups
                  then (x.get ld.index).groups.getLsbD s.privacy.group else (s.claims ld.index).privacy }))
      ∧ (∀ x, ld.phase = .crosspoints → r.crosspoints = some x → ld.index < 17 →
          ∀ o c, o < 17 → c < 42 →
            u.mix.xp.get (42 * o + c) = (if o = ld.index ∧ marked = false then x.xp.get (42 * o + c)
              else s.mix.xp.get (42 * o + c))
            ∧ u.mix.bus.get o = (if o = ld.index ∧ marked = false then x.bus.get o else s.mix.bus.get o))
      ∧ (∀ x, ld.phase = .floor → r.floor = some x → u.floor.mode = x.mode ∧ u.floor.cfg = x.cfg
          ∧ u.floor.chair = x.chair)
      ∧ (∀ x, ld.phase = .claims → r.claims = some x →
          ∀ c, c < 42 → u.claims c = { s.claims c with room := x.get c })
      ∧ s.changes (.due :: .tables :: loadParts) u

/-! ### Power (chapter 11) -/

/-- PowerStandby from the Room Port (R17, R147, R150, R184): AUTOWAKE is written; a part that is RUNNING takes STANDBY,
every ramp is 0, the floor is emptied without notices, a load and a tone end, every line in use falls asleep and a line in
TESTING goes OFF; the positions of a line that is OFF then lose their counts, levels and timers and keep all else. The
notices are POWER, then SCENE_DONE of a load, then TONE_DONE of a tone, each with cause STANDBY, then LINE_TEST for each
line in TESTING, and no other. A part in STANDBY writes AUTOWAKE and nothing else. PowerWake from the Room Port, and a wake
pulse on a STANDBY line with AUTOWAKE (R147, R148, R185): the part is RUNNING, every STANDBY line sends 12 WAKE frames and
POWER is raised with its cause; the wake pulse raises WAKE_REQUEST first, and without AUTOWAKE raises it alone. PowerWake
in RUNNING changes nothing. That the POWER of a wake carries AUTOWAKE too, and that the lines take standby entry in
increasing number, is the model's choice (log 14, 42). -/
def Obligations.PowerIsChanged : Prop :=
  (∀ (tag : Byte) (v : Nat) (s : State), s.sys.inReset = none → v ≤ 1 →
    let t := settle s
    ∃ u, exec (.powerStandby .room tag v) s = .next (okReply .room tag 41 [] u)
      ∧ u.sys = { t.sys with power := .standby, autowake := v == 1 }
      ∧ (t.sys.power = .standby → t.onlyIn [.power, .tables] u ∧ t.raised u [])
      ∧ (t.sys.power = .running →
        (∀ c, c < 42 → (u.chan c).ramp = 0)
        ∧ u.floor = { t.floor with list := [], wait := [], leaving := [], guard := none, latch := false }
        ∧ u.scenes.load = none ∧ u.tone.running = false
        ∧ t.raised u ([.power .standby .request (v == 1)]
          ++ (match t.scenes.load with
              | some ld => [.sceneDone ld.slot .standby ld.applied ld.passed]
              | none => [])
          ++ (if t.tone.running then [.toneDone t.tone.target t.tone.freq .standby t.tone.generated.toNat] else [])
          ++ ((List.range 4).filter (fun l => (t.line l).state == .testing)).map (fun l =>
              .lineTest l (t.line l).sent (t.line l).mismatch .stopped))
        ∧ (∀ l, l < 4 → (u.line l).state = (match (t.line l).state with
            | .starting => .sleeping
            | .running => .sleeping
            | .waking => .sleeping
            | .testing => .off
            | st => st))
        ∧ (∀ l p, l < 4 → p < 8 → u.position (8 * l + p) =
            if (t.line l).state = .off ∨ (t.line l).state = .testing then
              { t.position (8 * l + p) with good := 0, miss := 0, levels := none, hold := none, wakeTimer := none }
            else t.position (8 * l + p)))
      ∧ t.changes (.tables :: standbyParts) u)
  ∧ (∀ (tag : Byte) (s : State), s.sys.inReset = none →
    let t := settle s
    (t.sys.power = .running → exec (.powerWake .room tag) s = .next (okReply .room tag 42 [] t))
    ∧ (t.sys.power = .standby → ∃ u, exec (.powerWake .room tag) s = .next (okReply .room tag 42 [] u)
      ∧ u.sys = { t.sys with power := .running }
      ∧ (∀ l, l < 4 → u.line l = if (t.line l).state = .standby then { t.line l with state := .waking, remaining := 12 }
          else t.line l)
      ∧ t.raised u [.power .running .request t.sys.autowake] ∧ t.changes [.power, .tables, .lines] u)
    ∧ (∀ l, l < 4 → (s.line l).state = .standby →
      (s.sys.autowake = false ∨ s.sys.power = .running → exec (.wakePulse l) s
        = .next (closeFrames (raise (.wakeRequest l none) (s.undue (.wakePulse l)))))
      ∧ (s.sys.autowake = true → s.sys.power = .standby →
        ∃ u, exec (.wakePulse l) s = .next (closeFrames u)
          ∧ u.sys = { s.sys with power := .running }
          ∧ (∀ k, k < 4 → u.line k = if (s.line k).state = .standby then { s.line k with state := .waking, remaining := 12 }
              else s.line k)
          ∧ s.raised u [.wakeRequest l none, .power .running (.wakePulse l) true]
          ∧ s.changes [.due, .power, .tables, .lines] u)))

/-- ConferenceClear from the Room Port (R44, R93, R187): claims but PRIVACY, hands, the floor lists, latch and attack
counts are cleared, CONFERENCE_CLEAR is raised with what stood before, then the ends of load and tone; set-up,
quantities, chair, mode, privacy, silence, lines and power stay. RightsSet writes FARMOD alone (R180). -/
def Obligations.ConferenceClearAndRights : Prop :=
  ∀ (tag : Byte) (s : State), s.sys.inReset = none →
    let t := settle s
    (∃ u, exec (.conferenceClear .room tag) s = .next (okReply .room tag 43 [] u)
      ∧ (∀ c, c < 42 → u.claims c = { ClaimSet.empty with privacy := (t.claims c).privacy } ∧ (u.chan c).attack = 0)
      ∧ (∀ c, c < 32 → (u.chan c).hand = false ∧ (u.chan c).talkCount = 0 ∧ (u.chan c).armed = true)
      ∧ u.floor = { t.floor with list := [], wait := [], leaving := [], guard := none, latch := false }
      ∧ u.scenes.load = none ∧ u.tone.running = false
      ∧ t.raised u (.conferenceClear
            ((List.range 42).countP (fun c => decide (t.claims c ≠ { ClaimSet.empty with privacy := (t.claims c).privacy })))
            t.floor.list.length t.floor.wait.length t.floor.leaving.length
          :: ((match t.scenes.load with
              | some ld => [.sceneDone ld.slot .cleared ld.applied ld.passed]
              | none => [])
            ++ (if t.tone.running then [.toneDone t.tone.target t.tone.freq .cleared t.tone.generated.toNat] else [])))
      ∧ t.changes (.tables :: clearParts) u)
    ∧ (∀ v, v ≤ 1 → exec (.rightsSet .room tag v) s
        = .next (okReply .room tag 44 [] { t with sys := { t.sys with farmod := v == 1 } }))
    ∧ (∀ v, 1 < v → exec (.rightsSet .room tag v) s = .next (failReply .room tag 44 .range t))

/-! ### What every step keeps -/

/-- The reset state is lawful: every law that the statements below say a step keeps. -/
def Obligations.ResetIsLawful : Prop :=
  State.reset.queuesBounded ∧ State.reset.floorLawful ∧ State.reset.silenceLawful ∧ State.reset.positionsBounded
    ∧ State.reset.rampsBounded ∧ State.reset.levelsLawful ∧ State.reset.tablesKeyed ∧ State.reset.settled

/-- Every step keeps the laws of the floor (R4, R20, R47, R50, R62, R67, R70): the lists within their capacities, no
channel in them twice and every one a pod channel, the guard timer running where a PENDING entry exists with the
Leaving List empty and only there, no muted pod on the floor, waiting or in ATTACK, no absent one in any list. -/
def Obligations.StepKeepsFloorLawful : Prop :=
  ∀ s t : State, step s = .next t → s.floorLawful → t.floorLawful

/-- Every step keeps the laws of Room Silence (R112, R117, R121): in QUIET nothing is covered and the chime phase is
0, outside ACTIVE no latched source stands, and the chime phase stays below 1000. -/
def Obligations.StepKeepsSilenceLawful : Prop :=
  ∀ s t : State, step s = .next t → s.silenceLawful → t.silenceLawful

/-- Every step keeps the bounds of the counts: the notice queues (R182), the counters, holds and wake timers of the
positions (R132, R143), the ramps (R94, R97), the peaks and noise floors (R6, R7). -/
def Obligations.StepKeepsCountsBounded : Prop :=
  ∀ s t : State, step s = .next t →
    (s.queuesBounded → t.queuesBounded) ∧ (s.positionsBounded → t.positionsBounded) ∧ (s.rampsBounded → t.rampsBounded)
      ∧ (s.levelsLawful → t.levelsLawful)

/-- Every step keeps the pending command tables keyed: one entry for each addressee and kind (R138). -/
def Obligations.StepKeepsTablesKeyed : Prop :=
  ∀ s t : State, step s = .next t → s.tablesKeyed → t.tablesKeyed
end

