-- ==== Sys2Proof/Laws/State.lean ====
section
/-! SUPPORT. What each update of State leaves and changes, field by field, for simp. -/

set_option Elab.async false

namespace Sys2Proof.Machine

open Sys2Proof

@[simp] theorem State.modChan_chans (s : State) (c : Nat) (g : Channel → Channel) : (s.modChan c g).chans = s.chans.modify c g := rfl
@[simp] theorem State.modChan_pos (s : State) (c : Nat) (g : Channel → Channel) : (s.modChan c g).pos = s.pos := rfl
@[simp] theorem State.modChan_lines (s : State) (c : Nat) (g : Channel → Channel) : (s.modChan c g).lines = s.lines := rfl
@[simp] theorem State.modChan_floor (s : State) (c : Nat) (g : Channel → Channel) : (s.modChan c g).floor = s.floor := rfl
@[simp] theorem State.modChan_mix (s : State) (c : Nat) (g : Channel → Channel) : (s.modChan c g).mix = s.mix := rfl
@[simp] theorem State.modChan_privacy (s : State) (c : Nat) (g : Channel → Channel) : (s.modChan c g).privacy = s.privacy := rfl
@[simp] theorem State.modChan_silence (s : State) (c : Nat) (g : Channel → Channel) : (s.modChan c g).silence = s.silence := rfl
@[simp] theorem State.modChan_meters (s : State) (c : Nat) (g : Channel → Channel) : (s.modChan c g).meters = s.meters := rfl
@[simp] theorem State.modChan_tone (s : State) (c : Nat) (g : Channel → Channel) : (s.modChan c g).tone = s.tone := rfl
@[simp] theorem State.modChan_scenes (s : State) (c : Nat) (g : Channel → Channel) : (s.modChan c g).scenes = s.scenes := rfl
@[simp] theorem State.modChan_room (s : State) (c : Nat) (g : Channel → Channel) : (s.modChan c g).room = s.room := rfl
@[simp] theorem State.modChan_codec (s : State) (c : Nat) (g : Channel → Channel) : (s.modChan c g).codec = s.codec := rfl
@[simp] theorem State.modChan_sys (s : State) (c : Nat) (g : Channel → Channel) : (s.modChan c g).sys = s.sys := rfl
@[simp] theorem State.modChan_due (s : State) (c : Nat) (g : Channel → Channel) : (s.modChan c g).due = s.due := rfl
@[simp] theorem State.modChan_pending (s : State) (c : Nat) (g : Channel → Channel) : (s.modChan c g).pending = s.pending := rfl

@[simp] theorem State.mapChans_chans (s : State) (g : Nat → Channel → Channel) : (s.mapChans g).chans = s.chans.mapIdx g := rfl
@[simp] theorem State.mapChans_pos (s : State) (g : Nat → Channel → Channel) : (s.mapChans g).pos = s.pos := rfl
@[simp] theorem State.mapChans_lines (s : State) (g : Nat → Channel → Channel) : (s.mapChans g).lines = s.lines := rfl
@[simp] theorem State.mapChans_floor (s : State) (g : Nat → Channel → Channel) : (s.mapChans g).floor = s.floor := rfl
@[simp] theorem State.mapChans_mix (s : State) (g : Nat → Channel → Channel) : (s.mapChans g).mix = s.mix := rfl
@[simp] theorem State.mapChans_privacy (s : State) (g : Nat → Channel → Channel) : (s.mapChans g).privacy = s.privacy := rfl
@[simp] theorem State.mapChans_silence (s : State) (g : Nat → Channel → Channel) : (s.mapChans g).silence = s.silence := rfl
@[simp] theorem State.mapChans_meters (s : State) (g : Nat → Channel → Channel) : (s.mapChans g).meters = s.meters := rfl
@[simp] theorem State.mapChans_tone (s : State) (g : Nat → Channel → Channel) : (s.mapChans g).tone = s.tone := rfl
@[simp] theorem State.mapChans_scenes (s : State) (g : Nat → Channel → Channel) : (s.mapChans g).scenes = s.scenes := rfl
@[simp] theorem State.mapChans_room (s : State) (g : Nat → Channel → Channel) : (s.mapChans g).room = s.room := rfl
@[simp] theorem State.mapChans_codec (s : State) (g : Nat → Channel → Channel) : (s.mapChans g).codec = s.codec := rfl
@[simp] theorem State.mapChans_sys (s : State) (g : Nat → Channel → Channel) : (s.mapChans g).sys = s.sys := rfl
@[simp] theorem State.mapChans_due (s : State) (g : Nat → Channel → Channel) : (s.mapChans g).due = s.due := rfl
@[simp] theorem State.mapChans_pending (s : State) (g : Nat → Channel → Channel) : (s.mapChans g).pending = s.pending := rfl

@[simp] theorem State.modPos_chans (s : State) (c : Nat) (g : Position → Position) : (s.modPos c g).chans = s.chans := rfl
@[simp] theorem State.modPos_pos (s : State) (c : Nat) (g : Position → Position) : (s.modPos c g).pos = s.pos.modify c g := rfl
@[simp] theorem State.modPos_lines (s : State) (c : Nat) (g : Position → Position) : (s.modPos c g).lines = s.lines := rfl
@[simp] theorem State.modPos_floor (s : State) (c : Nat) (g : Position → Position) : (s.modPos c g).floor = s.floor := rfl
@[simp] theorem State.modPos_mix (s : State) (c : Nat) (g : Position → Position) : (s.modPos c g).mix = s.mix := rfl
@[simp] theorem State.modPos_privacy (s : State) (c : Nat) (g : Position → Position) : (s.modPos c g).privacy = s.privacy := rfl
@[simp] theorem State.modPos_silence (s : State) (c : Nat) (g : Position → Position) : (s.modPos c g).silence = s.silence := rfl
@[simp] theorem State.modPos_meters (s : State) (c : Nat) (g : Position → Position) : (s.modPos c g).meters = s.meters := rfl
@[simp] theorem State.modPos_tone (s : State) (c : Nat) (g : Position → Position) : (s.modPos c g).tone = s.tone := rfl
@[simp] theorem State.modPos_scenes (s : State) (c : Nat) (g : Position → Position) : (s.modPos c g).scenes = s.scenes := rfl
@[simp] theorem State.modPos_room (s : State) (c : Nat) (g : Position → Position) : (s.modPos c g).room = s.room := rfl
@[simp] theorem State.modPos_codec (s : State) (c : Nat) (g : Position → Position) : (s.modPos c g).codec = s.codec := rfl
@[simp] theorem State.modPos_sys (s : State) (c : Nat) (g : Position → Position) : (s.modPos c g).sys = s.sys := rfl
@[simp] theorem State.modPos_due (s : State) (c : Nat) (g : Position → Position) : (s.modPos c g).due = s.due := rfl
@[simp] theorem State.modPos_pending (s : State) (c : Nat) (g : Position → Position) : (s.modPos c g).pending = s.pending := rfl

@[simp] theorem State.modLine_chans (s : State) (l : Nat) (g : Line → Line) : (s.modLine l g).chans = s.chans := rfl
@[simp] theorem State.modLine_pos (s : State) (l : Nat) (g : Line → Line) : (s.modLine l g).pos = s.pos := rfl
@[simp] theorem State.modLine_lines (s : State) (l : Nat) (g : Line → Line) : (s.modLine l g).lines = s.lines.modify l g := rfl
@[simp] theorem State.modLine_floor (s : State) (l : Nat) (g : Line → Line) : (s.modLine l g).floor = s.floor := rfl
@[simp] theorem State.modLine_mix (s : State) (l : Nat) (g : Line → Line) : (s.modLine l g).mix = s.mix := rfl
@[simp] theorem State.modLine_privacy (s : State) (l : Nat) (g : Line → Line) : (s.modLine l g).privacy = s.privacy := rfl
@[simp] theorem State.modLine_silence (s : State) (l : Nat) (g : Line → Line) : (s.modLine l g).silence = s.silence := rfl
@[simp] theorem State.modLine_meters (s : State) (l : Nat) (g : Line → Line) : (s.modLine l g).meters = s.meters := rfl
@[simp] theorem State.modLine_tone (s : State) (l : Nat) (g : Line → Line) : (s.modLine l g).tone = s.tone := rfl
@[simp] theorem State.modLine_scenes (s : State) (l : Nat) (g : Line → Line) : (s.modLine l g).scenes = s.scenes := rfl
@[simp] theorem State.modLine_room (s : State) (l : Nat) (g : Line → Line) : (s.modLine l g).room = s.room := rfl
@[simp] theorem State.modLine_codec (s : State) (l : Nat) (g : Line → Line) : (s.modLine l g).codec = s.codec := rfl
@[simp] theorem State.modLine_sys (s : State) (l : Nat) (g : Line → Line) : (s.modLine l g).sys = s.sys := rfl
@[simp] theorem State.modLine_due (s : State) (l : Nat) (g : Line → Line) : (s.modLine l g).due = s.due := rfl
@[simp] theorem State.modLine_pending (s : State) (l : Nat) (g : Line → Line) : (s.modLine l g).pending = s.pending := rfl

@[simp] theorem State.modFloor_chans (s : State) (g : Floor → Floor) : (s.modFloor g).chans = s.chans := rfl
@[simp] theorem State.modFloor_pos (s : State) (g : Floor → Floor) : (s.modFloor g).pos = s.pos := rfl
@[simp] theorem State.modFloor_lines (s : State) (g : Floor → Floor) : (s.modFloor g).lines = s.lines := rfl
@[simp] theorem State.modFloor_floor (s : State) (g : Floor → Floor) : (s.modFloor g).floor = g s.floor := rfl
@[simp] theorem State.modFloor_mix (s : State) (g : Floor → Floor) : (s.modFloor g).mix = s.mix := rfl
@[simp] theorem State.modFloor_privacy (s : State) (g : Floor → Floor) : (s.modFloor g).privacy = s.privacy := rfl
@[simp] theorem State.modFloor_silence (s : State) (g : Floor → Floor) : (s.modFloor g).silence = s.silence := rfl
@[simp] theorem State.modFloor_meters (s : State) (g : Floor → Floor) : (s.modFloor g).meters = s.meters := rfl
@[simp] theorem State.modFloor_tone (s : State) (g : Floor → Floor) : (s.modFloor g).tone = s.tone := rfl
@[simp] theorem State.modFloor_scenes (s : State) (g : Floor → Floor) : (s.modFloor g).scenes = s.scenes := rfl
@[simp] theorem State.modFloor_room (s : State) (g : Floor → Floor) : (s.modFloor g).room = s.room := rfl
@[simp] theorem State.modFloor_codec (s : State) (g : Floor → Floor) : (s.modFloor g).codec = s.codec := rfl
@[simp] theorem State.modFloor_sys (s : State) (g : Floor → Floor) : (s.modFloor g).sys = s.sys := rfl
@[simp] theorem State.modFloor_due (s : State) (g : Floor → Floor) : (s.modFloor g).due = s.due := rfl
@[simp] theorem State.modFloor_pending (s : State) (g : Floor → Floor) : (s.modFloor g).pending = s.pending := rfl

@[simp] theorem State.modSilence_chans (s : State) (g : Silence → Silence) : (s.modSilence g).chans = s.chans := rfl
@[simp] theorem State.modSilence_pos (s : State) (g : Silence → Silence) : (s.modSilence g).pos = s.pos := rfl
@[simp] theorem State.modSilence_lines (s : State) (g : Silence → Silence) : (s.modSilence g).lines = s.lines := rfl
@[simp] theorem State.modSilence_floor (s : State) (g : Silence → Silence) : (s.modSilence g).floor = s.floor := rfl
@[simp] theorem State.modSilence_mix (s : State) (g : Silence → Silence) : (s.modSilence g).mix = s.mix := rfl
@[simp] theorem State.modSilence_privacy (s : State) (g : Silence → Silence) : (s.modSilence g).privacy = s.privacy := rfl
@[simp] theorem State.modSilence_silence (s : State) (g : Silence → Silence) : (s.modSilence g).silence = g s.silence := rfl
@[simp] theorem State.modSilence_meters (s : State) (g : Silence → Silence) : (s.modSilence g).meters = s.meters := rfl
@[simp] theorem State.modSilence_tone (s : State) (g : Silence → Silence) : (s.modSilence g).tone = s.tone := rfl
@[simp] theorem State.modSilence_scenes (s : State) (g : Silence → Silence) : (s.modSilence g).scenes = s.scenes := rfl
@[simp] theorem State.modSilence_room (s : State) (g : Silence → Silence) : (s.modSilence g).room = s.room := rfl
@[simp] theorem State.modSilence_codec (s : State) (g : Silence → Silence) : (s.modSilence g).codec = s.codec := rfl
@[simp] theorem State.modSilence_sys (s : State) (g : Silence → Silence) : (s.modSilence g).sys = s.sys := rfl
@[simp] theorem State.modSilence_due (s : State) (g : Silence → Silence) : (s.modSilence g).due = s.due := rfl
@[simp] theorem State.modSilence_pending (s : State) (g : Silence → Silence) : (s.modSilence g).pending = s.pending := rfl

@[simp] theorem State.undue_chans (s : State) (e : Event) : (s.undue e).chans = s.chans := rfl
@[simp] theorem State.undue_pos (s : State) (e : Event) : (s.undue e).pos = s.pos := rfl
@[simp] theorem State.undue_lines (s : State) (e : Event) : (s.undue e).lines = s.lines := rfl
@[simp] theorem State.undue_floor (s : State) (e : Event) : (s.undue e).floor = s.floor := rfl
@[simp] theorem State.undue_mix (s : State) (e : Event) : (s.undue e).mix = s.mix := rfl
@[simp] theorem State.undue_privacy (s : State) (e : Event) : (s.undue e).privacy = s.privacy := rfl
@[simp] theorem State.undue_silence (s : State) (e : Event) : (s.undue e).silence = s.silence := rfl
@[simp] theorem State.undue_meters (s : State) (e : Event) : (s.undue e).meters = s.meters := rfl
@[simp] theorem State.undue_tone (s : State) (e : Event) : (s.undue e).tone = s.tone := rfl
@[simp] theorem State.undue_scenes (s : State) (e : Event) : (s.undue e).scenes = s.scenes := rfl
@[simp] theorem State.undue_room (s : State) (e : Event) : (s.undue e).room = s.room := rfl
@[simp] theorem State.undue_codec (s : State) (e : Event) : (s.undue e).codec = s.codec := rfl
@[simp] theorem State.undue_sys (s : State) (e : Event) : (s.undue e).sys = s.sys := rfl
@[simp] theorem State.undue_due (s : State) (e : Event) : (s.undue e).due = s.due.filter (fun d => d != e) := rfl
@[simp] theorem State.undue_pending (s : State) (e : Event) : (s.undue e).pending = s.pending := rfl

@[simp] theorem State.addDue_chans (s : State) (es : List Event) : (s.addDue es).chans = s.chans := rfl
@[simp] theorem State.addDue_pos (s : State) (es : List Event) : (s.addDue es).pos = s.pos := rfl
@[simp] theorem State.addDue_lines (s : State) (es : List Event) : (s.addDue es).lines = s.lines := rfl
@[simp] theorem State.addDue_floor (s : State) (es : List Event) : (s.addDue es).floor = s.floor := rfl
@[simp] theorem State.addDue_mix (s : State) (es : List Event) : (s.addDue es).mix = s.mix := rfl
@[simp] theorem State.addDue_privacy (s : State) (es : List Event) : (s.addDue es).privacy = s.privacy := rfl
@[simp] theorem State.addDue_silence (s : State) (es : List Event) : (s.addDue es).silence = s.silence := rfl
@[simp] theorem State.addDue_meters (s : State) (es : List Event) : (s.addDue es).meters = s.meters := rfl
@[simp] theorem State.addDue_tone (s : State) (es : List Event) : (s.addDue es).tone = s.tone := rfl
@[simp] theorem State.addDue_scenes (s : State) (es : List Event) : (s.addDue es).scenes = s.scenes := rfl
@[simp] theorem State.addDue_room (s : State) (es : List Event) : (s.addDue es).room = s.room := rfl
@[simp] theorem State.addDue_codec (s : State) (es : List Event) : (s.addDue es).codec = s.codec := rfl
@[simp] theorem State.addDue_sys (s : State) (es : List Event) : (s.addDue es).sys = s.sys := rfl
@[simp] theorem State.addDue_due (s : State) (es : List Event) : (s.addDue es).due = s.due ++ es := rfl
@[simp] theorem State.addDue_pending (s : State) (es : List Event) : (s.addDue es).pending = s.pending := rfl

@[simp] theorem State.place_chans (s : State) (l : Nat) (a : Addressee) (m : LineCmd) : (s.place l a m).chans = s.chans := rfl
@[simp] theorem State.place_pos (s : State) (l : Nat) (a : Addressee) (m : LineCmd) : (s.place l a m).pos = s.pos := rfl
@[simp] theorem State.place_floor (s : State) (l : Nat) (a : Addressee) (m : LineCmd) : (s.place l a m).floor = s.floor := rfl
@[simp] theorem State.place_mix (s : State) (l : Nat) (a : Addressee) (m : LineCmd) : (s.place l a m).mix = s.mix := rfl
@[simp] theorem State.place_privacy (s : State) (l : Nat) (a : Addressee) (m : LineCmd) : (s.place l a m).privacy = s.privacy := rfl
@[simp] theorem State.place_silence (s : State) (l : Nat) (a : Addressee) (m : LineCmd) : (s.place l a m).silence = s.silence := rfl
@[simp] theorem State.place_meters (s : State) (l : Nat) (a : Addressee) (m : LineCmd) : (s.place l a m).meters = s.meters := rfl
@[simp] theorem State.place_tone (s : State) (l : Nat) (a : Addressee) (m : LineCmd) : (s.place l a m).tone = s.tone := rfl
@[simp] theorem State.place_scenes (s : State) (l : Nat) (a : Addressee) (m : LineCmd) : (s.place l a m).scenes = s.scenes := rfl
@[simp] theorem State.place_room (s : State) (l : Nat) (a : Addressee) (m : LineCmd) : (s.place l a m).room = s.room := rfl
@[simp] theorem State.place_codec (s : State) (l : Nat) (a : Addressee) (m : LineCmd) : (s.place l a m).codec = s.codec := rfl
@[simp] theorem State.place_sys (s : State) (l : Nat) (a : Addressee) (m : LineCmd) : (s.place l a m).sys = s.sys := rfl
@[simp] theorem State.place_due (s : State) (l : Nat) (a : Addressee) (m : LineCmd) : (s.place l a m).due = s.due := rfl
@[simp] theorem State.place_pending (s : State) (l : Nat) (a : Addressee) (m : LineCmd) : (s.place l a m).pending = s.pending := rfl

@[simp] theorem State.modPort_chans (s : State) (p : Port) (g : PortState → PortState) : (s.modPort p g).chans = s.chans := by
  cases p <;> rfl
@[simp] theorem raise_chans (s : State) (b : NoticeBody) : (raise b s).chans = s.chans := rfl
@[simp] theorem respond_chans (s : State) (p : Port) (r : Response) : (respond p r s).chans = s.chans := by
  cases p <;> rfl
@[simp] theorem quietly_chans (f : State → State) (s : State) : (quietly f s).chans = (f s).chans := rfl
@[simp] theorem State.modPort_pos (s : State) (p : Port) (g : PortState → PortState) : (s.modPort p g).pos = s.pos := by
  cases p <;> rfl
@[simp] theorem raise_pos (s : State) (b : NoticeBody) : (raise b s).pos = s.pos := rfl
@[simp] theorem respond_pos (s : State) (p : Port) (r : Response) : (respond p r s).pos = s.pos := by
  cases p <;> rfl
@[simp] theorem quietly_pos (f : State → State) (s : State) : (quietly f s).pos = (f s).pos := rfl
@[simp] theorem State.modPort_lines (s : State) (p : Port) (g : PortState → PortState) : (s.modPort p g).lines = s.lines := by
  cases p <;> rfl
@[simp] theorem raise_lines (s : State) (b : NoticeBody) : (raise b s).lines = s.lines := rfl
@[simp] theorem respond_lines (s : State) (p : Port) (r : Response) : (respond p r s).lines = s.lines := by
  cases p <;> rfl
@[simp] theorem quietly_lines (f : State → State) (s : State) : (quietly f s).lines = (f s).lines := rfl
@[simp] theorem State.modPort_floor (s : State) (p : Port) (g : PortState → PortState) : (s.modPort p g).floor = s.floor := by
  cases p <;> rfl
@[simp] theorem raise_floor (s : State) (b : NoticeBody) : (raise b s).floor = s.floor := rfl
@[simp] theorem respond_floor (s : State) (p : Port) (r : Response) : (respond p r s).floor = s.floor := by
  cases p <;> rfl
@[simp] theorem quietly_floor (f : State → State) (s : State) : (quietly f s).floor = (f s).floor := rfl
@[simp] theorem State.modPort_mix (s : State) (p : Port) (g : PortState → PortState) : (s.modPort p g).mix = s.mix := by
  cases p <;> rfl
@[simp] theorem raise_mix (s : State) (b : NoticeBody) : (raise b s).mix = s.mix := rfl
@[simp] theorem respond_mix (s : State) (p : Port) (r : Response) : (respond p r s).mix = s.mix := by
  cases p <;> rfl
@[simp] theorem quietly_mix (f : State → State) (s : State) : (quietly f s).mix = (f s).mix := rfl
@[simp] theorem State.modPort_privacy (s : State) (p : Port) (g : PortState → PortState) : (s.modPort p g).privacy = s.privacy := by
  cases p <;> rfl
@[simp] theorem raise_privacy (s : State) (b : NoticeBody) : (raise b s).privacy = s.privacy := rfl
@[simp] theorem respond_privacy (s : State) (p : Port) (r : Response) : (respond p r s).privacy = s.privacy := by
  cases p <;> rfl
@[simp] theorem quietly_privacy (f : State → State) (s : State) : (quietly f s).privacy = (f s).privacy := rfl
@[simp] theorem State.modPort_silence (s : State) (p : Port) (g : PortState → PortState) : (s.modPort p g).silence = s.silence := by
  cases p <;> rfl
@[simp] theorem raise_silence (s : State) (b : NoticeBody) : (raise b s).silence = s.silence := rfl
@[simp] theorem respond_silence (s : State) (p : Port) (r : Response) : (respond p r s).silence = s.silence := by
  cases p <;> rfl
@[simp] theorem quietly_silence (f : State → State) (s : State) : (quietly f s).silence = (f s).silence := rfl
@[simp] theorem State.modPort_meters (s : State) (p : Port) (g : PortState → PortState) : (s.modPort p g).meters = s.meters := by
  cases p <;> rfl
@[simp] theorem raise_meters (s : State) (b : NoticeBody) : (raise b s).meters = s.meters := rfl
@[simp] theorem respond_meters (s : State) (p : Port) (r : Response) : (respond p r s).meters = s.meters := by
  cases p <;> rfl
@[simp] theorem quietly_meters (f : State → State) (s : State) : (quietly f s).meters = (f s).meters := rfl
@[simp] theorem State.modPort_tone (s : State) (p : Port) (g : PortState → PortState) : (s.modPort p g).tone = s.tone := by
  cases p <;> rfl
@[simp] theorem raise_tone (s : State) (b : NoticeBody) : (raise b s).tone = s.tone := rfl
@[simp] theorem respond_tone (s : State) (p : Port) (r : Response) : (respond p r s).tone = s.tone := by
  cases p <;> rfl
@[simp] theorem quietly_tone (f : State → State) (s : State) : (quietly f s).tone = (f s).tone := rfl
@[simp] theorem State.modPort_scenes (s : State) (p : Port) (g : PortState → PortState) : (s.modPort p g).scenes = s.scenes := by
  cases p <;> rfl
@[simp] theorem raise_scenes (s : State) (b : NoticeBody) : (raise b s).scenes = s.scenes := rfl
@[simp] theorem respond_scenes (s : State) (p : Port) (r : Response) : (respond p r s).scenes = s.scenes := by
  cases p <;> rfl
@[simp] theorem quietly_scenes (f : State → State) (s : State) : (quietly f s).scenes = (f s).scenes := rfl
@[simp] theorem State.modPort_sys (s : State) (p : Port) (g : PortState → PortState) : (s.modPort p g).sys = s.sys := by
  cases p <;> rfl
@[simp] theorem raise_sys (s : State) (b : NoticeBody) : (raise b s).sys = s.sys := rfl
@[simp] theorem respond_sys (s : State) (p : Port) (r : Response) : (respond p r s).sys = s.sys := by
  cases p <;> rfl
@[simp] theorem quietly_sys (f : State → State) (s : State) : (quietly f s).sys = (f s).sys := rfl
@[simp] theorem State.modPort_due (s : State) (p : Port) (g : PortState → PortState) : (s.modPort p g).due = s.due := by
  cases p <;> rfl
@[simp] theorem raise_due (s : State) (b : NoticeBody) : (raise b s).due = s.due := rfl
@[simp] theorem respond_due (s : State) (p : Port) (r : Response) : (respond p r s).due = s.due := by
  cases p <;> rfl
@[simp] theorem quietly_due (f : State → State) (s : State) : (quietly f s).due = (f s).due := rfl
@[simp] theorem State.modPort_pending (s : State) (p : Port) (g : PortState → PortState) : (s.modPort p g).pending = s.pending := by
  cases p <;> rfl
@[simp] theorem raise_pending (s : State) (b : NoticeBody) : (raise b s).pending = s.pending := rfl
@[simp] theorem respond_pending (s : State) (p : Port) (r : Response) : (respond p r s).pending = s.pending := by
  cases p <;> rfl
@[simp] theorem quietly_pending (f : State → State) (s : State) : (quietly f s).pending = (f s).pending := rfl

@[simp] theorem quietly_room (f : State → State) (s : State) : (quietly f s).room = s.room := rfl
@[simp] theorem quietly_codec (f : State → State) (s : State) : (quietly f s).codec = s.codec := rfl
@[simp] theorem raise_room (s : State) (b : NoticeBody) :
    (raise b s).room = s.room.offer ⟨b, s.sys.blocks.setWidth 16⟩ := rfl
@[simp] theorem raise_codec (s : State) (b : NoticeBody) :
    (raise b s).codec = if b.roomOnly then s.codec else s.codec.offer ⟨b, s.sys.blocks.setWidth 16⟩ := rfl

end Sys2Proof.Machine
end

