-- ==== Sys2Proof/Laws/Tab.lean ====
section
/-! SUPPORT. Entries of tables after an update; runs. -/

set_option Elab.async false

namespace Sys2Proof

namespace Tab

theorem ext_items {α : Type} {n : Nat} {t u : Tab n α} (h : t.items = u.items) : t = u := by
  cases t; cases u; simp_all

theorem get_set {α : Type} {n : Nat} [Inhabited α] (t : Tab n α) (i j : Nat) (x : α) :
    (t.set i x).get j = if j = i ∧ i < n then x else t.get j := by
  have hl := t.len
  simp only [get, set, List.getD_eq_getElem?_getD, List.getElem?_set]
  by_cases h : i = j
  · subst h
    by_cases hi : i < n
    · simp [hi, hl]
    · simp [hi, hl]
  · simp [h, Ne.symm h]

theorem get_modify {α : Type} {n : Nat} [Inhabited α] (t : Tab n α) (i j : Nat) (f : α → α) :
    (t.modify i f).get j = if j = i ∧ i < n then f (t.get i) else t.get j := get_set t i j _

theorem get_tabulate {α : Type} {n : Nat} [Inhabited α] (f : Nat → α) (i : Nat) :
    (tabulate n f).get i = if i < n then f i else default := by
  simp only [get, tabulate, List.getD_eq_getElem?_getD]
  by_cases h : i < n <;> simp [h]

theorem get_mapIdx {α β : Type} {n : Nat} [Inhabited α] [Inhabited β] (f : Nat → α → β) (t : Tab n α) (i : Nat) :
    (t.mapIdx f).get i = if i < n then f i (t.get i) else default := get_tabulate _ i

theorem get_of_ge {α : Type} {n : Nat} [Inhabited α] (t : Tab n α) {i : Nat} (h : n ≤ i) : t.get i = default := by
  simp [get, List.getD_eq_getElem?_getD, t.len, h]

/-- Two tables with the same entries are the same table. -/
theorem ext_get {α : Type} {n : Nat} [Inhabited α] {t u : Tab n α} (h : ∀ i, i < n → t.get i = u.get i) : t = u := by
  apply ext_items
  apply List.ext_getElem (by rw [t.len, u.len])
  intro i h1 h2
  have hi : i < n := by rw [← t.len]; exact h1
  have := h i hi
  simpa [get, List.getD_eq_getElem?_getD, List.getElem?_eq_getElem h1, List.getElem?_eq_getElem h2] using this

/-- A property of the entry that an update keeps is kept at every entry. -/
theorem keep_modify {α β : Type} {n : Nat} [Inhabited α] (t : Tab n α) (i j : Nat) (f : α → α) (g : α → β)
    (h : ∀ x, g (f x) = g x) : g ((t.modify i f).get j) = g (t.get j) := by
  rw [get_modify]; split
  · rename_i hj; rw [hj.1, h]
  · rfl

/-- A property of the entries that a map keeps is kept at every entry. -/
theorem keep_mapIdx {α β : Type} {n : Nat} [Inhabited α] (t : Tab n α) (j : Nat) (f : Nat → α → α) (g : α → β)
    (h : ∀ i x, g (f i x) = g x) : g ((t.mapIdx f).get j) = g (t.get j) := by
  rw [get_mapIdx]; split
  · rw [h]
  · rename_i hj; rw [get_of_ge t (Nat.le_of_not_lt hj)]

end Tab

/-- What every single change of a run keeps, the run keeps. -/
theorem runOver_keep {σ : Type} {P : σ → Prop} {f : Nat → σ → σ} (h : ∀ n s, P s → P (f n s)) :
    ∀ (ns : List Nat) (s : σ), P s → P (runOver f ns s)
  | [], _, hs => hs
  | n :: ns, s, hs => runOver_keep h ns (f n s) (h n s hs)

/-- The same, for changes over the numbers of the run only. -/
theorem runOver_keep_mem {σ : Type} {P : σ → Prop} {f : Nat → σ → σ} :
    ∀ (ns : List Nat) (s : σ), (∀ n ∈ ns, ∀ s, P s → P (f n s)) → P s → P (runOver f ns s)
  | [], _, _, hs => hs
  | n :: ns, s, h, hs =>
    runOver_keep_mem ns (f n s) (fun m hm => h m (List.mem_cons_of_mem _ hm)) (h n (List.mem_cons_self ..) s hs)

end Sys2Proof
end

