-- ==== Sys2Proof/Laws/Frame.lean ====
section
/-! SUPPORT. Records after an update; changes of some parts of the state (State.changes) and how they compose. -/

set_option Elab.async false

namespace Sys2Proof.Machine

open Sys2Proof

/-! ### Records -/

theorem State.chan_modChan (s : State) (c d : Nat) (f : Channel → Channel) :
    (s.modChan c f).chan d = if d = c ∧ c < 42 then f (s.chan c) else s.chan d := Tab.get_modify _ _ _ _

theorem State.chan_modChan_self (s : State) {c : Nat} (f : Channel → Channel) (h : c < 42) :
    (s.modChan c f).chan c = f (s.chan c) := by simp [State.chan_modChan, h]

theorem State.chan_modChan_ne (s : State) {c d : Nat} (f : Channel → Channel) (h : d ≠ c) :
    (s.modChan c f).chan d = s.chan d := by simp [State.chan_modChan, h]

theorem State.chan_mapChans (s : State) (c : Nat) (f : Nat → Channel → Channel) :
    (s.mapChans f).chan c = if c < 42 then f c (s.chan c) else s.chan c := by
  unfold State.chan State.mapChans
  rw [Tab.get_mapIdx]; split
  · rfl
  · rename_i h; rw [Tab.get_of_ge _ (Nat.le_of_not_lt h)]

theorem State.position_modPos (s : State) (c d : Nat) (f : Position → Position) :
    (s.modPos c f).position d = if d = c ∧ c < 32 then f (s.position c) else s.position d := Tab.get_modify _ _ _ _

theorem State.line_modLine (s : State) (l k : Nat) (f : Line → Line) :
    (s.modLine l f).line k = if k = l ∧ l < 4 then f (s.line l) else s.line k := Tab.get_modify _ _ _ _

@[simp] theorem State.chan_modFloor (s : State) (c : Nat) (f : Floor → Floor) : (s.modFloor f).chan c = s.chan c := rfl
@[simp] theorem State.chan_raise (s : State) (c : Nat) (b : NoticeBody) : (raise b s).chan c = s.chan c := rfl
@[simp] theorem State.chan_modLine (s : State) (l c : Nat) (f : Line → Line) : (s.modLine l f).chan c = s.chan c := rfl
@[simp] theorem State.chan_modPos (s : State) (d c : Nat) (f : Position → Position) : (s.modPos d f).chan c = s.chan c := rfl
@[simp] theorem State.position_modFloor (s : State) (c : Nat) (f : Floor → Floor) :
    (s.modFloor f).position c = s.position c := rfl
@[simp] theorem State.position_raise (s : State) (c : Nat) (b : NoticeBody) : (raise b s).position c = s.position c := rfl
@[simp] theorem State.position_modChan (s : State) (d c : Nat) (f : Channel → Channel) :
    (s.modChan d f).position c = s.position c := rfl
@[simp] theorem State.position_modLine (s : State) (l c : Nat) (f : Line → Line) :
    (s.modLine l f).position c = s.position c := rfl
@[simp] theorem State.line_modFloor (s : State) (l : Nat) (f : Floor → Floor) : (s.modFloor f).line l = s.line l := rfl
@[simp] theorem State.line_raise (s : State) (l : Nat) (b : NoticeBody) : (raise b s).line l = s.line l := rfl
@[simp] theorem State.line_modChan (s : State) (c l : Nat) (f : Channel → Channel) :
    (s.modChan c f).line l = s.line l := rfl
@[simp] theorem State.line_mapChans (s : State) (l : Nat) (f : Nat → Channel → Channel) :
    (s.mapChans f).line l = s.line l := rfl
@[simp] theorem State.position_mapChans (s : State) (c : Nat) (f : Nat → Channel → Channel) :
    (s.mapChans f).position c = s.position c := rfl
@[simp] theorem State.line_modPos (s : State) (c l : Nat) (f : Position → Position) :
    (s.modPos c f).line l = s.line l := rfl

/-! ### Offers -/

theorem PortState.offers_append (ps : PortState) (a b : List Notice) : (ps.offers a).offers b = ps.offers (a ++ b) := by
  simp [PortState.offers]

/-- Offers keep the bound of a notice queue (R182). -/
theorem PortState.offers_queue_le (ps : PortState) (ns : List Notice) (h : ps.queue.length ≤ 32) :
    (ps.offers ns).queue.length ≤ 32 := by
  induction ns generalizing ps with
  | nil => exact h
  | cons n ns ih =>
    apply ih
    unfold PortState.offer
    split
    · split
      · rename_i hq; simp [Config.queueCapacity] at hq ⊢; omega
      · exact h
    · exact h

theorem State.raised_refl (s : State) : s.raised s [] := by intro p; cases p <;> rfl

theorem State.raised_trans {s t u : State} {a b : List NoticeBody} (hb : t.sys.blocks = s.sys.blocks)
    (h1 : s.raised t a) (h2 : t.raised u b) : s.raised u (a ++ b) := by
  intro p
  rw [h2 p, h1 p, PortState.offers_append]
  cases p <;> simp [State.stamped, goesTo, hb]

theorem State.raised_raise (s : State) (b : NoticeBody) : s.raised (raise b s) [b] := by
  intro p
  cases p
  · rfl
  · cases h : b.roomOnly <;> simp [raise, goesTo, State.stamped, PortState.offers, State.port, h]

/-! ### Changes of parts -/

namespace State.changes

theorem refl (s : State) (ps : List Part) : s.changes ps s := by
  refine ⟨?_, [], s.raised_refl⟩
  intro p _
  cases p <;> simp [Part.same]

/-- A change of parts, without notices. -/
theorem quiet {s t : State} {ps : List Part} (h : s.onlyIn ps t) (hr : t.room = s.room) (hc : t.codec = s.codec) :
    s.changes ps t := by
  refine ⟨h, [], ?_⟩
  intro p; cases p <;> simp [State.port, hr, hc, PortState.offers, goesTo, State.stamped]

theorem mono {s t : State} {ps qs : List Part} (h : s.changes ps t) (hq : ∀ p ∈ ps, p ∈ qs := by decide) :
    s.changes qs t := ⟨fun p hp => h.1 p (fun hm => hp (hq p hm)), h.2⟩

end State.changes

theorem Part.same_trans {s t u : State} (p : Part) (h1 : p.same s t) (h2 : p.same t u) : p.same s u := by
  cases p with
  | lines =>
    intro l
    have a := h1 l; have b := h2 l
    rw [b, a]
  | _ => simp_all [Part.same]

namespace State.changes

/-- One change after another, where neither moves the block counter. -/
theorem trans {s t u : State} {ps : List Part} (h1 : s.changes ps t) (h2 : t.changes ps u)
    (hk : Part.clock ∉ ps := by decide) : s.changes ps u := by
  obtain ⟨o1, a, r1⟩ := h1
  obtain ⟨o2, b, r2⟩ := h2
  exact ⟨fun p hp => p.same_trans (o1 p hp) (o2 p hp), a ++ b, State.raised_trans (o1 _ hk).1 r1 r2⟩

/-- One change after another, in a list of parts that covers both. -/
theorem comp {s t u : State} {ps qs rs : List Part} (h1 : s.changes ps t) (h2 : t.changes qs u)
    (hp : ∀ p ∈ ps, p ∈ rs := by decide) (hq : ∀ p ∈ qs, p ∈ rs := by decide)
    (hk : Part.clock ∉ rs := by decide) : s.changes rs u := (h1.mono hp).trans (h2.mono hq) hk

theorem room {s t : State} {ps : List Part} (h : s.changes ps t) : ∃ ns, t.room = s.room.offers ns :=
  h.2.elim (fun _ hr => ⟨_, hr .room⟩)

theorem codec {s t : State} {ps : List Part} (h : s.changes ps t) : ∃ ns, t.codec = s.codec.offers ns :=
  h.2.elim (fun _ hr => ⟨_, hr .codec⟩)

/-- A change offers notices, so it keeps the bound of the queues (R182). -/
theorem queuesBounded {s t : State} {ps : List Part} (h : s.changes ps t) (hs : s.queuesBounded) : t.queuesBounded := by
  obtain ⟨a, ha⟩ := h.room
  obtain ⟨b, hb⟩ := h.codec
  exact ⟨ha ▸ PortState.offers_queue_le _ _ hs.1, hb ▸ PortState.offers_queue_le _ _ hs.2⟩

end State.changes

theorem raise_changes (b : NoticeBody) (s : State) : s.changes [] (raise b s) := by
  refine ⟨?_, [b], s.raised_raise b⟩
  intro p _
  cases p <;> simp [Part.same]

/-- What an update of one channel record must keep for a part to be the same. -/
def Part.keeps (f : Channel → Channel) : Part → Prop
  | .setup => ∀ k, (f k).trim = k.trim ∧ (f k).zone = k.zone ∧ (f k).groups = k.groups ∧ (f k).siteUp = k.siteUp
  | .measures => ∀ k, (f k).peak = k.peak ∧ (f k).noise = k.noise ∧ (f k).rise = k.rise ∧ (f k).openThr = k.openThr
      ∧ (f k).closeThr = k.closeThr
  | .claims => ∀ k, (f k).claims = k.claims
  | .hands => ∀ k, (f k).hand = k.hand
  | .talk => ∀ k, (f k).talkCount = k.talkCount ∧ (f k).armed = k.armed
  | .attack => ∀ k, (f k).attack = k.attack
  | .ramps => ∀ k, (f k).ramp = k.ramp
  | .applied => ∀ k, (f k).atten = k.atten ∧ (f k).maskZone = k.maskZone
  | .rings => ∀ k, (f k).ring = k.ring ∧ (f k).pulseOwed = k.pulseOwed
  | .marks => ∀ k, (f k).touched = k.touched
  | _ => True

/-- An update of one channel changes the parts of the record that it does not keep. -/
theorem modChan_changes {ps : List Part} {f : Channel → Channel} (h : ∀ p, p ∉ ps → p.keeps f) (c : Nat) (s : State) :
    s.changes ps (s.modChan c f) := by
  refine State.changes.quiet ?_ rfl rfl
  intro p hp
  have hf := h p hp
  cases p with
  | setup | measures | claims | hands | talk | attack | ramps | applied | rings =>
    intro d; rw [State.chan_modChan]; split
    · rename_i hd; rw [hd.1]; exact hf _
    · simp
  | marks =>
    refine ⟨rfl, fun d => ?_⟩
    rw [State.chan_modChan]; split
    · rename_i hd; rw [hd.1]; exact hf _
    · rfl
  | _ => simp [Part.same]

/-- An update of every channel changes the parts of the records that it does not keep. -/
theorem mapChans_changes {ps : List Part} {f : Nat → Channel → Channel} (h : ∀ c p, p ∉ ps → p.keeps (f c)) (s : State) :
    s.changes ps (s.mapChans f) := by
  refine State.changes.quiet ?_ rfl rfl
  intro p hp
  cases p with
  | setup | measures | claims | hands | talk | attack | ramps | applied | rings =>
    intro d; rw [State.chan_mapChans]; split
    · exact h d _ hp _
    · simp
  | marks =>
    refine ⟨rfl, fun d => ?_⟩
    rw [State.chan_mapChans]; split
    · exact h d _ hp _
    · rfl
  | _ => simp [Part.same]

/-- An update of the Floor Controller changes the parts of it that it does not keep. -/
theorem modFloor_changes {ps : List Part} {f : Floor → Floor} (s : State)
    (h1 : Part.floor ∈ ps ∨ ((f s.floor).list = s.floor.list ∧ (f s.floor).wait = s.floor.wait
      ∧ (f s.floor).leaving = s.floor.leaving ∧ (f s.floor).guard = s.floor.guard))
    (h2 : Part.mode ∈ ps ∨ (f s.floor).mode = s.floor.mode) (h3 : Part.cfg ∈ ps ∨ (f s.floor).cfg = s.floor.cfg)
    (h4 : Part.chair ∈ ps ∨ (f s.floor).chair = s.floor.chair)
    (h5 : Part.latch ∈ ps ∨ (f s.floor).latch = s.floor.latch) : s.changes ps (s.modFloor f) := by
  refine State.changes.quiet ?_ rfl rfl
  intro p hp
  cases p with
  | floor => exact h1.resolve_left hp
  | mode => exact h2.resolve_left hp
  | cfg => exact h3.resolve_left hp
  | chair => exact h4.resolve_left hp
  | latch => exact h5.resolve_left hp
  | _ => simp [Part.same]

/-- An update of the three lists and the guard timer. -/
theorem modFloor_lists {f : Floor → Floor} (s : State)
    (h : ∀ g : Floor, (f g).mode = g.mode ∧ (f g).cfg = g.cfg ∧ (f g).chair = g.chair ∧ (f g).latch = g.latch) :
    s.changes [.floor] (s.modFloor f) :=
  modFloor_changes s (.inl (by decide)) (.inr (h _).1) (.inr (h _).2.1) (.inr (h _).2.2.1) (.inr (h _).2.2.2)

/-- An update of a line's table. -/
theorem modTable_changes (l : Nat) (g : List Entry → List Entry) (s : State) :
    s.changes [.tables] (s.modLine l (fun ln => { ln with table := g ln.table })) := by
  refine State.changes.quiet ?_ rfl rfl
  intro p hp
  cases p with
  | tables => simp at hp
  | lines =>
    intro k; rw [State.line_modLine]; split
    · rename_i hk; rw [hk.1]
    · rfl
  | _ => simp [Part.same]

/-- An update of a line. -/
theorem modLine_changes (l : Nat) (g : Line → Line) (s : State) : s.changes [.tables, .lines] (s.modLine l g) := by
  refine State.changes.quiet ?_ rfl rfl
  intro p hp
  cases p <;> simp [Part.same] at hp ⊢

/-- An update of a position. -/
theorem modPos_changes (c : Nat) (g : Position → Position) (s : State) : s.changes [.pos] (s.modPos c g) := by
  refine State.changes.quiet ?_ rfl rfl
  intro p hp
  cases p <;> simp [Part.same] at hp ⊢

theorem place_changes (l : Nat) (dest : Addressee) (cmd : LineCmd) (s : State) : s.changes [.tables] (s.place l dest cmd) :=
  modTable_changes l (fun t => placeIn t dest cmd) s

/-- A run of changes. -/
theorem runOver_changes {ps : List Part} {f : Nat → State → State} (h : ∀ (n : Nat) (s : State), s.changes ps (f n s))
    (hk : Part.clock ∉ ps := by decide) (ns : List Nat) (s : State) : s.changes ps (runOver f ns s) :=
  runOver_keep (P := fun t => s.changes ps t) (fun n _ ht => ht.trans (h n _) hk) ns s (.refl s ps)

/-- A change for which another notice stands. -/
theorem quietly_changes {ps : List Part} {f : State → State} {s : State} (h : s.changes ps (f s)) :
    s.changes ps (quietly f s) := by
  refine ⟨fun p hp => ?_, [], ?_⟩
  · have := h.1 p hp
    cases p <;> exact this
  · intro p; cases p <;> rfl

end Sys2Proof.Machine
end

