-- ==== Sys2Proof/Laws/FloorFrame.lean ====
section
/-! SUPPORT. Which parts the operations of the Indicator Unit and of the Floor Controller change. -/

set_option Elab.async false

namespace Sys2Proof.Machine

open Sys2Proof

/-! ### Rings -/

theorem placeRing_changes (c : Nat) (pulse : Bool) (s : State) : s.changes [.tables] (placeRing c pulse s) :=
  place_changes _ _ _ s

theorem refreshRing_changes (c : Nat) (s : State) : s.changes [.tables] (refreshRing c s) := by
  unfold refreshRing
  split
  · split
    · exact .refl s _
    · exact placeRing_changes _ _ s
  · exact .refl s _

theorem refreshRings_changes (s : State) : s.changes [.tables] (refreshRings s) :=
  runOver_changes refreshRing_changes (by decide) _ s

theorem modPulse_changes (c : Nat) (b : Bool) (s : State) :
    s.changes [.rings] (s.modChan c (fun k => { k with pulseOwed := b })) :=
  modChan_changes (by intro p hp; cases p <;> simp [Part.keeps] at hp ⊢) c s

theorem owePulse_changes (c : Nat) (s : State) : s.changes [.rings, .tables] (owePulse c s) := by
  unfold owePulse
  split
  · exact (modPulse_changes c true s).comp (placeRing_changes c true _)
  · exact .refl s _

theorem settlePulse_changes (c : Nat) (s : State) : s.changes [.rings, .tables] (settlePulse c s) := by
  unfold settlePulse
  dsimp only
  split
  · exact (modPulse_changes c false s).comp (place_changes _ _ _ _)
  · exact (modPulse_changes c false s).mono

theorem acknowledgeRing_changes (c : Nat) (v : Ring) (pulse : Bool) (s : State) :
    s.changes [.rings, .tables] (acknowledgeRing c v pulse s) := by
  have h : s.changes [.rings] (s.modChan c (fun k => { k with ring := some v })) :=
    modChan_changes (by intro p hp; cases p <;> simp [Part.keeps] at hp ⊢) c s
  unfold acknowledgeRing
  dsimp only
  split
  · exact h.comp (settlePulse_changes c _)
  · exact h.mono

theorem forgetRing_changes (c : Nat) (s : State) : s.changes [.rings] (forgetRing c s) :=
  modChan_changes (by intro p hp; cases p <;> simp [Part.keeps] at hp ⊢) c s

/-! ### Lists -/

theorem floorChange_changes (c : Nat) (b a : Gate) (k : FloorCause) (s : State) :
    s.changes [] (floorChange c b a k s) := raise_changes _ s

theorem floorRefused_changes (c : Nat) (s : State) : s.changes [] (floorRefused c s) := raise_changes _ s

theorem setAttack_changes (c n : Nat) (s : State) :
    s.changes [.attack] (s.modChan c (fun k => { k with attack := n })) :=
  modChan_changes (by intro p hp; cases p <;> simp [Part.keeps] at hp ⊢) c s

theorem openPending_changes (s : State) : s.changes [.floor] (openPending s) := by
  unfold openPending
  exact (modFloor_lists s (by intro; simp)).comp
    (runOver_changes (ps := [.floor])
      (fun c t => (modFloor_lists t (by intro; simp [Floor.modEntry])).comp (floorChange_changes ..)) (by decide) _ _)

theorem settleGuard_changes (s : State) : s.changes [.floor] (settleGuard s) := by
  unfold settleGuard
  split
  · exact modFloor_lists s (by intro; simp)
  · split
    · exact .refl s _
    · split
      · exact openPending_changes s
      · exact modFloor_changes s (.inl (by decide)) (.inr rfl) (.inr rfl) (.inr rfl) (.inr rfl)

theorem joinFloor_changes (c : Nat) (st : EntryState) (s : State) : s.changes [.attack, .floor] (joinFloor c st s) := by
  unfold joinFloor
  exact (setAttack_changes c 0 s).comp (modFloor_lists _ (by intro; simp [Floor.restartHolds]))

theorem joinWait_changes (c : Nat) (s : State) : s.changes [.attack, .floor] (joinWait c s) := by
  unfold joinWait
  exact (setAttack_changes c 0 s).comp (modFloor_lists _ (by intro; simp))

theorem admitHead_changes (s : State) : s.changes [.attack, .floor] (admitHead s) := by
  unfold admitHead
  split
  · exact .refl s _
  · exact ((modFloor_lists s (by intro; simp)).comp (rs := [.attack, .floor]) (joinFloor_changes ..)).comp
      (floorChange_changes ..)

theorem serve_changes : ∀ (n : Nat) (s : State), s.changes [.attack, .floor] (serve n s)
  | 0, s => .refl s _
  | n + 1, s => by
    unfold serve
    split
    · exact (admitHead_changes s).trans (serve_changes n _)
    · exact .refl s _

theorem afterFloor_changes (s : State) : s.changes [.attack, .floor] (afterFloor s) :=
  (settleGuard_changes s).comp (serve_changes _ _)

theorem dropEntry_changes (c : Nat) (s : State) : s.changes [.floor] (s.modFloor (fun f => f.dropEntry c)) :=
  modFloor_lists s (by intro; simp [Floor.dropEntry])
theorem dropWait_changes (c : Nat) (s : State) : s.changes [.floor] (s.modFloor (fun f => f.dropWait c)) :=
  modFloor_lists s (by intro; simp [Floor.dropWait])
theorem dropLeaving_changes (c : Nat) (s : State) : s.changes [.floor] (s.modFloor (fun f => f.dropLeaving c)) :=
  modFloor_lists s (by intro; simp [Floor.dropLeaving])
theorem addLeaving_changes (e : LeavingEntry) (s : State) :
    s.changes [.floor] (s.modFloor (fun f => { f with leaving := f.leaving ++ [e] })) :=
  modFloor_lists s (by intro; simp)

theorem evict_changes (victim c : Nat) (cause : FloorCause) (s : State) :
    s.changes [.attack, .floor] (evict victim c cause s) := by
  unfold evict
  exact (((((dropEntry_changes victim s).comp (rs := [.floor]) (addLeaving_changes _ _)).comp (rs := [.floor])
    (floorChange_changes ..)).comp (rs := [.floor]) (dropWait_changes c _)).comp (rs := [.attack, .floor])
      (joinFloor_changes ..)).comp (floorChange_changes ..)

/-! ### Override, requests, departures -/

theorem overridePending_changes (victim c : Nat) (g : Gate) (s : State) :
    s.changes [.attack, .floor] (overridePending victim c g s) := by
  unfold overridePending
  exact (((dropEntry_changes victim s).comp (rs := [.floor]) (floorChange_changes ..)).comp (rs := [.attack, .floor])
    (joinFloor_changes ..)).comp (floorChange_changes ..)

theorem overrideRefused_changes (c : Nat) (w : List WaitEntry) (s : State) :
    s.changes [.attack, .floor, .rings, .tables] (overrideRefused c w s) := by
  unfold overrideRefused
  exact ((((modFloor_lists s (by intro; simp)).comp (rs := [.attack, .floor]) (setAttack_changes c 0 _)).comp
    (rs := [.attack, .floor]) (floorRefused_changes ..)).comp (owePulse_changes ..))

theorem override_changes (c : Nat) (s : State) : s.changes requestParts (override c s) := by
  unfold override
  have h0 : s.changes requestParts (settleGuard (s.modFloor (fun f => (f.dropWait c).dropLeaving c))) :=
    (modFloor_lists s (by intro; simp [Floor.dropWait, Floor.dropLeaving])).comp (settleGuard_changes _)
  refine State.changes.comp (ps := requestParts) ?_ (afterFloor_changes _)
  dsimp only
  split
  · exact (h0.comp (rs := requestParts) (joinFloor_changes ..)).comp (floorChange_changes ..)
  · split
    · exact h0.comp (overrideRefused_changes ..)
    · split
      · exact h0.comp (overridePending_changes ..)
      · split
        · exact ((((h0.comp (rs := requestParts) (dropEntry_changes ..)).comp (rs := requestParts)
            (addLeaving_changes ..)).comp (rs := requestParts) (floorChange_changes ..)).comp (rs := requestParts)
              (joinFloor_changes ..)).comp (floorChange_changes ..)
        · split
          · exact h0.comp (overridePending_changes ..)
          · exact h0.comp (overrideRefused_changes ..)

theorem refuseRequest_changes (c : Nat) (s : State) : s.changes [.attack] (refuseRequest c s) :=
  (setAttack_changes c 0 s).comp (floorRefused_changes ..)

theorem requestFromLeaving_changes (c : Nat) (s : State) : s.changes [.attack, .floor] (requestFromLeaving c s) := by
  unfold requestFromLeaving
  split
  · exact ((dropLeaving_changes c s).comp (rs := [.attack, .floor]) (joinWait_changes ..)).comp (floorChange_changes ..)
  · exact (refuseRequest_changes c s).mono

theorem requestByLists_changes (c : Nat) (s : State) : s.changes [.attack, .floor] (requestByLists c s) := by
  unfold requestByLists
  dsimp only
  split
  · exact (joinFloor_changes c .opened s).comp (floorChange_changes ..)
  · split
    · exact evict_changes ..
    · split
      · exact (joinWait_changes c s).comp (floorChange_changes ..)
      · exact (refuseRequest_changes c s).mono

theorem requestFloor_changes (c : Nat) (s : State) : s.changes requestParts (requestFloor c s) := by
  unfold requestFloor
  split
  · exact override_changes c s
  · split
    · exact (requestFromLeaving_changes c s).comp (afterFloor_changes _)
    · exact (requestByLists_changes c s).comp (afterFloor_changes _)

theorem takeOff_changes (c : Nat) (s : State) : s.changes [.floor, .latch] (takeOff c s) :=
  modFloor_changes s (.inl (by decide)) (.inr rfl) (.inr rfl) (.inr rfl) (.inl (by decide))

theorem leaveList_changes (c : Nat) (k : FloorCause) (s : State) : s.changes departParts (leaveList c k s) := by
  unfold leaveList
  exact ((takeOff_changes c s).comp (rs := departParts) (floorChange_changes ..)).comp (afterFloor_changes _)

theorem leaveWait_changes (c : Nat) (k : FloorCause) (s : State) : s.changes [.attack, .floor] (leaveWait c k s) := by
  unfold leaveWait
  exact ((dropWait_changes c s).comp (rs := [.floor]) (floorChange_changes ..)).comp (afterFloor_changes _)

theorem removeLeaving_changes (c : Nat) (s : State) : s.changes [.attack, .floor] (removeLeaving c s) :=
  (dropLeaving_changes c s).comp (afterFloor_changes _)

theorem removeFromFloor_changes (c : Nat) (k : FloorCause) (s : State) : s.changes departParts (removeFromFloor c k s) := by
  unfold removeFromFloor
  dsimp only
  have h := (setAttack_changes c 0 s).mono (qs := departParts)
  split
  · exact h.trans (leaveList_changes ..)
  · split
    · exact h.comp (leaveWait_changes ..)
    · split
      · exact h.comp (removeLeaving_changes ..)
      · exact h

theorem dropWaiting_changes (c : Nat) (k : DropCause) (s : State) : s.changes [.attack, .floor] (dropWaiting c k s) := by
  unfold dropWaiting
  exact ((dropWait_changes c s).comp (rs := [.floor]) (raise_changes ..)).comp (afterFloor_changes _)

theorem refusePress_changes (c : Nat) (s : State) : s.changes [.rings, .tables] (refusePress c s) :=
  (floorRefused_changes c s).comp (owePulse_changes ..)

theorem queuePress_changes (c : Nat) (s : State) : s.changes pressParts (queuePress c s) := by
  unfold queuePress
  dsimp only
  split
  · exact (leaveList_changes ..).mono
  · split
    · exact (leaveWait_changes ..).mono
    · split
      · exact (refusePress_changes ..).mono
      · split
        · exact (refusePress_changes ..).mono
        · split
          · exact (raise_changes ..).comp (owePulse_changes ..)
          · exact ((joinWait_changes c s).comp (rs := pressParts) (floorChange_changes ..)).comp (afterFloor_changes _)

theorem chairQueuePress_changes (c : Nat) (s : State) : s.changes pressParts (chairQueuePress c s) := by
  unfold chairQueuePress
  split
  · exact (leaveList_changes ..).mono
  · split
    · exact (refusePress_changes ..).mono
    · exact (override_changes ..).mono

theorem setLatch_changes (c : Nat) (b : Bool) (g : Gate) (s : State) : s.changes [.latch] (setLatch c b g s) := by
  unfold setLatch
  exact (modFloor_changes (ps := [.latch]) s (.inr ⟨rfl, rfl, rfl, rfl⟩) (.inr rfl) (.inr rfl) (.inr rfl) (.inl (by decide))).comp
    (floorChange_changes ..)

theorem latchPress_changes (c : Nat) (s : State) : s.changes pressParts (latchPress c s) := by
  unfold latchPress
  dsimp only
  split
  · exact (setLatch_changes ..).mono
  · split
    · exact (refusePress_changes ..).mono
    · split
      · exact (modFloor_lists s (by intro; simp [Floor.modEntry])).comp (setLatch_changes ..)
      · split
        · exact (setLatch_changes ..).mono
        · split
          · exact (override_changes ..).comp (setLatch_changes ..)
          · exact (override_changes ..).mono

theorem pressTalk_changes (c : Nat) (s : State) : s.changes pressParts (pressTalk c s) := by
  unfold pressTalk
  split
  · exact chairQueuePress_changes c s
  · exact queuePress_changes c s
  · exact latchPress_changes c s
  · exact .refl s _

theorem endTalk_changes (c n : Nat) (s : State) : s.changes departParts (endTalk c n s) := by
  unfold endTalk
  exact ((takeOff_changes c s).comp (rs := departParts) (raise_changes ..)).comp (afterFloor_changes _)

theorem setWarned_changes (c : Nat) (b : Bool) (s : State) : s.changes [.floor] (setWarned c b s) :=
  modFloor_lists s (by intro; simp [Floor.modEntry])

/-! ### Bulk changes -/

theorem emptyFloor_changes (s : State) : s.changes departParts (emptyFloor s) := by
  unfold emptyFloor
  exact (mapChans_changes (ps := [.attack]) (by intro c p hp; cases p <;> simp [Part.keeps] at hp ⊢) s).comp
    (modFloor_changes (ps := [.floor, .latch]) _ (.inl (by decide)) (.inr rfl) (.inr rfl) (.inr rfl) (.inl (by decide)))

theorem changeMode_changes (m : FloorMode) (s : State) :
    s.changes [.attack, .floor, .latch, .mode] (changeMode m s) := by
  unfold changeMode
  dsimp only
  split
  · exact .refl s _
  · exact ((emptyFloor_changes s).comp (rs := [.attack, .floor, .latch, .mode])
      (modFloor_changes (ps := [.mode]) _ (.inr ⟨rfl, rfl, rfl, rfl⟩) (.inl (by decide)) (.inr rfl) (.inr rfl) (.inr rfl))).comp
        (raise_changes ..)

theorem modEntry_changes (c : Nat) (g : Floor → FloorEntry → FloorEntry) (s : State) :
    s.changes [.floor] (s.modFloor (fun f => f.modEntry c (g f))) :=
  modFloor_lists s (by intro; simp [Floor.modEntry])

theorem changeChair_changes (new : Option Nat) (s : State) :
    s.changes [.floor, .latch, .chair] (changeChair new s) := by
  unfold changeChair
  dsimp only
  split
  · exact .refl s _
  · refine State.changes.comp (ps := [.floor, .latch, .chair]) ?_ (raise_changes ..)
    have h : s.changes [.latch, .chair] (s.modFloor (fun f => { f with chair := new, latch := false })) :=
      modFloor_changes s (.inr ⟨rfl, rfl, rfl, rfl⟩) (.inr rfl) (.inr rfl) (.inl (by decide)) (.inl (by decide))
    split
    · split
      · exact (h.comp (rs := [.floor, .latch, .chair]) (modEntry_changes ..)).comp (modEntry_changes ..)
      · exact h.comp (modEntry_changes ..)
    · split
      · exact h.comp (modEntry_changes ..)
      · exact h.mono

theorem rescaleRamps_changes (a b : Nat) (s : State) : s.changes [.ramps] (rescaleRamps a b s) := by
  unfold rescaleRamps
  split
  · exact .refl s _
  · exact mapChans_changes (by intro c p hp; cases p <;> simp [Part.keeps] at hp ⊢) s

theorem cutFloor_changes : ∀ (n : Nat) (s : State), s.changes [.floor, .latch] (cutFloor n s)
  | 0, s => .refl s _
  | n + 1, s => by
    unfold cutFloor
    split
    · split
      · exact ((takeOff_changes _ s).comp (rs := [.floor, .latch]) (floorChange_changes ..)).trans (cutFloor_changes n _)
      · exact .refl s _
    · exact .refl s _

theorem writeFloorCfg_changes (g : FloorCfg) (s : State) : s.changes quantityParts (writeFloorCfg g s) := by
  unfold writeFloorCfg
  dsimp only
  split
  · exact .refl s _
  · refine State.changes.comp (ps := quantityParts) ?_ (afterFloor_changes _)
    refine State.changes.comp (ps := quantityParts) ?_ (cutFloor_changes _ _)
    refine State.changes.comp (ps := quantityParts) (qs := [.floor]) ?_ (modFloor_lists _ ?_)
    · have h : s.changes quantityParts (rescaleRamps s.floor.cfg.ramp g.ramp (s.modFloor (fun f => { f with cfg := g }))) :=
        (modFloor_changes (ps := [.cfg]) s (.inr ⟨rfl, rfl, rfl, rfl⟩) (.inr rfl) (.inl (by decide)) (.inr rfl)
          (.inr rfl)).comp (rescaleRamps_changes ..)
      split
      · exact h
      · exact h.comp (modFloor_lists _ (by intro; simp [Floor.restartHolds]))
    · intro f
      unfold Floor.talkLimitWritten
      split <;> try split
      all_goals simp

end Sys2Proof.Machine
end

