-- ==== Sys2Proof/Laws/UnitFrame.lean ====
section
/-! SUPPORT. Which parts the operations of the other units change. -/

set_option Elab.async false

namespace Sys2Proof.Machine

open Sys2Proof

/-! ### Fields of State written whole -/

theorem setPrivacy_changes (x : Privacy) (s : State) : s.changes [.privacy] { s with privacy := x } := by
  refine State.changes.quiet ?_ rfl rfl
  intro p hp; cases p <;> simp [Part.same, State.chan, State.line] at hp ⊢

theorem modSilence_changes (f : Silence → Silence) (s : State) : s.changes [.silence] (s.modSilence f) := by
  refine State.changes.quiet ?_ rfl rfl
  intro p hp; cases p <;> simp [Part.same, State.chan, State.line, State.modSilence] at hp ⊢

theorem setSilence_changes (x : Silence) (s : State) : s.changes [.silence] { s with silence := x } :=
  modSilence_changes (fun _ => x) s

theorem setMeters_changes (x : Meters) (s : State) : s.changes [.meters] { s with meters := x } := by
  refine State.changes.quiet ?_ rfl rfl
  intro p hp; cases p <;> simp [Part.same, State.chan, State.line] at hp ⊢

theorem setTone_changes (x : Tone) (s : State) : s.changes [.tone] { s with tone := x } := by
  refine State.changes.quiet ?_ rfl rfl
  intro p hp; cases p <;> simp [Part.same, State.chan, State.line] at hp ⊢

theorem setLoad_changes (x : Option LoadContext) (s : State) :
    s.changes [.load] { s with scenes := { s.scenes with load := x } } := by
  refine State.changes.quiet ?_ rfl rfl
  intro p hp; cases p <;> simp [Part.same, State.chan, State.line] at hp ⊢

theorem setSlots_changes (x : Tab 16 (Option SceneRecord)) (s : State) :
    s.changes [.slots] { s with scenes := { s.scenes with slots := x } } := by
  refine State.changes.quiet ?_ rfl rfl
  intro p hp; cases p <;> simp [Part.same, State.chan, State.line] at hp ⊢

theorem setGains_changes (x : Tab 714 Gain) (b : Tab 17 Gain) (s : State) :
    s.changes [.gains] { s with mix := { s.mix with xp := x, bus := b } } := by
  refine State.changes.quiet ?_ rfl rfl
  intro p hp; cases p <;> simp [Part.same, State.chan, State.line] at hp ⊢

theorem setRows_changes (x : Tab 17 Bool) (s : State) :
    s.changes [.marks] { s with mix := { s.mix with rowTouched := x } } := by
  refine State.changes.quiet ?_ rfl rfl
  intro p hp; cases p <;> simp [Part.same, State.chan, State.line] at hp ⊢

theorem setPower_changes (w : Power) (a : Bool) (s : State) :
    s.changes [.power] { s with sys := { s.sys with power := w, autowake := a } } := by
  refine State.changes.quiet ?_ rfl rfl
  intro p hp; cases p <;> simp [Part.same, State.chan, State.line] at hp ⊢

theorem setRights_changes (b : Bool) (s : State) :
    s.changes [.rights] { s with sys := { s.sys with farmod := b } } := by
  refine State.changes.quiet ?_ rfl rfl
  intro p hp; cases p <;> simp [Part.same, State.chan, State.line] at hp ⊢

theorem setDue_changes (es : List Event) (s : State) : s.changes [.due] { s with due := es } := by
  refine State.changes.quiet ?_ rfl rfl
  intro p hp; cases p <;> simp [Part.same, State.chan, State.line] at hp ⊢

theorem undue_changes (e : Event) (s : State) : s.changes [.due] (s.undue e) := setDue_changes _ s
theorem addDue_changes (es : List Event) (s : State) : s.changes [.due] (s.addDue es) := setDue_changes _ s

/-! ### Claims -/

theorem lowerHand_changes (c : Nat) (k : HandCause) (s : State) : s.changes [.hands] (lowerHand c k s) := by
  unfold lowerHand
  split
  · exact (modChan_changes (ps := [.hands]) (by intro p hp; cases p <;> simp [Part.keeps] at hp ⊢) c s).comp
      (raise_changes ..)
  · exact .refl s _

theorem withClaims_changes (c : Nat) (new : ClaimSet) (s : State) :
    s.changes [.claims, .talk] (s.modChan c (fun k => k.withClaims c new)) :=
  modChan_changes (by intro p hp; cases p <;> simp [Part.keeps, Channel.withClaims] at hp ⊢ <;> intro k <;> split <;> simp) c s

theorem changeClaims_changes (c : Nat) (new : ClaimSet) (note : Option Origin) (s : State) :
    s.changes claimParts (changeClaims c new note s) := by
  unfold changeClaims
  dsimp only
  have h := (withClaims_changes c new s).mono (qs := claimParts)
  have h' : s.changes claimParts (match note with
      | some o => raise (.claimChange c new (new.less (s.claims c)) ((s.claims c).less new) o)
          (s.modChan c (fun k => k.withClaims c new))
      | none => s.modChan c (fun k => k.withClaims c new)) := by
    split
    · exact h.comp (raise_changes ..)
    · exact h
  split
  · exact .refl s _
  · split
    · split
      · exact h'.comp (removeFromFloor_changes ..)
      · exact h'
    · split
      · exact h'.comp (lowerHand_changes ..)
      · exact h'

theorem putClaim_changes (a : Authority) (b : Bool) (note : Option Origin) (c : Nat) (s : State) :
    s.changes claimParts (putClaim a b note c s) := changeClaims_changes ..

theorem raiseHand_changes (c : Nat) (s : State) : s.changes [.hands] (raiseHand c s) :=
  (modChan_changes (ps := [.hands]) (by intro p hp; cases p <;> simp [Part.keeps] at hp ⊢) c s).comp (raise_changes ..)

theorem shortPress_changes (c : Nat) (s : State) : s.changes claimParts (shortPress c s) := by
  unfold shortPress
  dsimp only
  split
  · exact putClaim_changes ..
  · split
    · exact putClaim_changes ..
    · split
      · exact (lowerHand_changes ..).mono
      · exact (raiseHand_changes ..).mono

theorem chairPress_changes (c : Nat) (s : State) : s.changes claimParts (chairPress c s) :=
  runOver_changes (fun _ _ => putClaim_changes ..) (by decide) _ s

theorem movePrivacy_changes (w : Nat → Bool) (s : State) : s.changes claimParts (movePrivacy w s) :=
  runOver_changes (fun _ _ => putClaim_changes ..) (by decide) _ s

theorem matchPrivacy_changes (s : State) : s.changes claimParts (matchPrivacy s) :=
  (raise_changes _ s).comp (movePrivacy_changes _ _)

theorem releasePrivacy_changes (s : State) : s.changes privacyParts (releasePrivacy s) := by
  unfold releasePrivacy
  exact ((setPrivacy_changes _ s).comp (rs := privacyParts) (raise_changes ..)).comp (movePrivacy_changes _ _)

theorem privacyActive_changes (s : State) : s.changes privacyParts (privacyActive s) := by
  unfold privacyActive
  exact (setPrivacy_changes _ s).comp (matchPrivacy_changes _)

theorem privacyInactive_changes (s : State) : s.changes privacyParts (privacyInactive s) := by
  unfold privacyInactive
  dsimp only
  split
  · exact (setPrivacy_changes _ s).comp (releasePrivacy_changes _)
  · exact (setPrivacy_changes _ s).comp (rs := privacyParts) ((setPrivacy_changes _ _).comp (rs := privacyParts) (raise_changes ..))

theorem regroup_changes (c : Nat) (o : Origin) (s : State) : s.changes claimParts (regroup c o s) := by
  unfold regroup
  split
  · exact putClaim_changes ..
  · exact .refl s _

theorem clearClaims_changes (s : State) : s.changes [.claims, .hands, .talk] (clearClaims s) :=
  mapChans_changes (by intro c p hp; cases p <;> simp [Part.keeps] at hp ⊢ <;> intro k <;> split <;> simp) s

/-! ### Silence -/

theorem noteSilence_changes (k : SilenceCause) (s : State) : s.changes [] (noteSilence k s) := raise_changes ..

theorem alarmActive_changes (s : State) : s.changes [.silence] (alarmActive s) := by
  unfold alarmActive
  dsimp only
  split
  · exact (modSilence_changes _ s).comp (rs := [.silence]) ((modSilence_changes _ _).comp (rs := [.silence]) (noteSilence_changes ..))
  · exact modSilence_changes _ s

theorem alarmInactive_changes (s : State) : s.changes [.silence] (alarmInactive s) := by
  unfold alarmInactive
  dsimp only
  split
  · split
    · exact (modSilence_changes _ s).comp (rs := [.silence]) ((modSilence_changes _ _).comp (rs := [.silence]) (noteSilence_changes ..))
    · exact (modSilence_changes _ s).comp (noteSilence_changes ..)
  · exact modSilence_changes _ s

theorem latchHowl_changes (z : Nat) (s : State) : s.changes [.silence] (latchHowl z s) :=
  (modSilence_changes _ s).comp (noteSilence_changes ..)

theorem raiseSilence_changes (p : Port) (s : State) : s.changes [.silence] (raiseSilence p s) := by
  unfold raiseSilence
  split
  · exact .refl s _
  · exact (modSilence_changes _ s).comp (noteSilence_changes ..)

theorem restoreSilence_changes (p : Port) (s : State) : s.changes [.silence] (restoreSilence p s) := by
  unfold restoreSilence
  split
  · exact (modSilence_changes _ s).comp (noteSilence_changes ..)
  · exact .refl s _

theorem restartRamps_changes (s : State) : s.changes [.ramps] (restartRamps s) :=
  mapChans_changes (by intro c p hp; cases p <;> simp [Part.keeps] at hp ⊢) s

theorem endRestoring_changes (s : State) : s.changes [.silence, .ramps] (endRestoring s) := by
  unfold endRestoring
  exact ((modSilence_changes _ s).comp (rs := [.silence, .ramps]) (restartRamps_changes _)).comp (noteSilence_changes ..)

theorem writeSilenceCfg_changes (g : SilenceCfg) (s : State) : s.changes [.silence] (writeSilenceCfg g s) := by
  unfold writeSilenceCfg
  dsimp only
  split
  · exact (setSilence_changes _ s).comp (noteSilence_changes ..)
  · exact setSilence_changes _ s

/-! ### Lines -/

theorem leaveOnline_changes (c : Nat) (st : PosState) (k : LostCause) (s : State) :
    s.changes offlineParts (leaveOnline c st k s) := by
  unfold leaveOnline
  exact ((((modPos_changes c _ s).comp (rs := offlineParts) (modTable_changes _ (fun t => dropPosition t (posOf c)) _)).comp
    (rs := offlineParts) (raise_changes ..)).comp (rs := offlineParts) (removeFromFloor_changes ..)).comp (lowerHand_changes ..)

theorem leaveJoining_changes (c : Nat) (f : Position → Position) (s : State) :
    s.changes [.pos, .tables] (leaveJoining c f s) :=
  (modPos_changes c f s).comp (modTable_changes _ (fun t => dropKind t (posOf c) 1) _)

theorem leaveAsleep_changes (c : Nat) (f : Position → Position) (s : State) :
    s.changes [.pos, .tables] (leaveAsleep c f s) :=
  (modPos_changes c f s).comp (modTable_changes _ (fun t => dropKind t (posOf c) 2) _)

theorem placeRollCall_changes (l : Nat) (s : State) : s.changes [.tables, .lines] (placeRollCall l s) :=
  (place_changes ..).comp (modLine_changes ..)

theorem rollCallNow_changes (l : Nat) (s : State) : s.changes [.tables, .lines] (rollCallNow l s) := by
  unfold rollCallNow
  dsimp only
  split
  · exact modLine_changes ..
  · exact (modLine_changes ..).trans (placeRollCall_changes ..)

theorem answerRollCall_changes (c : Nat) (rec : Identity) (s : State) :
    s.changes [.pos, .tables] (answerRollCall c rec s) := leaveAsleep_changes ..

theorem joinPod_changes (c : Nat) (s : State) : s.changes [.pos, .tables, .rings] (joinPod c s) := by
  unfold joinPod
  exact ((leaveJoining_changes c _ s).comp (rs := [.pos, .tables, .rings]) (forgetRing_changes ..)).comp (raise_changes ..)

theorem failJoin_changes (c : Nat) (s : State) : s.changes [.pos, .tables] (failJoin c s) := leaveJoining_changes ..

theorem sleepPod_changes (c : Nat) (s : State) : s.changes offlineParts (sleepPod c s) := by
  unfold sleepPod
  split
  · exact leaveOnline_changes ..
  · exact (leaveJoining_changes ..).mono

theorem finishWake_changes (c : Nat) (s : State) : s.changes [.pos, .tables, .lines] (finishWake c s) := by
  unfold finishWake
  exact ((modTable_changes _ (fun t => dropKind t (posOf c) 2) s).comp (rs := [.pos, .tables, .lines]) (modPos_changes ..)).comp
    (placeRollCall_changes ..)

theorem failWake_changes (c : Nat) (s : State) : s.changes [.pos, .tables] (failWake c s) :=
  (leaveAsleep_changes ..).comp (raise_changes ..)

theorem endTest_changes (l : Nat) (k : TestEnding) (s : State) : s.changes [.tables, .lines] (endTest l k s) :=
  (raise_changes ..).comp (modLine_changes ..)

theorem endStarting_changes (l : Nat) (s : State) : s.changes [.tables, .lines] (endStarting l s) :=
  (modLine_changes ..).trans (rollCallNow_changes ..)

theorem endWaking_changes (l : Nat) (s : State) : s.changes [.pos, .tables, .lines] (endWaking l s) := by
  unfold endWaking
  refine State.changes.comp (ps := [.pos, .tables]) (runOver_changes ?_ (by decide) _ s) (modLine_changes ..)
  intro p t
  split
  · exact leaveAsleep_changes ..
  · exact .refl t _

theorem sleepLine_changes (l : Nat) (s : State) : s.changes (.lines :: offlineParts) (sleepLine l s) := by
  unfold sleepLine
  refine State.changes.comp (ps := offlineParts) (quietly_changes (runOver_changes ?_ (by decide) _ s)) (modLine_changes ..)
  intro p t
  dsimp only
  split
  · exact (leaveOnline_changes ..).comp (modPos_changes ..)
  · exact (modPos_changes ..).mono

theorem endSleeping_changes (l : Nat) (s : State) : s.changes [.tables, .lines] (endSleeping l s) := modLine_changes ..

theorem stopLine_changes (l : Nat) (s : State) : s.changes (.lines :: offlineParts) (stopLine l s) := by
  unfold stopLine
  split
  · exact .refl s _
  · exact (endTest_changes ..).mono
  · refine State.changes.comp (qs := offlineParts) (modLine_changes ..) (runOver_changes ?_ (by decide) _ _)
    intro p t
    dsimp only
    split
    · exact (leaveOnline_changes ..).comp (modPos_changes ..)
    · exact (modPos_changes ..).mono

theorem restLine_changes (l : Nat) (s : State) : s.changes [.pos] (restLine l s) :=
  runOver_changes (fun _ _ => modPos_changes ..) (by decide) _ s

theorem standbyLine_changes (l : Nat) (s : State) : s.changes [.pos, .tables, .lines] (standbyLine l s) := by
  unfold standbyLine
  split
  · exact (restLine_changes l s).mono
  · exact (endTest_changes ..).comp (restLine_changes ..)
  · exact (modLine_changes ..).mono
  · exact (modLine_changes ..).mono
  · exact (modLine_changes ..).mono
  · exact .refl s _

theorem wakeLine_changes (l : Nat) (s : State) : s.changes [.tables, .lines] (wakeLine l s) := modLine_changes ..

theorem formFrame_changes (l : Nat) (s : State) : s.changes [.tables, .lines] (formFrame l s) := modLine_changes ..

theorem closeFrames_changes (s : State) : s.changes [.tables, .lines] (closeFrames s) := by
  refine runOver_changes ?_ (by decide) _ s
  intro l t
  split
  · exact formFrame_changes ..
  · exact .refl t _

/-! ### Meters, tone, scenes, power -/

theorem captureNow_changes (s : State) : s.changes [.meters, .due] (captureNow s) := by
  unfold captureNow
  exact (setMeters_changes _ s).comp (addDue_changes ..)

theorem fireWatch_changes (e : Nat) (s : State) : s.changes [.meters] (fireWatch e s) := by
  unfold fireWatch
  exact (setMeters_changes _ s).comp (raise_changes ..)

theorem endTone_changes (k : ToneEnding) (s : State) : s.changes [.tone] (endTone k s) := by
  unfold endTone
  split
  · exact (setTone_changes _ s).comp (raise_changes ..)
  · exact .refl s _

theorem clearTouched_changes (s : State) : s.changes [.marks] (clearTouched s) := by
  unfold clearTouched
  exact (mapChans_changes (ps := [.marks]) (by intro c p hp; cases p <;> simp [Part.keeps] at hp ⊢) s).comp
    (setRows_changes _ (s.mapChans (fun _ k => { k with touched := false })))

theorem endLoad_changes (k : SceneCause) (s : State) : s.changes [.load, .marks] (endLoad k s) := by
  unfold endLoad
  split
  · exact .refl s _
  · exact ((setLoad_changes none s).comp (rs := [.load, .marks]) (clearTouched_changes _)).comp (raise_changes ..)

theorem touchChannel_changes (c : Nat) (s : State) : s.changes [.marks] (touchChannel c s) := by
  unfold touchChannel
  split
  · exact modChan_changes (by intro p hp; cases p <;> simp [Part.keeps] at hp ⊢) c s
  · exact .refl s _

theorem touchRow_changes (o : Nat) (s : State) : s.changes [.marks] (touchRow o s) := by
  unfold touchRow
  split
  · exact setRows_changes _ s
  · exact .refl s _

theorem writeSetup_changes (c : Nat) (w : ChannelSetup) (o : Origin) (s : State) :
    s.changes (.setup :: claimParts) (writeSetup c w o s) := by
  unfold writeSetup
  dsimp only
  have h : s.changes [.setup] (s.modChan c (fun k =>
      { k with trim := w.trim, zone := if c < 32 then w.zone else k.zone, groups := w.groups })) :=
    modChan_changes (by intro p hp; cases p <;> simp [Part.keeps] at hp ⊢) c s
  split
  · exact h.mono
  · exact h.comp (regroup_changes ..)

theorem writeRow_changes (o : Nat) (part : XpPart) (s : State) : s.changes [.gains] (writeRow o part s) :=
  setGains_changes _ _ s

theorem applyFloorItem_changes (part : FloorPart) (s : State) : s.changes floorItemParts (applyFloorItem part s) := by
  unfold applyFloorItem
  exact ((changeMode_changes ..).comp (rs := floorItemParts) (writeFloorCfg_changes ..)).comp (changeChair_changes ..)

theorem applyClaimsItem_changes (set : Tab 42 Bool) (s : State) : s.changes claimParts (applyClaimsItem set s) :=
  runOver_changes (fun _ _ => putClaim_changes ..) (by decide) _ s

theorem applyItem_changes (r : SceneRecord) (ld : LoadContext) (s : State) : s.changes loadParts (applyItem r ld s) := by
  unfold applyItem
  split <;> split
  · exact (writeSetup_changes ..).mono
  · exact .refl s _
  · exact (writeRow_changes ..).mono
  · exact .refl s _
  · exact (applyFloorItem_changes ..).mono
  · exact .refl s _
  · exact (applyClaimsItem_changes ..).mono
  · exact .refl s _

theorem stepLoad_changes (s : State) : s.changes loadParts (stepLoad s) := by
  unfold stepLoad
  split
  · exact .refl s _
  · split
    · exact .refl s _
    · rename_i ld _ _ r _
      dsimp only
      have h : s.changes loadParts (if s.passesOver ld = true then s else applyItem r ld s) := by
        split
        · exact .refl s _
        · exact applyItem_changes ..
      split
      · exact (h.comp (rs := loadParts) (setLoad_changes ..)).comp (endLoad_changes ..)
      · exact h.comp (setLoad_changes ..)

theorem startLoad_changes (n : Nat) (r : SceneRecord) (s : State) : s.changes [.load, .marks] (startLoad n r s) := by
  unfold startLoad
  exact ((endLoad_changes .secondLoad s).comp (rs := [.load, .marks]) (clearTouched_changes _)).comp (setLoad_changes ..)

theorem enterStandby_changes (a : Bool) (s : State) : s.changes standbyParts (enterStandby a s) := by
  unfold enterStandby
  exact ((((((setPower_changes .standby a s).comp (rs := standbyParts)
    (mapChans_changes (ps := [.ramps, .applied]) (by intro c p hp; cases p <;> simp [Part.keeps] at hp ⊢) _)).comp
    (rs := standbyParts) (emptyFloor_changes _)).comp (rs := standbyParts) (raise_changes ..)).comp (rs := standbyParts)
      (endLoad_changes ..)).comp (rs := standbyParts) (endTone_changes ..)).comp
        (runOver_changes standbyLine_changes (by decide) _ _)

theorem standby_changes (a : Bool) (s : State) : s.changes standbyParts (standby a s) := by
  unfold standby
  split
  · exact (setPower_changes s.sys.power a s).mono
  · exact enterStandby_changes a s

theorem wake_changes (k : PowerCause) (s : State) : s.changes [.power, .tables, .lines] (wake k s) := by
  unfold wake
  split
  · exact .refl s _
  · exact ((setPower_changes .running s.sys.autowake s).comp (rs := [.power, .tables, .lines])
      (runOver_changes wakeLine_changes (by decide) _ _)).comp (raise_changes ..)

theorem clearConference_changes (s : State) : s.changes clearParts (clearConference s) := by
  unfold clearConference
  exact ((((emptyFloor_changes s).comp (rs := clearParts) (clearClaims_changes _)).comp (rs := clearParts)
    (raise_changes ..)).comp (rs := clearParts) (endLoad_changes ..)).comp (endTone_changes ..)

end Sys2Proof.Machine
end

