-- ==== Sys2Proof/Laws/EventFrame.lean ====
section
/-! SUPPORT. Which parts each event changes, what settling leaves, and the shape of a request. -/

set_option Elab.async false

namespace Sys2Proof.Machine

open Sys2Proof

/-! ### Events -/

/-- The parts that an event can change. -/
def Event.parts : Event → List Part
  | .privacyActiveEdge => .tables :: privacyParts
  | .privacyInactiveEdge => .tables :: privacyParts
  | .alarmActiveEdge => [.silence, .tables]
  | .alarmInactiveEdge => [.silence, .tables]
  | .wakePulse _ => [.power, .tables, .lines]
  | .noiseFloorRise _ => [.measures]
  | .mutedTalk _ => [.talk]
  | .mutedTalkRearm _ => [.talk]
  | .muteShortPress _ => .tables :: claimParts
  | .longPress _ => .tables :: claimParts
  | .talkPress _ => pressParts
  | .floorRequest _ => requestParts
  | .holdExpired _ => .tables :: departParts
  | .waitTimeout _ => [.attack, .floor, .tables]
  | .waitQuietDrop _ => [.attack, .floor, .tables]
  | .guardExpiry => [.floor, .tables]
  | .leavingRemoval _ => [.attack, .floor, .tables]
  | .talkTimerTick _ => [.floor, .tables, .due]
  | .talkWarn _ => [.floor, .tables]
  | .talkEnd _ => .tables :: departParts
  | .howlLatch _ => [.silence, .tables]
  | .restoringEnd => [.silence, .ramps, .tables]
  | .rollCall _ => [.tables, .lines]
  | .rollCallAnswer _ _ _ => [.pos, .tables]
  | .podJoin _ _ => [.pos, .tables, .rings]
  | .joinFailed _ _ => [.pos, .tables]
  | .podLost _ _ => offlineParts
  | .ringAcknowledged _ _ => [.rings, .tables]
  | .sleepAcknowledged _ _ => offlineParts
  | .wakeRequest _ _ => []
  | .wakeFramesDone _ _ => [.pos, .tables, .lines]
  | .wakeFailed _ _ => [.pos, .tables]
  | .startingEnd _ => [.tables, .lines]
  | .wakingEnd _ => [.pos, .tables, .lines]
  | .standbyFrameEnd _ => .lines :: offlineParts
  | .sleepingEnd _ => [.tables, .lines]
  | .lineTestComplete _ => [.tables, .lines]
  | .capture => [.meters, .due]
  | .levelWatch _ => [.meters]
  | .toneCountEnd => [.tone, .tables]
  | .sceneLoadStep => .tables :: loadParts

theorem when_changes {ps : List Part} {b : Bool} {f : State → State} {s : State} (h : s.changes ps (f s)) :
    s.changes ps (when b f s) := by
  unfold when
  split
  · exact h
  · exact .refl s _

/-- What an event does, it does to its parts. -/
theorem act_changes (e : Event) (s : State) : s.changes e.parts (act e s) := by
  cases e <;> dsimp only [Event.parts, act]
  case privacyActiveEdge => exact when_changes ((privacyActive_changes s).comp (refreshRings_changes _))
  case privacyInactiveEdge => exact when_changes ((privacyInactive_changes s).comp (refreshRings_changes _))
  case alarmActiveEdge => exact when_changes ((alarmActive_changes s).comp (refreshRings_changes _))
  case alarmInactiveEdge => exact when_changes ((alarmInactive_changes s).comp (refreshRings_changes _))
  case wakePulse l =>
    refine when_changes ?_
    dsimp only
    split
    · exact (raise_changes _ s).comp (wake_changes ..)
    · exact (raise_changes _ s).mono
  case noiseFloorRise c =>
    exact when_changes (modChan_changes (by intro p hp; cases p <;> simp [Part.keeps] at hp ⊢) c s)
  case mutedTalk c =>
    exact when_changes ((modChan_changes (ps := [.talk])
      (by intro p hp; cases p <;> simp [Part.keeps] at hp ⊢) c s).comp (raise_changes ..))
  case mutedTalkRearm c =>
    exact when_changes (modChan_changes (by intro p hp; cases p <;> simp [Part.keeps] at hp ⊢) c s)
  case muteShortPress c => exact when_changes ((shortPress_changes c s).comp (refreshRings_changes _))
  case longPress c => exact when_changes ((chairPress_changes c s).comp (refreshRings_changes _))
  case talkPress c => exact when_changes ((pressTalk_changes c s).comp (refreshRings_changes _))
  case floorRequest c => exact when_changes ((requestFloor_changes c s).comp (refreshRings_changes _))
  case holdExpired c => exact when_changes ((leaveList_changes c _ s).comp (refreshRings_changes _))
  case waitTimeout c => exact when_changes ((dropWaiting_changes c _ s).comp (refreshRings_changes _))
  case waitQuietDrop c => exact when_changes ((dropWaiting_changes c _ s).comp (refreshRings_changes _))
  case guardExpiry => exact when_changes ((openPending_changes s).comp (refreshRings_changes _))
  case leavingRemoval c => exact when_changes ((removeLeaving_changes c s).comp (refreshRings_changes _))
  case talkTimerTick c =>
    unfold actTalkTimerTick
    split
    · exact .refl s _
    · split
      · exact .refl s _
      · dsimp only
        have h : ∀ t' : TalkTimer, s.changes [.floor, .tables, .due] (refreshRings (s.modFloor (fun f =>
            f.modEntry c (fun e => { e with talk := some t' })))) :=
          fun t' => (modFloor_lists s (by intro; simp [Floor.modEntry])).comp (refreshRings_changes _)
        split
        · exact (h _).comp (addDue_changes ..)
        · split
          · exact (h _).comp (addDue_changes ..)
          · exact h _
  case talkWarn c =>
    unfold actTalkWarn
    split
    · exact .refl s _
    · exact when_changes (((setWarned_changes c true s).comp (rs := [.floor, .tables]) (raise_changes ..)).comp
        (refreshRings_changes _))
  case talkEnd c =>
    unfold actTalkEnd
    split
    · exact .refl s _
    · exact when_changes ((endTalk_changes ..).comp (refreshRings_changes _))
  case howlLatch z => exact when_changes ((latchHowl_changes z s).comp (refreshRings_changes _))
  case restoringEnd => exact when_changes ((endRestoring_changes s).comp (refreshRings_changes _))
  case rollCall l => exact when_changes (rollCallNow_changes l s)
  case rollCallAnswer l p rec => exact when_changes (answerRollCall_changes ..)
  case podJoin l p =>
    unfold actPodJoin
    dsimp only
    exact when_changes ((joinPod_changes ..).comp (refreshRings_changes _))
  case joinFailed l p => exact when_changes (failJoin_changes ..)
  case podLost l p =>
    unfold actPodLost
    dsimp only
    exact when_changes ((leaveOnline_changes ..).comp (refreshRings_changes _))
  case ringAcknowledged l p =>
    unfold actRingAcknowledged
    split
    · exact when_changes ((modTable_changes l (fun t => tableAcked t p 4) s).comp (acknowledgeRing_changes ..))
    · exact .refl s _
  case sleepAcknowledged l p =>
    unfold actSleepAcknowledged
    dsimp only
    exact when_changes ((sleepPod_changes ..).comp (refreshRings_changes _))
  case wakeRequest l p => exact when_changes (raise_changes ..)
  case wakeFramesDone l p => exact when_changes (finishWake_changes ..)
  case wakeFailed l p => exact when_changes (failWake_changes ..)
  case startingEnd l => exact when_changes (endStarting_changes ..)
  case wakingEnd l => exact when_changes (endWaking_changes ..)
  case standbyFrameEnd l => exact when_changes ((sleepLine_changes l s).comp (refreshRings_changes _))
  case sleepingEnd l => exact when_changes (endSleeping_changes ..)
  case lineTestComplete l => exact when_changes (endTest_changes ..)
  case capture => exact when_changes (captureNow_changes s)
  case levelWatch n => exact when_changes (fireWatch_changes n s)
  case toneCountEnd => exact when_changes ((endTone_changes _ s).comp (refreshRings_changes _))
  case sceneLoadStep => exact when_changes ((stepLoad_changes s).comp (refreshRings_changes _))

/-- No event moves the block counter, FARMOD, the reset in force, the outputs, the scene slots or the queue. -/
theorem Event.parts_exclude (e : Event) :
    Part.clock ∉ e.parts ∧ Part.rights ∉ e.parts ∧ Part.resets ∉ e.parts ∧ Part.outputs ∉ e.parts
      ∧ Part.slots ∉ e.parts ∧ Part.pending ∉ e.parts := by
  cases e <;> (dsimp only [Event.parts]; decide)

theorem takeOne_changes (e : Event) (s : State) : s.changes (.due :: e.parts) (takeOne e s) := by
  unfold takeOne
  split
  · refine State.changes.comp (undue_changes e s) (act_changes e _) ?_ ?_ ?_
    · simp
    · intro p hp; exact List.mem_cons_of_mem _ hp
    · have := e.parts_exclude.1
      simp [this]
  · exact .refl s _

theorem Event.parts_settle (e : Event) : ∀ p ∈ Part.due :: e.parts, p ∈ settleParts := by
  cases e <;> (dsimp only [Event.parts]; decide)

/-! ### What every event keeps, settling keeps -/

/-- A property that every event keeps when it acts, that does not read the due events, and that the forming of a
frame keeps, is kept by the taking of an event. -/
theorem takeOne_keep {P : State → Prop} (hu : ∀ (s : State) (d : List Event), P s → P { s with due := d })
    (ha : ∀ e s, P s → P (act e s)) (e : Event) (s : State) (h : P s) : P (takeOne e s) := by
  unfold takeOne
  split
  · exact ha e _ (hu s _ h)
  · exact h

theorem takeEvent_keep {P : State → Prop} (hu : ∀ (s : State) (d : List Event), P s → P { s with due := d })
    (ha : ∀ e s, P s → P (act e s)) (e : Event) (s : State) (h : P s) : P (takeEvent e s) := by
  unfold takeEvent
  split
  · apply takeOne_keep hu ha
    rename_i hdue
    clear hdue
    generalize e.forerunners s = es
    induction es generalizing s with
    | nil => exact h
    | cons d es ih => exact ih _ (takeOne_keep hu ha d s h)
  · exact h

theorem closeFrames_keep {P : State → Prop} (hf : ∀ l s, P s → P (formFrame l s)) (s : State) (h : P s) :
    P (closeFrames s) := by
  refine runOver_keep (P := P) (fun l t ht => ?_) _ s h
  split
  · exact hf l t ht
  · exact ht

theorem drain_keep {P : State → Prop} (hu : ∀ (s : State) (d : List Event), P s → P { s with due := d })
    (ha : ∀ e s, P s → P (act e s)) (hf : ∀ l s, P s → P (formFrame l s)) :
    ∀ (n : Nat) (s : State), P s → P (drain n s)
  | 0, _, h => h
  | n + 1, s, h => by
    unfold drain
    split
    · exact h
    · exact drain_keep hu ha hf n _ (closeFrames_keep hf _ (takeEvent_keep hu ha _ s h))

/-- What every event and every frame keeps, settling keeps. -/
theorem settle_keep {P : State → Prop} (hu : ∀ (s : State) (d : List Event), P s → P { s with due := d })
    (ha : ∀ e s, P s → P (act e s)) (hf : ∀ l s, P s → P (formFrame l s)) (s : State) (h : P s) : P (settle s) := by
  unfold settle
  dsimp only
  exact closeFrames_keep hf _ (hu _ _ (drain_keep hu ha hf _ _ (closeFrames_keep hf s h)))

/-- The same for an event as a command. -/
theorem runEvent_keep {P : State → Prop} (hu : ∀ (s : State) (d : List Event), P s → P { s with due := d })
    (ha : ∀ e s, P s → P (act e s)) (hf : ∀ l s, P s → P (formFrame l s)) (e : Event) (s : State) (h : P s) :
    P (runEvent e s) := by
  unfold runEvent
  split
  · exact h
  · exact closeFrames_keep hf _ (takeEvent_keep hu ha e s h)

/-- Settling changes no more than the parts of events and frames. -/
theorem settle_changes (s : State) : s.changes settleParts (settle s) :=
  settle_keep (P := fun t => s.changes settleParts t)
    (fun t d h => h.comp (setDue_changes d t))
    (fun e t h => h.trans ((act_changes e t).mono (fun p hp => e.parts_settle p (List.mem_cons_of_mem _ hp))))
    (fun l t h => h.comp (formFrame_changes l t)) s (.refl s _)

theorem runEvent_changes (e : Event) (s : State) : s.changes settleParts (runEvent e s) :=
  runEvent_keep (P := fun t => s.changes settleParts t)
    (fun t d h => h.comp (setDue_changes d t))
    (fun e t h => h.trans ((act_changes e t).mono (fun p hp => e.parts_settle p (List.mem_cons_of_mem _ hp))))
    (fun l t h => h.comp (formFrame_changes l t)) e s (.refl s _)

/-! ### A settled boundary -/

theorem closeFrames_of_none {s : State} (h : ∀ l, l < 4 → (s.line l).toForm = false) : closeFrames s = s := by
  have hr : ∀ l, l < 4 → s.frameReady l = false := by
    intro l hl; simp [State.frameReady, h l hl]
  simp [closeFrames, runOver, List.range, List.range.loop, hr]

theorem frameReady_formFrame {k l : Nat} (h : l ≠ k) (s : State) : (formFrame k s).frameReady l = s.frameReady l := by
  simp only [State.frameReady, formFrame, State.line_modLine]
  rw [if_neg (fun hk => h hk.1)]
  rfl

/-- Closing the frames forms the frame of every line whose frame is ready, and touches no other line. -/
theorem closeFrames_line (s : State) {l : Nat} (hl : l < 4) :
    (closeFrames s).line l = if s.frameReady l then (s.line l).formed (s.audioSlots l) s.sys.free else s.line l := by
  have key : ∀ (ls : List Nat) (t : State), ls.Nodup →
      (runOver (fun l t => if t.frameReady l then formFrame l t else t) ls t).line l
        = if l ∈ ls ∧ t.frameReady l = true then (t.line l).formed (t.audioSlots l) t.sys.free else t.line l := by
    intro ls
    induction ls with
    | nil => intro t _; simp [runOver]
    | cons k ls ih =>
      intro t hn
      obtain ⟨hk, hn⟩ := List.nodup_cons.mp hn
      show (runOver (fun l t => if t.frameReady l then formFrame l t else t) ls
        (if t.frameReady k then formFrame k t else t)).line l = _
      rw [ih _ hn]
      by_cases hlk : l = k
      · subst hlk
        by_cases hr : t.frameReady l = true
        · rw [if_pos hr, if_neg (fun h => hk h.1), if_pos ⟨List.mem_cons_self .., hr⟩]
          simp [formFrame, State.line_modLine, hl]
        · rw [if_neg hr, if_neg (fun h => hk h.1), if_neg (fun h => hr h.2)]
      · have hm : l ∈ k :: ls ↔ l ∈ ls := by simp [hlk]
        simp only [hm]
        split
        · rw [frameReady_formFrame hlk]
          have h1 : (formFrame k t).line l = t.line l := by
            simp only [formFrame, State.line_modLine]; rw [if_neg (fun h => hlk h.1)]
          rw [h1]; rfl
        · rfl
  rw [closeFrames, key lineNumbers s (by decide)]
  simp [hl]

/-- Settling a settled state changes nothing. -/
theorem settle_of_settled {s : State} (h : s.settled) : settle s = s := by
  have hd := h.1
  unfold settle
  simp only [closeFrames_of_none h.2, hd, takings, List.map_nil, List.sum_nil, drain]
  have : { s with due := [] } = s := by cases s; simp_all
  rw [this, closeFrames_of_none h.2]

/-- With nothing due, every frame still to be formed is formed. -/
theorem closeFrames_settled (s : State) (h : s.due = []) : (closeFrames s).settled := by
  have key : ∀ (ls : List Nat) (t : State), t.due = [] → (∀ l ∈ ls, l < 4) →
      (runOver (fun l t => if t.frameReady l then formFrame l t else t) ls t).due = [] ∧
      ∀ k, k < 4 → (k ∈ ls ∨ (t.line k).toForm = false) →
        ((runOver (fun l t => if t.frameReady l then formFrame l t else t) ls t).line k).toForm = false := by
    intro ls
    induction ls with
    | nil => intro t ht _; exact ⟨ht, fun k _ hk => hk.resolve_left (by simp)⟩
    | cons l ls ih =>
      intro t ht hls
      have hl : l < 4 := hls l (List.mem_cons_self ..)
      let u := if t.frameReady l then formFrame l t else t
      have hu : u.due = [] := by
        show (if t.frameReady l then formFrame l t else t).due = []
        split
        · exact ht
        · exact ht
      have hform : ∀ k, k < 4 → (k = l ∨ (t.line k).toForm = false) → (u.line k).toForm = false := by
        intro k hk4 hk
        show ((if t.frameReady l then formFrame l t else t).line k).toForm = false
        split
        · unfold formFrame
          rw [State.line_modLine]
          split
          · unfold Line.formed Line.runningFrame
            dsimp only
            split <;> first | rfl | (split <;> rfl)
          · rename_i hne
            rcases hk with rfl | hk
            · exact absurd ⟨rfl, hl⟩ hne
            · exact hk
        · rename_i hr
          rcases hk with rfl | hk
          · simp only [State.frameReady, ht, List.any_nil, Bool.not_false, Bool.and_true, List.isEmpty_nil,
              Bool.or_true, Bool.not_eq_true] at hr
            exact hr
          · exact hk
      have := ih u hu (fun k hk => hls k (List.mem_cons_of_mem _ hk))
      refine ⟨this.1, fun k hk4 hk => this.2 k hk4 ?_⟩
      by_cases hkls : k ∈ ls
      · exact .inl hkls
      · refine .inr (hform k hk4 ?_)
        rcases hk with hk | hk
        · exact .inl ((List.mem_cons.mp hk).resolve_right hkls)
        · exact .inr hk
  have := key lineNumbers s h (by simp)
  exact ⟨this.1, fun l hl => this.2 l hl (.inl (by simp [hl]))⟩

/-- After settling nothing is left over. -/
theorem settle_settled (s : State) : (settle s).settled := by
  unfold settle
  dsimp only
  exact closeFrames_settled _ rfl

/-! ### Requests -/

theorem respond_same (p : Port) (r : Response) (s : State) (q : Part) : q.same s (respond p r s) := by
  cases p <;> cases q <;> simp [Part.same, respond, State.modPort, State.chan, State.line]

/-- A request in reset has no effect (R186). -/
theorem takeRequest_inReset {s : State} (h : s.sys.inReset ≠ none) (p : Port) (tag : Byte) (kind : Nat)
    (checks : State → List (Bool × Result)) (run : State → State) (body : State → State → List Byte) :
    takeRequest p tag kind checks run body s = .next s := by
  unfold takeRequest
  rw [if_pos (Option.isSome_iff_ne_none.mpr h)]

/-- A request whose checks pass has its effect and answers OK (R178, R179). -/
theorem takeRequest_ok {s : State} (h : s.sys.inReset = none) {p : Port} {tag : Byte} {kind : Nat}
    {checks : State → List (Bool × Result)} {run : State → State} {body : State → State → List Byte}
    (hc : firstFail (checks (settle s)) = none) :
    takeRequest p tag kind checks run body s
      = .next (okReply p tag kind (body (settle s) (run (settle s))) (run (settle s))) := by
  simp [takeRequest, h, answer, hc, okReply]

/-- A request that fails a check answers that result and changes nothing else (R179). -/
theorem takeRequest_fail {s : State} (h : s.sys.inReset = none) {p : Port} {tag : Byte} {kind : Nat}
    {checks : State → List (Bool × Result)} {run : State → State} {body : State → State → List Byte} {r : Result}
    (hc : firstFail (checks (settle s)) = some r) :
    takeRequest p tag kind checks run body s = .next (failReply p tag kind r (settle s)) := by
  simp [takeRequest, h, answer, hc, failReply]

end Sys2Proof.Machine
end

