-- ==== Sys2Proof/Laws/FloorFacts.lean ====
section
/-! SUPPORT. What the operations of the Floor Controller do to the three lists, channel by channel. -/

set_option Elab.async false

namespace Sys2Proof.Machine

open Sys2Proof

/-! ### The lists by channel -/

theorem Floor.entry?_dropEntry (f : Floor) (v c : Nat) :
    (f.dropEntry v).entry? c = if c = v then none else f.entry? c := by
  simp only [Floor.entry?, Floor.dropEntry, List.find?_filter]
  by_cases h : c = v
  · subst h; simp
  · rw [if_neg h]
    congr 1; funext e
    by_cases he : e.ch = c <;> simp [he, h]

theorem Floor.waiting?_dropWait (f : Floor) (v c : Nat) :
    (f.dropWait v).waiting? c = if c = v then none else f.waiting? c := by
  simp only [Floor.waiting?, Floor.dropWait, List.find?_filter]
  by_cases h : c = v
  · subst h; simp
  · rw [if_neg h]
    congr 1; funext e
    by_cases he : e.ch = c <;> simp [he, h]

theorem Floor.isLeaving_dropLeaving (f : Floor) (v c : Nat) :
    (f.dropLeaving v).isLeaving c = if c = v then false else f.isLeaving c := by
  simp only [Floor.isLeaving, Floor.dropLeaving, List.any_filter]
  by_cases h : c = v
  · subst h; simp
  · rw [if_neg h]
    congr 1; funext e
    by_cases he : e.ch = c <;> simp [he, h]

theorem find?_map_ch {c : Nat} {g : FloorEntry → FloorEntry} (hg : ∀ e, (g e).ch = e.ch) (l : List FloorEntry) :
    (l.map g).find? (fun e => e.ch == c) = (l.find? (fun e => e.ch == c)).map g := by
  rw [List.find?_map]
  congr 2; funext e; simp [hg]

theorem Floor.entry?_modEntry (f : Floor) (v c : Nat) {g : FloorEntry → FloorEntry} (hg : ∀ e, (g e).ch = e.ch) :
    (f.modEntry v g).entry? c = if c = v then (f.entry? c).map g else f.entry? c := by
  simp only [Floor.entry?, Floor.modEntry]
  rw [find?_map_ch (by intro e; split <;> simp [hg])]
  cases h : f.list.find? (fun e => e.ch == c) with
  | none => simp
  | some e =>
    have hc : e.ch = c := by simpa using List.find?_some h
    by_cases hv : c = v <;> simp [hc, hv]

theorem Floor.entry?_restartHolds (f : Floor) (c : Nat) :
    f.restartHolds.entry? c
      = (f.entry? c).map (fun e => if e.hold = .stopped then { e with hold := .running f.cfg.holdTime } else e) := by
  simp only [Floor.entry?, Floor.restartHolds]
  exact find?_map_ch (by intro e; split <;> rfl) _

theorem Floor.entry?_none {f : Floor} {c : Nat} : f.entry? c = none ↔ c ∉ f.list.map (fun e => e.ch) := by
  simp [Floor.entry?]

theorem Floor.waiting?_none {f : Floor} {c : Nat} : f.waiting? c = none ↔ c ∉ f.wait.map (fun e => e.ch) := by
  simp [Floor.waiting?]

theorem Floor.isLeaving_false {f : Floor} {c : Nat} : f.isLeaving c = false ↔ c ∉ f.leaving.map (fun e => e.ch) := by
  simp [Floor.isLeaving]

theorem Floor.entry?_ch {f : Floor} {c : Nat} {e : FloorEntry} (h : f.entry? c = some e) : e.ch = c := by
  simpa using List.find?_some h

theorem Floor.waiting?_ch {f : Floor} {c : Nat} {w : WaitEntry} (h : f.waiting? c = some w) : w.ch = c := by
  simpa using List.find?_some h

theorem Floor.not_mem_members {f : Floor} {c : Nat} :
    c ∉ f.members ↔ f.entry? c = none ∧ f.waiting? c = none ∧ f.isLeaving c = false := by
  rw [Floor.entry?_none, Floor.waiting?_none, Floor.isLeaving_false]
  simp [Floor.members]

/-! ### Pending entries open (R62) -/

theorem openPending_floor (s : State) :
    (openPending s).floor = { s.floor with
      guard := none
      list := s.floor.list.map (fun e =>
        if (s.floor.list.filter (fun x => x.st == .pending)).any (fun x => x.ch == e.ch)
        then { e with st := .opened, talk := s.floor.newTalk e.ch } else e) } := by
  have key : ∀ (cs : List Nat) (t : State),
      (runOver (fun c s => floorChange c .pending .opened .guard
        (s.modFloor (fun f => f.modEntry c (fun e => { e with st := .opened, talk := f.newTalk c })))) cs t).floor
      = { t.floor with list := t.floor.list.map (fun e =>
            if cs.any (fun c => c == e.ch) then { e with st := .opened, talk := t.floor.newTalk e.ch } else e) } := by
    intro cs
    induction cs with
    | nil => intro t; simp [runOver]
    | cons c cs ih =>
      intro t
      show (runOver _ cs (floorChange c .pending .opened .guard
        (t.modFloor (fun f => f.modEntry c (fun e => { e with st := .opened, talk := f.newTalk c }))))).floor = _
      rw [ih]
      simp only [floorChange, raise_floor, State.modFloor_floor, Floor.modEntry, List.map_map]
      congr 1
      apply List.map_congr_left
      intro e _
      by_cases hc : e.ch = c
      · subst hc
        simp [Floor.newTalk, Floor.isChair]
      · have : (c == e.ch) = false := by simp [Ne.symm hc]
        simp [hc, this, Floor.newTalk, Floor.isChair]
  unfold openPending
  dsimp only
  rw [key]
  simp only [State.modFloor_floor]
  congr 1
  apply List.map_congr_left
  intro e _
  rw [List.any_map]
  rfl

theorem openPending_chan (s : State) (c : Nat) : (openPending s).chan c = s.chan c := by
  unfold openPending
  dsimp only
  refine runOver_keep (P := fun t : State => t.chan c = s.chan c) ?_ _ _ rfl
  intro n t ht
  exact ht

theorem openPending_chs (s : State) : (openPending s).floor.list.map (fun e => e.ch) = s.floor.list.map (fun e => e.ch) := by
  rw [openPending_floor, List.map_map]
  apply List.map_congr_left
  intro e _
  simp only [Function.comp]
  split <;> rfl

/-- After the opening no entry is PENDING (R62). -/
theorem openPending_hasPending (s : State) : (openPending s).floor.hasPending = false := by
  rw [openPending_floor]
  simp only [Floor.hasPending, List.any_eq_false, List.mem_map]
  rintro _ ⟨e, he, rfl⟩
  split
  · simp
  · rename_i h
    intro hp
    exact h (List.any_eq_true.mpr ⟨e, List.mem_filter.mpr ⟨he, hp⟩, by simp⟩)

/-! ### The guard timer (R62) -/

/-- Where the timer stands as R62 says, settling it changes nothing. -/
theorem settleGuard_of_guarded {s : State} (h : s.floor.guarded) : settleGuard s = s := by
  unfold Floor.guarded at h
  unfold settleGuard
  split
  · rename_i hc
    have : s.floor.guard = none := by
      cases hg : s.floor.guard with
      | none => rfl
      | some n =>
        rw [hg] at h
        simp only [Option.isSome_some] at h
        obtain ⟨h1, h2⟩ := Bool.and_eq_true_iff.mp h.symm
        simp [h1, h2] at hc
    rw [← this]; rfl
  · rename_i hc
    rw [Bool.or_eq_true, not_or] at hc
    have hp : s.floor.hasPending = true := by simpa using hc.1
    have hl : s.floor.leaving.isEmpty = true := by simpa using hc.2
    rw [hp, hl] at h
    rw [if_pos (by rw [h]; rfl)]

theorem settleGuard_guarded (s : State) : (settleGuard s).floor.guarded := by
  unfold settleGuard Floor.guarded
  split
  · rename_i hc
    simp only [State.modFloor_floor, Option.isSome_none]
    rw [Bool.or_eq_true, Bool.not_eq_true', Bool.not_eq_true'] at hc
    rcases hc with hc | hc
    · have : ({ s.floor with guard := none } : Floor).hasPending = false := hc
      rw [this]; rfl
    · rw [hc]; simp
  · rename_i hc
    rw [Bool.or_eq_true, not_or] at hc
    have hp : s.floor.hasPending = true := by simpa using hc.1
    have hl : s.floor.leaving.isEmpty = true := by simpa using hc.2
    split
    · rename_i hg; rw [hp, hl, hg]; rfl
    · split
      · rw [openPending_hasPending, openPending_floor]; rfl
      · simp only [State.modFloor_floor, Option.isSome_some, hl, Bool.and_true]
        exact hp.symm

/-- What the guard timer never touches. -/
theorem settleGuard_floor (s : State) :
    (settleGuard s).floor.wait = s.floor.wait ∧ (settleGuard s).floor.leaving = s.floor.leaving
      ∧ (settleGuard s).floor.mode = s.floor.mode ∧ (settleGuard s).floor.cfg = s.floor.cfg
      ∧ (settleGuard s).floor.chair = s.floor.chair ∧ (settleGuard s).floor.latch = s.floor.latch
      ∧ (settleGuard s).floor.list.map (fun e => e.ch) = s.floor.list.map (fun e => e.ch) := by
  unfold settleGuard
  split
  · simp
  · split
    · simp
    · split
      · rw [openPending_chs, openPending_floor]; simp
      · simp

theorem settleGuard_chan (s : State) (c : Nat) : (settleGuard s).chan c = s.chan c := by
  unfold settleGuard
  split
  · rfl
  · split
    · rfl
    · split
      · exact openPending_chan s c
      · rfl

theorem settleGuard_blocks (s : State) : (settleGuard s).sys = s.sys := by
  have h := (settleGuard_changes s).1
  have h1 := h .power (by decide)
  have h2 := h .rights (by decide)
  have h3 := h .clock (by decide)
  have h4 := h .resets (by decide)
  cases hs : (settleGuard s).sys; cases hs' : s.sys
  simp only [Part.same, hs, hs'] at h1 h2 h3 h4
  simp_all

/-- While a handover runs, the timer is stopped and no entry opens (R62). -/
theorem settleGuard_leaving {s : State} (h : s.floor.leaving ≠ []) :
    settleGuard s = s.modFloor (fun f => { f with guard := none }) := by
  unfold settleGuard
  rw [if_pos (by cases hl : s.floor.leaving <;> simp_all)]

/-! ### Joining (R47, R48) -/

theorem joinFloor_floor (c : Nat) (st : EntryState) (s : State) :
    (joinFloor c st s).floor = { s.floor.restartHolds with
      list := s.floor.restartHolds.list
        ++ [⟨c, st, s.sys.blocks, .none, if st = .opened then s.floor.newTalk c else none⟩] } := rfl

theorem joinFloor_chan (c : Nat) (st : EntryState) (s : State) (d : Nat) :
    (joinFloor c st s).chan d = if d = c ∧ c < 42 then { s.chan c with attack := 0 } else s.chan d := by
  unfold joinFloor
  rw [State.chan_modFloor, State.chan_modChan]

theorem joinWait_chan (c : Nat) (s : State) (d : Nat) :
    (joinWait c s).chan d = if d = c ∧ c < 42 then { s.chan c with attack := 0 } else s.chan d := by
  unfold joinWait
  rw [State.chan_modFloor, State.chan_modChan]

/-- The entry of a channel after another has joined; its own where it was not on the floor. -/
theorem joinFloor_entry? (c : Nat) (st : EntryState) (s : State) (d : Nat) :
    (joinFloor c st s).floor.entry? d = match s.floor.entry? d with
      | some e => some (if e.hold = .stopped then { e with hold := .running s.floor.cfg.holdTime } else e)
      | none => if d = c then some ⟨c, st, s.sys.blocks, .none, if st = .opened then s.floor.newTalk c else none⟩
          else none := by
  rw [joinFloor_floor]
  have h := s.floor.entry?_restartHolds d
  simp only [Floor.entry?, List.find?_append] at h ⊢
  rw [h]
  cases s.floor.list.find? (fun e => e.ch == d) with
  | some e => simp
  | none =>
    simp only [Option.map_none, Option.none_or, List.find?_singleton]
    by_cases hd : d = c
    · subst hd; simp
    · rw [if_neg hd, if_neg (by simp [Ne.symm hd])]

/-! ### Service of the Wait List (R60, R75) -/

theorem admitHead_cons {s : State} {w : WaitEntry} {ws : List WaitEntry} (h : s.floor.wait = w :: ws) :
    admitHead s = floorChange w.ch .waiting .opened .admitted
      (joinFloor w.ch .opened (s.modFloor (fun f => { f with wait := ws }))) := by
  unfold admitHead; rw [h]

/-- Where the head is not to be served, nothing is admitted. -/
theorem serve_of_not {s : State} (h : s.floor.canServe = false) (n : Nat) : serve n s = s := by
  cases n with
  | zero => rfl
  | succ n => unfold serve; rw [if_neg (by simp [h])]

/-- Service admits heads of the Wait List and leaves everything else of the floor but stopped hold timers. -/
theorem serve_keep {P : State → Prop}
    (h : ∀ s w ws, P s → s.floor.canServe = true → s.floor.wait = w :: ws → P (admitHead s)) :
    ∀ (n : Nat) (s : State), P s → P (serve n s)
  | 0, _, hs => hs
  | n + 1, s, hs => by
    unfold serve
    split
    · rename_i hc
      cases hw : s.floor.wait with
      | nil => simp [Floor.canServe, hw] at hc
      | cons w ws => exact serve_keep h n _ (h s w ws hs hc hw)
    · exact hs

theorem afterFloor_keep {P : State → Prop} (hg : ∀ s, P s → P (settleGuard s))
    (h : ∀ s w ws, P s → s.floor.canServe = true → s.floor.wait = w :: ws → P (admitHead s)) (s : State) (hs : P s) :
    P (afterFloor s) := serve_keep h _ _ (hg s hs)

theorem admitHead_floor {s : State} {w : WaitEntry} {ws : List WaitEntry} (h : s.floor.wait = w :: ws) :
    (admitHead s).floor = { s.floor.restartHolds with
      wait := ws
      list := s.floor.restartHolds.list ++ [⟨w.ch, .opened, s.sys.blocks, .none, s.floor.newTalk w.ch⟩] } := by
  rw [admitHead_cons h]; rfl

/-- The Leaving List, the mode, the quantities, the chair and the latch are no business of `afterFloor`. -/
theorem afterFloor_floor (s : State) :
    (afterFloor s).floor.leaving = s.floor.leaving ∧ (afterFloor s).floor.mode = s.floor.mode
      ∧ (afterFloor s).floor.cfg = s.floor.cfg ∧ (afterFloor s).floor.chair = s.floor.chair
      ∧ (afterFloor s).floor.latch = s.floor.latch := by
  refine afterFloor_keep (P := fun t => t.floor.leaving = s.floor.leaving ∧ t.floor.mode = s.floor.mode
      ∧ t.floor.cfg = s.floor.cfg ∧ t.floor.chair = s.floor.chair ∧ t.floor.latch = s.floor.latch) ?_ ?_ s
      ⟨rfl, rfl, rfl, rfl, rfl⟩
  · intro t ⟨h1, h2, h3, h4, h5⟩
    obtain ⟨_, g1, g2, g3, g4, g5, _⟩ := settleGuard_floor t
    exact ⟨g1.trans h1, g2.trans h2, g3.trans h3, g4.trans h4, g5.trans h5⟩
  · intro t w ws h _ hw
    rw [admitHead_floor hw]
    exact h

/-- A channel that is neither on the floor nor waiting stays so. -/
theorem afterFloor_off {c : Nat} {s : State} (h1 : s.floor.entry? c = none) (h2 : s.floor.waiting? c = none) :
    (afterFloor s).floor.entry? c = none ∧ (afterFloor s).floor.waiting? c = none := by
  refine afterFloor_keep (P := fun t => t.floor.entry? c = none ∧ t.floor.waiting? c = none) ?_ ?_ s ⟨h1, h2⟩
  · intro t ⟨h1, h2⟩
    obtain ⟨g1, _, _, _, _, _, g2⟩ := settleGuard_floor t
    rw [Floor.entry?_none, Floor.waiting?_none] at *
    rw [g1, g2]; exact ⟨h1, h2⟩
  · intro t w ws ⟨h1, h2⟩ _ hw
    rw [admitHead_cons hw]
    have hc : c ≠ w.ch := by
      intro hc; rw [Floor.waiting?_none, hw] at h2; simp [hc] at h2
    constructor
    · show (joinFloor w.ch .opened (t.modFloor (fun f => { f with wait := ws }))).floor.entry? c = none
      rw [joinFloor_entry?]
      have : (t.modFloor (fun f => { f with wait := ws })).floor.entry? c = none := h1
      rw [this]; simp [hc]
    · rw [Floor.waiting?_none, hw] at h2
      rw [Floor.waiting?_none]
      intro hm; exact h2 (List.mem_cons_of_mem _ hm)

theorem admitHead_chan {s : State} {w : WaitEntry} {ws : List WaitEntry} (h : s.floor.wait = w :: ws) (d : Nat) :
    (admitHead s).chan d = if d = w.ch ∧ w.ch < 42 then { s.chan w.ch with attack := 0 } else s.chan d := by
  rw [admitHead_cons h]
  exact joinFloor_chan w.ch .opened _ d

/-- No attack count grows. -/
theorem afterFloor_attack {c : Nat} {s : State} (h : (s.chan c).attack = 0) : ((afterFloor s).chan c).attack = 0 := by
  refine afterFloor_keep (P := fun t => (t.chan c).attack = 0) ?_ ?_ s h
  · intro t ht; rw [settleGuard_chan]; exact ht
  · intro t w ws ht _ hw
    rw [admitHead_chan hw]
    split
    · rfl
    · exact ht

/-- A member whose hold timer is not stopped keeps its entry through service. -/
theorem serve_entry? {c : Nat} {e : FloorEntry} (he : e.hold ≠ .stopped) (n : Nat) (s : State)
    (h : s.floor.entry? c = some e) : (serve n s).floor.entry? c = some e := by
  refine serve_keep (P := fun t => t.floor.entry? c = some e) ?_ n s h
  intro t w ws ht _ hw
  rw [admitHead_cons hw]
  show (joinFloor w.ch .opened (t.modFloor (fun f => { f with wait := ws }))).floor.entry? c = some e
  rw [joinFloor_entry?]
  have : (t.modFloor (fun f => { f with wait := ws })).floor.entry? c = some e := ht
  rw [this]; simp [he]

/-- A guarded floor is served only. -/
theorem afterFloor_of_guarded {s : State} (h : s.floor.guarded) : afterFloor s = serve s.floor.wait.length s := by
  unfold afterFloor; rw [settleGuard_of_guarded h]

/-- While a handover runs, nobody is admitted and the guard timer stops. -/
theorem afterFloor_leaving {s : State} (h : s.floor.leaving ≠ []) :
    afterFloor s = s.modFloor (fun f => { f with guard := none }) := by
  unfold afterFloor
  rw [settleGuard_leaving h]
  apply serve_of_not
  simp only [Floor.canServe, State.modFloor_floor, Bool.and_eq_false_iff]
  left; left; right
  cases hl : s.floor.leaving <;> simp_all

/-- The members of the floor stay on it. -/
theorem afterFloor_isSome {c : Nat} {s : State} (h : (s.floor.entry? c).isSome) :
    ((afterFloor s).floor.entry? c).isSome := by
  refine afterFloor_keep (P := fun t => (t.floor.entry? c).isSome) ?_ ?_ s h
  · intro t ht
    rw [Option.isSome_iff_ne_none, Ne, Floor.entry?_none] at ht ⊢
    rw [(settleGuard_floor t).2.2.2.2.2.2]; exact ht
  · intro t w ws ht _ hw
    rw [admitHead_cons hw]
    show ((joinFloor w.ch .opened (t.modFloor (fun f => { f with wait := ws }))).floor.entry? c).isSome
    rw [joinFloor_entry?]
    have : ((t.modFloor (fun f => { f with wait := ws })).floor.entry? c).isSome := ht
    obtain ⟨e, he⟩ := Option.isSome_iff_exists.mp this
    rw [he]; rfl

end Sys2Proof.Machine
end

