-- ==== Sys2Proof/Laws/FloorLawful.lean ====
section
/-! SUPPORT. The laws of the floor lists, operation by operation: who may stand in them is fixed by two predicates
(`ok`: may be on the floor or wait; `there`: may be in the Leaving List), which the Floor Controller never reads. -/

set_option Elab.async false

namespace Sys2Proof.Machine

open Sys2Proof

/-- The laws of the lists, for channels that may be on the floor (`ok`) and that may be leaving (`there`). -/
def State.floorKept (ok there : Nat → Prop) (s : State) : Prop :=
  s.floor.bounded ∧ s.floor.exclusive
    ∧ (∀ c, c < 32 → ¬ ok c → s.floor.entry? c = none ∧ s.floor.waiting? c = none ∧ (s.chan c).attack = 0)
    ∧ ∀ c, c < 32 → ¬ there c → s.floor.isLeaving c = false

theorem floorKept_iff (s : State) : s.floorLawful ↔ s.floor.guarded
    ∧ s.floorKept (fun c => s.muted c = false ∧ s.present c = true) (fun c => s.present c = true) := by
  unfold State.floorLawful State.floorKept State.mutedOffFloor State.absentOffFloor
  constructor
  · rintro ⟨h1, h2, h3, h4, h5⟩
    refine ⟨h3, h1, h2, ?_, ?_⟩
    · intro c hc hn
      cases hm : s.muted c with
      | true => exact h4 c hc hm
      | false =>
        cases hp : s.present c with
        | true => exact absurd ⟨hm, hp⟩ hn
        | false => have := h5 c hc hp; exact ⟨this.1, this.2.1, this.2.2.2⟩
    · intro c hc hn
      exact (h5 c hc (by simpa using hn)).2.2.1
  · rintro ⟨h3, h1, h2, h4, h5⟩
    refine ⟨h1, h2, h3, ?_, ?_⟩
    · intro c hc hm; exact h4 c hc (by simp [hm])
    · intro c hc hp
      have := h4 c hc (by simp [hp])
      exact ⟨this.1, this.2.1, h5 c hc (by simp [hp]), this.2.2⟩

namespace State.floorKept

variable {ok there : Nat → Prop} {s t : State}

theorem bounded (h : s.floorKept ok there) : s.floor.bounded := h.1
theorem exclusive (h : s.floorKept ok there) : s.floor.exclusive := h.2.1

/-- Lists that lose channels, and attack counts that return to 0, keep the laws. -/
theorem shrink (h : s.floorKept ok there) (h1 : (t.floor.list.map (fun e => e.ch)).Sublist (s.floor.list.map (fun e => e.ch)))
    (h2 : (t.floor.wait.map (fun e => e.ch)).Sublist (s.floor.wait.map (fun e => e.ch)))
    (h3 : (t.floor.leaving.map (fun e => e.ch)).Sublist (s.floor.leaving.map (fun e => e.ch)))
    (h4 : t.floor.cfg.maxOpen = s.floor.cfg.maxOpen)
    (h5 : ∀ c, (t.chan c).attack = (s.chan c).attack ∨ (t.chan c).attack = 0) : t.floorKept ok there := by
  obtain ⟨⟨b1, b2, b3⟩, ⟨e1, e2⟩, ho, ht⟩ := h
  have l1 := h1.length_le; have l2 := h2.length_le; have l3 := h3.length_le
  simp only [List.length_map] at l1 l2 l3
  have hm : t.floor.members.Sublist s.floor.members := (h1.append h2).append h3
  refine ⟨⟨by rw [h4]; omega, by omega, by omega⟩, ⟨hm.nodup e1, fun c hc => e2 c (hm.subset hc)⟩, ?_, ?_⟩
  · intro c hc hn
    obtain ⟨g1, g2, g3⟩ := ho c hc hn
    rw [Floor.entry?_none] at g1 ⊢
    rw [Floor.waiting?_none] at g2 ⊢
    refine ⟨fun hx => g1 (h1.subset hx), fun hx => g2 (h2.subset hx), ?_⟩
    rcases h5 c with hx | hx
    · rw [hx, g3]
    · exact hx
  · intro c hc hn
    have g := ht c hc hn
    rw [Floor.isLeaving_false] at g ⊢
    exact fun hx => g (h3.subset hx)

/-- A channel in a list may stand there. -/
theorem ok_of_entry {c : Nat} (h : s.floorKept ok there) (hc : s.floor.entry? c ≠ none) : c < 32 ∧ ok c := by
  have hm : c ∈ s.floor.members := by
    rw [Ne, Floor.entry?_none, Classical.not_not] at hc
    exact List.mem_append_left _ (List.mem_append_left _ hc)
  have hl := h.exclusive.2 c hm
  exact ⟨hl, Classical.byContradiction (fun hn => hc (h.2.2.1 c hl hn).1)⟩

theorem ok_of_waiting {c : Nat} (h : s.floorKept ok there) (hc : s.floor.waiting? c ≠ none) : c < 32 ∧ ok c := by
  have hm : c ∈ s.floor.members := by
    rw [Ne, Floor.waiting?_none, Classical.not_not] at hc
    exact List.mem_append_left _ (List.mem_append_right _ hc)
  have hl := h.exclusive.2 c hm
  exact ⟨hl, Classical.byContradiction (fun hn => hc (h.2.2.1 c hl hn).2.1)⟩

theorem there_of_leaving {c : Nat} (h : s.floorKept ok there) (hc : s.floor.isLeaving c = true) : c < 32 ∧ there c := by
  have hm : c ∈ s.floor.members := by
    have : ¬ s.floor.isLeaving c = false := by simp [hc]
    rw [Floor.isLeaving_false, Classical.not_not] at this
    exact List.mem_append_right _ this
  have hl := h.exclusive.2 c hm
  exact ⟨hl, Classical.byContradiction (fun hn => by simp [h.2.2.2 c hl hn] at hc)⟩

/-- A channel of the Floor List is in no other list. -/
theorem only_list {c : Nat} (h : s.floorKept ok there) (hc : s.floor.entry? c ≠ none) :
    s.floor.waiting? c = none ∧ s.floor.isLeaving c = false := by
  rw [Ne, Floor.entry?_none, Classical.not_not] at hc
  rw [Floor.waiting?_none, Floor.isLeaving_false]
  have hn := h.exclusive.1
  unfold Floor.members at hn
  rw [List.append_assoc, List.nodup_append] at hn
  have := hn.2.2 c hc
  exact ⟨fun hx => this c (List.mem_append_left _ hx) rfl, fun hx => this c (List.mem_append_right _ hx) rfl⟩

/-- A waiting channel is in no other list. -/
theorem only_wait {c : Nat} (h : s.floorKept ok there) (hc : s.floor.waiting? c ≠ none) :
    s.floor.entry? c = none ∧ s.floor.isLeaving c = false := by
  refine ⟨Classical.byContradiction (fun hx => hc (h.only_list hx).1), ?_⟩
  rw [Ne, Floor.waiting?_none, Classical.not_not] at hc
  rw [Floor.isLeaving_false]
  have hn := h.exclusive.1
  unfold Floor.members at hn
  rw [List.nodup_append] at hn
  exact fun hx => hn.2.2 c (List.mem_append_right _ hc) c hx rfl

/-- A leaving channel is in no other list. -/
theorem only_leaving {c : Nat} (h : s.floorKept ok there) (hc : s.floor.isLeaving c = true) :
    s.floor.entry? c = none ∧ s.floor.waiting? c = none :=
  ⟨Classical.byContradiction (fun hx => by simp [(h.only_list hx).2] at hc),
    Classical.byContradiction (fun hx => by simp [(h.only_wait hx).2] at hc)⟩

/-- A channel that stands in no list and may be on the floor joins it. -/
theorem joinFloor {c : Nat} (st : EntryState) (h : s.floorKept ok there) (hc : c < 32) (hk : ok c) (hm : c ∉ s.floor.members)
    (hl : s.floor.list.length < s.floor.cfg.maxOpen) : (Machine.joinFloor c st s).floorKept ok there := by
  obtain ⟨⟨b1, b2, b3⟩, ⟨e1, e2⟩, ho, ht⟩ := h
  have hlist : (Machine.joinFloor c st s).floor.list.map (fun e => e.ch) = s.floor.list.map (fun e => e.ch) ++ [c] := by
    rw [joinFloor_floor]
    simp only [Floor.restartHolds, List.map_append, List.map_map, List.map_cons, List.map_nil]
    congr 1
    apply List.map_congr_left
    intro e _
    simp only [Function.comp]; split <;> rfl
  have hperm : (Machine.joinFloor c st s).floor.members.Perm (c :: s.floor.members) := by
    unfold Floor.members
    rw [hlist]
    show (s.floor.list.map (fun e => e.ch) ++ [c] ++ s.floor.wait.map (fun e => e.ch)
      ++ s.floor.leaving.map (fun e => e.ch)).Perm _
    simp only [List.append_assoc, List.singleton_append]
    exact List.perm_middle
  refine ⟨⟨?_, b2, b3⟩, ⟨?_, ?_⟩, ?_, ht⟩
  · have : (Machine.joinFloor c st s).floor.list.length = s.floor.list.length + 1 := by
      rw [joinFloor_floor]; simp [Floor.restartHolds]
    show _ ≤ s.floor.cfg.maxOpen
    omega
  · exact hperm.nodup_iff.mpr (List.nodup_cons.mpr ⟨hm, e1⟩)
  · intro d hd
    rcases List.mem_cons.mp (hperm.subset hd) with rfl | hd
    · exact hc
    · exact e2 d hd
  · intro d hd hn
    have hne : d ≠ c := fun hx => hn (hx ▸ hk)
    obtain ⟨g1, g2, g3⟩ := ho d hd hn
    refine ⟨?_, g2, ?_⟩
    · rw [Floor.entry?_none] at g1 ⊢
      rw [hlist]; simp only [List.mem_append, List.mem_singleton, not_or]
      exact ⟨g1, hne⟩
    · rw [joinFloor_chan, if_neg (fun hx => hne hx.1)]; exact g3

/-- A channel that stands in no list and may be on the floor waits. -/
theorem joinWait {c : Nat} (h : s.floorKept ok there) (hc : c < 32) (hk : ok c) (hm : c ∉ s.floor.members)
    (hl : s.floor.wait.length < 8) : (Machine.joinWait c s).floorKept ok there := by
  obtain ⟨⟨b1, b2, b3⟩, ⟨e1, e2⟩, ho, ht⟩ := h
  have hwait : (Machine.joinWait c s).floor.wait.map (fun e => e.ch) = s.floor.wait.map (fun e => e.ch) ++ [c] := by
    show (s.floor.wait ++ [_]).map (fun e : WaitEntry => e.ch) = _
    rw [List.map_append]; rfl
  have hperm : (Machine.joinWait c s).floor.members.Perm (c :: s.floor.members) := by
    unfold Floor.members
    rw [hwait]
    show (s.floor.list.map (fun e => e.ch) ++ (s.floor.wait.map (fun e => e.ch) ++ [c])
      ++ s.floor.leaving.map (fun e => e.ch)).Perm _
    rw [← List.append_assoc, List.append_assoc _ [c], List.singleton_append]
    exact List.perm_middle
  refine ⟨⟨b1, ?_, b3⟩, ⟨?_, ?_⟩, ?_, ht⟩
  · show (s.floor.wait ++ [_]).length ≤ 8
    simp only [List.length_append, List.length_cons, List.length_nil]; omega
  · exact hperm.nodup_iff.mpr (List.nodup_cons.mpr ⟨hm, e1⟩)
  · intro d hd
    rcases List.mem_cons.mp (hperm.subset hd) with rfl | hd
    · exact hc
    · exact e2 d hd
  · intro d hd hn
    have hne : d ≠ c := fun hx => hn (hx ▸ hk)
    obtain ⟨g1, g2, g3⟩ := ho d hd hn
    refine ⟨g1, ?_, ?_⟩
    · rw [Floor.waiting?_none] at g2 ⊢
      rw [hwait]; simp only [List.mem_append, List.mem_singleton, not_or]
      exact ⟨g2, hne⟩
    · rw [joinWait_chan, if_neg (fun hx => hne hx.1)]; exact g3

/-- A channel that stands in no list and may be leaving joins the Leaving List. -/
theorem addLeaving {c : Nat} (b : BitVec 32) (h : s.floorKept ok there) (hc : c < 32) (hk : there c) (hm : c ∉ s.floor.members)
    (hl : s.floor.leaving.length < 6) :
    (s.modFloor (fun f => { f with leaving := f.leaving ++ [⟨c, b⟩] })).floorKept ok there := by
  obtain ⟨⟨b1, b2, b3⟩, ⟨e1, e2⟩, ho, ht⟩ := h
  have hperm : (s.floor.list.map (fun e => e.ch) ++ s.floor.wait.map (fun e => e.ch)
      ++ (s.floor.leaving ++ [(⟨c, b⟩ : LeavingEntry)]).map (fun e => e.ch)).Perm (c :: s.floor.members) := by
    rw [List.map_append, ← List.append_assoc]
    exact List.perm_middle.trans (by rw [List.map_nil, List.append_nil]; exact List.Perm.refl _)
  refine ⟨⟨b1, b2, ?_⟩, ⟨?_, ?_⟩, ho, ?_⟩
  · show (s.floor.leaving ++ [_]).length ≤ 6
    simp only [List.length_append, List.length_cons, List.length_nil]; omega
  · exact hperm.nodup_iff.mpr (List.nodup_cons.mpr ⟨hm, e1⟩)
  · intro d hd
    rcases List.mem_cons.mp (hperm.subset hd) with rfl | hd
    · exact hc
    · exact e2 d hd
  · intro d hd hn
    have hne : d ≠ c := fun hx => hn (hx ▸ hk)
    have g := ht d hd hn
    rw [Floor.isLeaving_false] at g ⊢
    show d ∉ (s.floor.leaving ++ [_]).map (fun e : LeavingEntry => e.ch)
    simp only [List.map_append, List.mem_append, List.map_cons, List.map_nil, List.mem_singleton, not_or]
    exact ⟨g, hne⟩

/-- Lists of the same channels, with the same attack counts. -/
theorem same (h : s.floorKept ok there) (h1 : t.floor.list.map (fun e => e.ch) = s.floor.list.map (fun e => e.ch))
    (h2 : t.floor.wait.map (fun e => e.ch) = s.floor.wait.map (fun e => e.ch))
    (h3 : t.floor.leaving.map (fun e => e.ch) = s.floor.leaving.map (fun e => e.ch))
    (h4 : t.floor.cfg.maxOpen = s.floor.cfg.maxOpen) (h5 : ∀ c, (t.chan c).attack = (s.chan c).attack) :
    t.floorKept ok there :=
  h.shrink (h1 ▸ List.Sublist.refl _) (h2 ▸ List.Sublist.refl _) (h3 ▸ List.Sublist.refl _) h4 (fun c => .inl (h5 c))

theorem dropEntry (h : s.floorKept ok there) (v : Nat) : (s.modFloor (fun f => f.dropEntry v)).floorKept ok there :=
  h.shrink (List.filter_sublist.map _) (List.Sublist.refl _) (List.Sublist.refl _) rfl (fun _ => .inl rfl)

theorem dropWait (h : s.floorKept ok there) (v : Nat) : (s.modFloor (fun f => f.dropWait v)).floorKept ok there :=
  h.shrink (List.Sublist.refl _) (List.filter_sublist.map _) (List.Sublist.refl _) rfl (fun _ => .inl rfl)

theorem dropLeaving (h : s.floorKept ok there) (v : Nat) : (s.modFloor (fun f => f.dropLeaving v)).floorKept ok there :=
  h.shrink (List.Sublist.refl _) (List.Sublist.refl _) (List.filter_sublist.map _) rfl (fun _ => .inl rfl)

theorem noAttack (h : s.floorKept ok there) (c : Nat) :
    (s.modChan c (fun k => { k with attack := 0 })).floorKept ok there := by
  refine h.shrink (List.Sublist.refl _) (List.Sublist.refl _) (List.Sublist.refl _) rfl (fun d => ?_)
  rw [State.chan_modChan]; split
  · exact .inr rfl
  · exact .inl rfl

theorem settleGuard (h : s.floorKept ok there) : (Machine.settleGuard s).floorKept ok there := by
  obtain ⟨g1, g2, _, g3, _, _, g4⟩ := settleGuard_floor s
  exact h.same g4 (by rw [g1]) (by rw [g2]) (by rw [g3]) (fun c => by rw [settleGuard_chan])

end State.floorKept

/-- An entry that leaves frees its place. -/
theorem Floor.dropEntry_length {f : Floor} {v : Nat} (h : f.entry? v ≠ none) :
    (f.dropEntry v).list.length < f.list.length := by
  obtain ⟨e, he⟩ := Option.ne_none_iff_exists'.mp h
  have hm := List.mem_of_find?_eq_some he
  exact List.length_filter_lt_length_iff_exists.mpr ⟨e, hm, by simp [Floor.entry?_ch he]⟩

theorem Floor.entry?_of_mem {f : Floor} {e : FloorEntry} (h : e ∈ f.list) : f.entry? e.ch ≠ none := by
  rw [Ne, Floor.entry?_none, Classical.not_not]
  exact List.mem_map_of_mem h

theorem Floor.leavingRoom_lt {f : Floor} (h : f.leavingRoom = true) : f.leaving.length < 6 := by
  simpa [Floor.leavingRoom, Config.leavingCapacity] using h

theorem Floor.waitRoom_lt {f : Floor} (h : f.waitRoom = true) : f.wait.length < 8 := by
  simpa [Floor.waitRoom, Config.waitCapacity] using h

theorem Floor.canServe_placeFree {f : Floor} (h : f.canServe = true) : f.list.length < f.cfg.maxOpen := by
  simp only [Floor.canServe, Floor.placeFree, Bool.and_eq_true, decide_eq_true_eq] at h
  exact h.1.1.1

namespace State.floorKept

variable {ok there : Nat → Prop} {s t : State}

theorem admitHead {w : WaitEntry} {ws : List WaitEntry} (h : s.floorKept ok there) (hs : s.floor.canServe = true)
    (hw : s.floor.wait = w :: ws) : (Machine.admitHead s).floorKept ok there := by
  rw [admitHead_cons hw]
  have hwt : s.floor.waiting? w.ch ≠ none := by
    rw [Ne, Floor.waiting?_none, Classical.not_not, hw]; exact List.mem_cons_self ..
  obtain ⟨hc, hk⟩ := h.ok_of_waiting hwt
  obtain ⟨h1, h2⟩ := h.only_wait hwt
  have h0 : (s.modFloor (fun f => { f with wait := ws })).floorKept ok there := by
    refine h.shrink (List.Sublist.refl _) ?_ (List.Sublist.refl _) rfl (fun _ => .inl rfl)
    rw [hw]; exact (List.sublist_cons_self w ws).map _
  have hp : s.floor.list.length < s.floor.cfg.maxOpen := Floor.canServe_placeFree hs
  refine State.floorKept.same (s := Machine.joinFloor w.ch .opened _) (h0.joinFloor .opened hc hk ?_ hp) rfl rfl rfl rfl
    (fun _ => rfl)
  rw [Floor.not_mem_members]
  refine ⟨h1, ?_, h2⟩
  rw [Floor.waiting?_none]
  have hn := h.exclusive.1
  unfold Floor.members at hn
  rw [hw, List.map_cons] at hn
  have hn := (List.nodup_append.mp (List.nodup_append.mp hn).1).2.1
  exact (List.nodup_cons.mp hn).1

theorem afterFloor (h : s.floorKept ok there) : (Machine.afterFloor s).floorKept ok there :=
  afterFloor_keep (P := fun t => t.floorKept ok there) (fun _ h => h.settleGuard)
    (fun _ _ _ h hs hw => h.admitHead hs hw) s h

theorem evict {v c : Nat} {k : FloorCause} (h : s.floorKept ok there) (hot : ∀ c, ok c → there c)
    (hv : s.floor.entry? v ≠ none) (hc : c < 32) (hk : ok c) (h1 : s.floor.entry? c = none)
    (h2 : s.floor.isLeaving c = false) (hr : s.floor.leavingRoom = true) : (Machine.evict v c k s).floorKept ok there := by
  have hne : c ≠ v := fun hx => hv (hx ▸ h1)
  obtain ⟨hv1, hv2⟩ := h.ok_of_entry hv
  obtain ⟨hv3, hv4⟩ := h.only_list hv
  have a1 := h.dropEntry v
  have a2 := a1.addLeaving s.sys.blocks hv1 (hot v hv2)
    (Floor.not_mem_members.mpr ⟨by rw [State.modFloor_floor, Floor.entry?_dropEntry]; simp, hv3, hv4⟩)
    (Floor.leavingRoom_lt hr)
  have a3 := a2.dropWait c
  refine State.floorKept.same (s := Machine.joinFloor c .pending _) (a3.joinFloor .pending hc hk ?_ ?_) rfl rfl rfl rfl
    (fun _ => rfl)
  · rw [Floor.not_mem_members]
    refine ⟨?_, ?_, ?_⟩
    · show (s.floor.dropEntry v).entry? c = none
      rw [Floor.entry?_dropEntry, if_neg hne]; exact h1
    · rw [State.modFloor_floor, Floor.waiting?_dropWait]; simp
    · rw [Floor.isLeaving_false] at h2 ⊢
      show c ∉ (s.floor.leaving ++ [_]).map (fun e : LeavingEntry => e.ch)
      simp only [List.map_append, List.mem_append, List.map_cons, List.map_nil, List.mem_singleton, not_or]
      exact ⟨h2, hne⟩
  · exact Nat.lt_of_lt_of_le (Floor.dropEntry_length hv) h.bounded.1

theorem overridePending {v c : Nat} {g : Gate} (h : s.floorKept ok there) (hv : s.floor.entry? v ≠ none) (hc : c < 32)
    (hk : ok c) (hm : c ∉ s.floor.members) : (Machine.overridePending v c g s).floorKept ok there := by
  have a1 := h.dropEntry v
  rw [Floor.not_mem_members] at hm
  refine State.floorKept.same (s := Machine.joinFloor c .opened _) (a1.joinFloor .opened hc hk ?_ ?_) rfl rfl rfl rfl
    (fun _ => rfl)
  · rw [Floor.not_mem_members]
    refine ⟨?_, hm.2.1, hm.2.2⟩
    rw [State.modFloor_floor, Floor.entry?_dropEntry]; split
    · rfl
    · exact hm.1
  · exact Nat.lt_of_lt_of_le (Floor.dropEntry_length hv) h.bounded.1

theorem owePulse {c : Nat} (h : s.floorKept ok there) : (Machine.owePulse c s).floorKept ok there := by
  have hc := owePulse_changes c s
  have h1 := hc.1 .floor (by decide); have h2 := hc.1 .cfg (by decide); have h3 := hc.1 .attack (by decide)
  simp only [Part.same] at h1 h2 h3
  exact h.same (by rw [h1.1]) (by rw [h1.2.1]) (by rw [h1.2.2.1]) (by rw [h2]) h3

theorem overrideRefused {c : Nat} (h : s.floorKept ok there)
    (h1 : (t.floor.list.map (fun e => e.ch)) = (s.floor.list.map (fun e => e.ch)))
    (h3 : (t.floor.leaving.map (fun e => e.ch)).Sublist (s.floor.leaving.map (fun e => e.ch)))
    (h4 : t.floor.cfg.maxOpen = s.floor.cfg.maxOpen) (h5 : ∀ c, (t.chan c).attack = (s.chan c).attack) :
    (Machine.overrideRefused c s.floor.wait t).floorKept ok there := by
  unfold Machine.overrideRefused
  apply State.floorKept.owePulse
  refine h.shrink ?_ (List.Sublist.refl _) h3 h4 (fun d => ?_)
  · show (t.floor.list.map (fun e => e.ch)).Sublist _
    exact h1 ▸ List.Sublist.refl _
  · rw [← h5 d]
    show ((State.modChan t c (fun k => { k with attack := 0 })).chan d).attack = (t.chan d).attack ∨
      ((State.modChan t c (fun k => { k with attack := 0 })).chan d).attack = 0
    rw [State.chan_modChan]
    by_cases hd : d = c ∧ c < 42
    · rw [if_pos hd]; exact .inr rfl
    · rw [if_neg hd]; exact .inl rfl

theorem override {c : Nat} (h : s.floorKept ok there) (hot : ∀ c, ok c → there c) (hc : c < 32) (hk : ok c)
    (h1 : s.floor.entry? c = none) : (Machine.override c s).floorKept ok there := by
  unfold Machine.override
  dsimp only
  apply State.floorKept.afterFloor
  let t0 := s.modFloor (fun f => (f.dropWait c).dropLeaving c)
  have a0 : t0.floorKept ok there := (h.dropWait c).dropLeaving c
  have a : (Machine.settleGuard t0).floorKept ok there := a0.settleGuard
  obtain ⟨g1, g2, _, g3, _, _, g4⟩ := settleGuard_floor t0
  have hm : c ∉ (Machine.settleGuard t0).floor.members := by
    rw [Floor.not_mem_members, Floor.entry?_none, Floor.waiting?_none, Floor.isLeaving_false, g4, g1, g2,
      ← Floor.entry?_none, ← Floor.waiting?_none, ← Floor.isLeaving_false]
    refine ⟨h1, ?_, ?_⟩
    · show (s.floor.dropWait c).waiting? c = none
      rw [Floor.waiting?_dropWait]; simp
    · show ((s.floor.dropWait c).dropLeaving c).isLeaving c = false
      rw [Floor.isLeaving_dropLeaving]; simp
  have hm' := Floor.not_mem_members.mp hm
  have href : (Machine.overrideRefused c s.floor.wait (Machine.settleGuard t0)).floorKept ok there := by
    refine h.overrideRefused ?_ ?_ ?_ ?_
    · rw [g4]; rfl
    · rw [g2]; exact List.filter_sublist.map _
    · rw [g3]; rfl
    · intro d; rw [settleGuard_chan]; rfl
  split
  · rename_i hp
    refine State.floorKept.same (s := Machine.joinFloor c .opened _) (a.joinFloor .opened hc hk hm ?_) rfl rfl rfl rfl
      (fun _ => rfl)
    simpa [Floor.placeFree] using hp
  · split
    · exact href
    · rename_i e he
      have hem := Floor.entry?_of_mem (List.mem_of_find?_eq_some he)
      split
      · exact a.overridePending hem hc hk hm
      · split
        · rename_i hr
          obtain ⟨hv1, hv2⟩ := a.ok_of_entry hem
          obtain ⟨hv3, hv4⟩ := a.only_list hem
          have hne : c ≠ e.ch := fun hx => hem (hx ▸ hm'.1)
          have a2 := (a.dropEntry e.ch).addLeaving (Machine.settleGuard t0).sys.blocks hv1 (hot _ hv2)
            (Floor.not_mem_members.mpr ⟨by rw [State.modFloor_floor, Floor.entry?_dropEntry]; simp, hv3, hv4⟩)
            (Floor.leavingRoom_lt hr)
          refine State.floorKept.same (s := Machine.joinFloor c .pending _) (a2.joinFloor .pending hc hk ?_ ?_) rfl rfl rfl
            rfl (fun _ => rfl)
          · rw [Floor.not_mem_members]
            refine ⟨?_, hm'.2.1, ?_⟩
            · show ((Machine.settleGuard t0).floor.dropEntry e.ch).entry? c = none
              rw [Floor.entry?_dropEntry, if_neg hne]; exact hm'.1
            · have hl := hm'.2.2
              rw [Floor.isLeaving_false] at hl ⊢
              show c ∉ ((Machine.settleGuard t0).floor.leaving ++ [_]).map (fun e : LeavingEntry => e.ch)
              simp only [List.map_append, List.mem_append, List.map_cons, List.map_nil, List.mem_singleton, not_or]
              exact ⟨hl, hne⟩
          · exact Nat.lt_of_lt_of_le (Floor.dropEntry_length hem) a.bounded.1
        · split
          · rename_i q hq
            exact a.overridePending (Floor.entry?_of_mem (List.mem_of_find?_eq_some hq)) hc hk hm
          · exact href

/-! ### Floor requests -/

theorem refuseRequest {c : Nat} (h : s.floorKept ok there) : (Machine.refuseRequest c s).floorKept ok there :=
  (h.noAttack c).same rfl rfl rfl rfl (fun _ => rfl)

theorem requestFloor {c : Nat} (h : s.floorKept ok there) (hot : ∀ c, ok c → there c) (hc : c < 32) (hk : ok c)
    (h1 : s.floor.entry? c = none) (h2 : s.floor.waiting? c = none) : (Machine.requestFloor c s).floorKept ok there := by
  unfold Machine.requestFloor
  split
  · exact h.override hot hc hk h1
  · split
    · apply State.floorKept.afterFloor
      unfold Machine.requestFromLeaving
      split
      · rename_i hr
        refine State.floorKept.same (s := Machine.joinWait c _) ((h.dropLeaving c).joinWait hc hk ?_ ?_) rfl rfl rfl rfl
          (fun _ => rfl)
        · rw [Floor.not_mem_members]
          refine ⟨h1, h2, ?_⟩
          rw [State.modFloor_floor, Floor.isLeaving_dropLeaving]; simp
        · exact Floor.waitRoom_lt hr
      · exact h.refuseRequest
    · rename_i hl
      have hl : s.floor.isLeaving c = false := by simpa using hl
      have hm : c ∉ s.floor.members := Floor.not_mem_members.mpr ⟨h1, h2, hl⟩
      apply State.floorKept.afterFloor
      unfold Machine.requestByLists
      dsimp only
      split
      · rename_i hp
        refine State.floorKept.same (s := Machine.joinFloor c .opened s) (h.joinFloor .opened hc hk hm ?_) rfl rfl rfl rfl
          (fun _ => rfl)
        simp only [Bool.and_eq_true] at hp
        simpa [Floor.placeFree] using hp.1
      · split
        · rename_i e he
          split at he
          · rename_i hr
            simp only [Bool.and_eq_true] at hr
            exact h.evict hot (Floor.entry?_of_mem (List.mem_of_find?_eq_some he)) hc hk h1 hl hr.2
          · exact absurd he (by simp)
        · split
          · rename_i hr
            refine State.floorKept.same (s := Machine.joinWait c s) (h.joinWait hc hk hm ?_) rfl rfl rfl rfl (fun _ => rfl)
            exact Floor.waitRoom_lt hr
          · exact h.refuseRequest

/-! ### Departures -/

theorem leaveList {c : Nat} {k : FloorCause} (h : s.floorKept ok there) : (Machine.leaveList c k s).floorKept ok there := by
  unfold Machine.leaveList
  exact ((h.dropEntry c).same (t := floorChange c (s.gate c) .closed k (takeOff c s)) rfl rfl rfl rfl (fun _ => rfl)).afterFloor

theorem leaveWait {c : Nat} {k : FloorCause} (h : s.floorKept ok there) : (Machine.leaveWait c k s).floorKept ok there := by
  unfold Machine.leaveWait
  exact ((h.dropWait c).same (t := floorChange c .waiting .closed k (s.modFloor (fun f => f.dropWait c))) rfl rfl rfl rfl (fun _ => rfl)).afterFloor

theorem removeLeaving {c : Nat} (h : s.floorKept ok there) : (Machine.removeLeaving c s).floorKept ok there :=
  (h.dropLeaving c).afterFloor

theorem dropWaiting {c : Nat} {k : DropCause} (h : s.floorKept ok there) : (Machine.dropWaiting c k s).floorKept ok there := by
  unfold Machine.dropWaiting
  dsimp only
  apply State.floorKept.afterFloor
  exact State.floorKept.same (s := s.modFloor (fun f => f.dropWait c)) (h.dropWait c) rfl rfl rfl rfl (fun _ => rfl)

theorem endTalk {c n : Nat} (h : s.floorKept ok there) : (Machine.endTalk c n s).floorKept ok there := by
  unfold Machine.endTalk
  dsimp only
  apply State.floorKept.afterFloor
  exact State.floorKept.same (s := s.modFloor (fun f => f.dropEntry c)) (h.dropEntry c) rfl rfl rfl rfl (fun _ => rfl)

theorem removeFromFloor {c : Nat} {k : FloorCause} (h : s.floorKept ok there) :
    (Machine.removeFromFloor c k s).floorKept ok there := by
  unfold Machine.removeFromFloor
  dsimp only
  have h0 := h.noAttack c
  split
  · exact h0.leaveList
  · split
    · exact h0.leaveWait
    · split
      · exact h0.removeLeaving
      · exact h0

end State.floorKept

/-! ### A channel taken off -/

theorem leaveList_off {ok there : Nat → Prop} {c : Nat} {k : FloorCause} {s : State} (h : s.floorKept ok there)
    (hc : s.floor.entry? c ≠ none) :
    (leaveList c k s).floor.entry? c = none ∧ (leaveList c k s).floor.waiting? c = none
      ∧ (leaveList c k s).floor.isLeaving c = false := by
  have hw := h.only_list hc
  have h1 : (takeOff c s).floor.entry? c = none := by
    show (s.floor.dropEntry c).entry? c = none
    rw [Floor.entry?_dropEntry]; simp
  unfold leaveList
  dsimp only
  have := afterFloor_off (c := c) (s := floorChange c (s.gate c) .closed k (takeOff c s)) h1 hw.1
  refine ⟨this.1, this.2, ?_⟩
  rw [Floor.isLeaving_false, (afterFloor_floor _).1, ← Floor.isLeaving_false]
  exact hw.2

theorem leaveWait_off {ok there : Nat → Prop} {c : Nat} {k : FloorCause} {s : State} (h : s.floorKept ok there)
    (hc : s.floor.waiting? c ≠ none) :
    (leaveWait c k s).floor.entry? c = none ∧ (leaveWait c k s).floor.waiting? c = none
      ∧ (leaveWait c k s).floor.isLeaving c = false := by
  have hw := h.only_wait hc
  have h1 : (s.floor.dropWait c).waiting? c = none := by rw [Floor.waiting?_dropWait]; simp
  unfold leaveWait
  have := afterFloor_off (c := c) (s := floorChange c .waiting .closed k (s.modFloor (fun f => f.dropWait c))) hw.1 h1
  refine ⟨this.1, this.2, ?_⟩
  rw [Floor.isLeaving_false, (afterFloor_floor _).1, ← Floor.isLeaving_false]
  exact hw.2

/-- A channel that became muted or left ONLINE is neither on the floor nor waiting, its gate not ATTACK (R20, R67). -/
theorem removeFromFloor_off {ok there : Nat → Prop} {c : Nat} {k : FloorCause} {s : State} (h : s.floorKept ok there)
    (hc : c < 42) :
    (removeFromFloor c k s).floor.entry? c = none ∧ (removeFromFloor c k s).floor.waiting? c = none
      ∧ ((removeFromFloor c k s).chan c).attack = 0
      ∧ (k = .left → (removeFromFloor c k s).floor.isLeaving c = false) := by
  unfold removeFromFloor
  dsimp only
  have h0 := h.noAttack c
  have ha : ((s.modChan c (fun k => { k with attack := 0 })).chan c).attack = 0 := by
    rw [State.chan_modChan_self _ _ hc]
  generalize s.modChan c (fun k => { k with attack := 0 }) = t at h0 ha ⊢
  split
  · rename_i he
    have hl := leaveList_off (k := k) h0 (Option.isSome_iff_ne_none.mp he)
    refine ⟨hl.1, hl.2.1, ?_, fun _ => hl.2.2⟩
    unfold leaveList; exact afterFloor_attack ha
  · rename_i he
    have he : t.floor.entry? c = none := by simpa using he
    split
    · rename_i hw
      have hl := leaveWait_off (k := k) h0 (Option.isSome_iff_ne_none.mp hw)
      refine ⟨hl.1, hl.2.1, ?_, fun _ => hl.2.2⟩
      unfold leaveWait; exact afterFloor_attack ha
    · rename_i hw
      have hw : t.floor.waiting? c = none := by simpa using hw
      split
      · have h1 := afterFloor_off (c := c) (s := t.modFloor (fun f => f.dropLeaving c)) he hw
        refine ⟨h1.1, h1.2, afterFloor_attack (s := t.modFloor (fun f => f.dropLeaving c)) ha, fun _ => ?_⟩
        rw [Floor.isLeaving_false, (afterFloor_floor _).1, ← Floor.isLeaving_false]
        show (t.floor.dropLeaving c).isLeaving c = false
        rw [Floor.isLeaving_dropLeaving]; simp
      · rename_i hl
        refine ⟨he, hw, ha, fun hk => ?_⟩
        subst hk
        simpa using hl

/-! ### Guard -/

theorem guarded_congr {f g : Floor} (h1 : g.guard = f.guard) (h2 : g.hasPending = f.hasPending)
    (h3 : g.leaving = f.leaving) : f.guarded → g.guarded := by
  unfold Floor.guarded; rw [h1, h2, h3]; exact id

theorem restartHolds_hasPending (f : Floor) : f.restartHolds.hasPending = f.hasPending := by
  simp only [Floor.hasPending, Floor.restartHolds, List.any_map]
  congr 1; funext e
  simp only [Function.comp]; split <;> rfl

/-- After every event of the Floor Controller the guard timer stands as R62 says. -/
theorem afterFloor_guarded (s : State) : (afterFloor s).floor.guarded := by
  refine serve_keep (P := fun t => t.floor.guarded) ?_ _ _ (settleGuard_guarded s)
  intro t w ws h _ hw
  rw [admitHead_floor hw]
  refine guarded_congr (f := t.floor) rfl ?_ rfl h
  have := restartHolds_hasPending t.floor
  simp only [Floor.hasPending, List.any_append] at this ⊢
  rw [this]; simp

theorem modEntry_hasPending {f : Floor} {c : Nat} {g : FloorEntry → FloorEntry} (h : ∀ e, (g e).st = e.st) :
    (f.modEntry c g).hasPending = f.hasPending := by
  simp only [Floor.hasPending, Floor.modEntry, List.any_map]
  congr 1; funext e
  simp only [Function.comp]; split <;> simp [h]

theorem modEntry_chs {f : Floor} {c : Nat} {g : FloorEntry → FloorEntry} (h : ∀ e, (g e).ch = e.ch) :
    (f.modEntry c g).list.map (fun e => e.ch) = f.list.map (fun e => e.ch) := by
  simp only [Floor.modEntry, List.map_map]
  apply List.map_congr_left
  intro e _
  simp only [Function.comp]; split <;> simp [h]

end Sys2Proof.Machine
end

