-- ==== Sys2Proof/Laws/Shape.lean ====
section
/-! SUPPORT. The shape of every command: a request, an event, or one of the seven others. -/

set_option Elab.async false

namespace Sys2Proof.Machine

open Sys2Proof

/-- A request is taken by the frame of every request, with checks that never answer OK. -/
theorem exec_request {i : Instr} {p : Port} {tag : Byte} {kind : Nat} (h : i.request = some (p, tag, kind)) :
    ∃ c r b, (∀ s, exec i s = takeRequest p tag kind c r b s) ∧ ∀ t, (c t).all (fun x => x.2 != .ok) = true := by
  cases i <;> simp only [Instr.request, Option.some.injEq, Prod.mk.injEq, reduceCtorEq] at h
  all_goals
    obtain ⟨rfl, rfl, rfl⟩ := h
    exact ⟨_, _, _, fun _ => rfl, fun _ => rfl⟩

/-- An event as a command. -/
theorem exec_event {i : Instr} {e : Event} (h : i.event = some e) (s : State) : exec i s = .next (runEvent e s) := by
  cases i <;> simp only [Instr.event, Option.some.injEq, reduceCtorEq] at h
  all_goals
    subst h
    rfl

/-- Every command is one of these. -/
theorem command_shape (i : Instr) :
    (∃ p t k, i.request = some (p, t, k)) ∨ (∃ e, i.event = some e) ∨ (∃ inp, i = .blockBoundary inp)
      ∨ (∃ p bs, i = .unknownKindFrame p bs) ∨ (∃ p n, i = .readTransaction p n)
      ∨ (∃ p b n, i = .transactionIgnored p b n) ∨ (∃ a b, i = .powerOnReset a b) ∨ (∃ a b, i = .pinReset a b)
      ∨ i = .resetPinAsserted := by
  cases i <;> simp [Instr.request, Instr.event]

/-- The bytes of a known kind are taken as a request of that kind. -/
theorem takeBody_request (p : Port) (tag : Byte) (kind : Nat) (b : List Byte) :
    (∃ i, i.request = some (p, tag, kind) ∧ ∀ s, takeBody p tag kind b s = exec i s)
      ∨ ∀ s, takeBody p tag kind b s = .next s := by
  unfold takeBody
  split <;> first
    | exact .inr (fun _ => rfl)
    | skip
  all_goals left
  · exact ⟨.status p tag, rfl, fun _ => rfl⟩
  · exact ⟨.noticeRead p tag _, rfl, fun _ => rfl⟩
  · exact ⟨.noticeMask p tag _, rfl, fun _ => rfl⟩
  · exact ⟨.channelRead p tag _ _, rfl, fun _ => rfl⟩
  · exact ⟨.channelWrite p tag _ _ _ _, rfl, fun _ => rfl⟩
  · exact ⟨.chairSet p tag _, rfl, fun _ => rfl⟩
  · exact ⟨.claimSet p tag _ _ _, rfl, fun _ => rfl⟩
  · exact ⟨.claimRelease p tag _ _ _, rfl, fun _ => rfl⟩
  · exact ⟨.claimsClear p tag _ _, rfl, fun _ => rfl⟩
  · exact ⟨.farClear p tag, rfl, fun _ => rfl⟩
  · exact ⟨.handLower p tag _ _, rfl, fun _ => rfl⟩
  · exact ⟨.privacyConfig p tag _ _, rfl, fun _ => rfl⟩
  · exact ⟨.privacyRelease p tag, rfl, fun _ => rfl⟩
  · exact ⟨.modeSet p tag _, rfl, fun _ => rfl⟩
  · exact ⟨.floorConfig p tag _, rfl, fun _ => rfl⟩
  · exact ⟨.grant p tag _ _, rfl, fun _ => rfl⟩
  · exact ⟨.revoke p tag _, rfl, fun _ => rfl⟩
  · exact ⟨.waitDrop p tag _, rfl, fun _ => rfl⟩
  · exact ⟨.crosspointRead p tag _ _ _, rfl, fun _ => rfl⟩
  · exact ⟨.crosspointWrite p tag _ _ _ _, rfl, fun _ => rfl⟩
  · exact ⟨.busGainWrite p tag _ _, rfl, fun _ => rfl⟩
  · exact ⟨.siteState p tag _ _, rfl, fun _ => rfl⟩
  · exact ⟨.meterConfig p tag _, rfl, fun _ => rfl⟩
  · exact ⟨.meterRead p tag _ _, rfl, fun _ => rfl⟩
  · exact ⟨.watchSet p tag _ _ _ _ _ _, rfl, fun _ => rfl⟩
  · exact ⟨.silenceConfig p tag _, rfl, fun _ => rfl⟩
  · exact ⟨.silenceRaise p tag, rfl, fun _ => rfl⟩
  · exact ⟨.silenceRestore p tag, rfl, fun _ => rfl⟩
  · exact ⟨.toneStart p tag _ _ _ _ _ _, rfl, fun _ => rfl⟩
  · exact ⟨.toneStop p tag, rfl, fun _ => rfl⟩
  · exact ⟨.sceneStore p tag _ _, rfl, fun _ => rfl⟩
  · exact ⟨.sceneLoad p tag _, rfl, fun _ => rfl⟩
  · exact ⟨.sceneAbort p tag, rfl, fun _ => rfl⟩
  · exact ⟨.lineStart p tag _, rfl, fun _ => rfl⟩
  · exact ⟨.lineStop p tag _, rfl, fun _ => rfl⟩
  · exact ⟨.lineTest p tag _ _, rfl, fun _ => rfl⟩
  · exact ⟨.podSleep p tag _ _, rfl, fun _ => rfl⟩
  · exact ⟨.podWake p tag _ _, rfl, fun _ => rfl⟩
  · exact ⟨.podCounters p tag _ _, rfl, fun _ => rfl⟩
  · exact ⟨.podIdentity p tag _ _, rfl, fun _ => rfl⟩
  · exact ⟨.powerStandby p tag _, rfl, fun _ => rfl⟩
  · exact ⟨.powerWake p tag, rfl, fun _ => rfl⟩
  · exact ⟨.conferenceClear p tag, rfl, fun _ => rfl⟩
  · exact ⟨.rightsSet p tag _, rfl, fun _ => rfl⟩

/-- A request answers, whether its checks pass or not, and keeps what the answer, settling and its effect keep. -/
theorem takeRequest_cases {s : State} (h : s.sys.inReset = none) (p : Port) (tag : Byte) (kind : Nat)
    (c : State → List (Bool × Result)) (r : State → State) (b : State → State → List Byte) :
    (firstFail (c (settle s)) = none
        ∧ takeRequest p tag kind c r b s = .next (okReply p tag kind (b (settle s) (r (settle s))) (r (settle s))))
      ∨ ∃ x, firstFail (c (settle s)) = some x ∧ takeRequest p tag kind c r b s = .next (failReply p tag kind x (settle s)) := by
  cases hc : firstFail (c (settle s)) with
  | none => exact .inl ⟨rfl, takeRequest_ok h hc⟩
  | some x => exact .inr ⟨x, rfl, takeRequest_fail h hc⟩

/-- The first failed check's result is one of the results of the checks. -/
theorem firstFail_mem {l : List (Bool × Result)} {r : Result} (h : firstFail l = some r) : ∃ x ∈ l, x.2 = r := by
  induction l with
  | nil => simp [firstFail] at h
  | cons x l ih =>
    obtain ⟨ok, r'⟩ := x
    unfold firstFail at h
    split at h
    · obtain ⟨y, hy, hr⟩ := ih h
      exact ⟨y, List.mem_cons_of_mem _ hy, hr⟩
    · exact ⟨_, List.mem_cons_self .., Option.some.inj h⟩

end Sys2Proof.Machine
end

