-- ==== Sys2Proof/Laws/Sine.lean ====
section
/-! SUPPORT. The sine of Machine/Audio.lean against the sine of the real numbers. -/

namespace Sys2Proof.Laws

open Sys2Proof Sys2Proof.Machine

/-- A term of the sine's series. -/
noncomputable def sinTerm (x : ℝ) (j : ℕ) : ℝ := (-1) ^ j * x ^ (2 * j + 1) / (2 * j + 1).factorial

theorem sinTerm_succ (x : ℝ) (j : ℕ) :
    sinTerm x (j + 1) = -(sinTerm x j * x ^ 2) / ((2 * (j + 1)) * (2 * (j + 1) + 1)) := by
  have hf : ((2 * (j + 1) + 1).factorial : ℝ) = (2 * (j + 1) + 1) * ((2 * (j + 1)) * (2 * j + 1).factorial) := by
    rw [show 2 * (j + 1) + 1 = (2 * j + 1 + 1) + 1 by ring, Nat.factorial_succ, Nat.factorial_succ]
    push_cast; ring
  have h0 : ((2 * j + 1).factorial : ℝ) ≠ 0 := by exact_mod_cast Nat.factorial_ne_zero _
  unfold sinTerm
  rw [hf]
  field_simp
  ring

/-- The odd terms of the exponential series of `x * I` are those of the sine. -/
theorem exp_terms_im (x : ℝ) (n : ℕ) :
    (∑ m ∈ Finset.range (2 * n), ((x : ℂ) * Complex.I) ^ m / (m.factorial : ℂ)).im
      = ∑ j ∈ Finset.range n, sinTerm x j := by
  induction n with
  | zero => simp
  | succ n ih =>
    have e1 : (((x : ℂ) * Complex.I) ^ (2 * n) / ((2 * n).factorial : ℂ)).im = 0 := by
      rw [mul_pow, pow_mul Complex.I, Complex.I_sq]
      have : ((x : ℂ) ^ (2 * n) * (-1) ^ n / ((2 * n).factorial : ℂ))
          = ((x ^ (2 * n) * (-1) ^ n / ((2 * n).factorial : ℝ) : ℝ) : ℂ) := by push_cast; rfl
      rw [this, Complex.ofReal_im]
    have e2 : (((x : ℂ) * Complex.I) ^ (2 * n + 1) / ((2 * n + 1).factorial : ℂ)).im = sinTerm x n := by
      rw [mul_pow, pow_succ Complex.I, pow_mul Complex.I, Complex.I_sq]
      have : ((x : ℂ) ^ (2 * n + 1) * ((-1) ^ n * Complex.I) / ((2 * n + 1).factorial : ℂ))
          = ((sinTerm x n : ℝ) : ℂ) * Complex.I := by
        unfold sinTerm; push_cast; ring
      rw [this]; simp
    rw [show 2 * (n + 1) = (2 * n + 1) + 1 by ring, Finset.sum_range_succ, Finset.sum_range_succ,
      Complex.add_im, Complex.add_im, ih, e1, e2, Finset.sum_range_succ]
    ring

/-- 24 terms of the series give the sine to 2^-96 up to a quarter turn. -/
theorem sin_near_terms (x : ℝ) (h0 : 0 ≤ x) (h2 : x ≤ 2) :
    |Real.sin x - ∑ j ∈ Finset.range 24, sinTerm x j| ≤ 1 / 2 ^ 96 := by
  have hn : ‖(x : ℂ) * Complex.I‖ = x := by simp [abs_of_nonneg h0]
  have hb := Complex.exp_bound' (x := (x : ℂ) * Complex.I) (n := 48) (by rw [hn]; norm_num; linarith)
  have him := (Complex.abs_im_le_norm _).trans hb
  rw [Complex.sub_im, Complex.exp_ofReal_mul_I_im, show (48 : ℕ) = 2 * 24 by rfl, exp_terms_im, hn] at him
  refine him.trans ?_
  have hx : x ^ (2 * 24) ≤ 2 ^ (2 * 24) := pow_le_pow_left₀ h0 h2 _
  calc x ^ (2 * 24) / ((2 * 24).factorial : ℝ) * 2 ≤ 2 ^ (2 * 24) / ((2 * 24).factorial : ℝ) * 2 := by gcongr
    _ ≤ 1 / 2 ^ 96 := by norm_num [Nat.factorial]

theorem sinTerm_le (x : ℝ) (h0 : 0 ≤ x) (h2 : x ≤ 2) (j : ℕ) : |sinTerm x j| ≤ 2 := by
  induction j with
  | zero => simp [sinTerm, abs_of_nonneg h0, h2]
  | succ j ih =>
    rw [sinTerm_succ, abs_div, abs_neg, abs_mul, abs_of_nonneg (sq_nonneg x),
      abs_of_nonneg (by positivity : (0 : ℝ) ≤ 2 * (j + 1) * (2 * (j + 1) + 1))]
    rw [div_le_iff₀ (by positivity)]
    have hj : (0 : ℝ) ≤ j := by positivity
    have hx2 : x ^ 2 ≤ 4 := by nlinarith
    have := mul_le_mul ih hx2 (sq_nonneg x) (by norm_num : (0 : ℝ) ≤ 2)
    nlinarith

/-- Division of whole numbers rounds down by less than 1. -/
theorem int_div_near (a : Int) (d : Nat) (h : 0 < d) : |((a / (d : Int) : Int) : ℝ) - (a : ℝ) / d| ≤ 1 := by
  have hd : (0 : ℝ) < d := by exact_mod_cast h
  have h1 : (d : Int) * (a / (d : Int)) ≤ a := Int.mul_ediv_self_le (by omega)
  have h2 : a < (d : Int) * (a / (d : Int)) + d := Int.lt_mul_ediv_self_add (by omega)
  have h1' : (d : ℝ) * ((a / (d : Int) : Int) : ℝ) ≤ a := by exact_mod_cast h1
  have h2' : (a : ℝ) < (d : ℝ) * ((a / (d : Int) : Int) : ℝ) + d := by exact_mod_cast h2
  rw [abs_le]
  constructor
  · have : (a : ℝ) / d ≤ ((a / (d : Int) : Int) : ℝ) + 1 := by rw [div_le_iff₀ hd]; nlinarith
    linarith
  · have : ((a / (d : Int) : Int) : ℝ) ≤ (a : ℝ) / d := by rw [le_div_iff₀ hd]; nlinarith
    linarith

/-- The scale. -/
theorem unit_real : ((unit : Nat) : ℝ) = 2 ^ 96 := by norm_num [unit]

/-- One term of `sineSeries` follows the term of the series: an error of 3 stays one of 3. -/
theorem sineTerm_step (x : ℝ) (x2 t : Int) (j : ℕ) (h0 : 0 ≤ x) (h2 : x ≤ 8 / 5)
    (hx2 : |(x2 : ℝ) - (unit : Nat) * x ^ 2| ≤ 1) (ht : |(t : ℝ) - (unit : Nat) * sinTerm x j| ≤ 3) :
    |((-(t * x2 / (unit : Int)) / ((2 * (j + 1)) * (2 * (j + 1) + 1) : Nat) : Int) : ℝ)
      - (unit : Nat) * sinTerm x (j + 1)| ≤ 3 := by
  have hT := sinTerm_le x h0 (by linarith) j
  have hq := int_div_near (t * x2) unit (by decide)
  have hr := int_div_near (-(t * x2 / (unit : Int))) ((2 * (j + 1)) * (2 * (j + 1) + 1)) (by positivity)
  rw [sinTerm_succ]
  generalize t * x2 / (unit : Int) = q at hq hr ⊢
  generalize ((-q / (((2 * (j + 1)) * (2 * (j + 1) + 1) : Nat) : Int) : Int) : ℝ) = t' at hr ⊢
  generalize sinTerm x j = T at hT ht ⊢
  push_cast at hq hr ⊢
  rw [unit_real] at *
  have hj : (0 : ℝ) ≤ j := by positivity
  have hd : (6 : ℝ) ≤ 2 * (j + 1) * (2 * (j + 1) + 1) := by nlinarith
  generalize (2 * ((j : ℝ) + 1) * (2 * (j + 1) + 1)) = d at hd hr ⊢
  have hx : x ^ 2 ≤ 64 / 25 := by nlinarith
  have hxx := sq_nonneg x
  generalize x ^ 2 = y at *
  generalize (t : ℝ) = t at *
  generalize (x2 : ℝ) = x2 at *
  generalize (q : ℝ) = q at *
  -- the product, before it is divided
  have key : |t * x2 / 2 ^ 96 - 2 ^ 96 * (T * y)| ≤ 97 / 10 := by
    have e : t * x2 / 2 ^ 96 - 2 ^ 96 * (T * y)
        = t / 2 ^ 96 * (x2 - 2 ^ 96 * y) + y * (t - 2 ^ 96 * T) := by field_simp; ring
    have hts : |t / 2 ^ 96| ≤ 2 + 3 / 2 ^ 96 := by
      have : t / 2 ^ 96 = (t - 2 ^ 96 * T) / 2 ^ 96 + T := by field_simp; ring
      rw [this]
      refine (abs_add_le _ _).trans ?_
      rw [abs_div, abs_of_nonneg (by positivity : (0 : ℝ) ≤ 2 ^ 96)]
      have := div_le_div_of_nonneg_right ht (by positivity : (0 : ℝ) ≤ 2 ^ 96)
      linarith
    rw [e]
    refine (abs_add_le _ _).trans ?_
    rw [abs_mul, abs_mul, abs_of_nonneg hxx]
    have a1 := mul_le_mul hts hx2 (abs_nonneg _) (by positivity)
    have a2 := mul_le_mul hx ht (abs_nonneg _) (by norm_num)
    have : (3 : ℝ) / 2 ^ 96 ≤ 1 / 100 := by norm_num
    linarith
  have hd0 : 0 < d := by linarith
  have hsum : |(-q) / d - 2 ^ 96 * (-(T * y) / d)| ≤ 107 / 60 := by
    have e : (-q) / d - 2 ^ 96 * (-(T * y) / d) = -((q - t * x2 / 2 ^ 96) + (t * x2 / 2 ^ 96 - 2 ^ 96 * (T * y))) / d := by
      field_simp; ring
    rw [e, abs_div, abs_neg, abs_of_pos hd0, div_le_iff₀ hd0]
    have := (abs_add_le (q - t * x2 / 2 ^ 96) (t * x2 / 2 ^ 96 - 2 ^ 96 * (T * y))).trans (add_le_add hq key)
    nlinarith
  have := abs_sub_le t' ((-q) / d) (2 ^ 96 * (-(T * y) / d))
  linarith

/-- The sum that `sineSeries` builds. -/
theorem sineSeries_near (x : ℝ) (x2 : Int) (h0 : 0 ≤ x) (h2 : x ≤ 8 / 5)
    (hx2 : |(x2 : ℝ) - (unit : Nat) * x ^ 2| ≤ 1) (n : ℕ) :
    ∀ (j : ℕ) (t acc : Int), |(t : ℝ) - (unit : Nat) * sinTerm x j| ≤ 3 →
      |((sineSeries n (j + 1) x2 t acc : Int) : ℝ)
        - (acc + (unit : Nat) * ∑ i ∈ Finset.range n, sinTerm x (j + 1 + i))| ≤ 3 * n := by
  induction n with
  | zero => intro j t acc _; simp [sineSeries]
  | succ n ih =>
    intro j t acc ht
    have hs := sineTerm_step x x2 t j h0 h2 hx2 ht
    have := ih (j + 1) _ (acc + -(t * x2 / (unit : Int)) / ((2 * (j + 1)) * (2 * (j + 1) + 1) : Nat)) hs
    unfold sineSeries
    rw [Finset.sum_range_succ']
    rw [add_zero, Finset.sum_congr rfl (fun i _ => by rw [show j + 1 + (i + 1) = j + 1 + 1 + i by ring] :
      ∀ i ∈ Finset.range n, sinTerm x (j + 1 + (i + 1)) = sinTerm x (j + 1 + 1 + i))]
    generalize -(t * x2 / (unit : Int)) / (((2 * (j + 1)) * (2 * (j + 1) + 1) : Nat) : Int) = t' at *
    generalize ((sineSeries n (j + 1 + 1) x2 t' (acc + t') : Int) : ℝ) = r at *
    push_cast at *
    generalize ∑ i ∈ Finset.range n, sinTerm x (j + 1 + 1 + i) = S at *
    rw [abs_le] at *
    constructor <;> nlinarith [this.1, this.2, hs.1, hs.2]

/-- Pi to 20 places. -/
theorem piNum_near : |(piNum : ℝ) / unit - Real.pi| ≤ 1 / 10 ^ 20 := by
  have h1 := Real.pi_gt_d20
  have h2 := Real.pi_lt_d20
  have a : (3.14159265358979323846 : ℝ) < (piNum : ℝ) / unit := by norm_num [piNum, unit]
  have b : (piNum : ℝ) / unit < 3.14159265358979323847 := by norm_num [piNum, unit]
  rw [abs_le]
  constructor <;> norm_num at * <;> linarith

/-- `sineQuarter` is the sine of the angle to 2^-64. -/
theorem sineQuarter_near (k n : Nat) (hn : 0 < n) (hk : 4 * k ≤ n) :
    |((sineQuarter k n : Int) : ℝ) - 2 ^ 96 * Real.sin (2 * Real.pi * k / n)| ≤ 2 ^ 32 := by
  unfold sineQuarter
  have hn' : (0 : ℝ) < n := by exact_mod_cast hn
  split
  · rename_i h
    have hk0 : (k : ℝ) ≠ 0 := by
      intro h0
      norm_cast at h0
      omega
    have e : 2 * Real.pi * k / n = Real.pi / 2 := by
      rw [← h]
      push_cast
      field_simp
      norm_num
    rw [e, Real.sin_pi_div_two]
    norm_num [unit]
  · have hU : (0 : ℝ) < 2 ^ 96 := by positivity
    -- the angle as the model has it
    have hfloor := int_div_near ((2 * piNum * k : Nat) : Int) n hn
    set x : Int := ((2 * piNum * k / n : Nat) : Int) with hx
    have hxe : ((2 * piNum * k : Nat) : Int) / (n : Int) = x := by rw [hx]; norm_cast
    rw [hxe] at hfloor
    have hx0 : (0 : ℝ) ≤ x := by rw [hx]; positivity
    have hq : (k : ℝ) / n ≤ 1 / 4 := by
      rw [div_le_iff₀ hn']
      have : (4 : ℝ) * k ≤ n := by exact_mod_cast hk
      linarith
    have hq0 : (0 : ℝ) ≤ (k : ℝ) / n := by positivity
    have hpi := piNum_near
    rw [unit_real] at hpi
    set X : ℝ := x / 2 ^ 96 with hX
    have hang : |X - 2 * Real.pi * k / n| ≤ 2 / 10 ^ 20 := by
      have e : X - 2 * Real.pi * k / n
          = (x - ((2 * piNum * k : Nat) : Int) / (n : ℝ)) / 2 ^ 96 + 2 * ((k : ℝ) / n) * (piNum / 2 ^ 96 - Real.pi) := by
        rw [hX]
        push_cast
        field_simp
        ring
      rw [e]
      refine (abs_add_le _ _).trans ?_
      rw [abs_div, abs_of_pos hU, abs_mul, abs_of_nonneg (by positivity : (0 : ℝ) ≤ 2 * ((k : ℝ) / n))]
      have a1 := div_le_div_of_nonneg_right hfloor hU.le
      have a2 : 2 * ((k : ℝ) / n) * |(piNum : ℝ) / 2 ^ 96 - Real.pi| ≤ (1 / 2) * (1 / 10 ^ 20) :=
        mul_le_mul (by linarith) hpi (abs_nonneg _) (by norm_num)
      norm_num at a1 a2 ⊢
      linarith
    have hX0 : 0 ≤ X := by positivity
    have hX2 : X ≤ 8 / 5 := by
      have h1 := Real.pi_lt_d20
      have h2 : 2 * Real.pi * k / n ≤ 2 * Real.pi * (1 / 4) := by
        rw [mul_div_assoc]
        exact mul_le_mul_of_nonneg_left hq (by positivity)
      have := (abs_le.1 hang).2
      norm_num at *
      linarith
    have hxX : (x : ℝ) = 2 ^ 96 * X := by rw [hX]; field_simp
    have hsq : |((x * x / (unit : Int) : Int) : ℝ) - (unit : Nat) * X ^ 2| ≤ 1 := by
      have := int_div_near (x * x) unit (by decide)
      rw [unit_real] at *
      push_cast at this
      rw [hxX] at this
      have e : 2 ^ 96 * X * (2 ^ 96 * X) / 2 ^ 96 = 2 ^ 96 * X ^ 2 := by field_simp
      rwa [e] at this
    have h3 : |(x : ℝ) - (unit : Nat) * sinTerm X 0| ≤ 3 := by
      rw [unit_real, hxX]; simp [sinTerm]
    have hs := sineSeries_near X _ hX0 hX2 hsq 23 0 x x h3
    have hsin := sin_near_terms X hX0 (by linarith)
    have hl := Real.abs_sin_sub_sin_le X (2 * Real.pi * k / n)
    rw [Finset.sum_range_succ'] at hsin
    simp only [Nat.zero_add] at hs
    rw [Finset.sum_congr rfl (fun i _ => by rw [Nat.add_comm 1 i] :
      ∀ i ∈ Finset.range 23, sinTerm X (1 + i) = sinTerm X (i + 1)), unit_real, hxX] at hs
    have h0 : sinTerm X 0 = X := by simp [sinTerm]
    rw [h0] at hsin
    generalize ∑ i ∈ Finset.range 23, sinTerm X (i + 1) = S at hs hsin
    generalize Real.sin X = sx at hsin hl
    generalize Real.sin (2 * Real.pi * k / n) = sy at hl ⊢
    generalize ((sineSeries 23 1 (x * x / (unit : Int)) x x : Int) : ℝ) = r at hs ⊢
    have hl' := hl.trans hang
    rw [abs_le] at *
    constructor <;> norm_num at * <;> nlinarith [hs.1, hs.2, hsin.1, hsin.2, hl'.1, hl'.2]

/-- The first half of the turn: past a quarter the sine runs back. -/
theorem sineHalf_near (h n : Nat) (hn : 0 < n) (h4 : n % 4 = 0) (hh : 2 * h ≤ n) :
    |((sineQuarter (if n < 4 * h then n / 2 - h else h) n : Int) : ℝ) - 2 ^ 96 * Real.sin (2 * Real.pi * h / n)|
      ≤ 2 ^ 32 := by
  have hn' : (n : ℝ) ≠ 0 := by positivity
  split
  · have := sineQuarter_near (n / 2 - h) n hn (by omega)
    have e : Real.sin (2 * Real.pi * h / n) = Real.sin (2 * Real.pi * ((n / 2 - h : Nat) : ℝ) / n) := by
      rw [← Real.sin_pi_sub]
      congr 1
      rw [Nat.cast_sub (by omega), Nat.cast_div (by omega) (by norm_num)]
      field_simp
      push_cast
      ring
    rwa [e]
  · exact sineQuarter_near h n hn (by omega)

/-- `sine` is the sine of the angle to 2^-64. -/
theorem sine_near (k n : Nat) (hn : 0 < n) (h4 : n % 4 = 0) :
    |((sine k n : Int) : ℝ) - 2 ^ 96 * Real.sin (2 * Real.pi * k / n)| ≤ 2 ^ 32 := by
  have hn' : (n : ℝ) ≠ 0 := by positivity
  have hlt := Nat.mod_lt k hn
  have hturn : Real.sin (2 * Real.pi * k / n) = Real.sin (2 * Real.pi * ((k % n : Nat) : ℝ) / n) := by
    have hk : (k : ℝ) = n * ((k / n : Nat) : ℝ) + ((k % n : Nat) : ℝ) := by exact_mod_cast (Nat.div_add_mod k n).symm
    have e : 2 * Real.pi * k / n = 2 * Real.pi * ((k % n : Nat) : ℝ) / n + ((k / n : Nat) : ℝ) * (2 * Real.pi) := by
      rw [hk]
      field_simp
      ring
    rw [e, Real.sin_add_nat_mul_two_pi]
  rw [hturn]
  unfold sine
  generalize k % n = r at *
  by_cases hr : n ≤ 2 * r
  · simp only [hr, if_true]
    have := sineHalf_near (r - n / 2) n hn h4 (by omega)
    have e : Real.sin (2 * Real.pi * r / n) = -Real.sin (2 * Real.pi * ((r - n / 2 : Nat) : ℝ) / n) := by
      rw [← Real.sin_add_pi]
      congr 1
      rw [Nat.cast_sub (by omega), Nat.cast_div (by omega) (by norm_num)]
      field_simp
      push_cast
      ring
    rw [e]
    push_cast
    rw [show ∀ a b : ℝ, -a - 2 ^ 96 * -b = -(a - 2 ^ 96 * b) by intro a b; ring, abs_neg]
    exact this
  · simp only [hr, if_false]
    exact sineHalf_near r n hn h4 (by omega)

end Sys2Proof.Laws
end

