-- ==== Sys2Proof/Tests/Slice0.lean ====
section
/-! SUPPORT. Tests: ill-formed commands that the well-formedness check refuses, steps of worked cases of the manual,
and for every statement with hypotheses a state and operands that meet them, clause by clause. -/

set_option Elab.async false

namespace Sys2Proof.Tests

open Sys2Proof Sys2Proof.Machine

/-! ### Ill-formed commands: one for each check -/

def absent : OptField := ⟨0, 0⟩
def given (v : Int) : OptField := ⟨1, v⟩

def noFloor : FloorFields :=
  ⟨absent, absent, absent, absent, absent, absent, absent, absent, absent, absent, absent, absent, absent⟩
def noSilence : SilenceFields :=
  ⟨absent, absent, absent, absent, absent, absent, absent, absent, absent, absent, absent, absent, absent⟩
def quietIn : BoundaryIn := ⟨false, false, [], [], [], [], []⟩
def unit7 : Identity := ⟨1, 1, 0, 7, true⟩

/-- One ill-formed command for each field of the requests that has a width. -/
def illRequests : List Instr :=
  [.noticeRead .room 0 256, .noticeMask .room 0 (given 4294967296), .noticeMask .room 0 ⟨256, 0⟩,
    .channelRead .room 0 256 1, .channelRead .room 0 0 256, .channelWrite .room 0 256 absent absent absent,
    .channelWrite .room 0 0 (given 128) absent absent, .channelWrite .room 0 0 (given (-129)) absent absent,
    .channelWrite .room 0 0 absent (given 256) absent, .channelWrite .room 0 0 absent absent (given (-1)),
    .chairSet .room 0 256, .siteState .room 0 256 0, .siteState .room 0 0 256] ++
  [.claimSet .room 0 256 0 0, .claimSet .room 0 0 256 0, .claimSet .room 0 0 0 256, .claimRelease .room 0 256 0 0,
    .claimRelease .room 0 0 256 0, .claimRelease .room 0 0 0 256, .claimsClear .room 0 256 0, .claimsClear .room 0 0 256,
    .handLower .room 0 256 0, .handLower .room 0 0 256, .privacyConfig .room 0 (given 256) absent,
    .privacyConfig .room 0 absent (given 256), .modeSet .room 0 256] ++
  [.floorConfig .room 0 { noFloor with maxOpen := given 256 }, .floorConfig .room 0 { noFloor with openMargin := given 256 },
    .floorConfig .room 0 { noFloor with closeMargin := given 256 }, .floorConfig .room 0 { noFloor with attack := given 256 },
    .floorConfig .room 0 { noFloor with holdTime := given 65536 }, .floorConfig .room 0 { noFloor with waitMax := given 65536 },
    .floorConfig .room 0 { noFloor with guard := given 256 }, .floorConfig .room 0 { noFloor with lastMic := given 256 },
    .floorConfig .room 0 { noFloor with ramp := given 256 }, .floorConfig .room 0 { noFloor with talkLimit := given 65536 },
    .floorConfig .room 0 { noFloor with talkWarn := given 256 }, .floorConfig .room 0 { noFloor with autoGrant := given 256 },
    .floorConfig .room 0 { noFloor with chairDuck := given 128 }] ++
  [.grant .room 0 256 0, .grant .room 0 0 256, .revoke .room 0 256, .waitDrop .room 0 256, .crosspointRead .room 0 256 0 1,
    .crosspointRead .room 0 0 256 1, .crosspointRead .room 0 0 0 256, .crosspointWrite .room 0 256 0 0 [],
    .crosspointWrite .room 0 0 256 0 [], .crosspointWrite .room 0 0 0 256 [], .crosspointWrite .room 0 0 0 1 [-129],
    .busGainWrite .room 0 256 0, .busGainWrite .room 0 0 128] ++
  [.meterConfig .room 0 (given 256), .meterRead .room 0 256 1, .meterRead .room 0 0 256, .watchSet .room 0 256 0 0 0 0 0,
    .watchSet .room 0 0 256 0 0 0 0, .watchSet .room 0 0 0 128 0 0 0, .watchSet .room 0 0 0 0 256 0 0,
    .watchSet .room 0 0 0 0 0 65536 0, .watchSet .room 0 0 0 0 0 0 256] ++
  [.silenceConfig .room 0 { noSilence with alarmEnable := given 256 },
    .silenceConfig .room 0 { noSilence with howlEnable := given 256 },
    .silenceConfig .room 0 { noSilence with requestEnable := given 256 },
    .silenceConfig .room 0 { noSilence with alarmScope := given 256 },
    .silenceConfig .room 0 { noSilence with howlScope := given 256 },
    .silenceConfig .room 0 { noSilence with requestScope := given 256 },
    .silenceConfig .room 0 { noSilence with maskA := given 16777216 },
    .silenceConfig .room 0 { noSilence with maskB := given 16777216 },
    .silenceConfig .room 0 { noSilence with contentA := given 256 },
    .silenceConfig .room 0 { noSilence with contentB := given 256 },
    .silenceConfig .room 0 { noSilence with howlLevel := given 128 },
    .silenceConfig .room 0 { noSilence with howlBlocks := given 65536 },
    .silenceConfig .room 0 { noSilence with autoRestore := given 256 }] ++
  [.toneStart .room 0 256 0 0 0 0 0, .toneStart .room 0 0 256 0 0 0 0, .toneStart .room 0 0 0 65536 0 0 0,
    .toneStart .room 0 0 0 0 (-129) 0 0, .toneStart .room 0 0 0 0 0 256 0, .toneStart .room 0 0 0 0 0 0 65536,
    .sceneStore .room 0 256 0, .sceneStore .room 0 0 256, .sceneLoad .room 0 256, .lineStart .room 0 256,
    .lineStop .room 0 256, .lineTest .room 0 256 0, .lineTest .room 0 0 65536] ++
  [.podSleep .room 0 256 0, .podSleep .room 0 0 256, .podWake .room 0 256 0, .podWake .room 0 0 256,
    .podCounters .room 0 256 0, .podCounters .room 0 0 256, .podIdentity .room 0 256 0, .podIdentity .room 0 0 256,
    .powerStandby .room 0 256, .rightsSet .room 0 256]

theorem test_ill_formed_requests : illRequests.all (fun i => !i.wf) = true := by decide +kernel

/-- One ill-formed command for each check of the boundary, the events and the transactions. -/
def illEvents : List Instr :=
  [.transactionIgnored .room 0xA5 1, .transactionIgnored .room 0x5A 1,
    .blockBoundary { quietIn with lanes := List.replicate 11 [] }, .blockBoundary { quietIn with lanes := [[1]] },
    .blockBoundary { quietIn with lanes := [List.replicate 48 8388608] },
    .blockBoundary { quietIn with slots := List.replicate 33 .missed },
    .blockBoundary { quietIn with slots := [.status ⟨false, false, false, false, [1]⟩] },
    .blockBoundary { quietIn with slots := [.identity { unit7 with model := 65536 }] },
    .blockBoundary { quietIn with slots := [.identity { unit7 with major := 256 }] },
    .blockBoundary { quietIn with slots := [.identity { unit7 with minor := 256 }] },
    .blockBoundary { quietIn with slots := [.identity { unit7 with serial := 4294967296 }] },
    .blockBoundary { quietIn with slots := [.bytes []] },
    .blockBoundary { quietIn with wakePulse := List.replicate 5 false },
    .blockBoundary { quietIn with readBackDiffers := List.replicate 5 false },
    .blockBoundary { quietIn with frameEarly := List.replicate 5 false }] ++
  [.wakePulse 4, .noiseFloorRise 32, .mutedTalk 32, .mutedTalkRearm 32, .muteShortPress 32, .longPress 32, .talkPress 32,
    .floorRequest 32, .holdExpired 32, .waitTimeout 32, .waitQuietDrop 32, .leavingRemoval 32, .talkTimerTick 32,
    .talkWarn 32, .talkEnd 32, .howlLatch 8, .levelWatch 8] ++
  [.rollCall 4, .rollCallAnswer 4 0 unit7, .rollCallAnswer 0 8 unit7, .rollCallAnswer 0 0 { unit7 with model := 65536 },
    .podJoin 4 0, .podJoin 0 8, .joinFailed 4 0, .joinFailed 0 8, .podLost 4 0, .podLost 0 8, .ringAcknowledged 4 0,
    .ringAcknowledged 0 8, .sleepAcknowledged 4 0, .sleepAcknowledged 0 8, .wakeRequest 4 0, .wakeRequest 0 8,
    .wakeFramesDone 4 0, .wakeFramesDone 0 8, .wakeFailed 4 0, .wakeFailed 0 8, .startingEnd 4, .wakingEnd 4,
    .standbyFrameEnd 4, .sleepingEnd 4, .lineTestComplete 4]

theorem test_ill_formed_events : illEvents.all (fun i => !i.wf) = true := by decide +kernel

theorem test_well_formed :
    ([.status .room 1, .channelWrite .room 1 0 (given (-40)) (given 7) (given 255), .floorConfig .room 1 noFloor,
      .blockBoundary quietIn, .talkPress 31, .podJoin 3 7, .unknownKindFrame .room []] : List Instr).all Instr.wf = true := by
  decide +kernel

/-! ### States for tests -/

/-- Every pod ONLINE on running lines. -/
def ready : State :=
  { State.reset with
    pos := Tab.tabulate 32 (fun _ => { resetPosition with state := .online })
    lines := Tab.tabulate 4 (fun _ => { resetLine with state := .running, frame := some (.running none []) }) }

/-- The same with a capture due. -/
def capturable : State := { ready with due := [.capture] }

/-- The line 0 changed. -/
def onLine (f : Line → Line) : State := ready.modLine 0 f
/-- The position of pod 0 changed. -/
def onPos (f : Position → Position) : State := ready.modPos 0 f
/-- An entry of channel `c`. -/
def entry (c : Nat) (st : EntryState) : FloorEntry := ⟨c, st, 0, .none, none⟩
def waiter (c : Nat) : WaitEntry := ⟨c, 0, 0, 0⟩

/-- The floor changed, some events due. -/
def floored (es : List Event) (f : Floor → Floor) : State := { ready.modFloor f with due := es }

/-- Pod 9 in ATTACK with a full attack count, its floor request due; the floor as given. -/
def asking (f : Floor → Floor) : State :=
  (floored [.floorRequest 9] f).modChan 9 (fun k => { k with attack := 8 })

/-- Four members, the second in HOLD. -/
def fullList : List FloorEntry :=
  [entry 0 .opened, { entry 1 .held with hold := .running 5 }, entry 2 .opened, entry 3 .opened]

/-- The laws of the floor, as a check that can be run. -/
def lawful (s : State) : Bool :=
  decide (s.floor.list.length ≤ s.floor.cfg.maxOpen ∧ s.floor.wait.length ≤ 8 ∧ s.floor.leaving.length ≤ 6)
    && decide (s.floor.members.Nodup ∧ ∀ c ∈ s.floor.members, c < 32)
    && decide (s.floor.guard.isSome = (s.floor.hasPending && s.floor.leaving.isEmpty))
    && decide (∀ c ∈ pods, s.muted c = true →
      s.floor.entry? c = none ∧ s.floor.waiting? c = none ∧ (s.chan c).attack = 0)
    && decide (∀ c ∈ pods, s.present c = false →
      s.floor.entry? c = none ∧ s.floor.waiting? c = none ∧ s.floor.isLeaving c = false ∧ (s.chan c).attack = 0)

theorem lawful_iff (s : State) : lawful s = true ↔ s.floorLawful := by
  unfold lawful State.floorLawful Floor.bounded Floor.exclusive Floor.guarded State.mutedOffFloor State.absentOffFloor
  simp only [Bool.and_eq_true, decide_eq_true_eq, and_assoc, List.mem_range]

/-- A frame of a kind and body, with its length and check. -/
def framed (kind : Nat) (body : List Byte) : List Byte :=
  let inner := u16 (body.length + 2) ++ u8 kind ++ [9] ++ body
  inner ++ u16 (crc16 inner).toNat

/-! ### Worked cases -/

/-- The steps of some commands, one after another. -/
def after (cs : List Instr) (s : State) : State :=
  cs.foldl (fun t c =>
    match exec c t with
    | .next u => u
    | _ => t) s

/-- Row 1 of R53: a place is free. -/
theorem test_request_opens :
    ((after [.floorRequest 9] (asking id)).floor.entry? 9).map (fun e => e.st) = some .opened := by decide +kernel

/-- Row 2 of R53: the oldest HOLD entry is evicted, the channel is PENDING. -/
theorem test_request_evicts :
    let t := after [.floorRequest 9] (asking (fun f => { f with list := fullList }))
    (t.floor.entry? 9).map (fun e => e.st) = some .pending ∧ t.floor.isLeaving 1 = true ∧ t.floor.entry? 1 = none := by
  decide +kernel

/-- A mute of a member frees its place for the head of the Wait List (R20, R60). -/
theorem test_mute_serves :
    let t := after [.claimSet .room 1 0 2 0] (floored [] (fun f => { f with list := fullList, wait := [waiter 7] }))
    t.floor.entry? 2 = none ∧ (t.floor.entry? 7).map (fun e => e.st) = some .opened ∧ t.floor.wait = [] := by
  decide +kernel

/-- ChannelWrite answers OK on the Room Port and DENIED on the Codec Port, where it changes nothing (R14, R180). -/
theorem test_channel_write :
    let w (p : Port) := after [.channelWrite p 1 3 (given 12) absent absent] ready
    ((w .room).chan 3).trim = 12 ∧ (w .room).room.slot = some ⟨1, 5, .ok, []⟩
      ∧ ((w .codec).chan 3).trim = 0 ∧ (w .codec).codec.slot = some ⟨1, 5, .denied, []⟩ := by decide +kernel

/-- A masked crosspoint takes OFF and no other gain (R105). -/
theorem test_crosspoint_self :
    let w (v : Int) := after [.crosspointWrite .room 1 2 34 1 [v]] ready
    (w 0).room.slot = some ⟨1, 20, .self, []⟩ ∧ (w (-128)).room.slot = some ⟨1, 20, .ok, []⟩ := by decide +kernel

/-- An active Alarm line: ACTIVE, every set covered, SILENCE queued on both ports (R113, R119). -/
theorem test_alarm :
    let t := after [.alarmActiveEdge] ready
    t.silence.state = .active ∧ t.silence.covered = .ab ∧ t.room.queue.length = 2 ∧ t.codec.queue.length = 2 := by
  decide +kernel

/-- A boundary: a pod at full scale has block peak 0, its ramp steps to its target (R6, R94). -/
theorem test_boundary :
    let s := ready.modFloor (fun f => { f with list := [entry 0 .opened] })
    let slot : UpSlot := .status ⟨false, false, false, false, List.replicate 48 8388607⟩
    let t := after [.blockBoundary { quietIn with slots := [slot] }] s
    (t.chan 0).peak = 0 ∧ (t.chan 0).ramp = 1 ∧ (t.chan 1).peak = -96 ∧ t.sys.blocks = 1 := by decide +kernel

/-- A line that is started sends 16 sync frames and then runs with a roll call (R129, R133). -/
theorem test_line_start :
    let t := after [.lineStart .room 1 0, .blockBoundary quietIn] State.reset
    (t.line 0).state = .starting ∧ (t.line 0).frame = some .sync ∧ (t.line 0).remaining = 15 := by decide +kernel

/-- The CRC-16 of the check string "123456789" (R189's polynomial and start value). -/
theorem test_crc : crc16 [0x31, 0x32, 0x33, 0x34, 0x35, 0x36, 0x37, 0x38, 0x39] = 0x29B1#16 := by decide +kernel

/-- A whole frame of bytes is the request it spells (R189): ChairSet to 3. -/
theorem test_frame_is_request :
    (after [.unknownKindFrame .room (framed 6 [3])] ready).floor.chair = some 3 := by decide +kernel

/-! ### Witnesses of the hypotheses, statement by statement, clause by clause -/

/-- The reset pin asserted. -/
def held : State := { ready with sys := { ready.sys with inReset := some .pin } }

theorem test_hyp_ResetsRestart :
    ready.sys.inReset ≠ some .pin ∧ ready.sys.inReset ≠ some .power ∧ held.sys.inReset = some .pin
      ∧ { ready with sys := { ready.sys with inReset := some .power } }.sys.inReset = some .power := by decide +kernel

theorem test_hyp_ResetPinHoldsThePart :
    ready.sys.inReset = none ∧ held.sys.inReset ≠ none ∧ (Instr.status .room 0).isReset = false := by decide +kernel

theorem test_hyp_EveryRequestIsAnswered :
    (Instr.rightsSet .codec 255 1).request = some (.codec, 255, 44) ∧ (Instr.status .room 0).request = some (.room, 0, 1)
      ∧ ready.sys.inReset = none := by decide +kernel

theorem test_hyp_CodecPortIsDenied :
    (Instr.chairSet .codec 0 0).request = some (.codec, 0, 6) ∧ 6 ∉ [1, 2, 3, 4, 7, 8, 10, 11, 22, 24, 19, 27, 16, 17, 18]
      ∧ (Instr.revoke .codec 0 0).request = some (.codec, 0, 17) ∧ 17 ∈ [16, 17, 18] ∧ ready.sys.farmod = false
      ∧ (Instr.claimRelease .codec 0 0 0 1).request = some (.codec, 0, 8) ∧ 1 ≠ 0 ∧ ready.sys.inReset = none := by
  decide +kernel

/-- A frame whose length and check are right. -/
def whole (bs : List Byte) : Bool :=
  decide (2 ≤ bs.length ∧ numAt bs 0 2 + 4 = bs.length)
    && decide (ofBytes (bs.drop (bs.length - 2)) = (crc16 (bs.take (bs.length - 2))).toNat)

/-- A frame that ends after its length, and after its kind. -/
def bare : List Byte := u16 0 ++ u16 (crc16 (u16 0)).toNat
def kindOnly (kind : Nat) : List Byte := u16 1 ++ u8 kind ++ u16 (crc16 (u16 1 ++ u8 kind)).toNat

/-- A frame that is too short for a kind or a tag is answered for what it holds (R179). -/
theorem test_short_frames :
    let r (bs : List Byte) := (after [.unknownKindFrame .room bs] ready).room.slot
    r [] = some ⟨0, 0, .malformed, []⟩ ∧ r (kindOnly 0) = some ⟨0, 0, .unknown, []⟩
      ∧ r (kindOnly 77) = some ⟨0, 77, .unknown, []⟩ ∧ r (kindOnly 1) = some ⟨0, 1, .malformed, []⟩
      ∧ r (framed 45 []) = some ⟨9, 45, .unknown, []⟩ := by decide +kernel

theorem test_hyp_TransactionsAndBadFrames :
    (whole [] = false ∧ whole [0, 2, 1, 9, 0, 0] = false)
      ∧ (whole bare = true ∧ whole (kindOnly 0) = true ∧ numAt (kindOnly 0) 2 1 = 0)
      ∧ (whole (framed 45 []) = true ∧ 44 < numAt (framed 45 []) 2 1)
      ∧ (whole (framed 44 [1]) = true ∧ numAt (framed 44 [1]) 2 1 ≤ 44 ∧ kindRight .codec 44 ready = false)
      ∧ (whole (kindOnly 1) = true ∧ (kindOnly 1).length < 6 ∧ 1 ≤ numAt (kindOnly 1) 2 1
        ∧ kindRight .codec 1 ready = true)
      ∧ (whole (framed 1 [1]) = true ∧ [(1 : Byte)].length ≠ bodyLength 1 [1])
      ∧ (let i : Instr := .crosspointWrite .room 9 16 40 2 [-128, 0]
        i.request = some (.room, 9, 20) ∧ i.wf = true ∧ i.countsItems = true)
      ∧ (let i : Instr := .channelWrite .codec 9 41 (given (-40)) absent (given 255)
        i.request = some (.codec, 9, 5) ∧ i.wf = true ∧ i.countsItems = true)
      ∧ (let r : Response := ⟨1, 1, .ok, []⟩
        let s := respond .room r ready
        (s.port .room).slot = some r ∧ (s.port .room).read = false
          ∧ ((after [.readTransaction .room 8] s).port .room).read = true)
      ∧ (ready.port .room).slot = none ∧ ready.sys.inReset = none := by decide +kernel

theorem test_hyp_NoticesAreOffered :
    let b : NoticeBody := .wakeRequest 0 none
    let full : State := { ready with room := { ready.room with queue := List.replicate 32 ⟨b, 0⟩ } }
    let deaf : State := { ready with room := { ready.room with mask := 0 } }
    ¬ (Port.codec = .room ∨ b.kind ≠ 20) ∧ (deaf.port .room).mask.getLsbD (b.kind - 1) = false
      ∧ (ready.port .room).mask.getLsbD (b.kind - 1) = true ∧ (ready.port .room).queue.length < 32
      ∧ (full.port .room).mask.getLsbD (b.kind - 1) = true ∧ 32 ≤ (full.port .room).queue.length
      ∧ ready.sys.inReset = none ∧ (ready.port .room).queue ≠ []
      ∧ ({ ready.port .room with queue := [] }.slot = none ∧ { ready.port .room with queue := [] }.queue = []) := by
  decide +kernel

/-- A WAKE and a RING to position 3. -/
def wake3 : Entry := ⟨.position 3, .wake 12, true⟩
def ring3 : Entry := ⟨.position 3, .ring ⟨.red, .steady⟩ false, false⟩

theorem test_hyp_SettlingTakesEventsAndFormsFrames :
    ready.settled ∧ (ready.due = [] ∧ (capturable.due = [.capture] ∧ capturable.sys.inReset = none))
      ∧ (Instr.capture.event = some .capture ∧ (Instr.wakePulse 3).event = some (.wakePulse 3))
      ∧ (3 < 4 ∧ 7 < 8 ∧ ready.present 31 = true ∧ State.reset.present 31 = false)
      ∧ { resetLine with state := .running }.table = []
      ∧ (let table := [ring3, wake3]
        wake3 ∈ table ∧ (∀ f ∈ table, f = wake3 ∨ wake3.goesBefore f)
          ∧ ∀ f ∈ table, ∀ p, f.dest = .position p → p < 8) := by
  refine ⟨by unfold State.settled; decide +kernel, by decide +kernel, by decide +kernel, by decide +kernel,
    by decide +kernel, by decide +kernel, ?_, ?_⟩
  · simp [ring3, wake3, Entry.goesBefore, LineCmd.kind]
  · simp [ring3, wake3]

theorem test_hyp_reads :
    ready.sys.inReset = none
      ∧ (0 < 42 ∧ 1 ≤ 42 ∧ 0 + 42 ≤ 42) ∧ (41 < 42 ∧ 41 + 1 ≤ 42) ∧ (42 ≤ 42 ∧ 42 < 41 + 2)
      ∧ (16 < 17 ∧ 42 ≤ 42 ∧ 0 + 42 ≤ 42) ∧ (17 ≤ 17 ∧ 42 < 43)
      ∧ (3 < 4 ∧ 7 < 8) ∧ (4 ≤ 4 ∧ 8 ≤ 8)
      ∧ (58 < 59 ∧ 1 ≤ 1 ∧ 58 + 1 ≤ 59) ∧ (59 ≤ 59 ∧ 59 < 0 + 60)
      ∧ (1 ≤ 8 ∧ 8 ≤ 8 ∧ 8 < 9) := by decide +kernel

theorem test_hyp_ChannelWriteWritesSetup :
    ready.sys.inReset = none ∧ within (given (-40)) (-40) 40 = true ∧ within (given 7) 0 7 = true
      ∧ ((given 7).presence = 1 → 31 < 32) ∧ okPresence (given 255) = true
      ∧ within absent 0 7 = true ∧ (absent.presence = 1 → 41 < 32) ∧ 41 < 42 := by decide +kernel

theorem test_hyp_ChairAndSitesAreSet :
    ready.sys.inReset = none ∧ (255 = 255 ∨ 255 < 32) ∧ (31 = 255 ∨ 31 < 32) ∧ (settle ready).floor.chair = none
      ∧ (settle ready).floor.chair ≠ some 31 ∧ (7 < 8 ∧ 1 ≤ 1) ∧ (8 ≤ 8 ∨ 1 < 2) := by decide +kernel

/-- Pod 4 muted by the room. -/
def muted4 : State := after [.claimSet .room 0 0 4 0] ready

/-- Pod 31 is the chair. -/
def chair31 : State := after [.chairSet .room 0 31] ready

theorem test_hyp_ClaimsMoveByRequestAndPress :
    muted4.sys.inReset = none ∧ ready.sys.inReset = none ∧ ready.muted 4 = false ∧ muted4.muted 4 = true
      ∧ (1 ≤ 1 ∧ (Port.room = .codec → 1 = 0) ∧ (0 = 0 ∧ 41 < 42 ∨ 0 = 1 ∧ 41 < 8))
      ∧ (0 ≤ 1 ∧ (Port.codec = .codec → 0 = 0) ∧ (1 = 0 ∧ 7 < 42 ∨ 1 = 1 ∧ 7 < 8))
      ∧ ((settle muted4).claims 4).holds .room = true ∧ ((settle ready).claims 4).holds .room = false
      ∧ (ready.present 31 = true ∧ ready.muted 31 = false ∧ ((after [.muteShortPress 31] ready).claims 31).pod = true)
      ∧ (muted4.present 4 = true ∧ (muted4.claims 4).pod = false)
      ∧ (chair31.floor.chair = some 31 ∧ chair31.present 31 = true ∧ chair31.muted 30 = false) := by decide +kernel

theorem test_lawful_ClaimsMoveByRequestAndPress :
    (settle ready).floorLawful ∧ ready.floorLawful ∧ chair31.floorLawful := by
  simp only [← lawful_iff]; decide +kernel

theorem test_hyp_ClaimsAndHandsAreCleared :
    ready.sys.inReset = none ∧ (0 = 0 ∧ 41 < 42) ∧ (1 = 1 ∧ 7 < 8) ∧ 2 = 2 ∧ (0 = 0 ∧ 31 < 32) := by decide +kernel

/-- The privacy state ON, and RETAINED. -/
def private1 : State := after [.privacyActiveEdge] ready
def private2 : State := { private1 with privacy := { private1.privacy with state := .retained } }

theorem test_hyp_PrivacyRequests :
    private1.sys.inReset = none ∧ within (given 7) 0 7 = true ∧ yesNo (given 0) = true
      ∧ (settle private1).privacy.state = .on ∧ 7 ≠ (settle private1).privacy.group
      ∧ (settle ready).privacy.state = .off ∧ (settle private2).privacy.state = .retained := by decide +kernel

theorem test_hyp_PrivacyLineEdges :
    ready.sys.inReset = none ∧ ready.privacy.level = false
      ∧ (private1.privacy.level = true ∧ private1.privacy.autoRelease = true)
      ∧ (let s := { private1 with privacy := { private1.privacy with autoRelease := false } }
        s.sys.inReset = none ∧ s.privacy.level = true ∧ s.privacy.autoRelease = false) := by decide +kernel

/-- Channel 31 with its counters full. -/
def counted (armed : Bool) : State :=
  { ready with due := [.noiseFloorRise 31, .mutedTalk 31, .mutedTalkRearm 31] }.modChan 31
    (fun k => { k with rise := 200, armed := armed, talkCount := if armed then 1500 else 500 })

theorem test_hyp_ChannelCountersAct :
    (counted true).sys.inReset = none
      ∧ ((counted true).isDue (.noiseFloorRise 31) = true ∧ 200 ≤ ((counted true).chan 31).rise)
      ∧ ((counted true).isDue (.mutedTalk 31) = true ∧ ((counted true).chan 31).armed = true
        ∧ 1500 ≤ ((counted true).chan 31).talkCount)
      ∧ ((counted false).isDue (.mutedTalkRearm 31) = true ∧ ((counted false).chan 31).armed = false
        ∧ 500 ≤ ((counted false).chan 31).talkCount) := by decide +kernel

theorem test_hyp_ModeSetEmptiesTheFloor :
    ready.sys.inReset = none ∧ 0 ≤ 1 ∧ (settle ready).floor.mode = .voice ∧ (settle ready).floor.mode ≠ .queue := by
  decide +kernel

/-- The rings match where a mode set changes nothing, and where a line that is OFF is stopped. -/
theorem test_rings_match :
    (settle (refreshRings ready)).ringsMatch ∧ (settle (refreshRings ready)).floor.mode = .voice
      ∧ (settle State.reset).ringsMatch ∧ ((settle State.reset).line 3).state = .off := by
  unfold State.ringsMatch; decide +kernel

theorem test_hyp_FloorConfigWritesQuantities :
    let s := floored [] (fun f => { f with list := fullList })
    let cfg (f : FloorFields) := floorCfgOf f (settle s).floor.cfg
    let tight : FloorFields := { noFloor with talkLimit := given 15 }
    s.sys.inReset = none ∧ floorFieldsOk tight = true ∧ (cfg tight).talkLimit ≠ 0
      ∧ (cfg tight).talkLimit ≤ (cfg tight).talkWarn
      ∧ (floorFieldsOk { noFloor with maxOpen := given 3 } = true
        ∧ (cfg { noFloor with maxOpen := given 3 }).maxOpen < (settle s).floor.list.length)
      ∧ (floorFieldsOk { noFloor with maxOpen := given 4 } = true
        ∧ (settle s).floor.list.length ≤ (cfg { noFloor with maxOpen := given 4 }).maxOpen) := by decide +kernel

/-- Pod 7 waits; the list as given. -/
def waiting7 (l : List FloorEntry) (ls : List LeavingEntry) : State :=
  floored [] (fun f => { f with list := l, wait := [waiter 7], leaving := ls })

/-- Six channels that are leaving. -/
def six : List LeavingEntry := [⟨20, 0⟩, ⟨21, 0⟩, ⟨22, 0⟩, ⟨23, 0⟩, ⟨24, 0⟩, ⟨25, 0⟩]

theorem test_hyp_GrantGivesTheFloor :
    (waiting7 [] []).sys.inReset = none ∧ (settle (waiting7 [] [])).floor.waiting? 8 = none
      ∧ ((settle (waiting7 [] [])).floor.waiting? 7 ≠ none ∧ (settle (waiting7 [] [])).floor.list.length < 4)
      ∧ (settle (waiting7 fullList [])).floor.waiting? 7 ≠ none
      ∧ (settle (waiting7 fullList [])).floor.cfg.maxOpen ≤ (settle (waiting7 fullList [])).floor.list.length
      ∧ ((settle (waiting7 fullList [])).floor.list.find? (fun e => e.st != .pending && none != some e.ch)).isSome = true
      ∧ (6 ≤ (settle (waiting7 fullList six)).floor.leaving.length
        ∧ (settle (waiting7 fullList six)).floor.waiting? 7 ≠ none)
      ∧ (settle (waiting7 [] six)).floor.leaving ≠ []
      ∧ (let q := (settle (waiting7 [] [])).floor
        { q with mode := .queue }.mode = .queue ∧ q.cfg.autoGrant = false) := by decide +kernel

theorem test_lawful_GrantGivesTheFloor : (settle (waiting7 [] [])).floorLawful ∧ (settle (waiting7 fullList [])).floorLawful
    ∧ (settle (waiting7 fullList six)).floorLawful := by
  simp only [← lawful_iff]; decide +kernel

theorem test_hyp_RevokeAndWaitDrop :
    let s := waiting7 fullList []
    s.sys.inReset = none ∧ (settle s).floor.entry? 7 = none ∧ (settle s).floor.entry? 0 ≠ none
      ∧ (settle s).floor.waiting? 0 = none ∧ (settle s).floor.waiting? 7 = some (waiter 7) := by decide +kernel

/-- The floor request of pod 9, row by row of R53, and as the chair. -/
def row1 : State := asking id
def row2 : State := asking (fun f => { f with list := fullList })
def row3 : State := asking (fun f => { f with list := fullList, wait := [waiter 7] })
def row4 : State := asking (fun f => { f with list := fullList, wait := [10, 11, 12, 13, 14, 15, 16, 17].map waiter })
def chair1 : State := asking (fun f => { f with chair := some 9 })
def chair2 : State := asking (fun f => { f with chair := some 9, list := fullList })
def chair3 : State := asking (fun f =>
  { f with chair := some 9, list := entry 5 .pending :: fullList.take 3, guard := some 1 })
/-- The override against a full Leaving List, with a PENDING entry and with none; the chair leaving. -/
def chair4 : State := asking (fun f =>
  { f with chair := some 9, list := fullList.take 3 ++ [entry 5 .pending], leaving := six })
def chair5 : State := asking (fun f => { f with chair := some 9, list := fullList, leaving := six })
def chair6 : State := asking (fun f => { f with chair := some 9, list := fullList, leaving := [⟨9, 0⟩] })
/-- Pod 9 in the Leaving List, alone or not, with a place in the Wait List or none. -/
def left1 : State := asking (fun f => { f with leaving := [⟨9, 0⟩] })
def left2 : State := asking (fun f => { f with list := entry 5 .pending :: fullList.take 3, leaving := [⟨9, 0⟩] })
def left3 : State := asking (fun f => { f with leaving := [⟨8, 0⟩, ⟨9, 0⟩] })
def left4 : State := asking (fun f =>
  { f with leaving := [⟨9, 0⟩], list := fullList, wait := [10, 11, 12, 13, 14, 15, 16, 17].map waiter })

/-- An override of pod 9 with no place free, and what its rows ask of the Leaving List. -/
def overrides (s : State) : Bool :=
  decide (s.floor.chair = some 9 ∧ s.floor.cfg.maxOpen ≤ s.floor.list.length ∧ s.floor.cfg.guard ≠ 0)
    && s.floor.entry? 9 == none

theorem test_hyp_overrideRows :
    ([chair2, chair3, chair4, chair5, chair6].all overrides) = true
      ∧ (chair3.floor.list.head?.map (fun e => e.st)) = some .pending
      ∧ ([chair2, chair4, chair5, chair6].all (fun s => s.floor.list.head?.map (fun e => e.st) == some .opened)) = true
      ∧ (chair2.floor.leaving.length < 6 ∧ chair6.floor.isLeaving 9 = true)
      ∧ (6 ≤ (chair4.floor.leaving.filter (fun e => e.ch != 9)).length
        ∧ (chair4.floor.list.find? (fun x => x.st == .pending)).isSome = true)
      ∧ (6 ≤ (chair5.floor.leaving.filter (fun e => e.ch != 9)).length
        ∧ chair5.floor.list.find? (fun x => x.st == .pending) = none) := by decide +kernel

theorem test_hyp_leavingRequest :
    ([left1, left2, left3, left4].all (fun s =>
        s.sys.inReset.isNone && s.isDue (.floorRequest 9) && s.gate 9 == .attack && s.floor.mode == .voice
          && s.floor.isLeaving 9 && s.floor.chair != some 9)) = true
      ∧ (left1.floor.list.length < left1.floor.cfg.maxOpen ∧ left1.floor.leaving.filter (fun e => e.ch != 9) = []
        ∧ left1.floor.wait = [])
      ∧ (left2.floor.leaving.filter (fun e => e.ch != 9) = [] ∧ left2.floor.hasPending = true
        ∧ left2.floor.cfg.guard ≠ 0 ∧ left2.floor.cfg.maxOpen ≤ left2.floor.list.length ∧ left2.floor.wait.length < 8)
      ∧ (left3.floor.leaving.filter (fun e => e.ch != 9) ≠ [] ∧ left3.floor.wait.length < 8)
      ∧ left4.floor.wait.length = 8 := by decide +kernel

theorem test_lawful_overrideRows : chair4.floorLawful ∧ chair5.floorLawful ∧ chair6.floorLawful := by
  simp only [← lawful_iff]; decide +kernel

theorem test_lawful_leavingRequest : left1.floorLawful ∧ left2.floorLawful ∧ left3.floorLawful ∧ left4.floorLawful := by
  simp only [← lawful_iff]; decide +kernel

theorem test_hyp_FloorRequestTakesTheTables :
    ([row1, row2, row3, row4, chair1, chair2, chair3].all (fun s =>
        s.sys.inReset.isNone && s.isDue (.floorRequest 9) && s.gate 9 == .attack && s.floor.mode == .voice
          && decide (s.floor.cfg.attack ≤ (s.chan 9).attack) && !s.floor.isLeaving 9)) = true
      ∧ (row1.floor.chair ≠ some 9 ∧ row1.floor.list.length < row1.floor.cfg.maxOpen ∧ row1.floor.wait = [])
      ∧ (¬ row2.floor.list.length < row2.floor.cfg.maxOpen ∧ row2.floor.wait = [] ∧ row2.floor.leaving.length < 6
        ∧ (row2.floor.list.find? (fun e => e.st == .held && row2.floor.chair != some e.ch)).isSome = true)
      ∧ (¬ row3.floor.list.length < row3.floor.cfg.maxOpen ∧ row3.floor.wait ≠ [] ∧ row3.floor.wait.length < 8)
      ∧ (¬ row4.floor.list.length < row4.floor.cfg.maxOpen ∧ row4.floor.wait.length = 8)
      ∧ (chair1.floor.chair = some 9 ∧ chair1.floor.list.length < chair1.floor.cfg.maxOpen)
      ∧ (chair2.floor.chair = some 9 ∧ chair2.floor.cfg.maxOpen ≤ chair2.floor.list.length
        ∧ (chair2.floor.list.find? (fun e => e.ch != 9)).map (fun e => e.st) = some .opened
        ∧ chair2.floor.leaving.length < 6)
      ∧ (chair3.floor.list.find? (fun e => e.ch != 9)).map (fun e => e.st) = some .pending := by decide +kernel

theorem test_lawful_FloorRequestTakesTheTables : row1.floorLawful ∧ row2.floorLawful ∧ row3.floorLawful
    ∧ row4.floorLawful ∧ chair1.floorLawful ∧ chair2.floorLawful ∧ chair3.floorLawful := by
  simp only [← lawful_iff]; decide +kernel

/-- A member whose timers have ended, a waiting channel whose timers have. -/
def expired : State :=
  { waiting7 [] [] with due := [.holdExpired 0, .talkEnd 0, .waitTimeout 7, .waitQuietDrop 7] }.modFloor (fun f =>
    { f with
      cfg := { f.cfg with talkLimit := 30 }
      list := [{ entry 0 .held with hold := .running 0, talk := some ⟨30, 0, true⟩ }]
      wait := [⟨7, 0, 1500, 800⟩] })

theorem test_hyp_FloorTimersExpire :
    expired.sys.inReset = none ∧ expired.isDue (.holdExpired 0) = true ∧ expired.isDue (.talkEnd 0) = true
      ∧ (expired.floor.entry? 0).map (fun e => (e.hold, e.talk)) = some (.running 0, some ⟨30, 0, true⟩)
      ∧ expired.floor.cfg.talkLimit ≤ 30 ∧ expired.floor.waiting? 7 = some ⟨7, 0, 1500, 800⟩
      ∧ expired.isDue (.waitTimeout 7) = true ∧ expired.floor.cfg.waitMax ≤ 1500
      ∧ expired.isDue (.waitQuietDrop 7) = true ∧ expired.floor.cfg.holdTime ≤ 800 := by decide +kernel

theorem test_lawful_FloorTimersExpire : expired.floorLawful := by rw [← lawful_iff]; decide +kernel

/-- A handover that waits for channel 1, its guard timer, and a talk timer at its second. -/
def handing : State := floored [.leavingRemoval 1] (fun f => { f with list := [entry 0 .pending], leaving := [⟨1, 0⟩] })
def guarding : State := floored [.guardExpiry] (fun f => { f with list := [entry 0 .pending], guard := some 0 })
def talking (secs blocks : Nat) : State := floored [.talkTimerTick 0, .talkWarn 0] (fun f =>
  { f with cfg := { f.cfg with talkLimit := 30 }, list := [{ entry 0 .opened with talk := some ⟨secs, blocks, false⟩ }] })

theorem test_hyp_HandoversAndTalkTimersRun :
    handing.sys.inReset = none
      ∧ (handing.isDue (.leavingRemoval 1) = true ∧ handing.floor.isLeaving 1 = true ∧ (handing.chan 1).ramp = 0
        ∧ handing.floor.leaving.length = 1 ∧ handing.floor.hasPending = true ∧ handing.floor.cfg.guard ≠ 0)
      ∧ (guarding.sys.inReset = none ∧ guarding.isDue .guardExpiry = true ∧ guarding.floor.guard = some 0)
      ∧ ((talking 14 1000).isDue (.talkTimerTick 0) = true ∧ (talking 14 1000).floor.cfg.talkLimit = 30)
      ∧ ((talking 15 0).isDue (.talkWarn 0) = true ∧ 30 - 15 ≤ 15 ∧ 15 < (talking 15 0).floor.cfg.talkLimit)
      ∧ (talking 29 1000).isDue (.talkTimerTick 0) = true := by decide +kernel

theorem test_lawful_HandoversAndTalkTimersRun : handing.floorLawful ∧ guarding.floorLawful
    ∧ (talking 14 1000).floorLawful ∧ (talking 15 0).floorLawful := by
  simp only [← lawful_iff]; decide +kernel

/-- Pod 9 presses TALK in QUEUE mode: as a member, muted, against a full Wait List, else. -/
def pressing (f : Floor → Floor) : State := floored [] (fun g => { f g with mode := .queue })
def waitFull8 : State := pressing (fun f => { f with wait := [10, 11, 12, 13, 14, 15, 16, 17].map waiter })

theorem test_hyp_TalkPressTakesTheTables :
    let member := pressing (fun f => { f with list := [entry 9 .opened] })
    let hushed := after [.claimSet .room 0 0 9 0] (pressing id)
    (ready.present 9 = true ∧ (ready.position 9).talkButton = true ∧ ready.floor.mode = .voice)
      ∧ (member.floor.entry? 9 ≠ none ∧ member.floor.mode = .queue ∧ member.floor.chair ≠ some 9)
      ∧ (hushed.muted 9 = true ∧ hushed.floor.entry? 9 = none ∧ hushed.floor.waiting? 9 = none)
      ∧ (waitFull8.muted 9 = false ∧ waitFull8.floor.isLeaving 9 = false ∧ waitFull8.floor.wait.length = 8)
      ∧ ((pressing id).muted 9 = false ∧ (pressing id).floor.wait.length < 8
        ∧ (pressing id).floor.cfg.autoGrant = false)
      ∧ (chair1.floor.chair = some 9 ∧ chair1.floor.mode = .voice ∧ chair1.floor.latch = false ∧ chair1.muted 9 = false
        ∧ chair1.floor.entry? 9 = none ∧ chair1.floor.list.length < chair1.floor.cfg.maxOpen)
      ∧ (let s := pressing (fun f => { f with chair := some 9, list := [entry 9 .opened] })
        s.floor.chair = some 9 ∧ s.floor.mode = .queue ∧ s.floor.entry? 9 ≠ none)
      ∧ ([chair2, chair3, chair4, chair5, chair6].all (fun s =>
        s.floor.mode == .voice && !s.floor.latch && !s.muted 9 && (s.position 9).talkButton)) = true
      ∧ (let s := floored [] (fun f => { f with chair := some 0, list := fullList })
        s.floor.chair = some 0 ∧ s.floor.latch = false ∧ s.muted 0 = false
          ∧ s.floor.entry? 0 = some (entry 0 .opened))
      ∧ (let s := after [.claimSet .room 0 0 9 0] { chair2 with due := [] }
        s.muted 9 = true ∧ s.floor.chair = some 9 ∧ s.floor.latch = false)
      ∧ { chair2.floor with latch := true }.latch = true ∧ { chair2.floor with mode := .queue }.mode = .queue := by
  decide +kernel

theorem test_lawful_TalkPressTakesTheTables : ready.floorLawful ∧ waitFull8.floorLawful ∧ (pressing id).floorLawful := by
  simp only [← lawful_iff]; decide +kernel

theorem test_hyp_GainWrites :
    ready.sys.inReset = none ∧ 16 < 17 ∧ [(0 : Int)] ≠ [] ∧ 41 + [(0 : Int)].length ≤ 42
      ∧ (∀ v ∈ [(0 : Int), -128, -120], v = -128 ∨ (-120 ≤ v ∧ v ≤ 0))
      ∧ masked 7 39 ((settle ready).chan 39).zone = true ∧ masked 7 38 ((settle ready).chan 38).zone = false
      ∧ ((24 : Int) = -128 ∨ (-120 ≤ (24 : Int) ∧ (24 : Int) ≤ 24)) := by decide +kernel

/-- A tone that runs on channel 31, and on output 16. -/
def toned : State := after [.toneStart .room 1 0 31 250 0 1 0] ready
def tonedOut : State := after [.toneStart .room 1 1 16 250 0 1 0] ready

theorem test_hyp_MaskedPairsContributeNothing :
    masked 7 39 0 = true ∧ masked 16 31 7 = true ∧ masked 8 0 0 = false ∧ 39 < 42
      ∧ (tonedOut.sys.power = .running ∧ tonedOut.tone.running = true ∧ tonedOut.tone.target = .output 16
        ∧ 1 ≤ tonedOut.floor.cfg.ramp)
      ∧ (after [.alarmActiveEdge] ready).silence.contentFor 9 ≠ none := by decide +kernel

theorem test_hyp_boundary :
    ready.sys.inReset = none ∧ (settle ready).present 31 = true ∧ (settle ready).present 32 = false
      ∧ (settle ready).floor.mode = .voice ∧ (settle (pressing id)).floor.mode = .queue
      ∧ (settle ready).silence.state = .quiet ∧ (settle ready).tone.running = false
      ∧ (settle ready).silence.cfg.howlEnable = true ∧ (settle ready).silence.howl.getLsbD 7 = false
      ∧ (let s := after [.alarmActiveEdge] ready
        s.silence.state ≠ .quiet ∧ s.silence.covered ≠ .none ∧ s.silence.cfg.maskA.getLsbD 9 = true) := by decide +kernel

/-- The part in standby, line 0 asleep. -/
def standing : State := (after [.powerStandby .room 1 1] State.reset).modLine 0 (fun ln => { ln with state := .standby })

theorem test_hyp_BoundaryFormsAudio :
    ready.sys.inReset = none ∧ (settle State.reset).present 31 = false
      ∧ ((settle toned).present 31 = true ∧ (settle toned).tone.running = true
        ∧ (settle toned).tone.target = .channel 31 ∧ (settle toned).tone.target ≠ .channel 0)
      ∧ ((settle ready).present 31 = true ∧ (settle ready).tone.running = false)
      ∧ (settle standing).sys.power = .standby
      ∧ ((settle ready).sys.power = .running ∧ 1 ≤ (settle ready).floor.cfg.ramp)
      ∧ (let q := (after [.alarmActiveEdge] ready).silence
        q.state ≠ .quiet ∧ q.covered ≠ .none ∧ q.cfg.maskA.getLsbD 9 = true
          ∧ (q.covered = .ab ∧ q.cfg.maskA.getLsbD 8 = false ∧ q.cfg.maskB.getLsbD 8 = true))
      ∧ (settle ready).silence.state = .quiet
      ∧ (crest [-3, 2] = 3 ∧ -2 ∈ [(-2 : Int), 1] ∧ 95 < 96 ∧ 500 ≤ 999 ∧ 39 < 40) := by decide +kernel

/-- A tone of a frequency, level and phase. -/
def tuned (f : Nat) (level : Int) (phase : Nat) : State :=
  { ready with tone := { ready.tone with running := true, freq := f, level := level, phase := phase } }

/-- Tones at the ends of their levels and phases: 250 Hz with its crest just past the block and at its start; 1000 Hz with
both crests in one block. The chime in its last phase of each tone and the first of the next. -/
theorem test_hyp_tones :
    let low := tuned 250 (-60) 0
    let mid := tuned 250 0 144
    let high := tuned 1000 0 0
    (low.tone.freq = 250 ∧ -60 ≤ low.tone.level ∧ low.tone.level ≤ 0 ∧ low.tone.phase % 96 = 0)
      ∧ (mid.tone.phase % 96 = 48 ∧ 4 * ((mid.tone.phase + 0) % 192) = 3 * 192 ∧ 0 < 48)
      ∧ (high.tone.freq = 1000 ∧ high.tone.freq ≠ 250 ∧ 4 * ((high.tone.phase + 12) % 48) = 48 ∧ 12 < 48
        ∧ 4 * ((high.tone.phase + 36) % 48) = 3 * 48 ∧ 36 < 48)
      ∧ ((tuned 2000 0 0).tone.freq = 2000 ∧ (tuned 4000 0 0).tone.freq = 4000 ∧ (settle high).tone.running = true)
      ∧ (249 < 250 ∧ 250 ≤ 250 ∧ 499 < 500 ∧ 500 ≤ 500 ∧ 47 < 48) := by decide +kernel

/-- A line whose frame is not a running one; a position in each state that takes slots. -/
theorem test_hyp_BoundaryServesTheLines :
    (ready.sys.inReset = none ∧ 3 < 4 ∧ 7 < 8)
      ∧ (((settle ready).line 3).takesSlots = true ∧ ((settle State.reset).line 3).takesSlots = false)
      ∧ ((settle (onPos (fun q => { q with state := .joining }))).position 0).state = .joining
      ∧ ((settle ready).position 31).state = .online
      ∧ ((settle (onPos (fun q => { q with state := .asleep }))).position 0).state = .asleep
      ∧ (((settle State.reset).line 3).state = .off ∧ ((settle ready).line 3).state = .running) := by decide +kernel

/-- With nothing due a frame is formed at the boundary; with a roll call due the line waits, and one early waits for
nothing of another line. -/
theorem test_boundary_frames :
    let s := onLine (fun ln => { ln with rollCount := 63 })
    let t := after [.blockBoundary quietIn] s
    let u := after [.blockBoundary { quietIn with frameEarly := [false, true] }] s
    (after [.blockBoundary quietIn] ready).due = [] ∧ t.due = [.rollCall 0]
      ∧ (t.line 0).toForm = true ∧ (t.line 1).toForm = true ∧ (u.line 1).toForm = false := by decide +kernel

/-- Slots as received: of neither layout, an identity slot whose button byte is 2, nothing (R131, R189; log 18). -/
theorem test_slots :
    let sealed (bs : List Byte) : UpSlot := .bytes (bs ++ u16 (crc16 bs).toNat)
    sortSlot (.bytes []) = .missed ∧ sortSlot (.bytes [1]) = .bad ∧ sortSlot (sealed [5]) = .bad
      ∧ sortSlot (sealed [0x80, 0, 1, 1, 0, 0, 0, 0, 7, 2]) = .identity { unit7 with talkButton := false }
      ∧ sortSlot (sealed [0x80, 0, 1, 1, 0, 0, 0, 0, 7, 1]) = .identity unit7 := by decide +kernel

theorem test_lawful_boundary : (settle ready).floorLawful ∧ (settle (pressing id)).floorLawful := by
  simp only [← lawful_iff]; decide +kernel

/-- REQUEST disabled; the request latch set. -/
def deafToRequest : State :=
  { ready with silence := { ready.silence with cfg := { ready.silence.cfg with requestEnable := false } } }
def requested : State := after [.silenceRaise .codec 1] ready
/-- ALARM effective. -/
def alarmed : State := after [.alarmActiveEdge] ready

theorem test_hyp_SilenceRaiseSetsTheLatch :
    ready.sys.inReset = none ∧ (settle deafToRequest).silence.cfg.requestEnable = false
      ∧ ((settle ready).silence.cfg.requestEnable = true ∧ (settle ready).silence.requestLatch = false)
      ∧ ((settle requested).silence.cfg.requestEnable = true ∧ (settle requested).silence.requestLatch = true) := by
  decide +kernel

theorem test_hyp_SilenceRestoreAndSettings :
    ((settle alarmed).silence.alarmLevel && (settle alarmed).silence.cfg.alarmEnable) = true
      ∧ ((settle requested).silence.alarmLevel = false ∧ (settle requested).silence.state = .active)
      ∧ (settle ready).silence.state ≠ .active
      ∧ silenceFieldsOk noSilence = true
      ∧ silenceFieldsOk { noSilence with howlLevel := given (-20), howlBlocks := given 2000, maskA := given 131071 } = true
      ∧ requested.sys.inReset = none := by decide +kernel

/-- A zone that howls, and a silence that restores. -/
def howling : State :=
  { ready with due := [.howlLatch 7], silence := { ready.silence with howlCount := Tab.tabulate 8 (fun _ => 400) } }
def restoring : State := { ready with due := [.restoringEnd], silence := { requested.silence with state := .restoring } }

theorem test_hyp_SilenceSourcesAndEnds :
    ready.sys.inReset = none ∧ (ready.silence.alarmLevel = false ∧ ready.silence.cfg.alarmEnable = true)
      ∧ (alarmed.silence.alarmLevel = true ∧ alarmed.silence.cfg.alarmEnable = true)
      ∧ (howling.isDue (.howlLatch 7) = true ∧ howling.silence.cfg.howlEnable = true
        ∧ howling.silence.howl.getLsbD 7 = false ∧ howling.silence.cfg.howlBlocks ≤ howling.silence.howlCount.get 7)
      ∧ (restoring.isDue .restoringEnd = true ∧ restoring.silence.state = .restoring) := by decide +kernel

theorem test_hyp_lines :
    (State.reset.sys.inReset = none ∧ (settle State.reset).sys.power = .running
        ∧ ((settle State.reset).line 3).state = .off ∧ 3 < 4 ∧ 1 ≤ 10000 ∧ 10000 ≤ 10000)
      ∧ ((settle ready).line 3).state ≠ .off ∧ ((settle ready).line 3).state ≠ .testing
      ∧ ((after [.lineTest .room 0 3 10000] State.reset).line 3).state = .testing
      ∧ (((settle ready).line 3).state = .running ∧ ((settle ready).position 31).state = .online)
      ∧ ((settle (onPos (fun q => { q with state := .asleep }))).position 0).state = .asleep := by decide +kernel

/-- A line stops with its pods ONLINE, one of them the latched chair, OPEN, with its hand up. -/
theorem test_line_stop :
    let s := (ready.modFloor (fun f => { f with chair := some 7, latch := true, list := [entry 7 .opened] })).modChan 3
      (fun k => { k with claims := { ClaimSet.empty with pod := true }, hand := true })
    let u := after [.lineStop .room 1 0] s
    (settle s).present 7 = true ∧ (settle s).present 3 = true ∧ ((settle s).chan 3).hand = true
      ∧ u.room.queue.length = s.room.queue.length + 10 ∧ u.floor.latch = false ∧ (u.chan 3).hand = false := by
  decide +kernel

theorem test_lawful_LineStop : (settle ready).floorLawful ∧ (settle muted4).floorLawful := by
  simp only [← lawful_iff]; decide +kernel

/-- A line 0 whose frame carries a command, a position 0 in a state, some events due. -/
def lined (es : List Event) (st : PosState) (cmd : Option Entry) (g : Position → Position) : State :=
  { (onPos (fun q => g { q with state := st })).modLine 0 (fun ln =>
      { ln with rollCount := 64, frame := some (.running cmd []) }) with due := es }

def joinable : State := lined [.podJoin 0 0] .joining none (fun q => { q with good := 4 })
def unjoinable : State := lined [.joinFailed 0 0] .joining none (fun q => { q with miss := 3 })
def callable : State := lined [.rollCall 0] .absent (some ⟨.broadcast, .rollCall 1, true⟩) id

theorem test_hyp_PodsJoin :
    (callable.sys.inReset = none ∧ callable.isDue (.rollCall 0) = true ∧ (callable.line 0).state = .running
        ∧ 64 ≤ (callable.line 0).rollCount ∧ callable.calledSet 0 ≠ 0)
      ∧ ready.calledSet 0 = 0
      ∧ ((callable.line 0).calledNow = some 1 ∧ (1#8).getLsbD 0 = true ∧ (callable.position 0).state = .absent)
      ∧ (joinable.isDue (.podJoin 0 0) = true ∧ (joinable.position 0).state = .joining ∧ 4 ≤ (joinable.position 0).good)
      ∧ (unjoinable.isDue (.joinFailed 0 0) = true ∧ (unjoinable.position 0).state = .joining
        ∧ 3 ≤ (unjoinable.position 0).miss) := by decide +kernel

def losing : State := lined [.podLost 0 0] .online none (fun q => { q with miss := 3 })
def sleeping (st : PosState) : State := lined [] st (some ⟨.position 0, .sleep, true⟩) id

theorem test_hyp_PodsLeave :
    (losing.sys.inReset = none ∧ losing.isDue (.podLost 0 0) = true ∧ (losing.position 0).state = .online
        ∧ 3 ≤ (losing.position 0).miss)
      ∧ (((sleeping .online).line 0).sentTo 0 = some .sleep ∧ ((sleeping .online).position 0).state = .online)
      ∧ (((sleeping .joining).line 0).sentTo 0 = some .sleep ∧ ((sleeping .joining).position 0).state = .joining) := by
  decide +kernel

theorem test_lawful_PodsLeave : losing.floorLawful ∧ (sleeping .online).floorLawful ∧ (sleeping .joining).floorLawful := by
  simp only [← lawful_iff]; decide +kernel

def ringSent : State := lined [] .online (some ⟨.position 0, .ring ⟨.red, .steady⟩ true, true⟩) id
def woken : State :=
  (lined [.wakeFramesDone 0 0, .wakeFailed 0 0] .asleep none (fun q => { q with wakeTimer := some 0 })).modLine 0
    (fun ln => { ln with table := [⟨.position 0, .wake 0, true⟩] })

theorem test_hyp_PodAnswersAndWaking :
    ((ringSent.line 0).sentTo 0 = some (.ring ⟨.red, .steady⟩ true) ∧ ringSent.present 0 = true
        ∧ ringSent.sys.inReset = none)
      ∧ ((woken.line 0).takesSlots = true ∧ (woken.position 0).state = .asleep)
      ∧ (woken.isDue (.wakeFramesDone 0 0) = true ∧ ⟨.position 0, .wake 0, true⟩ ∈ (woken.line 0).table)
      ∧ (woken.isDue (.wakeFailed 0 0) = true ∧ (woken.position 0).wakeTimer = some 0) := by decide +kernel

/-- Line 0 in a state with nothing left to send, an event due. -/
def ending (e : Event) (st : LineState) (cmd : Option Entry) : State :=
  { onLine (fun ln => { ln with state := st, remaining := 0, frame := some (.running cmd []) }) with due := [e] }

theorem test_hyp_LineStatesEnd :
    let a := ending (.startingEnd 0) .starting none
    let b := ending (.wakingEnd 0) .waking none
    let c := ending (.lineTestComplete 0) .testing none
    let d := ending (.sleepingEnd 0) .sleeping (some ⟨.broadcast, .sleep, true⟩)
    let e := ending (.standbyFrameEnd 0) .sleeping none
    (a.isDue (.startingEnd 0) = true ∧ (a.line 0).state = .starting ∧ (a.line 0).remaining = 0 ∧ a.sys.inReset = none)
      ∧ (b.isDue (.wakingEnd 0) = true ∧ (b.line 0).state = .waking ∧ (b.line 0).remaining = 0)
      ∧ (c.isDue (.lineTestComplete 0) = true ∧ (c.line 0).state = .testing ∧ (c.line 0).remaining = 0)
      ∧ (d.isDue (.sleepingEnd 0) = true ∧ (d.line 0).state = .sleeping ∧ (d.line 0).sleepBroadcast = true
        ∧ d.sys.power = .running ∧ { d with sys := { d.sys with power := .standby } }.sys.power = .standby)
      ∧ (let e := { e with due := [.muteShortPress 12, .standbyFrameEnd 0, .standbyFrameEnd 1, .capture] }
        e.isDue (.standbyFrameEnd 0) = true ∧ (e.line 0).state = .sleeping ∧ (e.line 0).sleepBroadcast = false
          ∧ ∀ x ∈ e.due, x ≠ .standbyFrameEnd 0 → x.lineOf? ≠ some 0) := by
  decide +kernel

theorem test_hyp_RingsAreDerivedAndFollow :
    (Instr.chairSet .room 1 3).movesRings = true ∧ (Instr.chairSet .room 1 3).request = some (.room, 1, 6)
      ∧ ready.sys.inReset = none ∧ (after [.chairSet .room 1 3] ready).room.slot = some ⟨1, 6, .ok, []⟩
      ∧ alarmed.silence.state ≠ .quiet
      ∧ (ready.silence.state = .quiet ∧ ready.tone.running = false ∧ (ready.claims 31) = ClaimSet.empty
        ∧ ready.floor.entry? 31 = none ∧ ready.floor.waiting? 31 = none)
      ∧ (toned.tone.running = true ∧ toned.tone.target = .channel 31)
      ∧ (private1.claims 31).privacy = true ∧ (muted4.claims 4).room = true
      ∧ (after [.muteShortPress 31] ready).claims 31 = { ClaimSet.empty with pod := true }
      ∧ (waiting7 fullList []).floor.entry? 0 ≠ none ∧ (waiting7 fullList []).floor.waiting? 7 ≠ none := by decide +kernel

/-- A state in use whose rings are lawful, and a step of it that moves a ring. -/
theorem test_lawful_RingsAreDerivedAndFollow : (refreshRings ready).ringsLawful := by
  have hf : ∀ l, l < 4 → ∀ p, ((refreshRings ready).line l).sentTo p = none := by
    intro l hl p
    have h : ∀ l, l < 4 → ((refreshRings ready).line l).frame = some (.running none []) := by decide +kernel
    simp [Line.sentTo, h l hl]
  refine ⟨by unfold State.tablesKeyed; decide +kernel, by unfold State.ringsMatch; decide +kernel, ?_, ?_, ?_⟩
  · intro l hl h
    have hs : ∀ l, l < 4 → ((refreshRings ready).line l).state = .running := by decide +kernel
    rw [hs l hl] at h; simp at h
  · intro l hl p v pulse h; rw [hf l hl p] at h; simp at h
  · intro l p hl hp _ v pulse h; rw [hf l hl p] at h; simp at h

theorem test_hyp_RingsFollow :
    (match step { refreshRings ready with pending := [.muteShortPress 31] } with
      | .next t => decide (t.ringReference 31 = some ⟨.red, .steady⟩)
      | _ => false) = true := by decide +kernel

theorem test_hyp_MeterAndWatchWrites :
    ready.sys.inReset = none ∧ 4 = (settle ready).meters.window ∧ 16 ≠ (settle ready).meters.window
      ∧ (7 < 8 ∧ 58 < 59 ∧ (-96 : Int) ≤ -96 ∧ (-96 : Int) ≤ 0 ∧ 1 ≤ 1 ∧ 1 ≤ 1000 ∧ 1000 ≤ 1000)
      ∧ (8 ≤ 8 ∨ 59 ≤ 58) := by decide +kernel

/-- A window that is full; an armed watch that has met its count. -/
def capturing : State := { ready with due := [.capture], meters := { ready.meters with counter := 4 } }
def watching : State :=
  { ready with
    due := [.standbyFrameEnd 3, .levelWatch 7, .sceneLoadStep]
    meters := { ready.meters with watches := ready.meters.watches.set 7 ⟨58, 0, .above, 1000, true, 1000⟩ } }

theorem test_hyp_CapturesAndWatches :
    (capturing.sys.inReset = none ∧ capturing.isDue .capture = true
        ∧ capturing.meters.window ≤ capturing.meters.counter ∧ (capturing.meters.watches.get 7).point < 59)
      ∧ (watching.isDue (.levelWatch 7) = true ∧ (∀ k, k < 7 → watching.isDue (.levelWatch k) = false)
        ∧ (watching.meters.watches.get 7).armed = true
        ∧ (watching.meters.watches.get 7).count ≤ (watching.meters.watches.get 7).matched) := by decide +kernel

/-- A burst that has run out. -/
def burst : State := { ready with due := [.toneCountEnd], tone := { ready.tone with running := true, remaining := some 0 } }

theorem test_hyp_TonesStartAndEnd :
    (ready.sys.inReset = none ∧ (settle ready).sys.power = .running ∧ (settle ready).tone.running = false)
      ∧ (0 = 0 ∧ 41 < 42 ∨ 0 = 1 ∧ 41 < 17) ∧ (1 = 0 ∧ 16 < 42 ∨ 1 = 1 ∧ 16 < 17)
      ∧ ((-60 : Int) ≤ -60 ∧ (-60 : Int) ≤ 0 ∧ (0 = 0 ∧ 1 ≤ 10000 ∧ 10000 ≤ 10000 ∨ 0 = 1))
      ∧ (settle { burst with due := [] }).tone.running = true
      ∧ (burst.isDue .toneCountEnd = true ∧ burst.tone.running = true ∧ burst.tone.remaining = some 0) := by
  decide +kernel

/-- Every part stored in slot 15, and a load of it. -/
def stored : State := after [.sceneStore .room 1 15 15] ready
def loading : State := after [.sceneLoad .room 1 15] stored

theorem test_hyp_scenes :
    (ready.sys.inReset = none ∧ 15 < 16 ∧ 1 ≤ 15 ∧ 15 < 16)
      ∧ (settle loading).scenes.load = some ⟨15, .channels, 0, 0, 0⟩ ∧ (settle stored).scenes.load = none
      ∧ (settle stored).scenes.slots.get 0 = none
      ∧ ((settle stored).sys.power = .running ∧ ((settle stored).scenes.slots.get 15).isSome = true) := by decide +kernel

/-- The load at an item of a phase, its step due. -/
def loadingAt (ph : ScenePart) (i : Nat) (touched : Bool) : State :=
  { loading.modChan 41 (fun k => { k with touched := touched }) with
    due := [.sceneLoadStep], scenes := { loading.scenes with load := some ⟨15, ph, i, 0, 0⟩ } }

/-- The load at an item of a phase of a record that holds some parts only. -/
def partly (ph : ScenePart) (i parts : Nat) : State :=
  let s := after [.sceneStore .room 1 15 parts] ready
  { s with due := [.sceneLoadStep], scenes := { s.scenes with load := some ⟨15, ph, i, 0, 0⟩ } }

theorem test_hyp_SceneLoadSteps :
    ((loadingAt .channels 41 true).sys.inReset = none ∧ (loadingAt .channels 41 true).isDue .sceneLoadStep = true
        ∧ ((loadingAt .channels 41 true).chan 41).touched = true ∧ ((loadingAt .channels 41 false).chan 41).touched = false)
      ∧ ((loading.scenes.slots.get 15).map (fun r =>
          r.channels.isSome && r.crosspoints.isSome && r.floor.isSome && r.claims.isSome)) = some true
      ∧ (40 + 1 < 42 ∧ 42 ≤ 41 + 1 ∧ 15 + 1 < 17 ∧ 17 ≤ 16 + 1 ∧ 1 ≤ 0 + 1)
      ∧ ([(ScenePart.channels, 41), (.crosspoints, 16), (.floor, 0), (.claims, 0)].all (fun x =>
          (loadingAt x.1 x.2 false).isDue .sceneLoadStep
            && (loadingAt x.1 x.2 false).scenes.load == some ⟨15, x.1, x.2, 0, 0⟩)) = true := by decide +kernel

/-- The last item of a part is followed by the next part that the record holds, or the load ends (R173, R176). -/
theorem test_hyp_SceneLoadSteps_after :
    let next (ph : ScenePart) (i parts : Nat) :=
      ((after [.sceneLoadStep] (partly ph i parts)).scenes.load).map (fun ld => (ld.phase, ld.index, ld.applied))
    next .channels 41 5 = some (.floor, 0, 1) ∧ next .channels 41 9 = some (.claims, 0, 1) ∧ next .channels 41 1 = none
      ∧ next .crosspoints 16 6 = some (.floor, 0, 1) ∧ next .crosspoints 16 2 = none
      ∧ next .floor 0 12 = some (.claims, 0, 1) ∧ next .floor 0 4 = none ∧ next .claims 0 8 = none := by decide +kernel

/-- A load begins at the first part that the record holds (R172). -/
theorem test_hyp_SceneLoadsStart_phases :
    let first (parts : Nat) :=
      ((after [.sceneStore .room 1 15 parts, .sceneLoad .room 1 15] ready).scenes.load).map (fun ld => ld.phase)
    first 1 = some .channels ∧ first 2 = some .crosspoints ∧ first 4 = some .floor ∧ first 8 = some .claims := by
  decide +kernel

theorem test_hyp_PowerIsChanged :
    (ready.sys.inReset = none ∧ 1 ≤ 1 ∧ (settle ready).sys.power = .running)
      ∧ ((settle ready).line 3).state = .running
      ∧ (((settle (after [.lineTest .room 0 3 10000] State.reset)).line 3).state = .testing
        ∧ ((settle State.reset).line 3).state = .off)
      ∧ ((settle standing).sys.power = .standby ∧ ((settle standing).line 0).state = .standby)
      ∧ ((standing.line 0).state = .standby ∧ standing.sys.autowake = true ∧ standing.sys.power = .standby
        ∧ standing.sys.inReset = none)
      ∧ { standing with sys := { standing.sys with autowake := false } }.sys.autowake = false := by decide +kernel

theorem test_hyp_ConferenceClearAndRights : ready.sys.inReset = none ∧ 1 ≤ 1 ∧ 1 < 2 := by decide +kernel

/-- A step that moves the floor from a lawful state: the premises of what every step keeps. -/
theorem test_hyp_StepKeeps :
    (match step { row2 with pending := [.floorRequest 9] } with
      | .next t => decide (t.floor ≠ row2.floor)
      | _ => false) = true
      ∧ lawful { row2 with pending := [.floorRequest 9] } = true
      ∧ row2.room.queue.length ≤ 32 ∧ row2.codec.queue.length ≤ 32 := by decide +kernel

theorem test_laws_StepKeeps :
    row2.silenceLawful ∧ row2.positionsBounded ∧ row2.rampsBounded ∧ row2.levelsLawful ∧ row2.tablesKeyed := by
  refine ⟨?_, ?_, ?_, ?_, ?_⟩
  · unfold State.silenceLawful; decide +kernel
  · have h : ∀ c, c < 32 → row2.position c = { resetPosition with state := .online } := by decide +kernel
    intro c hc; rw [h c hc]; simp [resetPosition]
  · unfold State.rampsBounded; decide +kernel
  · unfold State.levelsLawful; decide +kernel
  · unfold State.tablesKeyed; decide +kernel

end Sys2Proof.Tests
end

