-- ==== Sys2Proof/Proofs/MixMinus.lean ====
section
/-! PROOFS. Mixing and mix-minus (chapter 5): what a block and an output hold sample by sample, and the self mask (R101). -/

namespace Sys2Proof.Proofs

open Sys2Proof Sys2Proof.Machine

/-! ### Blocks, rounding and the limit -/

/-- A block of zeros is written as silence, and silence reads as zeros. -/
theorem sampleAt_block (f : Nat → Int) {i : Nat} (hi : i < Config.blockLen) : sampleAt (block f) i = f i := by
  unfold sampleAt block
  by_cases hzero : ((List.range Config.blockLen).map f).all (fun v => v == 0) = true
  · have hfi : f i = 0 := by
      simp only [List.all_map, List.all_eq_true, List.mem_range, Function.comp_apply, beq_iff_eq] at hzero
      exact hzero i hi
    simp [hzero, hfi]
  · simp [hzero, hi]

@[simp] theorem sampleAt_nil (i : Nat) : sampleAt [] i = 0 := rfl

@[simp] theorem limit_zero : limit 0 = 0 := by simp [limit]

theorem gainDen_pos : 0 < gainDen := Nat.mul_pos (by norm_num [unit]) (by positivity)

/-- A product that is a whole number of sample steps is not rounded (log 5). -/
theorem quantise_mul_self (free place i : Nat) (v : Int) {den : Nat} (hden : 0 < den) :
    quantise free place i (v * den) den = v := by
  have hne : (den : Int) ≠ 0 := by omega
  simp [quantise, Int.mul_ediv_cancel v hne]

/-! ### The self mask, pair by pair (R101) -/

theorem masked_siteSend_iff {k : Nat} (hk : k < 8) (c z : Nat) : masked k c z = true ↔ c = 32 + k := by
  simp [masked, hk]

theorem masked_recordSend (c z : Nat) : masked 8 c z = false := by
  simp [masked]

theorem masked_zoneFeed_iff (k c z : Nat) : masked (9 + k) c z = true ↔ c < 32 ∧ z = k := by
  have hsite : ¬ 9 + k < 8 := by omega
  have hrecord : 9 + k ≠ 8 := by omega
  simp [masked, hsite, hrecord]

theorem mixStep_maskZone (s : State) (c : Nat) (k : Channel) : (s.mixStep c k).maskZone = k.zone := rfl

/-! ### What channels contribute to an output (R99, R101) -/

theorem contribution_of_masked {o c : Nat} {k : Channel} (h : masked o c k.maskZone = true) (xp : Gain)
    (x : List Int) : contribution o c xp k x = none := by
  simp [contribution, h]

@[simp] theorem contribution_silent (o c : Nat) (xp : Gain) (k : Channel) : contribution o c xp k [] = none := by
  simp [contribution]

/-- A channel's contribution depends on its input only where the pair is unmasked. -/
theorem contribution_congr {o c : Nat} {k : Channel} {x y : List Int}
    (h : masked o c k.maskZone = false → x = y) (xp : Gain) :
    contribution o c xp k x = contribution o c xp k y := by
  cases hm : masked o c k.maskZone with
  | true => rw [contribution_of_masked hm, contribution_of_masked hm]
  | false => rw [h hm]

/-- An output is the same for inputs that agree on its unmasked channels. -/
theorem formOutput_congr (s : State) (o : Nat) (chans : Tab 42 Channel) {x y : Tab 42 (List Int)}
    (h : ∀ c, c < 42 → masked o c (chans.get c).maskZone = false → x.get c = y.get c) :
    s.formOutput chans x o = s.formOutput chans y o := by
  have hterms :
      channels.filterMap (fun c => contribution o c (s.mix.xp.get (42 * o + c)) (chans.get c) (x.get c))
        = channels.filterMap (fun c => contribution o c (s.mix.xp.get (42 * o + c)) (chans.get c) (y.get c)) :=
    List.filterMap_congr fun c hc => contribution_congr (h c (List.mem_range.mp hc)) _
  simp only [State.formOutput, hterms]

/-! ### A tone added to an output (R165) -/

/-- With no channel to sum, an output is its tone, limited, whatever the bus gain. -/
theorem sampleAt_outputBlock_nil (free o : Nat) (bus : Gain) {ramp i : Nat} (tone : List Int) (hramp : 1 ≤ ramp)
    (hi : i < Config.blockLen) : sampleAt (outputBlock free o [] bus ramp tone) i = limit (sampleAt tone i) := by
  have hden : 0 < ramp * gainDen * gainDen := Nat.mul_pos (Nat.mul_pos hramp gainDen_pos) gainDen_pos
  cases tone with
  | nil => simp [outputBlock]
  | cons v tone =>
    simp only [outputBlock, List.isEmpty_nil, List.isEmpty_cons, Bool.true_or, Bool.and_false, Bool.false_eq_true,
      if_false, List.foldl_nil, zero_mul, zero_add]
    rw [sampleAt_block _ hi, quantise_mul_self _ _ _ _ hden]

theorem filterMap_contribution_silent (s : State) (o : Nat) (chans : Tab 42 Channel) :
    channels.filterMap (fun c => contribution o c (s.mix.xp.get (42 * o + c)) (chans.get c)
      ((Tab.tabulate 42 (fun _ => ([] : List Int))).get c)) = [] := by
  refine List.filterMap_eq_nil_iff.mpr fun c hc => ?_
  rw [Tab.get_tabulate, if_pos (List.mem_range.mp hc), contribution_silent]

theorem sampleAt_formOutput_tone (s : State) (o i : Nat) (chans : Tab 42 Channel) (hpower : s.sys.power = .running)
    (htone : s.tone.running = true) (htarget : s.tone.target = .output o) (hramp : 1 ≤ s.floor.cfg.ramp)
    (hi : i < Config.blockLen) :
    sampleAt (s.formOutput chans (Tab.tabulate 42 (fun _ => [])) o) i = limit (sampleAt s.toneNow i) := by
  have hadded : (s.tone.running && s.tone.target == .output o) = true := by simp [htone, htarget]
  rw [State.formOutput, if_pos hpower, if_pos hadded, filterMap_contribution_silent]
  exact sampleAt_outputBlock_nil _ _ _ _ hramp hi

/-! ### Shutdown content (R116, R117) -/

/-- An output that content covers does not carry what the Mix Engine formed. -/
theorem deliver_of_content (s : State) (o : Nat) (x : Tab 42 (List Int)) (y z : Tab 17 (List Int))
    (h : s.silence.contentFor o ≠ none) : s.deliver x y o = s.deliver x z o := by
  obtain ⟨content, hcontent⟩ := Option.ne_none_iff_exists'.mp h
  cases content <;> simp only [State.deliver, hcontent]

/-- Settles O31: the mask row by row, the terms of the sum that it removes, and what acts after it. -/
theorem maskedPairsContributeNothing : Obligations.MaskedPairsContributeNothing :=
  ⟨fun _ c z hk _ => masked_siteSend_iff hk c z,
    masked_recordSend,
    fun k c z _ _ => masked_zoneFeed_iff k c z,
    fun _ _ xp _ x h => contribution_of_masked h xp x,
    fun s o chans _ _ h => formOutput_congr s o chans h,
    sampleAt_formOutput_tone,
    deliver_of_content,
    mixStep_maskZone⟩

end Sys2Proof.Proofs
end

