-- ==== Sys2Proof/Proofs/Notices.lean ====
section
/-! PROOFS. Notices and ATTN (chapter 11): what an offer does to a port, and to which ports a notice is offered (R182). -/

namespace Sys2Proof.Proofs

open Sys2Proof Sys2Proof.Machine

/-! ### An offer to a port -/

theorem offer_of_mask_clear {ps : PortState} {n : Notice} (hmask : ps.mask.getLsbD (n.body.kind - 1) = false) :
    ps.offer n = ps := by
  simp [PortState.offer, hmask]

theorem offer_of_not_full {ps : PortState} {n : Notice} (hmask : ps.mask.getLsbD (n.body.kind - 1) = true)
    (hspace : ps.queue.length < 32) : ps.offer n = { ps with queue := ps.queue ++ [n] } := by
  simp [PortState.offer, hmask, Config.queueCapacity, hspace]

theorem offer_of_full {ps : PortState} {n : Notice} (hmask : ps.mask.getLsbD (n.body.kind - 1) = true)
    (hfull : 32 ≤ ps.queue.length) : ps.offer n = { ps with loss := true } := by
  simp [PortState.offer, hmask, Config.queueCapacity, Nat.not_lt.mpr hfull]

/-! ### The ports to which a notice goes -/

/-- Kind 20 is WAKE_REQUEST, and no other kind is kept from the Codec Port. -/
theorem noticeBody_roomOnly_iff (b : NoticeBody) : b.roomOnly = true ↔ b.kind = 20 := by
  cases b <;> simp [NoticeBody.roomOnly, NoticeBody.kind]

theorem port_raise_of_goes {b : NoticeBody} {p : Port} (s : State) (hgoes : p = .room ∨ b.kind ≠ 20) :
    (raise b s).port p = (s.port p).offer ⟨b, s.sys.blocks.setWidth 16⟩ := by
  cases p with
  | room => rfl
  | codec =>
    have hkind : ¬ b.roomOnly = true := (noticeBody_roomOnly_iff b).not.mpr (hgoes.resolve_left (by decide))
    exact if_neg hkind

theorem port_raise_of_not_goes {b : NoticeBody} {p : Port} (s : State) (hgoes : ¬ (p = .room ∨ b.kind ≠ 20)) :
    (raise b s).port p = s.port p := by
  obtain ⟨hport, hkind⟩ := not_or.mp hgoes
  cases p with
  | room => exact absurd rfl hport
  | codec => exact if_pos ((noticeBody_roomOnly_iff b).mpr (not_not.mp hkind))

theorem queue_raise_le {b : NoticeBody} {s : State} {p : Port} (h : (s.port p).queue.length ≤ 32) :
    ((raise b s).port p).queue.length ≤ 32 := by
  rw [s.raised_raise b p]
  exact PortState.offers_queue_le _ _ h

/-! ### ATTN (R186) -/

theorem attn_eq_true_iff {s : State} {p : Port} (hreset : s.sys.inReset = none) :
    s.attn p = true ↔ ((s.port p).slot ≠ none ∧ (s.port p).read = false) ∨ (s.port p).queue ≠ [] := by
  simp [State.attn, hreset, Option.isSome_iff_ne_none]

/-- Settles O9: the ports a notice goes to, then the three ways in which a port takes an offer; ATTN by its definition. -/
theorem noticesAreOffered : Obligations.NoticesAreOffered :=
  ⟨fun b s _ =>
    ⟨port_raise_of_not_goes s,
      fun hgoes hmask => (port_raise_of_goes s hgoes).trans (offer_of_mask_clear hmask),
      fun hgoes hmask hspace => (port_raise_of_goes s hgoes).trans (offer_of_not_full hmask hspace),
      fun hgoes hmask hfull => (port_raise_of_goes s hgoes).trans (offer_of_full hmask hfull),
      raise_sys s b,
      queue_raise_le⟩,
    fun _ _ => attn_eq_true_iff⟩

end Sys2Proof.Proofs
end

