-- ==== Sys2Proof/Proofs/Steps.lean ====
section
/-! PROOFS. Which parts a request changes, and the induction over steps once: what every event, frame, request, boundary
and reset keeps, every step keeps. -/

set_option Elab.async false

namespace Sys2Proof.Proofs

open Sys2Proof Sys2Proof.Machine

/-! ### Properties by the parts they read -/

/-- The property depends on the named parts of the state alone. -/
def Reads (read : List Part) (P : State → Prop) : Prop :=
  ∀ s t : State, (∀ p ∈ read, p.same s t) → P s → P t

/-- A change of other parts keeps what does not read them. -/
theorem Reads.keep {read changed : List Part} {P : State → Prop} {s t : State} (hP : Reads read P)
    (hst : s.onlyIn changed t) (hdisj : ∀ p ∈ read, p ∉ changed) (hs : P s) : P t :=
  hP s t (fun p hp => hst p (hdisj p hp)) hs

theorem modPort_same (p : Port) (g : PortState → PortState) (s : State) (q : Part) : q.same s (s.modPort p g) := by
  cases p <;> cases q <;> simp [Part.same, State.modPort, State.chan, State.line]

theorem setPending_same {q : Part} (hq : q ≠ .pending) (is : List Instr) (s : State) :
    q.same s { s with pending := is } := by
  cases q <;> first | exact absurd rfl hq | simp [Part.same, State.chan, State.line]

theorem beginReset_onlyIn (cause : ResetCause) (s : State) :
    s.onlyIn [.outputs, .lines, .resets, .due] (beginReset cause s) := by
  intro q hq
  cases q with
  | outputs => simp at hq
  | lines => simp at hq
  | resets => simp at hq
  | due => simp at hq
  | tables =>
    intro l
    exact Tab.keep_mapIdx s.lines l _ (fun ln => ln.table) (fun _ _ => rfl)
  | _ => simp [Part.same, beginReset, State.chan]

/-! ### Checks (R179) -/

theorem firstFail_none_iff (l : List (Bool × Result)) : firstFail l = none ↔ ∀ x ∈ l, x.1 = true := by
  induction l with
  | nil => simp [firstFail]
  | cons x l ih =>
    obtain ⟨ok, r⟩ := x
    cases ok <;> simp [firstFail, ih]

/-- Where every check has the same result and one fails, that is the result. -/
theorem firstFail_of_all {l : List (Bool × Result)} {r : Result} (hall : ∀ x ∈ l, x.2 = r)
    (hfail : ∃ x ∈ l, x.1 = false) : firstFail l = some r := by
  induction l with
  | nil => simp at hfail
  | cons x l ih =>
    obtain ⟨ok, q⟩ := x
    obtain rfl : q = r := hall _ (List.mem_cons_self ..)
    cases ok with
    | false => rfl
    | true =>
      refine ih (fun y hy => hall y (List.mem_cons_of_mem _ hy)) ?_
      simpa using hfail

theorem firstFail_cons_true {r : Result} {l : List (Bool × Result)} : firstFail ((true, r) :: l) = firstFail l := rfl

/-! ### Which parts a request changes -/

/-- The parts that a request can change, beside the interface of its port. -/
def changedBy : Instr → List Part
  | .channelWrite .. => [.setup, .marks, .tables] ++ claimParts
  | .chairSet .. => [.floor, .latch, .chair, .tables]
  | .siteState .. => [.setup]
  | .claimSet .. => .tables :: claimParts
  | .claimRelease .. => .tables :: claimParts
  | .claimsClear .. => .tables :: claimParts
  | .farClear .. => .tables :: claimParts
  | .handLower .. => [.hands, .tables]
  | .privacyConfig .. => .tables :: privacyParts
  | .privacyRelease .. => .tables :: privacyParts
  | .modeSet .. => [.attack, .floor, .latch, .mode, .tables]
  | .floorConfig .. => .tables :: quantityParts
  | .grant .. => [.attack, .floor, .tables]
  | .revoke .. => .tables :: departParts
  | .waitDrop .. => [.attack, .floor, .tables]
  | .crosspointWrite .. => [.gains, .marks]
  | .busGainWrite .. => [.gains, .marks]
  | .meterConfig .. => [.meters]
  | .meterRead .. => [.meters]
  | .watchSet .. => [.meters]
  | .silenceConfig .. => [.silence, .tables]
  | .silenceRaise .. => [.silence, .tables]
  | .silenceRestore .. => [.silence, .tables]
  | .toneStart .. => [.tone, .tables]
  | .toneStop .. => [.tone, .tables]
  | .sceneStore .. => [.slots]
  | .sceneLoad .. => [.load, .marks]
  | .sceneAbort .. => [.load, .marks]
  | .lineStart .. => [.tables, .lines]
  | .lineStop .. => .lines :: offlineParts
  | .lineTest .. => [.tables, .lines]
  | .podSleep .. => [.tables]
  | .podWake .. => [.tables, .pos]
  | .podCounters .. => [.pos]
  | .powerStandby .. => .tables :: standbyParts
  | .powerWake .. => [.power, .tables, .lines]
  | .conferenceClear .. => .tables :: clearParts
  | .rightsSet .. => [.rights]
  | _ => []

theorem grantFloor_changes (c ev : Nat) (s : State) : s.changes [.attack, .floor] (grantFloor c ev s) := by
  unfold grantFloor
  split
  · exact (((dropWait_changes c s).comp (rs := [.attack, .floor]) (joinFloor_changes ..)).comp
      (rs := [.attack, .floor]) (floorChange_changes ..)).comp (afterFloor_changes _)
  · split
    · exact (evict_changes ..).trans (afterFloor_changes _)
    · exact .refl s _

theorem configurePrivacy_changes (group auto : OptField) (s : State) :
    s.changes (.tables :: privacyParts) (configurePrivacy group auto s) := by
  unfold configurePrivacy
  dsimp only
  have hset (x : Privacy) := setPrivacy_changes x s
  split
  · exact (hset _).mono
  · split
    · exact ((hset _).comp (rs := privacyParts) (matchPrivacy_changes _)).comp (refreshRings_changes _)
    · exact (hset _).mono

theorem writeWindow_changes (window : OptField) (s : State) : s.changes [.meters] (writeWindow window s) := by
  unfold writeWindow
  dsimp only
  split
  · exact .refl s _
  · exact setMeters_changes ..

theorem loadScene_changes (slot : Nat) (s : State) : s.changes [.load, .marks] (loadScene slot s) := by
  unfold loadScene
  split
  · exact startLoad_changes ..
  · exact .refl s _

theorem runOver_lowerHand_changes (cause : HandCause) (cs : List Nat) (s : State) :
    s.changes [.hands] (runOver (fun c => lowerHand c cause) cs s) :=
  runOver_changes (fun c t => lowerHand_changes c cause t) (by decide) cs s

theorem claimRun_changes (a : Authority) (b : Bool) (o : Origin) (sel num : Nat) (s : State) :
    s.changes (.tables :: claimParts) (claimRun a b o sel num s) :=
  (runOver_changes (fun c t => putClaim_changes a b (some o) c t) (by decide) _ s).comp (refreshRings_changes _)

theorem runOver_clearChannel_changes (cs : List Nat) (s : State) : s.changes claimParts (runOver clearChannel cs s) :=
  runOver_changes (fun _ _ => changeClaims_changes ..) (by decide) cs s

/-- The effect of a request from a port: some parts change and notices are raised, or the interface of the port alone
changes and no more notices wait there. -/
def RequestEffect (p : Port) (parts : List Part) (s t : State) : Prop :=
  s.changes parts t ∨ ∃ g : PortState → PortState, (∀ ps, (g ps).queue.length ≤ ps.queue.length) ∧ t = s.modPort p g

theorem RequestEffect.onlyIn {p : Port} {parts : List Part} {s t : State} (h : RequestEffect p parts s t) :
    s.onlyIn parts t := by
  rcases h with hst | ⟨g, -, rfl⟩
  · exact hst.1
  · exact fun q _ => modPort_same p g s q

/-- What a request leaves: its effect on the settled state, or, where a check fails, the settled state, with the
response. -/
theorem takeRequest_effect {parts : List Part} {s u : State} {p : Port} {tag : Byte} {kind : Nat}
    {checks : State → List (Bool × Result)} {run : State → State} {body : State → State → List Byte}
    (hrun : ∀ t : State, RequestEffect p parts t (run t)) (hreset : s.sys.inReset = none)
    (hexec : takeRequest p tag kind checks run body s = .next u) :
    ∃ r v, u = respond p r v ∧ RequestEffect p parts (settle s) v := by
  rcases takeRequest_cases hreset p tag kind checks run body with ⟨-, hok⟩ | ⟨x, -, hfail⟩
  · exact ⟨_, _, Host.Outcome.next.inj (hexec.symm.trans hok), hrun _⟩
  · exact ⟨_, _, Host.Outcome.next.inj (hexec.symm.trans hfail), .inl (.refl _ _)⟩

theorem request_effect {i : Instr} {p : Port} {tag : Byte} {kind : Nat} {s u : State}
    (hreq : i.request = some (p, tag, kind)) (hreset : s.sys.inReset = none) (hexec : exec i s = .next u) :
    ∃ p r v, u = respond p r v ∧ RequestEffect p (changedBy i) (settle s) v := by
  have hid (p : Port) : ∀ t : State, RequestEffect p [] t t := fun t => .inl (.refl t [])
  have hport (p : Port) (g : PortState → PortState) (hg : ∀ ps, (g ps).queue.length ≤ ps.queue.length) :
      ∀ t : State, RequestEffect p [] t (t.modPort p g) := fun t => .inr ⟨g, hg, rfl⟩
  cases i
  all_goals dsimp only [changedBy]
  case status p tag =>
    exact ⟨_, takeRequest_effect (hport p (fun ps => { ps with loss := false }) (fun _ => le_rfl)) hreset hexec⟩
  case noticeRead p tag count => exact ⟨_, takeRequest_effect (hport p _ (fun ps => by simp)) hreset hexec⟩
  case noticeMask p tag mask =>
    exact ⟨_, takeRequest_effect (hport p (fun ps => { ps with mask := noticeMaskOf mask ps.mask }) (fun _ => le_rfl))
      hreset hexec⟩
  case channelRead p tag first count => exact ⟨_, takeRequest_effect (hid _) hreset hexec⟩
  case channelWrite p tag ch trim zone groups =>
    exact ⟨_, takeRequest_effect (fun t => .inl (((touchChannel_changes ch t).comp (rs := [.setup, .marks] ++ claimParts)
      (writeSetup_changes ..)).comp (refreshRings_changes _))) hreset hexec⟩
  case chairSet p tag ch =>
    exact ⟨_, takeRequest_effect (fun t => .inl ((changeChair_changes _ t).comp (refreshRings_changes _))) hreset hexec⟩
  case siteState p tag site connected =>
    exact ⟨_, takeRequest_effect (fun t => .inl (modChan_changes (by
      intro q hq; cases q <;> simp [Part.keeps] at hq ⊢) _ t)) hreset hexec⟩
  case claimSet p tag sel num flag => exact ⟨_, takeRequest_effect (fun t => .inl (claimRun_changes ..)) hreset hexec⟩
  case claimRelease p tag sel num flag => exact ⟨_, takeRequest_effect (fun t => .inl (claimRun_changes ..)) hreset hexec⟩
  case claimsClear p tag sel num =>
    exact ⟨_, takeRequest_effect (fun t => .inl ((runOver_clearChannel_changes _ t).comp (refreshRings_changes _))) hreset hexec⟩
  case farClear p tag => exact ⟨_, takeRequest_effect (fun t => .inl (claimRun_changes ..)) hreset hexec⟩
  case handLower p tag sel num =>
    exact ⟨_, takeRequest_effect (fun t => .inl ((runOver_lowerHand_changes _ _ t).comp (refreshRings_changes _))) hreset hexec⟩
  case privacyConfig p tag group auto =>
    exact ⟨_, takeRequest_effect (fun t => .inl (configurePrivacy_changes ..)) hreset hexec⟩
  case privacyRelease p tag =>
    refine ⟨_, takeRequest_effect (fun t => ?_) hreset hexec⟩
    split
    · exact .inl ((releasePrivacy_changes t).comp (refreshRings_changes _))
    · exact .inl (.refl t _)
  case modeSet p tag mode =>
    exact ⟨_, takeRequest_effect (fun t => .inl ((changeMode_changes _ t).comp (refreshRings_changes _))) hreset hexec⟩
  case floorConfig p tag f =>
    exact ⟨_, takeRequest_effect (fun t => .inl ((writeFloorCfg_changes _ t).comp (refreshRings_changes _))) hreset hexec⟩
  case grant p tag ch evict =>
    exact ⟨_, takeRequest_effect (fun t => .inl ((grantFloor_changes ch evict t).comp (refreshRings_changes _))) hreset hexec⟩
  case revoke p tag ch =>
    exact ⟨_, takeRequest_effect (fun t => .inl ((leaveList_changes ch _ t).comp (refreshRings_changes _))) hreset hexec⟩
  case waitDrop p tag ch =>
    exact ⟨_, takeRequest_effect (fun t => .inl ((dropWaiting_changes ch _ t).comp (refreshRings_changes _))) hreset hexec⟩
  case crosspointRead p tag out first count => exact ⟨_, takeRequest_effect (hid _) hreset hexec⟩
  case crosspointWrite p tag out first count values =>
    exact ⟨_, takeRequest_effect (fun t => .inl ((touchRow_changes out t).comp (rs := [.gains, .marks])
      (setGains_changes _ _ _))) hreset hexec⟩
  case busGainWrite p tag out value =>
    exact ⟨_, takeRequest_effect (fun t => .inl ((touchRow_changes out t).comp (rs := [.gains, .marks])
      (setGains_changes _ _ _))) hreset hexec⟩
  case meterConfig p tag window => exact ⟨_, takeRequest_effect (fun t => .inl (writeWindow_changes ..)) hreset hexec⟩
  case meterRead p tag first count => exact ⟨_, takeRequest_effect (fun t => .inl (setMeters_changes ..)) hreset hexec⟩
  case watchSet p tag entry point threshold direction count arm =>
    exact ⟨_, takeRequest_effect (fun t => .inl (setMeters_changes ..)) hreset hexec⟩
  case silenceConfig p tag f =>
    exact ⟨_, takeRequest_effect (fun t => .inl ((writeSilenceCfg_changes _ t).comp (refreshRings_changes _))) hreset hexec⟩
  case silenceRaise p tag =>
    exact ⟨_, takeRequest_effect (fun t => .inl ((raiseSilence_changes p t).comp (refreshRings_changes _))) hreset hexec⟩
  case silenceRestore p tag =>
    exact ⟨_, takeRequest_effect (fun t => .inl ((restoreSilence_changes p t).comp (refreshRings_changes _))) hreset hexec⟩
  case toneStart p tag kind num freq level mode count =>
    exact ⟨_, takeRequest_effect (fun t => .inl ((setTone_changes _ t).comp (refreshRings_changes _))) hreset hexec⟩
  case toneStop p tag =>
    exact ⟨_, takeRequest_effect (fun t => .inl ((endTone_changes _ t).comp (refreshRings_changes _))) hreset hexec⟩
  case sceneStore p tag slot parts => exact ⟨_, takeRequest_effect (fun t => .inl (setSlots_changes ..)) hreset hexec⟩
  case sceneLoad p tag slot => exact ⟨_, takeRequest_effect (fun t => .inl (loadScene_changes ..)) hreset hexec⟩
  case sceneAbort p tag => exact ⟨_, takeRequest_effect (fun t => .inl (endLoad_changes ..)) hreset hexec⟩
  case lineStart p tag line => exact ⟨_, takeRequest_effect (fun t => .inl (modLine_changes ..)) hreset hexec⟩
  case lineStop p tag line =>
    exact ⟨_, takeRequest_effect (fun t => .inl ((stopLine_changes line t).comp (refreshRings_changes _))) hreset hexec⟩
  case lineTest p tag line frames => exact ⟨_, takeRequest_effect (fun t => .inl (modLine_changes ..)) hreset hexec⟩
  case podSleep p tag line pos => exact ⟨_, takeRequest_effect (fun t => .inl (place_changes ..)) hreset hexec⟩
  case podWake p tag line pos =>
    exact ⟨_, takeRequest_effect (fun t => .inl ((place_changes line _ _ t).comp (modPos_changes ..))) hreset hexec⟩
  case podCounters p tag line pos => exact ⟨_, takeRequest_effect (fun t => .inl (modPos_changes ..)) hreset hexec⟩
  case podIdentity p tag line pos => exact ⟨_, takeRequest_effect (hid _) hreset hexec⟩
  case powerStandby p tag autowake =>
    exact ⟨_, takeRequest_effect (fun t => .inl ((standby_changes _ t).comp (refreshRings_changes _))) hreset hexec⟩
  case powerWake p tag => exact ⟨_, takeRequest_effect (fun t => .inl (wake_changes _ t)) hreset hexec⟩
  case conferenceClear p tag =>
    exact ⟨_, takeRequest_effect (fun t => .inl ((clearConference_changes t).comp (refreshRings_changes _))) hreset hexec⟩
  case rightsSet p tag farmod => exact ⟨_, takeRequest_effect (fun t => .inl (setRights_changes ..)) hreset hexec⟩
  all_goals cases hreq

theorem request_onlyIn {i : Instr} {p : Port} {tag : Byte} {kind : Nat} {s u : State}
    (hreq : i.request = some (p, tag, kind)) (hreset : s.sys.inReset = none) (hexec : exec i s = .next u) :
    (settle s).onlyIn (changedBy i) u := by
  obtain ⟨p, r, v, rfl, heffect⟩ := request_effect hreq hreset hexec
  exact fun q hq => q.same_trans (heffect.onlyIn q hq) (respond_same ..)

/-- The bytes of a frame are refused, or taken as a request, or of no kind. -/
theorem execUnknownKindFrame_cases (p : Port) (bs : List Byte) (s : State) :
    (∃ r, execUnknownKindFrame p bs s = badFrame p bs r s)
      ∨ (∃ i tag kind, i.request = some (p, tag, kind) ∧ execUnknownKindFrame p bs s = exec i s)
      ∨ execUnknownKindFrame p bs s = .next s := by
  unfold execUnknownKindFrame knownFrame
  dsimp only
  split
  · exact .inl ⟨_, rfl⟩
  · split
    · exact .inl ⟨_, rfl⟩
    · split
      · exact .inl ⟨_, rfl⟩
      · split
        · exact .inl ⟨_, rfl⟩
        · rcases takeBody_request p (frameTag bs) (frameKind bs) ((bs.drop 4).take (bs.length - 6)) with
            ⟨i, hreq, hi⟩ | hnone
          · exact .inr (.inl ⟨i, _, _, hreq, hi s⟩)
          · exact .inr (.inr (hnone s))

/-! ### What every step keeps -/

theorem when_keep {P : State → Prop} {b : Bool} {f : State → State} {s : State} (hf : b = true → P s → P (f s))
    (hs : P s) : P (when b f s) := by
  unfold when
  split
  · next hb => exact hf hb hs
  · exact hs

/-- A property that every event, frame, request, boundary and reset keeps, and that reads neither the due events, the
queue of commands nor what a response changes of a port. -/
structure StepKept (P : State → Prop) : Prop where
  due : ∀ (s : State) (d : List Event), P s → P { s with due := d }
  queue : ∀ (s : State) (is : List Instr), P s → P { s with pending := is }
  port : ∀ (p : Port) (g : PortState → PortState) (s : State), (∀ ps, (g ps).queue = ps.queue) → P s → P (s.modPort p g)
  event : ∀ e s, P s → P (act e s)
  frame : ∀ l s, P s → P (formFrame l s)
  request : ∀ (i : Instr) (p : Port) (tag : Byte) (kind : Nat) (s u : State), i.request = some (p, tag, kind) →
    s.sys.inReset = none → P (settle s) → exec i s = .next u → P u
  boundary : ∀ inp s, s.settled → P s → P (boundary inp s)
  restart : ∀ cause pv al slots free is, P (State.afterReset cause pv al slots free is)
  pin : ∀ cause s, P s → P (beginReset cause s)

namespace StepKept

variable {P : State → Prop}

theorem settled (h : StepKept P) {s : State} (hs : P s) : P (settle s) := settle_keep h.due h.event h.frame s hs

theorem reply (h : StepKept P) {s : State} (p : Port) (r : Response) (hs : P s) : P (respond p r s) :=
  h.port p _ s (fun _ => rfl) hs

/-- A request keeps the property where its effect on a settled state that passes the checks does. -/
theorem takeRequest {s u : State} {p : Port} {tag : Byte} {kind : Nat} {checks : State → List (Bool × Result)}
    {run : State → State} {body : State → State → List Byte}
    (hport : ∀ (p : Port) (g : PortState → PortState) (s : State), (∀ ps, (g ps).queue = ps.queue) → P s → P (s.modPort p g))
    (hrun : ∀ t, P t → firstFail (checks t) = none → P (run t)) (hreset : s.sys.inReset = none) (hs : P (settle s))
    (hexec : Machine.takeRequest p tag kind checks run body s = .next u) : P u := by
  have hreply {t : State} (r : Response) (ht : P t) : P (respond p r t) :=
    hport p (fun ps => { ps with slot := some r, read := false }) t (fun _ => rfl) ht
  rcases takeRequest_cases hreset p tag kind checks run body with ⟨hpass, hok⟩ | ⟨x, -, hfail⟩
  · obtain rfl := Host.Outcome.next.inj (hok.symm.trans hexec)
    exact hreply _ (hrun _ hs hpass)
  · obtain rfl := Host.Outcome.next.inj (hfail.symm.trans hexec)
    exact hreply _ hs

theorem exec_request (h : StepKept P) {i : Instr} {p : Port} {tag : Byte} {kind : Nat} {s u : State}
    (hreq : i.request = some (p, tag, kind)) (hs : P s) (hexec : exec i s = .next u) : P u := by
  by_cases hreset : s.sys.inReset = none
  · exact h.request i p tag kind s u hreq hreset (h.settled hs) hexec
  · obtain ⟨c, r, b, hi, -⟩ := Machine.exec_request hreq
    rw [hi s, takeRequest_inReset hreset] at hexec
    exact Host.Outcome.next.inj hexec ▸ hs

theorem badFrame (h : StepKept P) {p : Port} {bs : List Byte} {r : Result} {s u : State} (hs : P s)
    (hexec : Machine.badFrame p bs r s = .next u) : P u := by
  by_cases hreset : s.sys.inReset = none
  · exact takeRequest h.port (fun t ht _ => ht) hreset (h.settled hs) hexec
  · rw [Machine.badFrame, takeRequest_inReset hreset] at hexec
    exact Host.Outcome.next.inj hexec ▸ hs

theorem rawFrame (h : StepKept P) {p : Port} {bs : List Byte} {s u : State} (hs : P s)
    (hexec : execUnknownKindFrame p bs s = .next u) : P u := by
  rcases execUnknownKindFrame_cases p bs s with ⟨r, hbad⟩ | ⟨i, tag, kind, hreq, hi⟩ | hnone
  · exact h.badFrame hs (hbad ▸ hexec)
  · exact h.exec_request hreq hs (hi ▸ hexec)
  · exact Host.Outcome.next.inj (hnone.symm.trans hexec) ▸ hs

theorem exec (h : StepKept P) {i : Instr} {s u : State} (hs : P s) (hexec : Machine.exec i s = .next u) : P u := by
  have hguard {b : Bool} {v : State} (hv : P v) (hb : (if b then Host.Outcome.next s else .next v) = .next u
      (φ := Fault) (ρ := Refusal)) : P u := by
    split at hb
    · exact Host.Outcome.next.inj hb ▸ hs
    · exact Host.Outcome.next.inj hb ▸ hv
  rcases command_shape i with ⟨p, t, k, hreq⟩ | ⟨e, he⟩ | ⟨inp, rfl⟩ | ⟨p, bs, rfl⟩ | ⟨p, n, rfl⟩ | ⟨p, b, n, rfl⟩
    | ⟨a, b, rfl⟩ | ⟨a, b, rfl⟩ | rfl
  · exact h.exec_request hreq hs hexec
  · rw [exec_event he] at hexec
    exact Host.Outcome.next.inj hexec ▸ runEvent_keep h.due h.event h.frame e s hs
  · exact hguard (closeFrames_keep h.frame _ (h.boundary inp _ (settle_settled s) (h.settled hs))) hexec
  · exact h.rawFrame hs hexec
  · exact hguard (h.port p (fun ps => ps.readOut n) s (fun _ => rfl) hs) hexec
  · exact hguard (h.port p (fun ps => { ps with dataOut := List.replicate n 255 }) s (fun _ => rfl) hs) hexec
  · change (if _ then Host.Outcome.next s else _) = _ at hexec
    split at hexec
    · exact Host.Outcome.next.inj hexec ▸ hs
    · exact Host.Outcome.next.inj hexec ▸ h.restart ..
  · change (if _ then Host.Outcome.next s else _) = _ at hexec
    split at hexec
    · exact Host.Outcome.next.inj hexec ▸ hs
    · exact Host.Outcome.next.inj hexec ▸ h.restart ..
  · exact hguard (h.pin .pin s hs) hexec

/-- What every event, frame, request, boundary and reset keeps, every step keeps. -/
theorem step (h : StepKept P) {s t : State} (hstep : Machine.step s = .next t) (hs : P s) : P t := by
  unfold Machine.step at hstep
  split at hstep
  · exact Host.Outcome.next.inj hstep ▸ hs
  · exact h.exec (h.queue s _ hs) hstep

/-- For a property that reads few parts, what changes none of them needs no proof. -/
theorem of_reads {read : List Part} (hP : Reads read P) (hown : Part.due ∉ read ∧ Part.pending ∉ read)
    (event : ∀ e s, (∃ p ∈ read, p ∈ e.parts) → P s → P (act e s))
    (frame : (∃ p ∈ read, p ∈ [Part.tables, Part.lines]) → ∀ l s, P s → P (formFrame l s))
    (request : ∀ (i : Instr) (p : Port) (tag : Byte) (kind : Nat) (s u : State), i.request = some (p, tag, kind) →
      s.sys.inReset = none → (∃ p ∈ read, p ∈ changedBy i) → P (settle s) → Machine.exec i s = .next u → P u)
    (boundary : ∀ inp s, s.settled → P s → P (Machine.boundary inp s))
    (restart : ∀ cause pv al slots free is, P (State.afterReset cause pv al slots free is))
    (pin : (∃ p ∈ read, p ∈ [Part.outputs, Part.lines, Part.resets, Part.due]) → ∀ cause s, P s → P (beginReset cause s)) :
    StepKept P where
  due s d := hP.keep (setDue_changes d s).1 (fun q hq hd => hown.1 (List.mem_singleton.mp hd ▸ hq))
  queue s is := hP s _ (fun q hq => setPending_same (fun hpend => hown.2 (hpend ▸ hq)) is s)
  port p g s _ := hP s _ (fun q _ => modPort_same p g s q)
  event e s hs := by
    by_cases hp : ∃ p ∈ read, p ∈ e.parts
    · exact event e s hp hs
    · exact hP.keep (act_changes e s).1 (fun p hr hc => hp ⟨p, hr, hc⟩) hs
  frame l s hs := by
    by_cases hp : ∃ p ∈ read, p ∈ [Part.tables, Part.lines]
    · exact frame hp l s hs
    · exact hP.keep (formFrame_changes l s).1 (fun p hr hc => hp ⟨p, hr, hc⟩) hs
  request i p tag kind s u hreq hreset hs hexec := by
    by_cases hp : ∃ p ∈ read, p ∈ changedBy i
    · exact request i p tag kind s u hreq hreset hp hs hexec
    · exact hP.keep (request_onlyIn hreq hreset hexec) (fun p hr hc => hp ⟨p, hr, hc⟩) hs
  boundary := boundary
  restart := restart
  pin cause s hs := by
    by_cases hp : ∃ p ∈ read, p ∈ [Part.outputs, Part.lines, Part.resets, Part.due]
    · exact pin hp cause s hs
    · exact hP.keep (beginReset_onlyIn cause s) (fun p hr hc => hp ⟨p, hr, hc⟩) hs

end StepKept

end Sys2Proof.Proofs
end

