-- ==== Sys2Proof/Proofs/BoundaryFrame.lean ====
section
/-! PROOFS. A block boundary in its two stages: the steps of the units, field by field, and then the gates, which
change attack counts and the floor lists alone. -/

set_option Elab.async false

namespace Sys2Proof.Proofs

open Sys2Proof Sys2Proof.Machine

/-! ### The stages -/

/-- The channels after the step of the Mix Engine and the measures, before muted talk and the gates. -/
def measuredChans (inp : BoundaryIn) (s : State) : Tab 42 Channel :=
  s.chans.mapIdx (fun c k =>
    (s.mixStep c k).measure s.floor.cfg (decide (c < 32)) (s.present c) ((s.inputs inp).get c))

/-- The outputs as the Mix Engine forms them at the boundary. -/
def formedOutputs (inp : BoundaryIn) (s : State) : Tab 17 (List Int) :=
  Tab.tabulate 17 (s.formOutput (measuredChans inp s) (s.inputs inp))

/-- The outputs after substitution. -/
def deliveredOutputs (inp : BoundaryIn) (s : State) : Tab 17 (List Int) :=
  Tab.tabulate 17 (s.deliver (s.inputs inp) (formedOutputs inp s))

/-- The state after the steps of every unit but the gates. -/
def unitsStepped (inp : BoundaryIn) (s : State) : State :=
  { s with
    chans := (measuredChans inp s).mapIdx (fun c k => if c < 32 then k.talkStep (s.present c) else k)
    mix := { s.mix with outputs := deliveredOutputs inp s }
    silence := s.silence.tick (formedOutputs inp s)
    meters := s.meters.tick (meterLevel (measuredChans inp s) (deliveredOutputs inp s))
    tone := s.tone.tick s.sys.free
    sys := { s.sys with blocks := s.sys.blocks + 1, free := s.sys.free + 1 }
    pos := s.pos.mapIdx (s.stepPosition inp)
    lines := s.lines.mapIdx (fun l ln =>
      ln.tick (inp.readBackDiffers.getD l false) (inp.frameEarly.getD l false))
    floor := s.floor.tick }

theorem boundarySteps_eq (inp : BoundaryIn) (s : State) : boundarySteps inp s = stepGates (unitsStepped inp s) := rfl

/-! ### Channels after the steps of the units -/

theorem inputs_get (inp : BoundaryIn) (s : State) {c : Nat} (hc : c < 42) : (s.inputs inp).get c = s.inputOf inp c := by
  simp [State.inputs, Tab.get_tabulate, hc]

theorem measuredChans_get (inp : BoundaryIn) (s : State) {c : Nat} (hc : c < 42) :
    (measuredChans inp s).get c
      = (s.mixStep c (s.chan c)).measure s.floor.cfg (decide (c < 32)) (s.present c) (s.inputOf inp c) := by
  simp [measuredChans, Tab.get_mapIdx, hc, inputs_get, State.chan]

theorem unitsStepped_chan (inp : BoundaryIn) (s : State) {c : Nat} (hc : c < 42) :
    (unitsStepped inp s).chan c
      = if c < 32 then ((measuredChans inp s).get c).talkStep (s.present c) else (measuredChans inp s).get c := by
  simp [unitsStepped, State.chan, Tab.get_mapIdx, hc]

/-- Muted-talk detection moves its own counter alone. -/
theorem talkStep_eq (k : Channel) (present : Bool) :
    k.talkStep present = { k with talkCount := (k.talkStep present).talkCount } := by
  unfold Channel.talkStep
  split
  · rfl
  · split
    · split
      · split
        · rfl
        · split <;> rfl
      · rfl
    · split <;> rfl

/-- A measure of a channel moves its block peak, noise floor, rise count and thresholds alone. -/
theorem measure_eq (k : Channel) (g : FloorCfg) (pod present : Bool) (x : List Int) :
    k.measure g pod present x = { k with
      peak := peakOf x
      noise := (k.measure g pod present x).noise
      rise := (k.measure g pod present x).rise
      openThr := (k.measure g pod present x).openThr
      closeThr := (k.measure g pod present x).closeThr } := by
  unfold Channel.measure
  dsimp only
  split
  · split
    · unfold Channel.track
      split
      · rfl
      · split <;> rfl
    · rfl
  · rfl

/-- Every field of a channel but the muted-talk counter is, after the steps of the units, as measured. -/
theorem unitsStepped_chan_eq (inp : BoundaryIn) (s : State) {c : Nat} (hc : c < 42) :
    (unitsStepped inp s).chan c
      = { (measuredChans inp s).get c with talkCount := ((unitsStepped inp s).chan c).talkCount } := by
  rw [unitsStepped_chan inp s hc]
  split
  · exact talkStep_eq ..
  · rfl

/-! ### The gates -/

theorem gateStep_changes (c : Nat) (s : State) : s.changes [.attack, .floor] (gateStep c s) := by
  unfold gateStep
  dsimp only
  have hmoved := (setAttack_changes c (s.attackStep c) s).comp (rs := [.attack, .floor])
    (modFloor_lists (f := fun f => f.modEntry c (fun e => e.gateStep f
      ((s.modChan c (fun k => { k with attack := s.attackStep c })).chan c))) _ (by intro; simp [Floor.modEntry]))
  split
  · exact hmoved
  · exact hmoved.comp (floorChange_changes ..)

theorem stepGates_changes (s : State) : s.changes [.attack, .floor] (stepGates s) := by
  unfold stepGates
  split
  · exact (runOver_changes gateStep_changes (by decide) pods s).comp
      (modFloor_lists _ (by intro; simp))
  · exact .refl s _

/-- A part that the gates do not touch is, after a boundary, as the units left it. -/
theorem boundary_same (inp : BoundaryIn) (s : State) {q : Part} (hq : q ∉ [Part.attack, .floor, .due]) :
    q.same (unitsStepped inp s) (boundary inp s) :=
  ((stepGates_changes (unitsStepped inp s)).comp (rs := [.attack, .floor, .due]) (setDue_changes _ _)).1 q hq

theorem boundary_silence (inp : BoundaryIn) (s : State) :
    (boundary inp s).silence = s.silence.tick (formedOutputs inp s) :=
  boundary_same inp s (q := .silence) (by decide)

theorem boundary_pos (inp : BoundaryIn) (s : State) : (boundary inp s).pos = s.pos.mapIdx (s.stepPosition inp) :=
  boundary_same inp s (q := .pos) (by decide)

theorem boundary_cfg (inp : BoundaryIn) (s : State) : (boundary inp s).floor.cfg = s.floor.cfg :=
  boundary_same inp s (q := .cfg) (by decide)

theorem boundary_tone (inp : BoundaryIn) (s : State) : (boundary inp s).tone = s.tone.tick s.sys.free :=
  boundary_same inp s (q := .tone) (by decide)

end Sys2Proof.Proofs
end

