-- ==== Sys2Proof/Proofs/KeptSilence.lean ====
section
/-! PROOFS. Every step keeps the laws of Room Silence (chapter 6). -/

set_option Elab.async false

namespace Sys2Proof.Proofs

open Sys2Proof Sys2Proof.Machine

/-- The laws of Room Silence, as laws of the Silence Controller's record. -/
def SilenceOk (q : Silence) : Prop :=
  (q.state = .quiet → q.covered = .none ∧ q.chime = 0)
    ∧ (q.state ≠ .active → q.requestLatch = false ∧ q.howl = 0) ∧ q.chime < 1000

theorem silenceLawful_iff (s : State) : s.silenceLawful ↔ SilenceOk s.silence := Iff.rfl

namespace SilenceOk

variable {q : Silence}

theorem sourceEffective (h : SilenceOk q) (sc : Scope) : SilenceOk (q.sourceEffective sc) := by
  obtain ⟨hquiet, hlatch, hchime⟩ := h
  unfold Silence.sourceEffective
  split <;> simp [SilenceOk, hchime]

theorem sourceEffective_active (q : Silence) (sc : Scope) : (q.sourceEffective sc).state = .active := by
  unfold Silence.sourceEffective
  split <;> rfl

/-- In ACTIVE only the chime phase is bounded. -/
theorem of_active (hact : q.state = .active) (hchime : q.chime < 1000) : SilenceOk q := by
  simp [SilenceOk, hact, hchime]

theorem restoring (h : SilenceOk q) (hlatch : q.latched = false) : SilenceOk { q with state := .restoring } := by
  obtain ⟨hrequest, hhowl⟩ := Bool.or_eq_false_iff.mp hlatch
  exact ⟨nofun, fun _ => ⟨hrequest, by simpa using hhowl⟩, h.2.2⟩

theorem dropDisabled (h : SilenceOk q) : SilenceOk q.dropDisabled := by
  obtain ⟨hquiet, hlatch, hchime⟩ := h
  unfold Silence.dropDisabled
  refine ⟨?_, ?_, ?_⟩ <;> (dsimp only; split <;> split <;> simp_all)

theorem widened (h : SilenceOk q) (hforce : q.inForce = true) : SilenceOk { q with covered := .ab } := by
  obtain ⟨-, hlatch, hchime⟩ := h
  have hstate : q.state ≠ .quiet := by simpa [Silence.inForce] using hforce
  exact ⟨fun hq => absurd hq hstate, hlatch, hchime⟩

theorem configure (h : SilenceOk q) (new : SilenceCfg) : SilenceOk (q.configure new).1 := by
  have hdrop : SilenceOk ({ q with cfg := new }.dropDisabled) := dropDisabled h
  unfold Silence.configure
  dsimp only
  generalize hr : (if ({ q with cfg := new }.dropDisabled.inForce && _) = true then _ else _) = r
  have hwide : SilenceOk r := by
    rw [← hr]
    split
    · next hforce => exact hdrop.widened (Bool.and_eq_true_iff.mp hforce).1
    · exact hdrop
  split
  · exact hwide.sourceEffective _
  · split
    · next hauto => exact hwide.restoring (by simpa using (Bool.and_eq_true_iff.mp (Bool.and_eq_true_iff.mp hauto).2).2)
    · exact hwide

theorem tick (h : SilenceOk q) (formed : Tab 17 (List Int)) : SilenceOk (q.tick formed) := by
  obtain ⟨hquiet, hlatch, hchime⟩ := h
  refine ⟨fun hstate => ?_, hlatch, ?_⟩
  · have hq : q.state = .quiet := hstate
    simpa [Silence.tick, Silence.inForce, hq] using hquiet hq
  · show (if q.inForce then (q.chime + 1) % 1000 else q.chime) < 1000
    split <;> omega

end SilenceOk

theorem silence_noteSilence (cause : SilenceCause) (s : State) : (noteSilence cause s).silence = s.silence := rfl

/-! ### The operations of the Silence Controller -/

theorem alarmActive_ok {s : State} (h : s.silenceLawful) : (alarmActive s).silenceLawful := by
  have hlevel : SilenceOk { s.silence with alarmLevel := true } := h
  unfold alarmActive
  dsimp only
  split
  · exact hlevel.sourceEffective _
  · exact hlevel

theorem alarmInactive_ok {s : State} (h : s.silenceLawful) : (alarmInactive s).silenceLawful := by
  have hlevel : SilenceOk { s.silence with alarmLevel := false } := h
  unfold alarmInactive
  dsimp only
  split
  · split
    · next hauto => exact hlevel.restoring (by simpa using (Bool.and_eq_true_iff.mp hauto).2)
    · exact hlevel
  · exact hlevel

theorem latchHowl_ok {s : State} (z : Nat) (h : s.silenceLawful) : (latchHowl z s).silenceLawful :=
  SilenceOk.of_active (SilenceOk.sourceEffective_active ..) (SilenceOk.sourceEffective h _).2.2

theorem raiseSilence_ok {s : State} (p : Port) (h : s.silenceLawful) : (raiseSilence p s).silenceLawful := by
  unfold raiseSilence
  split
  · exact h
  · exact SilenceOk.of_active (SilenceOk.sourceEffective_active ..) (SilenceOk.sourceEffective h _).2.2

theorem restoreSilence_ok {s : State} (p : Port) (h : s.silenceLawful) : (restoreSilence p s).silenceLawful := by
  unfold restoreSilence
  split
  · exact ⟨nofun, fun _ => ⟨rfl, rfl⟩, h.2.2⟩
  · exact h

theorem endRestoring_ok {s : State} (hstate : s.silence.state = .restoring) (h : s.silenceLawful) :
    (endRestoring s).silenceLawful :=
  ⟨fun _ => ⟨rfl, rfl⟩, fun _ => h.2.1 (by simp [hstate]), by simp [endRestoring, restartRamps, silence_noteSilence]⟩

theorem writeSilenceCfg_ok {s : State} (new : SilenceCfg) (h : s.silenceLawful) : (writeSilenceCfg new s).silenceLawful := by
  unfold writeSilenceCfg
  dsimp only
  split <;> exact SilenceOk.configure h new

theorem silenceLawful_reads : Reads [.silence] State.silenceLawful := by
  intro s t hsame h
  have hsilence : t.silence = s.silence := hsame .silence (List.mem_singleton_self _)
  rw [silenceLawful_iff, hsilence]
  exact h

theorem refreshRings_lawful {s : State} (h : s.silenceLawful) : (refreshRings s).silenceLawful :=
  silenceLawful_reads.keep (refreshRings_changes s).1 (by decide) h

theorem silenceLawful_boundary (inp : BoundaryIn) (s : State) (h : s.silenceLawful) :
    (boundary inp s).silenceLawful := by
  rw [silenceLawful_iff, boundary_silence]
  exact SilenceOk.tick h _

theorem silenceLawful_port (p : Port) (g : PortState → PortState) (s : State) (_ : ∀ ps, (g ps).queue = ps.queue)
    (h : s.silenceLawful) : (s.modPort p g).silenceLawful :=
  silenceLawful_reads s _ (fun q _ => modPort_same p g s q) h

theorem silenceLawful_kept : StepKept State.silenceLawful := by
  refine StepKept.of_reads silenceLawful_reads (by decide) ?event (fun hp => absurd hp (by decide)) ?request
    (fun inp s _ => silenceLawful_boundary inp s) ?restart (fun hp => absurd hp (by decide))
  case event =>
    intro e s hp h
    cases e
    all_goals dsimp only [act]
    case alarmActiveEdge =>
      exact when_keep (P := State.silenceLawful) (fun _ h => refreshRings_lawful (alarmActive_ok h)) h
    case alarmInactiveEdge =>
      exact when_keep (P := State.silenceLawful) (fun _ h => refreshRings_lawful (alarmInactive_ok h)) h
    case howlLatch z =>
      exact when_keep (P := State.silenceLawful) (fun _ h => refreshRings_lawful (latchHowl_ok z h)) h
    case restoringEnd =>
      exact when_keep (P := State.silenceLawful)
        (fun hb h => refreshRings_lawful (endRestoring_ok (by simpa using hb) h)) h
    all_goals exact absurd hp (by dsimp only [Event.parts]; decide)
  case request =>
    intro i p tag kind s u _ hreset hp h hexec
    cases i with
    | silenceConfig p tag f =>
      exact StepKept.takeRequest silenceLawful_port (fun t ht _ => refreshRings_lawful (writeSilenceCfg_ok _ ht)) hreset h hexec
    | silenceRaise p tag =>
      exact StepKept.takeRequest silenceLawful_port (fun t ht _ => refreshRings_lawful (raiseSilence_ok p ht)) hreset h hexec
    | silenceRestore p tag =>
      exact StepKept.takeRequest silenceLawful_port (fun t ht _ => refreshRings_lawful (restoreSilence_ok p ht)) hreset h hexec
    | _ => exact absurd hp (by dsimp only [changedBy]; decide)
  case restart =>
    intro cause pv al slots free is
    cases al <;> simp [State.silenceLawful, State.afterReset, resetSilence]

/-- Settles O58: the laws of Room Silence are kept by every event, request and boundary. -/
theorem stepKeepsSilenceLawful : Obligations.StepKeepsSilenceLawful := fun _ _ => silenceLawful_kept.step

end Sys2Proof.Proofs
end

