-- ==== Sys2Proof/Proofs/KeptTables.lean ====
section
/-! PROOFS. Every step keeps the pending command tables keyed (R138). -/

set_option Elab.async false

namespace Sys2Proof.Proofs

open Sys2Proof Sys2Proof.Machine

/-! ### Tables with one entry for each key -/

/-- One entry for each addressee and kind. -/
def Keyed (table : List Entry) : Prop := table.Pairwise (fun e f => e.sameKey f = false)

theorem sameKey_eq_true_iff (e f : Entry) : e.sameKey f = true ↔ e.dest = f.dest ∧ e.cmd.kind = f.cmd.kind := by
  simp [Entry.sameKey]

theorem afterFrame_key (chosen e : Entry) :
    (Entry.afterFrame chosen e).dest = e.dest ∧ (Entry.afterFrame chosen e).cmd.kind = e.cmd.kind := by
  unfold Entry.afterFrame
  split <;> split <;> simp_all [LineCmd.kind]

namespace Keyed

variable {table : List Entry}

theorem nil : Keyed [] := List.Pairwise.nil

theorem singleton (e : Entry) : Keyed [e] := List.pairwise_singleton ..

theorem filter (h : Keyed table) (q : Entry → Bool) : Keyed (table.filter q) := List.Pairwise.filter q h

/-- The entry of the same key leaves before the new one is placed. -/
theorem placeIn (h : Keyed table) (dest : Addressee) (cmd : LineCmd) : Keyed (placeIn table dest cmd) := by
  refine List.pairwise_append.mpr ⟨h.filter _, List.pairwise_singleton .., fun e he f hf => ?_⟩
  obtain rfl := List.mem_singleton.mp hf
  simpa using (List.mem_filter.mp he).2

theorem map {g : Entry → Entry} (h : Keyed table)
    (hg : ∀ e, (g e).dest = e.dest ∧ (g e).cmd.kind = e.cmd.kind) : Keyed (table.map g) := by
  refine List.pairwise_map.mpr (List.Pairwise.imp (fun hef => ?_) h)
  simpa [Entry.sameKey, hg] using hef

theorem tableAfter (h : Keyed table) (chosen : Entry) : Keyed (tableAfter table chosen) := by
  have hmarked := h.map (afterFrame_key chosen)
  unfold Machine.tableAfter
  dsimp only
  split
  · exact hmarked.filter _
  · exact hmarked

theorem runningFrame {ln : Line} (h : Keyed ln.table) (audio : List (List Int)) :
    Keyed (ln.runningFrame audio).table := by
  unfold Line.runningFrame
  split
  · exact h
  · exact h.tableAfter _

theorem formed {ln : Line} (h : Keyed ln.table) (audio : List (List Int)) (number : Nat) :
    Keyed (ln.formed audio number).table := by
  unfold Line.formed
  dsimp only
  split
  · exact h
  · exact h
  · exact h
  · exact runningFrame (ln := { ln with toForm := false, early := false }) h audio
  · exact runningFrame (ln := { ln with toForm := false, early := false }) h audio
  · exact h

end Keyed

/-! ### The operations that write tables -/

theorem tablesKeyed_reads : Reads [.tables] State.tablesKeyed := by
  intro s t hsame h l hl
  have htable : (t.line l).table = (s.line l).table := hsame .tables (List.mem_singleton_self _) l
  rw [htable]
  exact h l hl

/-- What changes parts other than the tables keeps them keyed. -/
theorem tablesKeyed_of_changes {ps : List Part} {s t : State} (hst : s.changes ps t) (h : s.tablesKeyed)
    (hps : Part.tables ∉ ps := by decide) : t.tablesKeyed :=
  tablesKeyed_reads.keep hst.1 (by simpa using hps) h

theorem tablesKeyed_modLine {l : Nat} {g : Line → Line} {s : State} (h : s.tablesKeyed)
    (hg : ∀ ln, Keyed ln.table → Keyed (g ln).table) : (s.modLine l g).tablesKeyed := by
  intro k hk
  rw [State.line_modLine]
  split
  · next hkl => exact hg _ (h l hkl.2)
  · exact h k hk

theorem tablesKeyed_modPos {c : Nat} {f : Position → Position} {s : State} (h : s.tablesKeyed) :
    (s.modPos c f).tablesKeyed := h

theorem tablesKeyed_place {l : Nat} {dest : Addressee} {cmd : LineCmd} {s : State} (h : s.tablesKeyed) :
    (s.place l dest cmd).tablesKeyed := tablesKeyed_modLine h (fun _ hln => hln.placeIn ..)

theorem tablesKeyed_filter {l : Nat} {q : Entry → Bool} {s : State} (h : s.tablesKeyed) :
    (s.modLine l (fun ln => { ln with table := ln.table.filter q })).tablesKeyed :=
  tablesKeyed_modLine h (fun _ hln => hln.filter q)

theorem tablesKeyed_runOver {f : Nat → State → State} (hf : ∀ n s, s.tablesKeyed → (f n s).tablesKeyed) (ns : List Nat)
    {s : State} (h : s.tablesKeyed) : (runOver f ns s).tablesKeyed := runOver_keep hf ns s h

theorem tablesKeyed_quietly {f : State → State} {s : State} (h : (f s).tablesKeyed) : (quietly f s).tablesKeyed := h

theorem tablesKeyed_refreshRing (c : Nat) (s : State) (h : s.tablesKeyed) : (refreshRing c s).tablesKeyed := by
  unfold refreshRing
  split
  · split
    · exact h
    · exact tablesKeyed_place h
  · exact h

theorem tablesKeyed_refreshRings {s : State} (h : s.tablesKeyed) : (refreshRings s).tablesKeyed :=
  tablesKeyed_runOver tablesKeyed_refreshRing pods h

theorem tablesKeyed_owePulse {c : Nat} {s : State} (h : s.tablesKeyed) : (owePulse c s).tablesKeyed := by
  unfold owePulse
  split
  · exact tablesKeyed_place h
  · exact h

theorem tablesKeyed_acknowledgeRing {c : Nat} {v : Ring} {pulse : Bool} {s : State} (h : s.tablesKeyed) :
    (acknowledgeRing c v pulse s).tablesKeyed := by
  unfold acknowledgeRing settlePulse
  dsimp only
  split
  · split
    · exact tablesKeyed_place h
    · exact h
  · exact h

/-! ### Floor requests and presses -/

theorem tablesKeyed_overrideRefused {c : Nat} {wait : List WaitEntry} {s : State} (h : s.tablesKeyed) :
    (overrideRefused c wait s).tablesKeyed := tablesKeyed_owePulse h

theorem tablesKeyed_afterFloor {s : State} (h : s.tablesKeyed) : (afterFloor s).tablesKeyed :=
  tablesKeyed_of_changes (afterFloor_changes s) h

theorem tablesKeyed_joinFloor {c : Nat} {st : EntryState} {g g' : Gate} {k : FloorCause} {s : State}
    (h : s.tablesKeyed) : (floorChange c g g' k (joinFloor c st s)).tablesKeyed :=
  tablesKeyed_of_changes (floorChange_changes ..) (tablesKeyed_of_changes (joinFloor_changes c st s) h)

theorem tablesKeyed_override {c : Nat} {s : State} (h : s.tablesKeyed) : (override c s).tablesKeyed := by
  unfold override
  dsimp only
  refine tablesKeyed_afterFloor ?_
  have hopen : (settleGuard (s.modFloor (fun f => (f.dropWait c).dropLeaving c))).tablesKeyed :=
    tablesKeyed_of_changes (settleGuard_changes (s.modFloor (fun f => (f.dropWait c).dropLeaving c))) h
  split
  · exact tablesKeyed_joinFloor hopen
  · split
    · exact tablesKeyed_overrideRefused hopen
    · split
      · exact tablesKeyed_of_changes (overridePending_changes ..) hopen
      · split
        · exact tablesKeyed_joinFloor hopen
        · split
          · exact tablesKeyed_of_changes (overridePending_changes ..) hopen
          · exact tablesKeyed_overrideRefused hopen

theorem tablesKeyed_requestFloor {c : Nat} {s : State} (h : s.tablesKeyed) : (requestFloor c s).tablesKeyed := by
  unfold requestFloor
  split
  · exact tablesKeyed_override h
  · split
    · exact tablesKeyed_afterFloor (tablesKeyed_of_changes (requestFromLeaving_changes c s) h)
    · exact tablesKeyed_afterFloor (tablesKeyed_of_changes (requestByLists_changes c s) h)

theorem tablesKeyed_queuePress {c : Nat} {s : State} (h : s.tablesKeyed) : (queuePress c s).tablesKeyed := by
  unfold queuePress
  dsimp only
  split
  · exact tablesKeyed_of_changes (leaveList_changes ..) h
  · split
    · exact tablesKeyed_of_changes (leaveWait_changes ..) h
    · split
      · exact tablesKeyed_owePulse h
      · split
        · exact tablesKeyed_owePulse h
        · split
          · exact tablesKeyed_owePulse h
          · exact tablesKeyed_afterFloor (tablesKeyed_of_changes (floorChange_changes ..)
              (tablesKeyed_of_changes (joinWait_changes c s) h))

theorem tablesKeyed_chairQueuePress {c : Nat} {s : State} (h : s.tablesKeyed) : (chairQueuePress c s).tablesKeyed := by
  unfold chairQueuePress
  split
  · exact tablesKeyed_of_changes (leaveList_changes ..) h
  · split
    · exact tablesKeyed_owePulse h
    · exact tablesKeyed_override h

theorem tablesKeyed_latchPress {c : Nat} {s : State} (h : s.tablesKeyed) : (latchPress c s).tablesKeyed := by
  unfold latchPress
  dsimp only
  have hlatch (b : Bool) (g : Gate) {t : State} (ht : t.tablesKeyed) : (setLatch c b g t).tablesKeyed :=
    tablesKeyed_of_changes (setLatch_changes c b g t) ht
  split
  · exact hlatch _ _ h
  · split
    · exact tablesKeyed_owePulse h
    · split
      · exact hlatch _ _ h
      · split
        · exact hlatch _ _ h
        · split
          · exact hlatch _ _ (tablesKeyed_override h)
          · exact tablesKeyed_override h

theorem tablesKeyed_pressTalk {c : Nat} {s : State} (h : s.tablesKeyed) : (pressTalk c s).tablesKeyed := by
  unfold pressTalk
  split
  · exact tablesKeyed_chairQueuePress h
  · exact tablesKeyed_queuePress h
  · exact tablesKeyed_latchPress h
  · exact h

/-! ### Positions and lines -/

theorem tablesKeyed_leaveOnline {c : Nat} {st : PosState} {cause : LostCause} {s : State} (h : s.tablesKeyed) :
    (leaveOnline c st cause s).tablesKeyed := by
  unfold leaveOnline
  dsimp only
  refine tablesKeyed_of_changes (lowerHand_changes ..) (tablesKeyed_of_changes (removeFromFloor_changes ..) ?_)
  exact tablesKeyed_filter (tablesKeyed_modPos h)

theorem tablesKeyed_leaveJoining {c : Nat} {f : Position → Position} {s : State} (h : s.tablesKeyed) :
    (leaveJoining c f s).tablesKeyed := tablesKeyed_filter (tablesKeyed_modPos h)

theorem tablesKeyed_leaveAsleep {c : Nat} {f : Position → Position} {s : State} (h : s.tablesKeyed) :
    (leaveAsleep c f s).tablesKeyed := tablesKeyed_filter (tablesKeyed_modPos h)

theorem tablesKeyed_joinPod {c : Nat} {s : State} (h : s.tablesKeyed) : (joinPod c s).tablesKeyed := by
  unfold joinPod
  dsimp only
  exact tablesKeyed_of_changes (raise_changes ..) (tablesKeyed_of_changes (forgetRing_changes ..)
    (tablesKeyed_leaveJoining h))

theorem tablesKeyed_sleepPod {c : Nat} {s : State} (h : s.tablesKeyed) : (sleepPod c s).tablesKeyed := by
  unfold sleepPod
  split
  · exact tablesKeyed_leaveOnline h
  · exact tablesKeyed_leaveJoining h

theorem tablesKeyed_placeRollCall {l : Nat} {s : State} (h : s.tablesKeyed) : (placeRollCall l s).tablesKeyed :=
  tablesKeyed_modLine (tablesKeyed_place h) (fun _ hln => hln)

theorem tablesKeyed_rollCallNow {l : Nat} {s : State} (h : s.tablesKeyed) : (rollCallNow l s).tablesKeyed := by
  have hcount : (s.modLine l (fun ln => { ln with rollCount := 0 })).tablesKeyed := tablesKeyed_modLine h (fun _ hln => hln)
  unfold rollCallNow
  dsimp only
  split
  · exact hcount
  · exact tablesKeyed_placeRollCall hcount

theorem tablesKeyed_endTest {l : Nat} {ending : TestEnding} {s : State} (h : s.tablesKeyed) :
    (endTest l ending s).tablesKeyed :=
  tablesKeyed_modLine (s := noteLineTest l ending s) h (fun _ _ => Keyed.nil)

theorem tablesKeyed_endWaking {l : Nat} {s : State} (h : s.tablesKeyed) : (endWaking l s).tablesKeyed := by
  refine tablesKeyed_modLine (tablesKeyed_runOver (fun p t ht => ?_) positions h) (fun _ hln => hln)
  split
  · exact tablesKeyed_leaveAsleep ht
  · exact ht

theorem tablesKeyed_endSleeping {l : Nat} {s : State} (h : s.tablesKeyed) : (endSleeping l s).tablesKeyed :=
  tablesKeyed_modLine h (fun _ hln => by split <;> exact hln)

theorem tablesKeyed_sleepLine {l : Nat} {s : State} (h : s.tablesKeyed) : (sleepLine l s).tablesKeyed := by
  unfold sleepLine
  dsimp only
  refine tablesKeyed_modLine (tablesKeyed_quietly (tablesKeyed_runOver (fun p t ht => ?_) positions h))
    (fun _ _ => Keyed.singleton _)
  split
  · exact tablesKeyed_modPos (tablesKeyed_leaveOnline ht)
  · exact tablesKeyed_modPos ht

theorem tablesKeyed_stopLine {l : Nat} {s : State} (h : s.tablesKeyed) : (stopLine l s).tablesKeyed := by
  unfold stopLine
  split
  · exact h
  · exact tablesKeyed_endTest h
  · refine tablesKeyed_runOver (fun p t ht => ?_) positions (tablesKeyed_modLine h (fun _ _ => Keyed.nil))
    dsimp only
    split
    · exact tablesKeyed_modPos (tablesKeyed_leaveOnline ht)
    · exact tablesKeyed_modPos ht

theorem tablesKeyed_restLine {l : Nat} {s : State} (h : s.tablesKeyed) : (restLine l s).tablesKeyed :=
  tablesKeyed_of_changes (restLine_changes l s) h

theorem tablesKeyed_standbyLine (l : Nat) (s : State) (h : s.tablesKeyed) : (standbyLine l s).tablesKeyed := by
  have henter (st : LineState) : (s.modLine l (fun ln => ln.enter st 0)).tablesKeyed :=
    tablesKeyed_modLine h (fun _ hln => hln)
  unfold standbyLine
  split
  · exact tablesKeyed_restLine h
  · exact tablesKeyed_restLine (tablesKeyed_endTest h)
  · exact henter _
  · exact henter _
  · exact henter _
  · exact h

theorem tablesKeyed_standby {autowake : Bool} {s : State} (h : s.tablesKeyed) : (standby autowake s).tablesKeyed := by
  unfold standby
  split
  · exact h
  · unfold enterStandby
    dsimp only
    refine tablesKeyed_runOver tablesKeyed_standbyLine lineNumbers ?_
    refine tablesKeyed_of_changes (endTone_changes ..) (tablesKeyed_of_changes (endLoad_changes ..) ?_)
    exact tablesKeyed_of_changes (raise_changes ..) (tablesKeyed_of_changes (emptyFloor_changes _) h)

theorem tablesKeyed_wake {cause : PowerCause} {s : State} (h : s.tablesKeyed) : (wake cause s).tablesKeyed := by
  unfold wake
  split
  · exact h
  · refine tablesKeyed_of_changes (raise_changes ..) (tablesKeyed_runOver (fun l t ht => ?_) lineNumbers h)
    exact tablesKeyed_modLine ht (fun ln hln => by split <;> exact hln)

theorem tablesKeyed_formFrame {l : Nat} {s : State} (h : s.tablesKeyed) : (formFrame l s).tablesKeyed :=
  tablesKeyed_modLine h (fun _ hln => hln.formed ..)

/-! ### Every step -/

theorem tablesKeyed_event (e : Event) (s : State) (hwrites : Part.tables ∈ e.parts) (h : s.tablesKeyed) :
    (act e s).tablesKeyed := by
  have hwhen {b : Bool} {f : State → State} (hf : (f s).tablesKeyed) : (when b f s).tablesKeyed :=
    when_keep (P := State.tablesKeyed) (fun _ _ => hf) h
  have hother {ps : List Part} {t : State} (hst : s.changes ps t) (hps : Part.tables ∉ ps := by decide) :
      (refreshRings t).tablesKeyed := tablesKeyed_refreshRings (tablesKeyed_of_changes hst h hps)
  cases e
  all_goals dsimp only [act]
  case privacyActiveEdge => exact hwhen (hother (privacyActive_changes s))
  case privacyInactiveEdge => exact hwhen (hother (privacyInactive_changes s))
  case alarmActiveEdge => exact hwhen (hother (alarmActive_changes s))
  case alarmInactiveEdge => exact hwhen (hother (alarmInactive_changes s))
  case wakePulse l =>
    refine hwhen ?_
    dsimp only
    split
    · exact tablesKeyed_wake h
    · exact h
  case muteShortPress c => exact hwhen (hother (shortPress_changes c s))
  case longPress c => exact hwhen (hother (chairPress_changes c s))
  case talkPress c => exact hwhen (tablesKeyed_refreshRings (tablesKeyed_pressTalk h))
  case floorRequest c => exact hwhen (tablesKeyed_refreshRings (tablesKeyed_requestFloor h))
  case holdExpired c => exact hwhen (hother (leaveList_changes c _ s))
  case waitTimeout c => exact hwhen (hother (dropWaiting_changes c _ s))
  case waitQuietDrop c => exact hwhen (hother (dropWaiting_changes c _ s))
  case guardExpiry => exact hwhen (hother (openPending_changes s))
  case leavingRemoval c => exact hwhen (hother (removeLeaving_changes c s))
  case talkTimerTick c =>
    have hticked (t : TalkTimer) : (refreshRings (s.modFloor (fun f =>
        f.modEntry c (fun e => { e with talk := some t })))).tablesKeyed := hother (modEntry_changes c _ s)
    unfold actTalkTimerTick
    split
    · exact h
    · split
      · exact h
      · dsimp only
        split
        · exact tablesKeyed_of_changes (addDue_changes ..) (hticked _)
        · split
          · exact tablesKeyed_of_changes (addDue_changes ..) (hticked _)
          · exact hticked _
  case talkWarn c =>
    unfold actTalkWarn
    split
    · exact h
    · exact hwhen (hother ((setWarned_changes c true s).comp (rs := [.floor]) (raise_changes ..)))
  case talkEnd c =>
    unfold actTalkEnd
    split
    · exact h
    · exact hwhen (hother (endTalk_changes ..))
  case howlLatch z => exact hwhen (hother (latchHowl_changes z s))
  case restoringEnd => exact hwhen (hother (endRestoring_changes s))
  case rollCall l => exact hwhen (tablesKeyed_rollCallNow h)
  case rollCallAnswer l p rec => exact hwhen (tablesKeyed_leaveAsleep h)
  case podJoin l p =>
    unfold actPodJoin
    exact hwhen (tablesKeyed_refreshRings (tablesKeyed_joinPod h))
  case joinFailed l p => exact hwhen (tablesKeyed_leaveJoining h)
  case podLost l p =>
    unfold actPodLost
    exact hwhen (tablesKeyed_refreshRings (tablesKeyed_leaveOnline h))
  case ringAcknowledged l p =>
    unfold actRingAcknowledged
    split
    · exact hwhen (tablesKeyed_acknowledgeRing (tablesKeyed_filter h))
    · exact h
  case sleepAcknowledged l p =>
    unfold actSleepAcknowledged
    exact hwhen (tablesKeyed_refreshRings (tablesKeyed_sleepPod h))
  case wakeFramesDone l p => exact hwhen (tablesKeyed_placeRollCall (tablesKeyed_modPos (tablesKeyed_filter h)))
  case wakeFailed l p => exact hwhen (tablesKeyed_leaveAsleep h)
  case startingEnd l => exact hwhen (tablesKeyed_rollCallNow (tablesKeyed_modLine h (fun _ hln => hln)))
  case wakingEnd l => exact hwhen (tablesKeyed_endWaking h)
  case standbyFrameEnd l => exact hwhen (tablesKeyed_refreshRings (tablesKeyed_sleepLine h))
  case sleepingEnd l => exact hwhen (tablesKeyed_endSleeping h)
  case lineTestComplete l => exact hwhen (tablesKeyed_endTest h)
  case toneCountEnd => exact hwhen (hother (endTone_changes _ s))
  case sceneLoadStep => exact hwhen (hother (stepLoad_changes s))
  all_goals exact absurd hwrites (by dsimp only [Event.parts]; decide)

theorem tablesKeyed_port (p : Port) (g : PortState → PortState) (s : State) (_ : ∀ ps, (g ps).queue = ps.queue)
    (h : s.tablesKeyed) : (s.modPort p g).tablesKeyed :=
  tablesKeyed_reads s _ (fun q _ => modPort_same p g s q) h

theorem tablesKeyed_request {i : Instr} {s u : State} (hwrites : Part.tables ∈ changedBy i)
    (hreset : s.sys.inReset = none) (h : (settle s).tablesKeyed) (hexec : exec i s = .next u) : u.tablesKeyed := by
  have hother {ps : List Part} {t u : State} (hst : t.changes ps u) (ht : t.tablesKeyed)
      (hps : Part.tables ∉ ps := by decide) : (refreshRings u).tablesKeyed :=
    tablesKeyed_refreshRings (tablesKeyed_of_changes hst ht hps)
  have hclaims (a : Authority) (b : Bool) (o : Origin) (sel num : Nat) (t : State) (ht : t.tablesKeyed) :
      (claimRun a b o sel num t).tablesKeyed :=
    hother (runOver_changes (fun c t => putClaim_changes a b (some o) c t) (by decide) _ t) ht
  cases i
  case channelWrite p tag ch trim zone groups =>
    exact StepKept.takeRequest tablesKeyed_port (fun t ht _ => hother (writeSetup_changes ..)
      (tablesKeyed_of_changes (touchChannel_changes ch t) ht)) hreset h hexec
  case chairSet p tag ch =>
    exact StepKept.takeRequest tablesKeyed_port (fun t ht _ => hother (changeChair_changes ..) ht) hreset h hexec
  case claimSet p tag sel num flag =>
    exact StepKept.takeRequest tablesKeyed_port (fun t ht _ => hclaims _ _ _ _ _ t ht) hreset h hexec
  case claimRelease p tag sel num flag =>
    exact StepKept.takeRequest tablesKeyed_port (fun t ht _ => hclaims _ _ _ _ _ t ht) hreset h hexec
  case claimsClear p tag sel num =>
    exact StepKept.takeRequest tablesKeyed_port (fun t ht _ => hother (runOver_clearChannel_changes _ t) ht)
      hreset h hexec
  case farClear p tag =>
    exact StepKept.takeRequest tablesKeyed_port (fun t ht _ => hclaims _ _ _ _ _ t ht) hreset h hexec
  case handLower p tag sel num =>
    exact StepKept.takeRequest tablesKeyed_port (fun t ht _ => hother (runOver_lowerHand_changes _ _ t) ht)
      hreset h hexec
  case privacyConfig p tag group auto =>
    refine StepKept.takeRequest tablesKeyed_port (fun t ht _ => ?_) hreset h hexec
    unfold configurePrivacy
    dsimp only
    split
    · exact ht
    · split
      · exact hother (t := { t with privacy := _ }) (matchPrivacy_changes _) ht
      · exact ht
  case privacyRelease p tag =>
    refine StepKept.takeRequest tablesKeyed_port (fun t ht _ => ?_) hreset h hexec
    split
    · exact hother (releasePrivacy_changes t) ht
    · exact ht
  case modeSet p tag mode =>
    exact StepKept.takeRequest tablesKeyed_port (fun t ht _ => hother (changeMode_changes _ t) ht) hreset h hexec
  case floorConfig p tag f =>
    exact StepKept.takeRequest tablesKeyed_port (fun t ht _ => hother (writeFloorCfg_changes _ t) ht) hreset h hexec
  case grant p tag ch evict =>
    exact StepKept.takeRequest tablesKeyed_port (fun t ht _ => hother (grantFloor_changes ch evict t) ht) hreset h hexec
  case revoke p tag ch =>
    exact StepKept.takeRequest tablesKeyed_port (fun t ht _ => hother (leaveList_changes ch _ t) ht) hreset h hexec
  case waitDrop p tag ch =>
    exact StepKept.takeRequest tablesKeyed_port (fun t ht _ => hother (dropWaiting_changes ch _ t) ht) hreset h hexec
  case silenceConfig p tag f =>
    exact StepKept.takeRequest tablesKeyed_port (fun t ht _ => hother (writeSilenceCfg_changes _ t) ht) hreset h hexec
  case silenceRaise p tag =>
    exact StepKept.takeRequest tablesKeyed_port (fun t ht _ => hother (raiseSilence_changes p t) ht) hreset h hexec
  case silenceRestore p tag =>
    exact StepKept.takeRequest tablesKeyed_port (fun t ht _ => hother (restoreSilence_changes p t) ht) hreset h hexec
  case toneStart p tag kind num freq level mode count =>
    exact StepKept.takeRequest tablesKeyed_port (fun t ht _ => hother (setTone_changes _ t) ht) hreset h hexec
  case toneStop p tag =>
    exact StepKept.takeRequest tablesKeyed_port (fun t ht _ => hother (endTone_changes _ t) ht) hreset h hexec
  case lineStart p tag line =>
    exact StepKept.takeRequest tablesKeyed_port (fun t ht _ => tablesKeyed_modLine
      (g := fun ln => ln.enter .starting Config.syncFrames) ht (fun _ hln => hln)) hreset h hexec
  case lineStop p tag line =>
    exact StepKept.takeRequest tablesKeyed_port (fun t ht _ => tablesKeyed_refreshRings (tablesKeyed_stopLine ht))
      hreset h hexec
  case lineTest p tag line frames =>
    exact StepKept.takeRequest tablesKeyed_port (fun t ht _ => tablesKeyed_modLine
      (g := fun ln => { ln.enter .testing frames with sent := 0, mismatch := 0 }) ht (fun _ hln => hln)) hreset h hexec
  case podSleep p tag line pos =>
    exact StepKept.takeRequest tablesKeyed_port (fun t ht _ => tablesKeyed_place ht) hreset h hexec
  case podWake p tag line pos =>
    exact StepKept.takeRequest tablesKeyed_port (fun t ht _ => tablesKeyed_modPos (tablesKeyed_place ht)) hreset h hexec
  case powerStandby p tag autowake =>
    exact StepKept.takeRequest tablesKeyed_port (fun t ht _ => tablesKeyed_refreshRings (tablesKeyed_standby ht))
      hreset h hexec
  case powerWake p tag => exact StepKept.takeRequest tablesKeyed_port (fun t ht _ => tablesKeyed_wake ht) hreset h hexec
  case conferenceClear p tag =>
    exact StepKept.takeRequest tablesKeyed_port (fun t ht _ => hother (clearConference_changes t) ht) hreset h hexec
  all_goals exact absurd hwrites (by dsimp only [changedBy]; decide)

theorem tablesKeyed_boundary (inp : BoundaryIn) (s : State) (h : s.tablesKeyed) : (boundary inp s).tablesKeyed := by
  refine tablesKeyed_reads (unitsStepped inp s) _ (fun q hq => ?_) (fun l hl => ?_)
  · exact boundary_same inp s (by simp_all)
  · have hline : ((unitsStepped inp s).line l).table = (s.line l).table :=
      Tab.keep_mapIdx s.lines l _ (fun ln => ln.table) (fun i ln => by
        simp only [Line.tick]; split <;> first | rfl | (split <;> rfl))
    rw [hline]
    exact h l hl

theorem tablesKeyed_kept : StepKept State.tablesKeyed := by
  have htables {ps : List Part} (hp : ∃ q ∈ [Part.tables], q ∈ ps) : Part.tables ∈ ps := by simpa using hp
  refine StepKept.of_reads tablesKeyed_reads (by decide) (fun e s hp => tablesKeyed_event e s (htables hp))
    (fun _ l s => tablesKeyed_formFrame) (fun i p tag kind s u _ hreset hp => tablesKeyed_request (htables hp) hreset)
    (fun inp s _ => tablesKeyed_boundary inp s) ?restart (fun hp => absurd hp (by decide))
  case restart =>
    intro cause pv al slots free is l hl
    have hline : (State.afterReset cause pv al slots free is).line l = resetLine := by
      simp [State.afterReset, State.line, Tab.get_tabulate, hl]
    rw [hline]
    exact Keyed.nil

/-- Settles O60: every place, removal, mark and frame keeps one entry for each key. -/
theorem stepKeepsTablesKeyed : Obligations.StepKeepsTablesKeyed := fun _ _ => tablesKeyed_kept.step

end Sys2Proof.Proofs
end

