-- ==== Sys2Proof/Proofs/KeptCounts.lean ====
section
/-! PROOFS. Every step keeps the bounds of the notice queues, the positions, the ramps and the levels. -/

set_option Elab.async false

namespace Sys2Proof.Proofs

open Sys2Proof Sys2Proof.Machine

/-! ### Notice queues (R182) -/

theorem queuesBounded_modPort {p : Port} {g : PortState → PortState} {s : State}
    (hg : ∀ ps, (g ps).queue.length ≤ ps.queue.length) (h : s.queuesBounded) : (s.modPort p g).queuesBounded := by
  obtain ⟨hroom, hcodec⟩ := h
  cases p with
  | room => exact ⟨(hg _).trans hroom, hcodec⟩
  | codec => exact ⟨hroom, (hg _).trans hcodec⟩

theorem queuesBounded_kept : StepKept State.queuesBounded where
  due _ _ h := h
  queue _ _ h := h
  port p g s hg h := queuesBounded_modPort (fun ps => by rw [hg ps]) h
  event e s h := (act_changes e s).queuesBounded h
  frame l s h := (formFrame_changes l s).queuesBounded h
  request i p tag kind s u hreq hreset h hexec := by
    obtain ⟨p, r, v, rfl, hst | ⟨g, hg, rfl⟩⟩ := request_effect hreq hreset hexec
    · exact queuesBounded_modPort (fun _ => le_rfl) (hst.queuesBounded h)
    · exact queuesBounded_modPort (fun _ => le_rfl) (queuesBounded_modPort hg h)
  boundary inp s _ h := (stepGates_changes (unitsStepped inp s)).queuesBounded h
  restart _ _ _ _ _ _ := ⟨Nat.le_of_ble_eq_true rfl, Nat.le_of_ble_eq_true rfl⟩
  pin _ _ h := h

/-! ### Positions (R132, R143) -/

/-- The counters, the hold and the wake timer of a position within their bounds. -/
def PosBounded (q : Position) : Prop :=
  q.checkFails ≤ 65535 ∧ q.missed ≤ 65535 ∧ q.rejoins ≤ 65535
    ∧ (∀ n, q.hold = some n → n ≤ 2000) ∧ (∀ n, q.wakeTimer = some n → n ≤ 200)

theorem bump_le (n : Nat) : bump n ≤ 65535 := by
  unfold bump Config.counterTop
  split <;> omega

namespace PosBounded

variable {q : Position}

theorem lose (h : PosBounded q) (bad : Bool) : PosBounded (q.lose bad) := by
  obtain ⟨hfails, hmissed, hrest⟩ := h
  cases bad with
  | true => exact ⟨bump_le _, hmissed, hrest⟩
  | false => exact ⟨hfails, bump_le _, hrest⟩

theorem holdStep (h : PosBounded q) : PosBounded q.holdStep := by
  obtain ⟨hfails, hmissed, hrejoins, hhold, hwake⟩ := h
  refine ⟨hfails, hmissed, hrejoins, fun n hn => ?_, hwake⟩
  obtain ⟨m, hm, rfl⟩ := Option.map_eq_some_iff.mp hn
  have hle := hhold m hm
  unfold Config.longHold
  split <;> omega

theorem edges (h : PosBounded q) (st : StatusSlot) : PosBounded (q.edges st) := by
  obtain ⟨hfails, hmissed, hrejoins, hhold, hwake⟩ := h
  refine ⟨hfails, hmissed, hrejoins, fun n hn => ?_, hwake⟩
  simp only [Position.edges] at hn
  split at hn
  · cases hn; omega
  · split at hn
    · cases hn
    · exact hhold n hn

theorem takeSlot (h : PosBounded q) (called : Bool) (u : UpSlot) : PosBounded (q.takeSlot called u) := by
  unfold Position.takeSlot
  split
  · split
    · exact h
    · exact h.lose _
    · exact h.lose _
  · dsimp only
    split
    · exact edges (q := { q.holdStep with miss := 0 }) h.holdStep _
    · exact h.holdStep.lose _
    · exact h.holdStep.lose _
  · split
    · split
      · exact ⟨bump_le _, h.2⟩
      · exact h
    · exact h

theorem stepPosition {s : State} (h : PosBounded q) (inp : BoundaryIn) (c : Nat) :
    PosBounded (s.stepPosition inp c q) := by
  unfold State.stepPosition
  dsimp only
  generalize hr : (if (s.line (lineOf c)).takesSlots = true then _ else _) = r
  have hslot : PosBounded r := by
    rw [← hr]
    split
    · exact h.takeSlot ..
    · exact h.holdStep
  obtain ⟨hfails, hmissed, hrejoins, hhold, hwake⟩ := hslot
  refine ⟨hfails, hmissed, hrejoins, hhold, fun n hn => ?_⟩
  obtain ⟨m, hm, rfl⟩ := Option.map_eq_some_iff.mp hn
  exact (Nat.sub_le ..).trans (hwake m hm)

end PosBounded

theorem positionsBounded_reads : Reads [.pos] State.positionsBounded := by
  intro s t hsame h c hc
  have hpos : t.pos = s.pos := hsame .pos (List.mem_singleton_self _)
  have hq : t.position c = s.position c := by rw [State.position, hpos, State.position]
  rw [hq]
  exact h c hc

theorem positionsBounded_of_changes {ps : List Part} {s t : State} (hst : s.changes ps t) (h : s.positionsBounded)
    (hps : Part.pos ∉ ps := by decide) : t.positionsBounded :=
  positionsBounded_reads.keep hst.1 (by simpa using hps) h

theorem positionsBounded_modPos {c : Nat} {f : Position → Position} {s : State} (h : s.positionsBounded)
    (hf : ∀ q, PosBounded q → PosBounded (f q)) : (s.modPos c f).positionsBounded := by
  intro d hd
  rw [State.position_modPos]
  split
  · next hdc => exact hf _ (h c hdc.2)
  · exact h d hd

theorem positionsBounded_quietly {f : State → State} {s : State} (h : (f s).positionsBounded) :
    (quietly f s).positionsBounded := h

theorem positionsBounded_refreshRings {s : State} (h : s.positionsBounded) : (refreshRings s).positionsBounded :=
  positionsBounded_of_changes (refreshRings_changes s) h

theorem positionsBounded_runOver {f : Nat → State → State} (hf : ∀ n s, s.positionsBounded → (f n s).positionsBounded)
    (ns : List Nat) {s : State} (h : s.positionsBounded) : (runOver f ns s).positionsBounded := runOver_keep hf ns s h

theorem positionsBounded_modLine {l : Nat} {g : Line → Line} {s : State} (h : s.positionsBounded) :
    (s.modLine l g).positionsBounded := h

theorem positionsBounded_leaveOnline {c : Nat} {st : PosState} {cause : LostCause} {s : State} (h : s.positionsBounded) :
    (leaveOnline c st cause s).positionsBounded := by
  unfold leaveOnline
  dsimp only
  refine positionsBounded_of_changes (lowerHand_changes ..) (positionsBounded_of_changes (removeFromFloor_changes ..) ?_)
  exact positionsBounded_modPos h (fun q hq => ⟨hq.1, hq.2.1, hq.2.2.1, nofun, hq.2.2.2.2⟩)

theorem positionsBounded_leaveJoining {c : Nat} {f : Position → Position} {s : State} (h : s.positionsBounded)
    (hf : ∀ q, PosBounded q → PosBounded (f q)) : (leaveJoining c f s).positionsBounded := positionsBounded_modPos h hf

theorem positionsBounded_leaveAsleep {c : Nat} {f : Position → Position} {s : State} (h : s.positionsBounded)
    (hf : ∀ q, PosBounded q → PosBounded (f q)) : (leaveAsleep c f s).positionsBounded := positionsBounded_modPos h hf

/-- A position whose wake timer stops. -/
theorem PosBounded.noTimer {q : Position} (h : PosBounded q) (st : PosState) :
    PosBounded { q with state := st, wakeTimer := none } :=
  ⟨h.1, h.2.1, h.2.2.1, h.2.2.2.1, nofun⟩

/-- A position whose hold and wake timer stop. -/
theorem PosBounded.noTimers {q : Position} (h : PosBounded q) (st : PosState) :
    PosBounded { q with state := st, hold := none, wakeTimer := none } :=
  ⟨h.1, h.2.1, h.2.2.1, nofun, nofun⟩

theorem positionsBounded_sleepPod {c : Nat} {s : State} (h : s.positionsBounded) : (sleepPod c s).positionsBounded := by
  unfold sleepPod
  split
  · exact positionsBounded_leaveOnline h
  · exact positionsBounded_leaveJoining h (fun _ hq => hq)

theorem positionsBounded_joinPod {c : Nat} {s : State} (h : s.positionsBounded) : (joinPod c s).positionsBounded := by
  unfold joinPod
  dsimp only
  refine positionsBounded_of_changes (raise_changes ..) (positionsBounded_of_changes (forgetRing_changes ..) ?_)
  refine positionsBounded_leaveJoining h (fun q hq => ⟨hq.1, hq.2.1, ?_, hq.2.2.2⟩)
  dsimp only
  split
  · exact bump_le _
  · exact hq.2.2.1

theorem positionsBounded_endWaking {l : Nat} {s : State} (h : s.positionsBounded) : (endWaking l s).positionsBounded := by
  refine positionsBounded_modLine (positionsBounded_runOver (fun p t ht => ?_) positions h)
  split
  · exact positionsBounded_leaveAsleep ht (fun q hq => hq.noTimer .absent)
  · exact ht

theorem positionsBounded_sleepLine {l : Nat} {s : State} (h : s.positionsBounded) : (sleepLine l s).positionsBounded := by
  unfold sleepLine
  dsimp only
  refine positionsBounded_modLine (positionsBounded_quietly (positionsBounded_runOver (fun p t ht => ?_) positions h))
  split
  · exact positionsBounded_modPos (positionsBounded_leaveOnline ht) (fun q hq => hq.noTimers .asleep)
  · exact positionsBounded_modPos ht (fun q hq => hq.noTimers .asleep)

theorem positionsBounded_stopLine {l : Nat} {s : State} (h : s.positionsBounded) : (stopLine l s).positionsBounded := by
  unfold stopLine
  split
  · exact h
  · exact positionsBounded_of_changes (endTest_changes ..) h
  · refine positionsBounded_runOver (fun p t ht => ?_) positions (positionsBounded_modLine h)
    dsimp only
    split
    · exact positionsBounded_modPos (positionsBounded_leaveOnline ht) (fun q hq => hq.noTimers .absent)
    · exact positionsBounded_modPos ht (fun q hq => hq.noTimers .absent)

theorem positionsBounded_restLine {l : Nat} {s : State} (h : s.positionsBounded) : (restLine l s).positionsBounded := by
  refine positionsBounded_runOver (fun p t ht => ?_) positions h
  exact positionsBounded_modPos ht (fun q hq => hq.noTimers q.state)

theorem positionsBounded_standbyLine (l : Nat) (s : State) (h : s.positionsBounded) :
    (standbyLine l s).positionsBounded := by
  unfold standbyLine
  split
  · exact positionsBounded_restLine h
  · exact positionsBounded_restLine (positionsBounded_of_changes (endTest_changes ..) h)
  · exact h
  · exact h
  · exact h
  · exact h

theorem positionsBounded_standby {autowake : Bool} {s : State} (h : s.positionsBounded) :
    (standby autowake s).positionsBounded := by
  unfold standby
  split
  · exact h
  · unfold enterStandby
    dsimp only
    refine positionsBounded_runOver positionsBounded_standbyLine lineNumbers ?_
    refine positionsBounded_of_changes (endTone_changes ..) (positionsBounded_of_changes (endLoad_changes ..) ?_)
    exact positionsBounded_of_changes (raise_changes ..) (positionsBounded_of_changes (emptyFloor_changes _) h)

theorem positionsBounded_event (e : Event) (s : State) (hwrites : Part.pos ∈ e.parts) (h : s.positionsBounded) :
    (act e s).positionsBounded := by
  have hwhen {b : Bool} {f : State → State} (hf : (f s).positionsBounded) : (when b f s).positionsBounded :=
    when_keep (P := State.positionsBounded) (fun _ _ => hf) h
  cases e
  all_goals dsimp only [act]
  case rollCallAnswer l p rec =>
    exact hwhen (positionsBounded_leaveAsleep h (fun q hq => ⟨hq.1, hq.2.1, hq.2.2.1, hq.2.2.2.1, nofun⟩))
  case podJoin l p =>
    unfold actPodJoin
    exact hwhen (positionsBounded_refreshRings (positionsBounded_joinPod h))
  case joinFailed l p => exact hwhen (positionsBounded_leaveJoining h (fun q hq => hq))
  case podLost l p =>
    unfold actPodLost
    exact hwhen (positionsBounded_refreshRings (positionsBounded_leaveOnline h))
  case sleepAcknowledged l p =>
    unfold actSleepAcknowledged
    exact hwhen (positionsBounded_refreshRings (positionsBounded_sleepPod h))
  case wakeFramesDone l p =>
    refine hwhen ?_
    unfold finishWake
    dsimp only
    refine positionsBounded_of_changes (placeRollCall_changes ..) (positionsBounded_modPos h (fun q hq => ?_))
    exact ⟨hq.1, hq.2.1, hq.2.2.1, hq.2.2.2.1, fun n hn => by cases hn; exact le_rfl⟩
  case wakeFailed l p =>
    exact hwhen (positionsBounded_of_changes (raise_changes ..)
      (positionsBounded_leaveAsleep h (fun q hq => hq.noTimer .absent)))
  case wakingEnd l => exact hwhen (positionsBounded_endWaking h)
  case standbyFrameEnd l => exact hwhen (positionsBounded_refreshRings (positionsBounded_sleepLine h))
  all_goals exact absurd hwrites (by dsimp only [Event.parts]; decide)

theorem positionsBounded_port (p : Port) (g : PortState → PortState) (s : State) (_ : ∀ ps, (g ps).queue = ps.queue)
    (h : s.positionsBounded) : (s.modPort p g).positionsBounded :=
  positionsBounded_reads s _ (fun q _ => modPort_same p g s q) h

theorem positionsBounded_request {i : Instr} {s u : State} (hwrites : Part.pos ∈ changedBy i)
    (hreset : s.sys.inReset = none) (h : (settle s).positionsBounded) (hexec : exec i s = .next u) :
    u.positionsBounded := by
  cases i
  case lineStop p tag line =>
    exact StepKept.takeRequest positionsBounded_port
      (fun t ht _ => positionsBounded_refreshRings (positionsBounded_stopLine ht)) hreset h hexec
  case podWake p tag line pos =>
    exact StepKept.takeRequest positionsBounded_port (fun t ht _ => positionsBounded_modPos
      (s := t.place line (.position pos) (.wake Config.wakeFrames)) ht (fun q hq => hq.noTimer q.state)) hreset h hexec
  case podCounters p tag line pos =>
    exact StepKept.takeRequest positionsBounded_port (fun t ht _ => positionsBounded_modPos
      (f := fun q => { q with checkFails := 0, missed := 0, rejoins := 0 }) ht
      (fun q hq => ⟨Nat.zero_le _, Nat.zero_le _, Nat.zero_le _, hq.2.2.2⟩)) hreset h hexec
  case powerStandby p tag autowake =>
    exact StepKept.takeRequest positionsBounded_port
      (fun t ht _ => positionsBounded_refreshRings (positionsBounded_standby ht)) hreset h hexec
  all_goals exact absurd hwrites (by dsimp only [changedBy]; decide)

theorem positionsBounded_boundary (inp : BoundaryIn) (s : State) (h : s.positionsBounded) :
    (boundary inp s).positionsBounded := by
  intro c hc
  have hq : (boundary inp s).position c = s.stepPosition inp c (s.position c) := by
    rw [State.position, boundary_pos, Tab.get_mapIdx, if_pos hc, State.position]
  rw [hq]
  exact PosBounded.stepPosition (h c hc) inp c

theorem positionsBounded_kept : StepKept State.positionsBounded := by
  have hpos {ps : List Part} (hp : ∃ q ∈ [Part.pos], q ∈ ps) : Part.pos ∈ ps := by simpa using hp
  refine StepKept.of_reads positionsBounded_reads (by decide) (fun e s hp => positionsBounded_event e s (hpos hp))
    (fun hp => absurd hp (by decide)) (fun i p tag kind s u _ hreset hp => positionsBounded_request (hpos hp) hreset)
    (fun inp s _ => positionsBounded_boundary inp s) ?restart (fun hp => absurd hp (by decide))
  case restart =>
    intro cause pv al slots free is c hc
    have hq : (State.afterReset cause pv al slots free is).position c = resetPosition := by
      simp [State.afterReset, State.position, Tab.get_tabulate, hc]
    rw [hq]
    simp [resetPosition]

/-! ### Ramps (R94, R97) -/

theorem rampsBounded_reads : Reads [.ramps, .cfg] State.rampsBounded := by
  intro s t hsame h c hc
  have hramp : (t.chan c).ramp = (s.chan c).ramp := hsame .ramps (by decide) c
  have hcfg : t.floor.cfg = s.floor.cfg := hsame .cfg (by decide)
  rw [hramp, hcfg]
  exact h c hc

theorem rampsBounded_of_changes {ps : List Part} {s t : State} (hst : s.changes ps t) (h : s.rampsBounded)
    (hps : Part.ramps ∉ ps ∧ Part.cfg ∉ ps := by decide) : t.rampsBounded :=
  rampsBounded_reads.keep hst.1 (by simpa using hps) h

theorem rampsBounded_refreshRings {s : State} (h : s.rampsBounded) : (refreshRings s).rampsBounded :=
  rampsBounded_of_changes (refreshRings_changes s) h

/-- Every ramp at 0 is within any bound. -/
theorem rampsBounded_of_zero {s : State} (h : ∀ c, c < 42 → (s.chan c).ramp = 0) : s.rampsBounded :=
  fun c hc => (h c hc).le.trans (Nat.zero_le _)

/-- A new RAMP takes every ramp position along in proportion. -/
theorem rampsBounded_rescaleRamps {new : FloorCfg} {s : State} (h : s.rampsBounded) :
    (rescaleRamps s.floor.cfg.ramp new.ramp (s.modFloor (fun f => { f with cfg := new }))).rampsBounded := by
  unfold rescaleRamps
  split
  · next hsame => exact fun c hc => (h c hc).trans hsame.le
  · intro c hc
    rw [State.chan_mapChans, if_pos hc]
    have hle : (s.chan c).ramp * new.ramp ≤ s.floor.cfg.ramp * new.ramp := Nat.mul_le_mul_right _ (h c hc)
    exact Nat.div_le_of_le_mul hle

theorem rampsBounded_writeFloorCfg {new : FloorCfg} {s : State} (h : s.rampsBounded) :
    (writeFloorCfg new s).rampsBounded := by
  have hmove (f : Floor → Floor) {t : State} (hf : ∀ g, (f g).cfg = g.cfg) (ht : t.rampsBounded) :
      (t.modFloor f).rampsBounded := fun c hc => (ht c hc).trans (by rw [State.modFloor_floor, hf])
  unfold writeFloorCfg
  dsimp only
  split
  · exact h
  · refine rampsBounded_of_changes (afterFloor_changes _) (rampsBounded_of_changes (cutFloor_changes ..) ?_)
    refine hmove _ (fun g => ?_) ?_
    · unfold Floor.talkLimitWritten
      split
      · rfl
      · split <;> rfl
    · split
      · exact rampsBounded_rescaleRamps h
      · exact hmove _ (fun _ => rfl) (rampsBounded_rescaleRamps h)

theorem rampsBounded_applyItem {r : SceneRecord} {ld : LoadContext} {s : State} (h : s.rampsBounded) :
    (applyItem r ld s).rampsBounded := by
  unfold applyItem
  split
  · split
    · exact rampsBounded_of_changes (writeSetup_changes ..) h
    · exact h
  · split
    · exact rampsBounded_of_changes (writeRow_changes ..) h
    · exact h
  · split
    · exact rampsBounded_of_changes (changeChair_changes ..)
        (rampsBounded_writeFloorCfg (rampsBounded_of_changes (changeMode_changes _ s) h))
    · exact h
  · split
    · exact rampsBounded_of_changes (applyClaimsItem_changes ..) h
    · exact h

theorem rampsBounded_stepLoad {s : State} (h : s.rampsBounded) : (stepLoad s).rampsBounded := by
  have hload (x : Option LoadContext) {t : State} (ht : t.rampsBounded) :
      State.rampsBounded { t with scenes := { t.scenes with load := x } } := ht
  unfold stepLoad
  split
  · exact h
  · split
    · exact h
    · dsimp only
      have hitem (ld : LoadContext) (r : SceneRecord) :
          (if s.passesOver ld then s else applyItem r ld s).rampsBounded := by
        split
        · exact h
        · exact rampsBounded_applyItem h
      split
      · exact rampsBounded_of_changes (endLoad_changes ..) (hload _ (hitem _ _))
      · exact hload _ (hitem _ _)

theorem rampsBounded_standby {autowake : Bool} {s : State} (h : s.rampsBounded) :
    (standby autowake s).rampsBounded := by
  unfold standby
  split
  · exact h
  · unfold enterStandby
    dsimp only
    refine rampsBounded_of_changes (runOver_changes standbyLine_changes (by decide) lineNumbers _) ?_
    refine rampsBounded_of_changes (endTone_changes ..) (rampsBounded_of_changes (endLoad_changes ..) ?_)
    refine rampsBounded_of_changes (raise_changes ..) (rampsBounded_of_changes (emptyFloor_changes _) ?_)
    exact rampsBounded_of_zero (fun c hc => by rw [State.chan_mapChans, if_pos hc])

theorem rampsBounded_port (p : Port) (g : PortState → PortState) (s : State) (_ : ∀ ps, (g ps).queue = ps.queue)
    (h : s.rampsBounded) : (s.modPort p g).rampsBounded :=
  rampsBounded_reads s _ (fun q _ => modPort_same p g s q) h

theorem rampsBounded_boundary (inp : BoundaryIn) (s : State) (h : s.rampsBounded) : (boundary inp s).rampsBounded := by
  refine rampsBounded_reads (unitsStepped inp s) _ (fun q hq => boundary_same inp s ?_) (fun c hc => ?_)
  · rcases List.mem_pair.mp hq with rfl | rfl <;> decide
  · have hramp : ((unitsStepped inp s).chan c).ramp = (s.mixStep c (s.chan c)).ramp := by
      rw [unitsStepped_chan_eq inp s hc, measuredChans_get inp s hc, measure_eq]
    have hcfg : (unitsStepped inp s).floor.cfg = s.floor.cfg := rfl
    have hle := h c hc
    rw [hramp, hcfg]
    unfold State.mixStep stepRamp
    dsimp only
    split
    · split
      · split <;> omega
      · omega
    · exact hle

theorem rampsBounded_kept : StepKept State.rampsBounded := by
  refine StepKept.of_reads rampsBounded_reads (by decide) ?event (fun hp => absurd hp (by decide)) ?request
    (fun inp s _ => rampsBounded_boundary inp s) ?restart (fun hp => absurd hp (by decide))
  case event =>
    intro e s hp h
    cases e
    all_goals dsimp only [act]
    case restoringEnd =>
      refine when_keep (P := State.rampsBounded) (fun _ _ => rampsBounded_refreshRings ?_) h
      refine rampsBounded_of_changes (noteSilence_changes ..) (rampsBounded_of_zero (fun c hc => ?_))
      rw [restartRamps, State.chan_mapChans, if_pos hc]
    case sceneLoadStep =>
      exact when_keep (P := State.rampsBounded) (fun _ _ => rampsBounded_refreshRings (rampsBounded_stepLoad h)) h
    all_goals exact absurd hp (by dsimp only [Event.parts]; decide)
  case request =>
    intro i p tag kind s u _ hreset hp h hexec
    cases i
    case floorConfig p tag f =>
      exact StepKept.takeRequest rampsBounded_port
        (fun t ht _ => rampsBounded_refreshRings (rampsBounded_writeFloorCfg ht)) hreset h hexec
    case powerStandby p tag autowake =>
      exact StepKept.takeRequest rampsBounded_port
        (fun t ht _ => rampsBounded_refreshRings (rampsBounded_standby ht)) hreset h hexec
    all_goals exact absurd hp (by dsimp only [changedBy]; decide)
  case restart =>
    intro cause pv al slots free is
    exact rampsBounded_of_zero (fun c hc => by simp [State.afterReset, State.chan, Tab.get_tabulate, hc, resetChannel])

/-! ### Levels (R6, R7) -/

/-- The block peak and the noise floor of a channel within their bounds. -/
def LevelsOk (k : Channel) : Prop :=
  -96 ≤ k.peak ∧ k.peak ≤ 0 ∧ -96 ≤ k.noise ∧ k.noise ≤ -20 ∧ (0 < k.rise → k.noise < -20)

theorem peakOf_bounds (x : List Int) : -96 ≤ peakOf x ∧ peakOf x ≤ 0 := by
  unfold peakOf levelOf
  split
  · omega
  · split
    · next j hj =>
      have hlt : j < 96 := List.mem_range.mp (List.mem_of_find?_eq_some hj)
      omega
    · omega

namespace LevelsOk

variable {k : Channel}

theorem track (h : LevelsOk k) {peak : Int} (hlow : -96 ≤ peak) : LevelsOk (k.track peak) := by
  obtain ⟨hp1, hp2, hn1, hn2, hrise⟩ := h
  unfold Channel.track
  split
  · next hless => exact ⟨hp1, hp2, hlow, (hless.le.trans hn2), fun h0 => absurd h0 (Nat.lt_irrefl 0)⟩
  · split
    · next hgrow => exact ⟨hp1, hp2, hn1, hn2, fun _ => hgrow.2⟩
    · exact ⟨hp1, hp2, hn1, hn2, hrise⟩

theorem measure (h : LevelsOk k) (g : FloorCfg) (pod present : Bool) (x : List Int) :
    LevelsOk (k.measure g pod present x) := by
  obtain ⟨hlow, hhigh⟩ := peakOf_bounds x
  have hpeak : LevelsOk { k with peak := peakOf x } := ⟨hlow, hhigh, h.2.2⟩
  unfold Channel.measure
  dsimp only
  split
  · split
    · exact hpeak.track hlow
    · exact hpeak
  · exact hpeak

theorem rise (h : LevelsOk k) (hrise : 200 ≤ k.rise) : LevelsOk { k with noise := k.noise + 1, rise := 0 } := by
  obtain ⟨hp1, hp2, hn1, hn2, hlow⟩ := h
  have hlt : k.noise < -20 := hlow (by omega)
  exact ⟨hp1, hp2, by show -96 ≤ k.noise + 1; omega, by show k.noise + 1 ≤ -20; omega, fun h0 => absurd h0 (Nat.lt_irrefl 0)⟩

end LevelsOk

theorem levelsLawful_reads : Reads [.measures] State.levelsLawful := by
  intro s t hsame h c hc
  obtain ⟨hpeak, hnoise, hrise, -, -⟩ := hsame .measures (List.mem_singleton_self _) c
  rw [hpeak, hnoise, hrise]
  exact h c hc

theorem levelsLawful_boundary (inp : BoundaryIn) (s : State) (h : s.levelsLawful) : (boundary inp s).levelsLawful := by
  refine levelsLawful_reads (unitsStepped inp s) _ (fun q hq => boundary_same inp s ?_) (fun c hc => ?_)
  · obtain rfl := List.mem_singleton.mp hq
    decide
  · have hmeasured : LevelsOk ((measuredChans inp s).get c) := by
      rw [measuredChans_get inp s hc]
      exact LevelsOk.measure (k := s.mixStep c (s.chan c)) (h c hc) ..
    rw [unitsStepped_chan_eq inp s hc]
    exact hmeasured

theorem levelsLawful_kept : StepKept State.levelsLawful := by
  refine StepKept.of_reads levelsLawful_reads (by decide) ?event (fun hp => absurd hp (by decide)) ?request
    (fun inp s _ => levelsLawful_boundary inp s) ?restart (fun hp => absurd hp (by decide))
  case event =>
    intro e s hp h
    cases e
    all_goals dsimp only [act]
    case noiseFloorRise c =>
      refine when_keep (P := State.levelsLawful) (fun hrise _ d hd => ?_) h
      rw [State.chan_modChan]
      split
      · exact LevelsOk.rise (h c (by omega)) (of_decide_eq_true hrise)
      · exact h d hd
    all_goals exact absurd hp (by dsimp only [Event.parts]; decide)
  case request =>
    intro i p tag kind s u _ _ hp
    cases i
    all_goals exact absurd hp (by dsimp only [changedBy]; decide)
  case restart =>
    intro cause pv al slots free is c hc
    have hk : (State.afterReset cause pv al slots free is).chan c = resetChannel pv c := by
      simp [State.afterReset, State.chan, Tab.get_tabulate, hc]
    rw [hk]
    simp [resetChannel]

/-- Settles O59: each of the four bounds is kept by itself. -/
theorem stepKeepsCountsBounded : Obligations.StepKeepsCountsBounded := fun _ _ hstep =>
  ⟨queuesBounded_kept.step hstep, positionsBounded_kept.step hstep, rampsBounded_kept.step hstep,
    levelsLawful_kept.step hstep⟩

end Sys2Proof.Proofs
end

