-- ==== Sys2Proof/Proofs/RingsStray.lean ====
section
/-! PROOFS. The laws of the rings are not kept by every step: a command may name a position that no line has. -/

set_option Elab.async false

namespace Sys2Proof.Proofs

open Sys2Proof Sys2Proof.Machine

/-! ### A frame to a position beyond its line -/

/-- The last acknowledged ring of pod channel 9 is its derived ring: off. -/
def strayChannel : Channel := { resetChannel false 9 with ring := some ⟨.off, .steady⟩ }

/-- A line that is RUNNING with nothing in its table. -/
def strayLine (frame : Option LineFrame) : Line := { resetLine with state := .running, frame := frame }

/-- Pod channel 9 is position 1 of line 1. The frame in flight on line 0 carries a RING to position 9, which line 0 does
not have but whose number on line 0 is that of channel 9; an acknowledgement of it waits. -/
def strayAcknowledgement : State :=
  { State.reset with
    chans := State.reset.chans.set 9 strayChannel
    pos := State.reset.pos.set 9 { resetPosition with state := .online }
    lines := (State.reset.lines.set 0
      (strayLine (some (.running (some ⟨.position 9, .ring ⟨.red, .fast⟩ false, true⟩) [])))).set 1 (strayLine none)
    pending := [.ringAcknowledged 0 9] }

theorem strayAcknowledgement_line (l : Nat) : strayAcknowledgement.line l =
    if l = 1 then strayLine none
    else if l = 0 then strayLine (some (.running (some ⟨.position 9, .ring ⟨.red, .fast⟩ false, true⟩) []))
    else State.reset.line l := by
  simp [strayAcknowledgement, State.line, Tab.get_set]

theorem reset_line {l : Nat} (hl : l < 4) : State.reset.line l = resetLine := by
  simp [State.reset, State.afterReset, State.line, Tab.get_tabulate, hl]

theorem reset_position {c : Nat} (hc : c < 32) : State.reset.position c = resetPosition := by
  simp [State.reset, State.afterReset, State.position, Tab.get_tabulate, hc]

theorem strayAcknowledgement_present {c : Nat} (hc : c < 32) : strayAcknowledgement.present c = true ↔ c = 9 := by
  have hpos : strayAcknowledgement.position c
      = if c = 9 then { resetPosition with state := .online } else State.reset.position c := by
    simp [strayAcknowledgement, State.position, Tab.get_set]
  simp only [State.present, if_pos hc, hpos]
  split
  · next h => simp [h]
  · next h => simp [h, reset_position hc, resetPosition]

/-- No line has an entry in its table. -/
theorem strayAcknowledgement_table {l : Nat} (hl : l < 4) : (strayAcknowledgement.line l).table = [] := by
  rw [strayAcknowledgement_line, reset_line hl]
  split
  · rfl
  · split <;> rfl

/-- No frame is addressed to a position that its line has. -/
theorem strayAcknowledgement_sentTo {l p : Nat} (hl : l < 4) (hp : p < 8) :
    (strayAcknowledgement.line l).sentTo p = none := by
  rw [strayAcknowledgement_line, reset_line hl]
  split
  · rfl
  · split
    · have h9 : (Addressee.position 9 == .position p) = false := by simp; omega
      simp [strayLine, Line.sentTo, h9]
    · rfl

theorem strayAcknowledgement_lawful : strayAcknowledgement.ringsLawful := by
  refine ⟨fun l hl => ?keyed, fun c hc hpresent => ?rings, fun l hl hidle => ⟨?slots, fun p hp => ?states⟩,
    fun l hl p v pulse _ e he => ?sent, fun l p hl hp _ v pulse hsent => ?acked⟩
  case keyed => simp [strayAcknowledgement_table hl]
  case rings =>
    obtain rfl := (strayAcknowledgement_present hc).mp hpresent
    decide
  case slots =>
    rw [strayAcknowledgement_line] at hidle ⊢
    split at hidle
    · simp [strayLine] at hidle
    · split at hidle
      · simp [strayLine] at hidle
      · simp_all [reset_line, resetLine, Line.takesSlots]
  case states =>
    have hne : 8 * l + p ≠ 9 := by
      rintro h9
      obtain rfl : l = 1 := by omega
      simp [strayAcknowledgement_line, strayLine] at hidle
    have hpos : strayAcknowledgement.position (8 * l + p) = resetPosition := by
      rw [← reset_position (c := 8 * l + p) (by omega)]
      simp [strayAcknowledgement, State.position, Tab.get_set, hne]
    simp [hpos, resetPosition]
  case sent => simp [strayAcknowledgement_table hl] at he
  case acked => simp [strayAcknowledgement_sentTo hl hp] at hsent

/-- What the acknowledgement leaves: the ring of channel 9 is the one that line 0 sent to nobody. -/
def afterStray : State := runEvent (.ringAcknowledged 0 9) { strayAcknowledgement with pending := [] }

theorem step_strayAcknowledgement : step strayAcknowledgement = .next afterStray := rfl

theorem afterStray_not_match : ¬ afterStray.ringsMatch := by
  intro h
  have hring : afterStray.ringReference 9 = some (afterStray.derivedRing 9) := h 9 (by decide) (by decide)
  exact absurd hring (by decide)

/-- Refutes O47: its step clause holds of every command and of every lawful state, but the laws of the rings say nothing
of a frame addressed past the eight positions of its line, and RING_ACKNOWLEDGED with such a position, which is not well
formed, sets the last acknowledged ring of a pod of the next line. -/
theorem not_ringsAreDerivedAndFollow : ¬ Obligations.RingsAreDerivedAndFollow := by
  rintro ⟨⟨-, -, -, hkept⟩, -⟩
  exact afterStray_not_match (hkept _ _ step_strayAcknowledgement strayAcknowledgement_lawful).2.1

end Sys2Proof.Proofs
end

