-- ==== Sys2Proof/Proofs/KeptFloor.lean ====
section
/-! PROOFS. Every step keeps the laws of the floor (chapters 1 to 3). -/

set_option Elab.async false

namespace Sys2Proof.Proofs

open Sys2Proof Sys2Proof.Machine

/-! ### Who may stand in the lists -/

/-- The channels that may be on the floor, waiting or in ATTACK: present and not muted. -/
abbrev mayStand (s : State) (c : Nat) : Prop := s.muted c = false ∧ s.present c = true

/-- The channels that may be in the Leaving List: present. -/
abbrev isThere (s : State) (c : Nat) : Prop := s.present c = true

theorem isThere_of_mayStand (s : State) (c : Nat) (h : mayStand s c) : isThere s c := h.2

theorem floorLawful_reads : Reads [.floor, .cfg, .claims, .attack, .pos] State.floorLawful := by
  intro s t hsame h
  obtain ⟨hlist, hwait, hleaving, hguard⟩ := hsame .floor (by decide)
  have hcfg : t.floor.cfg = s.floor.cfg := hsame .cfg (by decide)
  have hclaims : ∀ c, (t.chan c).claims = (s.chan c).claims := hsame .claims (by decide)
  have hattack : ∀ c, (t.chan c).attack = (s.chan c).attack := hsame .attack (by decide)
  have hpos : t.pos = s.pos := hsame .pos (by decide)
  have hmuted (c : Nat) : t.muted c = s.muted c := 
    decide_eq_decide.mpr (by rw [State.claims, hclaims, State.claims])
  have hpresent {c : Nat} (hc : c < 32) : t.present c = s.present c := by simp [State.present, State.position, hpos, hc]
  obtain ⟨hbounded, hexclusive, hguarded, hoff, habsent⟩ := h
  refine ⟨?_, ?_, ?_, fun c hc hm => ?_, fun c hc hp => ?_⟩
  · simpa [Floor.bounded, hlist, hwait, hleaving, hcfg] using hbounded
  · simpa [Floor.exclusive, Floor.members, hlist, hwait, hleaving] using hexclusive
  · simpa [Floor.guarded, Floor.hasPending, hlist, hleaving, hguard] using hguarded
  · simpa [Floor.entry?, Floor.waiting?, hlist, hwait, hattack] using hoff c hc (hmuted c ▸ hm)
  · simpa [Floor.entry?, Floor.waiting?, Floor.isLeaving, hlist, hwait, hleaving, hattack]
      using habsent c hc (hpresent hc ▸ hp)

theorem floorLawful_of_changes {ps : List Part} {s t : State} (hst : s.changes ps t) (h : s.floorLawful)
    (hps : ∀ p ∈ [Part.floor, .cfg, .claims, .attack, .pos], p ∉ ps := by decide) : t.floorLawful :=
  floorLawful_reads.keep hst.1 hps h

theorem floorLawful_refreshRings {s : State} (h : s.floorLawful) : (refreshRings s).floorLawful :=
  floorLawful_of_changes (refreshRings_changes s) h

theorem muted_of_changes {ps : List Part} {s t : State} (hst : s.changes ps t) (c : Nat)
    (hps : Part.claims ∉ ps := by decide) : t.muted c = s.muted c := by
  have hclaims : ∀ c, (t.chan c).claims = (s.chan c).claims := hst.1 .claims hps
  exact decide_eq_decide.mpr (by rw [State.claims, hclaims, State.claims])

theorem present_of_changes {ps : List Part} {s t : State} (hst : s.changes ps t) {c : Nat} (hc : c < 32)
    (hps : Part.pos ∉ ps := by decide) : t.present c = s.present c := by
  have hpos : t.pos = s.pos := hst.1 .pos hps
  simp [State.present, State.position, hpos, hc]

namespace State.floorKept

variable {ok ok' there there' : Nat → Prop} {s t : State}

/-- The laws for fewer restrictions. -/
theorem mono (h : s.floorKept ok there) (hok : ∀ c, c < 32 → ok c → ok' c) (hthere : ∀ c, c < 32 → there c → there' c) :
    s.floorKept ok' there' :=
  ⟨h.1, h.2.1, fun c hc hn => h.2.2.1 c hc (fun hy => hn (hok c hc hy)),
    fun c hc hn => h.2.2.2 c hc (fun hy => hn (hthere c hc hy))⟩

/-- A channel that stands in no list may be forbidden to. -/
theorem forbid (h : s.floorKept ok there) (c : Nat) (hok : ∀ d, d < 32 → d ≠ c → ok d → ok' d)
    (hthere : ∀ d, d < 32 → d ≠ c → there d → there' d)
    (hoff : ¬ ok' c → s.floor.entry? c = none ∧ s.floor.waiting? c = none ∧ (s.chan c).attack = 0)
    (hleft : ¬ there' c → s.floor.isLeaving c = false) : s.floorKept ok' there' := by
  refine ⟨h.1, h.2.1, fun d hd hn => ?_, fun d hd hn => ?_⟩
  · by_cases hdc : d = c
    · exact hdc ▸ hoff (hdc ▸ hn)
    · exact h.2.2.1 d hd (fun hy => hn (hok d hd hdc hy))
  · by_cases hdc : d = c
    · exact hdc ▸ hleft (hdc ▸ hn)
    · exact h.2.2.2 d hd (fun hy => hn (hthere d hd hdc hy))

end State.floorKept

/-- Where claims and positions stay, the laws of the floor are those of the lists. -/
theorem floorLawful_of_kept {ps : List Part} {s t : State} (h : s.floorLawful) (hst : s.changes ps t)
    (hguard : t.floor.guarded)
    (hkept : s.floorKept (mayStand s) (isThere s) → t.floorKept (mayStand s) (isThere s))
    (hps : Part.claims ∉ ps ∧ Part.pos ∉ ps := by decide) : t.floorLawful := by
  refine (floorKept_iff t).mpr ⟨hguard, State.floorKept.mono (hkept ((floorKept_iff s).mp h).2) ?_ ?_⟩
  · rintro c hc ⟨hm, hp⟩
    exact ⟨(muted_of_changes hst c hps.1).trans hm, (present_of_changes hst hc hps.2).trans hp⟩
  · exact fun c hc hp => (present_of_changes hst hc hps.2).trans hp

theorem floorKept_of_lawful {s : State} (h : s.floorLawful) : s.floorKept (mayStand s) (isThere s) :=
  ((floorKept_iff s).mp h).2

theorem guarded_of_lawful {s : State} (h : s.floorLawful) : s.floor.guarded := h.2.2.1

/-- A floor taken apart is lawful whatever the claims and positions. -/
theorem floorLawful_of_empty {s : State} (hlist : s.floor.list = []) (hwait : s.floor.wait = [])
    (hleaving : s.floor.leaving = []) (hguard : s.floor.guard = none) (hattack : ∀ c, c < 32 → (s.chan c).attack = 0) :
    s.floorLawful := by
  refine ⟨?_, ?_, ?_, fun c hc _ => ?_, fun c hc _ => ?_⟩
  · simp [Floor.bounded, hlist, hwait, hleaving]
  · simp [Floor.exclusive, Floor.members, hlist, hwait, hleaving]
  · simp [Floor.guarded, Floor.hasPending, hlist, hguard]
  · simp [Floor.entry?, Floor.waiting?, hlist, hwait, hattack c hc]
  · simp [Floor.entry?, Floor.waiting?, Floor.isLeaving, hlist, hwait, hleaving, hattack c hc]

theorem emptyFloor_attack {s : State} {c : Nat} (hc : c < 42) : ((emptyFloor s).chan c).attack = 0 := by
  rw [emptyFloor, State.chan_modFloor, State.chan_mapChans, if_pos hc]

theorem floorLawful_emptyFloor (s : State) : (emptyFloor s).floorLawful :=
  floorLawful_of_empty rfl rfl rfl rfl (fun c hc => emptyFloor_attack (by omega))

/-! ### Floor requests, presses and departures -/

theorem override_guarded (c : Nat) (s : State) : (override c s).floor.guarded := afterFloor_guarded _

theorem floorLawful_override {c : Nat} {s : State} (h : s.floorLawful) (hc : c < 32) (hok : mayStand s c)
    (hentry : s.floor.entry? c = none) : (override c s).floorLawful :=
  floorLawful_of_kept h (override_changes c s) (override_guarded c s)
    (fun hk => State.floorKept.override hk (isThere_of_mayStand s) hc hok hentry)

theorem floorLawful_requestFloor {c : Nat} {s : State} (h : s.floorLawful) (hc : c < 32) (hok : mayStand s c)
    (hentry : s.floor.entry? c = none) (hwaiting : s.floor.waiting? c = none) : (requestFloor c s).floorLawful := by
  refine floorLawful_of_kept h (requestFloor_changes c s) ?_
    (fun hk => State.floorKept.requestFloor hk (isThere_of_mayStand s) hc hok hentry hwaiting)
  unfold requestFloor
  split
  · exact override_guarded c s
  · split <;> exact afterFloor_guarded _

theorem floorLawful_leaveList {c : Nat} {k : FloorCause} {s : State} (h : s.floorLawful) : (leaveList c k s).floorLawful :=
  floorLawful_of_kept h (leaveList_changes c k s) (afterFloor_guarded _) State.floorKept.leaveList

theorem floorLawful_leaveWait {c : Nat} {k : FloorCause} {s : State} (h : s.floorLawful) : (leaveWait c k s).floorLawful :=
  floorLawful_of_kept h (leaveWait_changes c k s) (afterFloor_guarded _) State.floorKept.leaveWait

theorem floorLawful_dropWaiting {c : Nat} {k : DropCause} {s : State} (h : s.floorLawful) :
    (dropWaiting c k s).floorLawful :=
  floorLawful_of_kept h (dropWaiting_changes c k s) (afterFloor_guarded _) State.floorKept.dropWaiting

theorem floorLawful_removeLeaving {c : Nat} {s : State} (h : s.floorLawful) : (removeLeaving c s).floorLawful :=
  floorLawful_of_kept h (removeLeaving_changes c s) (afterFloor_guarded _) State.floorKept.removeLeaving

theorem floorLawful_endTalk {c n : Nat} {s : State} (h : s.floorLawful) : (endTalk c n s).floorLawful :=
  floorLawful_of_kept h (endTalk_changes c n s) (afterFloor_guarded _) State.floorKept.endTalk

theorem floorLawful_openPending {s : State} (h : s.floorLawful) : (openPending s).floorLawful := by
  refine floorLawful_of_kept h (openPending_changes s) ?_ (fun hk => hk.same (openPending_chs s) ?_ ?_ ?_ ?_)
  · rw [Floor.guarded, openPending_hasPending, openPending_floor]
    rfl
  · rw [openPending_floor]
  · rw [openPending_floor]
  · rw [openPending_floor]
  · intro c
    rw [openPending_chan]

theorem floorLawful_owePulse {c : Nat} {s : State} (h : s.floorLawful) : (owePulse c s).floorLawful :=
  floorLawful_of_changes (owePulse_changes c s) h

/-- What changes fields of Floor List entries, but neither their channels nor whether they are PENDING, keeps the
laws. -/
theorem floorLawful_entries {g : Floor → Floor} {s : State} (h : s.floorLawful)
    (hchs : (g s.floor).list.map (fun e => e.ch) = s.floor.list.map (fun e => e.ch))
    (hpending : (g s.floor).hasPending = s.floor.hasPending) (hwait : (g s.floor).wait = s.floor.wait)
    (hleaving : (g s.floor).leaving = s.floor.leaving) (hguard : (g s.floor).guard = s.floor.guard)
    (hcfg : (g s.floor).cfg = s.floor.cfg) : (s.modFloor g).floorLawful := by
  refine floorLawful_of_kept (ps := [.floor, .mode, .cfg, .chair, .latch]) h
    (modFloor_changes s (.inl (by decide)) (.inl (by decide)) (.inl (by decide)) (.inl (by decide)) (.inl (by decide)))
    (guarded_congr hguard hpending hleaving (guarded_of_lawful h)) (fun hk => hk.same hchs ?_ ?_ ?_ (fun _ => rfl))
  · rw [State.modFloor_floor, hwait]
  · rw [State.modFloor_floor, hleaving]
  · rw [State.modFloor_floor, hcfg]

/-- In a lawful floor the entry of a channel is the only one. -/
theorem entry?_of_mem {f : Floor} (hf : f.exclusive) {e : FloorEntry} (he : e ∈ f.list) : f.entry? e.ch = some e := by
  have hnodup : (f.list.map (fun e => e.ch)).Nodup :=
    (List.nodup_append.mp (List.nodup_append.mp hf.1).1).1
  unfold Floor.entry?
  generalize f.list = l at he hnodup
  induction l with
  | nil => cases he
  | cons x l ih =>
    obtain ⟨hx, hl⟩ := List.nodup_cons.mp hnodup
    rcases List.mem_cons.mp he with rfl | hmem
    · simp
    · have hne : x.ch ≠ e.ch := fun heq => hx (List.mem_map.mpr ⟨e, hmem, heq.symm⟩)
      simp [hne, ih hmem hl]

/-- A change of the entries of one channel keeps the PENDING ones where it keeps that channel's. -/
theorem hasPending_modEntry {f : Floor} {c : Nat} {g : FloorEntry → FloorEntry}
    (h : ∀ e ∈ f.list, e.ch = c → ((g e).st == .pending) = (e.st == .pending)) :
    (f.modEntry c g).hasPending = f.hasPending := by
  have hany : ∀ l : List FloorEntry, (∀ e ∈ l, e.ch = c → ((g e).st == .pending) = (e.st == .pending)) →
      (l.map (fun e => if e.ch == c then g e else e)).any (fun e => e.st == .pending)
        = l.any (fun e => e.st == .pending) := by
    intro l
    induction l with
    | nil => exact fun _ => rfl
    | cons e l ih =>
      intro hl
      have he : ((if e.ch == c then g e else e).st == .pending) = (e.st == .pending) := by
        split
        · next hec => exact hl e (List.mem_cons_self ..) (by simpa using hec)
        · rfl
      simp only [List.map_cons, List.any_cons, he, ih (fun x hx => hl x (List.mem_cons_of_mem _ hx))]
  exact hany f.list h

theorem gate_of_entry? {s : State} {c : Nat} {e : FloorEntry} (hc : c < 32) (he : s.floor.entry? c = some e) :
    s.gate c = e.st.gate := by
  simp [State.gate, hc, he]

theorem floorLawful_setLatch {c : Nat} {on : Bool} {g : Gate} {s : State} (h : s.floorLawful) :
    (setLatch c on g s).floorLawful := floorLawful_of_changes (setLatch_changes c on g s) h

theorem floorLawful_latchPress {c : Nat} {s : State} (h : s.floorLawful) (hc : c < 32) (hpresent : s.present c = true) :
    (latchPress c s).floorLawful := by
  unfold latchPress
  dsimp only
  split
  · exact floorLawful_setLatch h
  · split
    · exact floorLawful_owePulse (floorLawful_of_changes (floorRefused_changes c s) h)
    · next hmuted =>
      split
      · next hgate =>
        refine floorLawful_setLatch (floorLawful_entries h (modEntry_chs (fun _ => rfl)) ?_ rfl rfl rfl rfl)
        refine hasPending_modEntry fun e he hec => ?_
        have hentry : s.floor.entry? c = some e := hec ▸ entry?_of_mem h.2.1 he
        rw [gate_of_entry? hc hentry] at hgate
        cases hst : e.st <;> simp_all [EntryState.gate]
      · split
        · exact floorLawful_setLatch h
        · next hopen hpending =>
          have hentry : s.floor.entry? c = none := by
            by_contra hsome
            obtain ⟨e, he⟩ := Option.ne_none_iff_exists'.mp hsome
            rw [gate_of_entry? hc he] at hopen hpending
            cases hst : e.st <;> simp [hst, EntryState.gate] at hopen hpending
          have hover := floorLawful_override h hc ⟨by simpa using hmuted, hpresent⟩ hentry
          split
          · exact floorLawful_setLatch hover
          · exact hover

theorem floorLawful_queuePress {c : Nat} {s : State} (h : s.floorLawful) (hc : c < 32) (hpresent : s.present c = true) :
    (queuePress c s).floorLawful := by
  unfold queuePress
  dsimp only
  split
  · exact floorLawful_leaveList h
  · next hentry =>
    split
    · exact floorLawful_leaveWait h
    · next hwaiting =>
      split
      · exact floorLawful_owePulse (floorLawful_of_changes (floorRefused_changes c s) h)
      · next hmuted =>
        split
        · exact floorLawful_owePulse (floorLawful_of_changes (floorRefused_changes c s) h)
        · next hleaving =>
          split
          · exact floorLawful_owePulse (floorLawful_of_changes (raise_changes ..) h)
          · next hroom =>
            have hmoved := (joinWait_changes c s).comp (rs := [.attack, .floor])
              (floorChange_changes c (s.gate c) .waiting .request (joinWait c s))
            refine floorLawful_of_kept h (hmoved.trans (afterFloor_changes _)) (afterFloor_guarded _) (fun hk => ?_)
            refine State.floorKept.afterFloor ?_
            refine State.floorKept.same (s := joinWait c s) (State.floorKept.joinWait hk hc
              ⟨by simpa using hmuted, hpresent⟩ (Floor.not_mem_members.mpr ⟨by simpa using hentry, by simpa using hwaiting,
                by simpa using hleaving⟩) (Floor.waitRoom_lt (by simpa using hroom))) rfl rfl rfl rfl (fun _ => rfl)

theorem floorLawful_chairQueuePress {c : Nat} {s : State} (h : s.floorLawful) (hc : c < 32)
    (hpresent : s.present c = true) : (chairQueuePress c s).floorLawful := by
  unfold chairQueuePress
  split
  · exact floorLawful_leaveList h
  · next hentry =>
    split
    · exact floorLawful_owePulse (floorLawful_of_changes (floorRefused_changes c s) h)
    · next hmuted => exact floorLawful_override h hc ⟨by simpa using hmuted, hpresent⟩ (by simpa using hentry)

theorem floorLawful_pressTalk {c : Nat} {s : State} (h : s.floorLawful) (hc : c < 32) (hpresent : s.present c = true) :
    (pressTalk c s).floorLawful := by
  unfold pressTalk
  split
  · exact floorLawful_chairQueuePress h hc hpresent
  · exact floorLawful_queuePress h hc hpresent
  · exact floorLawful_latchPress h hc hpresent
  · exact h

theorem floorLawful_grantFloor {c ev : Nat} {s : State} (h : s.floorLawful) (hwaits : s.floor.waiting? c ≠ none) :
    (grantFloor c ev s).floorLawful := by
  obtain ⟨hc, hok⟩ := State.floorKept.ok_of_waiting (floorKept_of_lawful h) hwaits
  obtain ⟨hentry, hleaving⟩ := State.floorKept.only_wait (floorKept_of_lawful h) hwaits
  refine floorLawful_of_kept h (grantFloor_changes c ev s) ?_ (fun hk => ?_)
  · unfold grantFloor
    split
    · exact afterFloor_guarded _
    · split
      · exact afterFloor_guarded _
      · exact guarded_of_lawful h
  · unfold grantFloor
    split
    · next hplace =>
      refine State.floorKept.afterFloor ?_
      refine State.floorKept.same (s := joinFloor c .opened (s.modFloor (fun f => f.dropWait c)))
        ((hk.dropWait c).joinFloor .opened hc hok ?_ (of_decide_eq_true hplace)) rfl rfl rfl rfl
        (fun _ => rfl)
      refine Floor.not_mem_members.mpr ⟨hentry, ?_, hleaving⟩
      rw [State.modFloor_floor, Floor.waiting?_dropWait, if_pos rfl]
    · split
      · next e he =>
        unfold Floor.grantVictim at he
        split at he
        · next hroom =>
          exact State.floorKept.afterFloor (State.floorKept.evict hk (isThere_of_mayStand s)
            (Floor.entry?_of_mem (List.mem_of_find?_eq_some he)) hc hok hentry hleaving hroom.2)
        · cases he
      · exact hk

/-! ### Bulk changes -/

theorem floorLawful_changeMode {m : FloorMode} {s : State} (h : s.floorLawful) : (changeMode m s).floorLawful := by
  unfold changeMode
  dsimp only
  split
  · exact h
  · exact floorLawful_of_empty rfl rfl rfl rfl (fun c hc => emptyFloor_attack (by omega))

theorem floorLawful_changeChair {new : Option Nat} {s : State} (h : s.floorLawful) : (changeChair new s).floorLawful := by
  have hentry (g : Floor → FloorEntry → FloorEntry) (hg : ∀ f e, (g f e).ch = e.ch ∧ (g f e).st = e.st) (c : Nat)
      {t : State} (ht : t.floorLawful) : (t.modFloor (fun f => f.modEntry c (g f))).floorLawful :=
    floorLawful_entries ht (modEntry_chs (fun e => (hg _ e).1)) (modEntry_hasPending (fun e => (hg _ e).2)) rfl rfl rfl rfl
  have hchair : (s.modFloor (fun f => { f with chair := new, latch := false })).floorLawful :=
    floorLawful_entries h rfl rfl rfl rfl rfl rfl
  have hold (c : Nat) := hentry (fun f e => if e.st = .opened then { e with talk := f.newTalk c } else e)
    (fun f e => by split <;> exact ⟨rfl, rfl⟩) c hchair
  unfold changeChair
  dsimp only
  split
  · exact h
  · refine floorLawful_of_changes (raise_changes ..) ?_
    split
    · split
      · exact hentry (fun _ e => { e with talk := none }) (fun _ _ => ⟨rfl, rfl⟩) _ (hold _)
      · exact hentry (fun _ e => { e with talk := none }) (fun _ _ => ⟨rfl, rfl⟩) _ hchair
    · split
      · exact hold _
      · exact hchair

theorem restartHolds_chs (f : Floor) : f.restartHolds.list.map (fun e => e.ch) = f.list.map (fun e => e.ch) := by
  simp only [Floor.restartHolds, List.map_map]
  refine List.map_congr_left fun e _ => ?_
  simp only [Function.comp_apply]
  split <;> rfl

theorem talkLimitWritten_chs (f : Floor) (old : Nat) :
    (f.talkLimitWritten old).list.map (fun e => e.ch) = f.list.map (fun e => e.ch) := by
  unfold Floor.talkLimitWritten
  split
  · simp
  · split
    · simp only [List.map_map]
      refine List.map_congr_left fun e _ => ?_
      simp only [Function.comp_apply]
      split <;> rfl
    · rfl

theorem talkLimitWritten_eq (f : Floor) (old : Nat) :
    f.talkLimitWritten old = { f with list := (f.talkLimitWritten old).list } := by
  unfold Floor.talkLimitWritten
  split
  · rfl
  · split <;> rfl

/-- The floor with the entry of the cut taken off. -/
theorem takeOff_floor (c : Nat) (s : State) :
    (takeOff c s).floor = { s.floor.dropEntry c with latch := s.floor.latch && !s.floor.isChair c } := rfl

theorem dropEntry_sublist (f : Floor) (c : Nat) :
    ((f.dropEntry c).list.map (fun e => e.ch)).Sublist (f.list.map (fun e => e.ch)) :=
  List.Sublist.map _ List.filter_sublist

/-- The cut takes entries off the Floor List and leaves the other lists and the quantities. -/
theorem cutFloor_lists : ∀ (n : Nat) (s : State),
    ((cutFloor n s).floor.list.map (fun e => e.ch)).Sublist (s.floor.list.map (fun e => e.ch))
      ∧ (cutFloor n s).floor.wait = s.floor.wait ∧ (cutFloor n s).floor.leaving = s.floor.leaving
      ∧ (cutFloor n s).floor.cfg = s.floor.cfg
  | 0, s => ⟨List.Sublist.refl _, rfl, rfl, rfl⟩
  | n + 1, s => by
    unfold cutFloor
    split
    · split
      · next e _ =>
        obtain ⟨hlist, hwait, hleaving, hcfg⟩ := cutFloor_lists n (floorChange e.ch e.st.gate .closed .config (takeOff e.ch s))
        exact ⟨hlist.trans (dropEntry_sublist s.floor e.ch), hwait, hleaving, hcfg⟩
      · exact ⟨List.Sublist.refl _, rfl, rfl, rfl⟩
    · exact ⟨List.Sublist.refl _, rfl, rfl, rfl⟩

/-- Enough cuts bring the Floor List within MAXOPEN. -/
theorem cutFloor_bounded : ∀ (n : Nat) (s : State), s.floor.list.length ≤ n + s.floor.cfg.maxOpen →
    (cutFloor n s).floor.list.length ≤ s.floor.cfg.maxOpen
  | 0, s, h => by simpa [cutFloor] using h
  | n + 1, s, h => by
    unfold cutFloor
    split
    · next hover =>
      split
      · next e he =>
        have hlast : e ∈ s.floor.list := List.mem_of_getLast? he
        have hshort := Floor.dropEntry_length (f := s.floor) (Floor.entry?_of_mem hlast)
        refine cutFloor_bounded n (floorChange e.ch e.st.gate .closed .config (takeOff e.ch s)) ?_
        show (s.floor.dropEntry e.ch).list.length ≤ n + s.floor.cfg.maxOpen
        omega
      · next hnone =>
        rw [List.getLast?_eq_none_iff.mp hnone] at hover
        exact absurd hover (Nat.not_lt_zero _)
    · next hnot => omega

/-- Lists that lose channels keep the laws under any quantities that bound them. -/
theorem floorKept_of_sublists {ok there : Nat → Prop} {s t : State} (h : s.floorKept ok there)
    (hbound : t.floor.list.length ≤ t.floor.cfg.maxOpen)
    (hlist : (t.floor.list.map (fun e => e.ch)).Sublist (s.floor.list.map (fun e => e.ch)))
    (hwait : t.floor.wait = s.floor.wait) (hleaving : t.floor.leaving = s.floor.leaving)
    (hattack : ∀ c, (t.chan c).attack = (s.chan c).attack) : t.floorKept ok there := by
  have hshrunk : State.floorKept ok there (t.modFloor (fun f => { f with cfg := s.floor.cfg })) :=
    State.floorKept.shrink h hlist (by rw [State.modFloor_floor, hwait]) (by rw [State.modFloor_floor, hleaving]) rfl
      (fun c => .inl (hattack c))
  exact ⟨⟨hbound, hshrunk.1.2⟩, hshrunk.2⟩

theorem floorLawful_writeFloorCfg {new : FloorCfg} {s : State} (h : s.floorLawful) :
    (writeFloorCfg new s).floorLawful := by
  by_cases hsame : s.floor.cfg = new
  · simpa [writeFloorCfg, hsame] using h
  refine floorLawful_of_kept h (writeFloorCfg_changes new s) ?_ (fun hk => ?_)
  · rw [writeFloorCfg, if_neg hsame]
    exact afterFloor_guarded _
  · rw [writeFloorCfg, if_neg hsame]
    dsimp only
    refine State.floorKept.afterFloor ?_
    generalize hr : rescaleRamps s.floor.cfg.ramp new.ramp (s.modFloor (fun f => { f with cfg := new })) = r
    have hrfloor : r.floor = { s.floor with cfg := new } := by
      rw [← hr]
      unfold rescaleRamps
      split <;> rfl
    have hrattack : ∀ c, (r.chan c).attack = (s.chan c).attack := by
      rw [← hr]
      exact (rescaleRamps_changes ..).1 .attack (by decide)
    generalize hm : (if new.lastMic then r else r.modFloor Floor.restartHolds) = m
    have hmchs : m.floor.list.map (fun e => e.ch) = s.floor.list.map (fun e => e.ch) := by
      rw [← hm]
      split
      · rw [hrfloor]
      · rw [State.modFloor_floor, restartHolds_chs, hrfloor]
    have hmfloor : m.floor.wait = s.floor.wait ∧ m.floor.leaving = s.floor.leaving ∧ m.floor.cfg = new := by
      rw [← hm]
      split <;> simp [Floor.restartHolds, hrfloor]
    have hmattack : ∀ c, (m.chan c).attack = (s.chan c).attack := by
      rw [← hm]
      split <;> exact hrattack
    generalize hw : m.modFloor (fun f => f.talkLimitWritten s.floor.cfg.talkLimit) = w
    have hwfloor : w.floor = { m.floor with list := w.floor.list } := by
      rw [← hw]
      exact talkLimitWritten_eq ..
    have hwchs : w.floor.list.map (fun e => e.ch) = s.floor.list.map (fun e => e.ch) := by
      rw [← hw, State.modFloor_floor, talkLimitWritten_chs, hmchs]
    have hwattack : ∀ c, (w.chan c).attack = (s.chan c).attack := by
      rw [← hw]
      exact hmattack
    obtain ⟨hlist, hwait, hleaving, hcfg⟩ := cutFloor_lists w.floor.list.length w
    refine floorKept_of_sublists hk ?_ (hwchs ▸ hlist) ?_ ?_ ?_
    · rw [hcfg]
      exact cutFloor_bounded _ w (Nat.le_add_right ..)
    · rw [hwait, hwfloor]
      exact hmfloor.1
    · rw [hleaving, hwfloor]
      exact hmfloor.2.1
    · intro c
      exact ((cutFloor_changes _ w).1 .attack (by decide) c).trans (hwattack c)

end Sys2Proof.Proofs
end

