-- ==== Sys2Proof/Proofs/KeptFloorSteps.lean ====
section
/-! PROOFS. Claims, positions, events, requests and boundaries keep the laws of the floor; so every step does. -/

set_option Elab.async false

namespace Sys2Proof.Proofs

open Sys2Proof Sys2Proof.Machine

/-! ### Claims (R19 to R21) -/

theorem muted_eq_false_iff (s : State) (c : Nat) : s.muted c = false ↔ s.claims c = ClaimSet.empty := by
  simp [State.muted]

theorem withClaims_claims (k : Channel) (c : Nat) (new : ClaimSet) : (k.withClaims c new).claims = new := by
  unfold Channel.withClaims
  split <;> rfl

theorem removeFromFloor_guarded {c : Nat} {k : FloorCause} {s : State} (h : s.floor.guarded) :
    (removeFromFloor c k s).floor.guarded := by
  unfold removeFromFloor
  dsimp only
  split
  · exact afterFloor_guarded _
  · split
    · exact afterFloor_guarded _
    · split
      · exact afterFloor_guarded _
      · exact h

/-- The state with one channel's claim set written. -/
abbrev claimed (c : Nat) (new : ClaimSet) (s : State) : State := s.modChan c (fun k => k.withClaims c new)

theorem claimed_claims_ne {c d : Nat} (new : ClaimSet) (s : State) (hd : d ≠ c) :
    (claimed c new s).claims d = s.claims d := by
  rw [State.claims, State.chan_modChan_ne s _ hd, State.claims]

theorem claimed_claims_self {c : Nat} (new : ClaimSet) (s : State) (hc : c < 42) :
    (claimed c new s).claims c = new := by
  rw [State.claims, State.chan_modChan_self s _ hc, withClaims_claims]

theorem claimed_attack (c d : Nat) (new : ClaimSet) (s : State) :
    ((claimed c new s).chan d).attack = (s.chan d).attack :=
  (withClaims_changes c new s).1 .attack (by decide) d

/-- The lists stay as they are when a claim set is written. -/
theorem claimed_kept {ok there : Nat → Prop} {c : Nat} {new : ClaimSet} {s : State} (h : s.floorKept ok there) :
    (claimed c new s).floorKept ok there := h.same rfl rfl rfl rfl (fun d => claimed_attack c d new s)

/-- A channel that keeps or leaves its muted state by a claim change needs no move of the floor. -/
theorem floorLawful_claimed {c : Nat} {new : ClaimSet} {s : State} (h : s.floorLawful)
    (hstays : c < 32 → s.claims c = ClaimSet.empty → new = ClaimSet.empty) : (claimed c new s).floorLawful := by
  refine (floorKept_iff _).mpr ⟨guarded_of_lawful (s := s) h, State.floorKept.mono (claimed_kept
    (floorKept_of_lawful h)) ?_ (fun d hd hp => (present_of_changes (withClaims_changes c new s) hd).trans hp)⟩
  rintro d hd ⟨hm, hp⟩
  refine ⟨?_, (present_of_changes (withClaims_changes c new s) hd).trans hp⟩
  rw [muted_eq_false_iff] at hm ⊢
  by_cases hdc : d = c
  · subst hdc
    rw [claimed_claims_self new s (by omega)]
    exact hstays hd hm
  · rw [claimed_claims_ne new s hdc, hm]

/-- A pod that becomes muted is taken off the floor. -/
theorem floorLawful_muted {c : Nat} {new : ClaimSet} {s t : State} (h : s.floorLawful) (hc : c < 32)
    (ht : (claimed c new s).changes [] t) : (removeFromFloor c .muted t).floorLawful := by
  have hfloor : t.floorKept (mayStand s) (isThere s) := by
    obtain ⟨hlist, hwait, hleaving, -⟩ := ht.1 .floor (by decide)
    have hcfg : t.floor.cfg = _ := ht.1 .cfg (by decide)
    refine State.floorKept.same (claimed_kept (c := c) (new := new) (floorKept_of_lawful h)) (by rw [hlist]) (by rw [hwait])
      (by rw [hleaving]) (by rw [hcfg]) (fun d => ht.1 .attack (by decide) d)
  have hguard : t.floor.guarded := by
    obtain ⟨hlist, -, hleaving, hg⟩ := ht.1 .floor (by decide)
    exact guarded_congr hg (by simp [Floor.hasPending, hlist]) hleaving (guarded_of_lawful (s := s) h)
  obtain ⟨hentry, hwaiting, hattack, -⟩ := removeFromFloor_off (k := .muted) hfloor (show c < 42 by omega)
  have hmoved : (claimed c new s).changes departParts (removeFromFloor c .muted t) :=
    (ht.mono (qs := departParts)).trans (removeFromFloor_changes c .muted t)
  have hpresent (d : Nat) (hd : d < 32) : (removeFromFloor c .muted t).present d = s.present d :=
    (present_of_changes hmoved hd).trans (present_of_changes (withClaims_changes c new s) hd)
  refine (floorKept_iff _).mpr ⟨removeFromFloor_guarded hguard, State.floorKept.forbid
    (State.floorKept.removeFromFloor hfloor) c ?_ (fun d hd _ hp => (hpresent d hd).trans hp)
    (fun _ => ⟨hentry, hwaiting, hattack⟩) (fun hp => ?_)⟩
  · rintro d hd hdc ⟨hm, hp⟩
    refine ⟨?_, (hpresent d hd).trans hp⟩
    rw [muted_of_changes hmoved, muted_eq_false_iff, claimed_claims_ne new s hdc]
    exact (muted_eq_false_iff s d).mp hm
  · exact (State.floorKept.removeFromFloor hfloor).2.2.2 c hc (fun hy => hp ((hpresent c hc).trans hy))

/-- The claim set written, with its notice where one is due. -/
def claimNoted (c : Nat) (new : ClaimSet) (note : Option Origin) (s : State) : State :=
  match note with
  | some o => raise (.claimChange c new (new.less (s.claims c)) ((s.claims c).less new) o) (claimed c new s)
  | none => claimed c new s

theorem claimNoted_changes (c : Nat) (new : ClaimSet) (note : Option Origin) (s : State) :
    (claimed c new s).changes [] (claimNoted c new note s) := by
  cases note with
  | some o => exact raise_changes _ _
  | none => exact .refl _ _

theorem changeClaims_eq (c : Nat) (new : ClaimSet) (note : Option Origin) (s : State) :
    changeClaims c new note s = if new = s.claims c then s
      else if s.claims c = ClaimSet.empty then
        (if c < 32 then removeFromFloor c .muted (claimNoted c new note s) else claimNoted c new note s)
      else if new = ClaimSet.empty then lowerHand c .cleared (claimNoted c new note s)
      else claimNoted c new note s := by
  cases note <;> rfl

theorem floorLawful_changeClaims {c : Nat} {new : ClaimSet} {note : Option Origin} {s : State} (h : s.floorLawful) :
    (changeClaims c new note s).floorLawful := by
  have hquiet := claimNoted_changes c new note s
  rw [changeClaims_eq]
  split
  · exact h
  · split
    · next hold =>
      split
      · next hc => exact floorLawful_muted h hc hquiet
      · next hc => exact floorLawful_of_changes hquiet (floorLawful_claimed h (fun hlt => absurd hlt hc))
    · next hold =>
      have hkept : (claimNoted c new note s).floorLawful :=
        floorLawful_of_changes hquiet (floorLawful_claimed h (fun _ hempty => absurd hempty hold))
      split
      · exact floorLawful_of_changes (lowerHand_changes ..) hkept
      · exact hkept

theorem floorLawful_putClaim {a : Authority} {b : Bool} {note : Option Origin} {c : Nat} {s : State}
    (h : s.floorLawful) : (putClaim a b note c s).floorLawful := floorLawful_changeClaims h

theorem floorLawful_runOver {f : Nat → State → State} (hf : ∀ n s, s.floorLawful → (f n s).floorLawful) (ns : List Nat)
    {s : State} (h : s.floorLawful) : (runOver f ns s).floorLawful := runOver_keep hf ns s h

theorem floorLawful_movePrivacy {want : Nat → Bool} {s : State} (h : s.floorLawful) :
    (movePrivacy want s).floorLawful := floorLawful_runOver (fun _ _ ht => floorLawful_putClaim ht) channels h

theorem floorLawful_matchPrivacy {s : State} (h : s.floorLawful) : (matchPrivacy s).floorLawful :=
  floorLawful_movePrivacy (floorLawful_of_changes (raise_changes ..) h)

theorem floorLawful_setPrivacy {x : Privacy} {s : State} (h : s.floorLawful) :
    State.floorLawful { s with privacy := x } := floorLawful_of_changes (setPrivacy_changes x s) h

theorem floorLawful_releasePrivacy {s : State} (h : s.floorLawful) : (releasePrivacy s).floorLawful :=
  floorLawful_movePrivacy (floorLawful_of_changes (raise_changes ..) (floorLawful_setPrivacy h))

theorem floorLawful_privacyInactive {s : State} (h : s.floorLawful) : (privacyInactive s).floorLawful := by
  unfold privacyInactive
  dsimp only
  split
  · exact floorLawful_releasePrivacy (floorLawful_setPrivacy h)
  · exact floorLawful_of_changes (raise_changes ..) (floorLawful_setPrivacy (floorLawful_setPrivacy h))

theorem floorLawful_shortPress {c : Nat} {s : State} (h : s.floorLawful) : (shortPress c s).floorLawful := by
  unfold shortPress
  dsimp only
  split
  · exact floorLawful_putClaim h
  · split
    · exact floorLawful_putClaim h
    · split
      · exact floorLawful_of_changes (lowerHand_changes ..) h
      · exact floorLawful_of_changes (raiseHand_changes ..) h

theorem floorLawful_regroup {c : Nat} {o : Origin} {s : State} (h : s.floorLawful) : (regroup c o s).floorLawful := by
  unfold regroup
  split
  · exact floorLawful_putClaim h
  · exact h

theorem floorLawful_writeSetup {c : Nat} {w : ChannelSetup} {o : Origin} {s : State} (h : s.floorLawful) :
    (writeSetup c w o s).floorLawful := by
  have hsetup : (s.modChan c (fun k =>
      { k with trim := w.trim, zone := if c < 32 then w.zone else k.zone, groups := w.groups })).floorLawful :=
    floorLawful_of_changes (ps := [.setup]) (modChan_changes
      (by intro q hq; cases q <;> simp [Part.keeps] at hq ⊢) c s) h
  unfold writeSetup
  dsimp only
  by_cases hgroups : (s.chan c).groups = w.groups
  · rw [if_pos hgroups]
    exact hsetup
  · rw [if_neg hgroups]
    exact floorLawful_regroup hsetup

/-! ### Positions and lines -/

/-- A position that does not leave ONLINE changes nothing of the floor. -/
theorem floorLawful_modPos {c : Nat} {f : Position → Position} {s : State} (h : s.floorLawful)
    (hf : (s.position c).state = .online → (f (s.position c)).state = .online) : (s.modPos c f).floorLawful := by
  refine (floorKept_iff _).mpr ⟨guarded_of_lawful (s := s) h, ?_⟩
  have hpresent (d : Nat) (hd : d < 32) (hp : s.present d = true) : (s.modPos c f).present d = true := by
    rw [State.present, if_pos hd, beq_iff_eq] at hp ⊢
    rw [State.position_modPos]
    split
    · next hdc => exact hf (hdc.1 ▸ hp)
    · exact hp
  exact State.floorKept.mono (State.floorKept.same (floorKept_of_lawful h) rfl rfl rfl rfl (fun _ => rfl))
    (fun d hd hok => ⟨hok.1, hpresent d hd hok.2⟩) hpresent

theorem floorLawful_modLine {l : Nat} {g : Line → Line} {s : State} (h : s.floorLawful) :
    (s.modLine l g).floorLawful := floorLawful_of_changes (modLine_changes l g s) h

theorem floorLawful_leaveOnline {c : Nat} {st : PosState} {cause : LostCause} {s : State} (h : s.floorLawful)
    (hc : c < 32) : (leaveOnline c st cause s).floorLawful := by
  unfold leaveOnline
  dsimp only
  refine floorLawful_of_changes (lowerHand_changes ..) ?_
  generalize ht : notePodLost c cause _ = t
  have hlists : s.changes [.pos, .tables] t := by
    rw [← ht]
    exact ((modPos_changes c _ s).comp (rs := [.pos, .tables]) (modTable_changes (lineOf c) (fun x =>
      dropPosition x (posOf c)) _)).comp (raise_changes ..)
  have hposition (d : Nat) (hd : d ≠ c) : t.position d = s.position d := by
    rw [← ht]
    exact (State.position_modPos s c d _).trans (if_neg (fun hdc => hd hdc.1))
  obtain ⟨hlist, hwait, hleaving, hg⟩ := hlists.1 .floor (by decide)
  have hcfg : t.floor.cfg = s.floor.cfg := hlists.1 .cfg (by decide)
  have hfloor : t.floorKept (mayStand s) (isThere s) :=
    State.floorKept.same (floorKept_of_lawful h) (by rw [hlist]) (by rw [hwait]) (by rw [hleaving]) (by rw [hcfg])
      (fun d => hlists.1 .attack (by decide) d)
  have hguard : t.floor.guarded :=
    guarded_congr hg (by simp [Floor.hasPending, hlist]) hleaving (guarded_of_lawful h)
  have hmoved := removeFromFloor_changes c .left t
  obtain ⟨hentry, hwaiting, hattack, hleft⟩ := removeFromFloor_off (k := .left) hfloor (show c < 42 by omega)
  have hpresent (d : Nat) (hd : d < 32) (hdc : d ≠ c) (hp : s.present d = true) :
      (removeFromFloor c .left t).present d = true := by
    rw [present_of_changes hmoved hd, State.present, if_pos hd, hposition d hdc]
    rwa [State.present, if_pos hd] at hp
  refine (floorKept_iff _).mpr ⟨removeFromFloor_guarded hguard, State.floorKept.forbid
    (State.floorKept.removeFromFloor hfloor) c ?_ hpresent (fun _ => ⟨hentry, hwaiting, hattack⟩) (fun _ => hleft rfl)⟩
  rintro d hd hdc ⟨hm, hp⟩
  exact ⟨(muted_of_changes hmoved d).trans ((muted_of_changes hlists d).trans hm), hpresent d hd hdc hp⟩

/-- ONLINE is a state of the 32 positions alone. -/
theorem lt_of_online {s : State} {c : Nat} (h : (s.position c).state = .online) : c < 32 := by
  by_contra hc
  rw [State.position, Tab.get_of_ge _ (Nat.le_of_not_lt hc)] at h
  cases h

theorem leaveOnline_position {c : Nat} {st : PosState} {cause : LostCause} {s : State} (hc : c < 32) :
    ((leaveOnline c st cause s).position c).state = st := by
  have hpos : (leaveOnline c st cause s).pos
      = (s.modPos c (fun q => { q with state := st, levels := none, hold := none })).pos := by
    unfold leaveOnline
    dsimp only
    rw [(lowerHand_changes ..).1 .pos (by decide), (removeFromFloor_changes ..).1 .pos (by decide)]
    rfl
  rw [State.position, hpos]
  show ((s.modPos c _).position c).state = st
  rw [State.position_modPos, if_pos ⟨rfl, hc⟩]

theorem floorLawful_leaveJoining {c : Nat} {f : Position → Position} {s : State} (h : s.floorLawful)
    (hf : (s.position c).state = .online → (f (s.position c)).state = .online) : (leaveJoining c f s).floorLawful :=
  floorLawful_modLine (floorLawful_modPos h hf)

theorem floorLawful_leaveAsleep {c : Nat} {f : Position → Position} {s : State} (h : s.floorLawful)
    (hf : (s.position c).state = .online → (f (s.position c)).state = .online) : (leaveAsleep c f s).floorLawful :=
  floorLawful_modLine (floorLawful_modPos h hf)

theorem floorLawful_joinPod {c : Nat} {s : State} (h : s.floorLawful) : (joinPod c s).floorLawful := by
  unfold joinPod
  dsimp only
  exact floorLawful_of_changes (raise_changes ..) (floorLawful_of_changes (forgetRing_changes ..)
    (floorLawful_leaveJoining h (fun _ => rfl)))

theorem floorLawful_sleepPod {c : Nat} {s : State} (h : s.floorLawful) : (sleepPod c s).floorLawful := by
  unfold sleepPod
  split
  · next honline => exact floorLawful_leaveOnline h (lt_of_online honline)
  · next hnot => exact floorLawful_leaveJoining h (fun honline => absurd honline hnot)

/-- A pod that is ONLINE leaves, and then its position is changed further. -/
theorem floorLawful_departAndRest {c : Nat} {st : PosState} {cause : LostCause} {f : Position → Position} {s : State}
    (h : s.floorLawful) (hst : st ≠ .online) : ((if (s.position c).state = .online then leaveOnline c st cause s else s).modPos
      c f).floorLawful := by
  split
  · next honline =>
    have hc := lt_of_online honline
    exact floorLawful_modPos (floorLawful_leaveOnline h hc) (fun ho => absurd ((leaveOnline_position hc).symm.trans ho) hst)
  · next hnot => exact floorLawful_modPos h (fun ho => absurd ho hnot)

theorem floorLawful_quietly {f : State → State} {s : State} (h : (f s).floorLawful) : (quietly f s).floorLawful := h

theorem floorLawful_sleepLine {l : Nat} {s : State} (h : s.floorLawful) : (sleepLine l s).floorLawful := by
  unfold sleepLine
  dsimp only
  exact floorLawful_modLine (floorLawful_quietly (floorLawful_runOver
    (fun p t ht => floorLawful_departAndRest ht (by decide)) positions h))

theorem floorLawful_stopLine {l : Nat} {s : State} (h : s.floorLawful) : (stopLine l s).floorLawful := by
  unfold stopLine
  split
  · exact h
  · exact floorLawful_of_changes (endTest_changes ..) h
  · exact floorLawful_runOver (fun p t ht => floorLawful_departAndRest ht (by decide)) positions (floorLawful_modLine h)

theorem floorLawful_endWaking {l : Nat} {s : State} (h : s.floorLawful) : (endWaking l s).floorLawful := by
  refine floorLawful_modLine (floorLawful_runOver (fun p t ht => ?_) positions h)
  split
  · next hasleep => exact floorLawful_leaveAsleep ht (fun honline => by simp [hasleep] at honline)
  · exact ht

theorem floorLawful_restLine {l : Nat} {s : State} (h : s.floorLawful) : (restLine l s).floorLawful := by
  refine floorLawful_runOver (fun p t ht => ?_) positions h
  exact floorLawful_modPos ht (fun honline => honline)

theorem floorLawful_standbyLine (l : Nat) (s : State) (h : s.floorLawful) : (standbyLine l s).floorLawful := by
  unfold standbyLine
  split
  · exact floorLawful_restLine h
  · exact floorLawful_restLine (floorLawful_of_changes (endTest_changes ..) h)
  · exact floorLawful_modLine h
  · exact floorLawful_modLine h
  · exact floorLawful_modLine h
  · exact h

theorem floorLawful_standby {autowake : Bool} {s : State} (h : s.floorLawful) : (standby autowake s).floorLawful := by
  unfold standby
  split
  · exact floorLawful_of_changes (ps := [.power]) (setPower_changes _ autowake s) h
  · unfold enterStandby
    dsimp only
    refine floorLawful_runOver floorLawful_standbyLine lineNumbers ?_
    refine floorLawful_of_changes (endTone_changes ..) (floorLawful_of_changes (endLoad_changes ..) ?_)
    exact floorLawful_of_changes (raise_changes ..) (floorLawful_emptyFloor _)

/-! ### Scenes and ConferenceClear -/

theorem floorLawful_applyItem {r : SceneRecord} {ld : LoadContext} {s : State} (h : s.floorLawful) :
    (applyItem r ld s).floorLawful := by
  unfold applyItem
  split
  · split
    · exact floorLawful_writeSetup h
    · exact h
  · split
    · exact floorLawful_of_changes (writeRow_changes ..) h
    · exact h
  · split
    · exact floorLawful_changeChair (floorLawful_writeFloorCfg (floorLawful_changeMode h))
    · exact h
  · split
    · exact floorLawful_runOver (fun _ _ ht => floorLawful_putClaim ht) channels h
    · exact h

theorem floorLawful_stepLoad {s : State} (h : s.floorLawful) : (stepLoad s).floorLawful := by
  unfold stepLoad
  split
  · exact h
  · split
    · exact h
    · next ld _ _ r _ =>
      dsimp only
      have hitem : (if s.passesOver ld then s else applyItem r ld s).floorLawful := by
        split
        · exact h
        · exact floorLawful_applyItem h
      have hload (x : Option LoadContext) := floorLawful_of_changes (setLoad_changes x _) hitem
      split
      · exact floorLawful_of_changes (endLoad_changes ..) (hload _)
      · exact hload _

theorem floorLawful_clearConference {s : State} : (clearConference s).floorLawful := by
  unfold clearConference
  dsimp only
  refine floorLawful_of_changes (endTone_changes ..) (floorLawful_of_changes (endLoad_changes ..) ?_)
  refine floorLawful_of_changes (raise_changes ..) (floorLawful_of_empty rfl rfl rfl rfl (fun c hc => ?_))
  exact ((clearClaims_changes (emptyFloor s)).1 .attack (by decide) c).trans (emptyFloor_attack (by omega))

/-! ### Events -/

theorem floorLawful_event (e : Event) (s : State) (hwrites : ∃ q ∈ [Part.floor, .cfg, .claims, .attack, .pos], q ∈ e.parts)
    (h : s.floorLawful) : (act e s).floorLawful := by
  have hwhen {b : Bool} {f : State → State} (hf : b = true → (f s).floorLawful) : (when b f s).floorLawful :=
    when_keep (P := State.floorLawful) (fun hb _ => hf hb) h
  cases e
  all_goals dsimp only [act]
  case privacyActiveEdge =>
    exact hwhen (fun _ => floorLawful_refreshRings (floorLawful_matchPrivacy (floorLawful_setPrivacy h)))
  case privacyInactiveEdge => exact hwhen (fun _ => floorLawful_refreshRings (floorLawful_privacyInactive h))
  case muteShortPress c => exact hwhen (fun _ => floorLawful_refreshRings (floorLawful_shortPress h))
  case longPress c =>
    exact hwhen (fun _ => floorLawful_refreshRings (floorLawful_runOver (fun _ _ ht => floorLawful_putClaim ht) _ h))
  case talkPress c =>
    refine hwhen (fun hb => floorLawful_refreshRings ?_)
    simp only [Bool.and_eq_true, decide_eq_true_eq] at hb
    exact floorLawful_pressTalk h hb.1.1 hb.1.2
  case floorRequest c =>
    refine hwhen (fun hb => floorLawful_refreshRings ?_)
    have hgate : s.gate c = .attack := by simpa using (Bool.and_eq_true_iff.mp hb).1
    unfold State.gate at hgate
    split at hgate
    · next hc =>
      split at hgate
      · next e _ => cases hst : e.st <;> simp [hst, EntryState.gate] at hgate
      · next hentry =>
        split at hgate
        · cases hgate
        · next hwaiting =>
          split at hgate
          · next hattack =>
            have hok : mayStand s c := Classical.byContradiction (fun hn => by
              have hzero := ((floorKept_of_lawful h).2.2.1 c hc hn).2.2
              omega)
            exact floorLawful_requestFloor h hc hok hentry (by simpa using hwaiting)
          · cases hgate
    · cases hgate
  case holdExpired c => exact hwhen (fun _ => floorLawful_refreshRings (floorLawful_leaveList h))
  case waitTimeout c => exact hwhen (fun _ => floorLawful_refreshRings (floorLawful_dropWaiting h))
  case waitQuietDrop c => exact hwhen (fun _ => floorLawful_refreshRings (floorLawful_dropWaiting h))
  case guardExpiry => exact hwhen (fun _ => floorLawful_refreshRings (floorLawful_openPending h))
  case leavingRemoval c => exact hwhen (fun _ => floorLawful_refreshRings (floorLawful_removeLeaving h))
  case talkTimerTick c =>
    have hticked (t : TalkTimer) : (refreshRings (s.modFloor (fun f =>
        f.modEntry c (fun e => { e with talk := some t })))).floorLawful :=
      floorLawful_refreshRings (floorLawful_entries h (modEntry_chs (fun _ => rfl)) (modEntry_hasPending (fun _ => rfl))
        rfl rfl rfl rfl)
    unfold actTalkTimerTick
    split
    · exact h
    · split
      · exact h
      · dsimp only
        split
        · exact floorLawful_of_changes (addDue_changes ..) (hticked _)
        · split
          · exact floorLawful_of_changes (addDue_changes ..) (hticked _)
          · exact hticked _
  case talkWarn c =>
    unfold actTalkWarn
    split
    · exact h
    · refine hwhen (fun _ => floorLawful_refreshRings (floorLawful_of_changes (raise_changes ..) ?_))
      exact floorLawful_entries h (modEntry_chs (fun _ => rfl)) (modEntry_hasPending (fun _ => rfl)) rfl rfl rfl rfl
  case talkEnd c =>
    unfold actTalkEnd
    split
    · exact h
    · exact hwhen (fun _ => floorLawful_refreshRings (floorLawful_endTalk h))
  case rollCallAnswer l p rec =>
    refine hwhen (fun hb => floorLawful_leaveAsleep h (fun honline => ?_))
    simp [honline] at hb
  case podJoin l p =>
    unfold actPodJoin
    exact hwhen (fun _ => floorLawful_refreshRings (floorLawful_joinPod h))
  case joinFailed l p =>
    refine hwhen (fun hb => floorLawful_leaveJoining h (fun honline => ?_))
    simp [honline] at hb
  case podLost l p =>
    unfold actPodLost
    refine hwhen (fun hb => floorLawful_refreshRings (floorLawful_leaveOnline h (lt_of_online (s := s) ?_)))
    simpa using (Bool.and_eq_true_iff.mp hb).1
  case sleepAcknowledged l p =>
    unfold actSleepAcknowledged
    exact hwhen (fun _ => floorLawful_refreshRings (floorLawful_sleepPod h))
  case wakeFramesDone l p =>
    refine hwhen (fun _ => ?_)
    unfold finishWake
    dsimp only
    exact floorLawful_of_changes (placeRollCall_changes ..) (floorLawful_modPos (floorLawful_modLine h) (fun ho => ho))
  case wakeFailed l p =>
    refine hwhen (fun hb => floorLawful_of_changes (raise_changes ..) (floorLawful_leaveAsleep h (fun honline => ?_)))
    simp [honline] at hb
  case wakingEnd l => exact hwhen (fun _ => floorLawful_endWaking h)
  case standbyFrameEnd l => exact hwhen (fun _ => floorLawful_refreshRings (floorLawful_sleepLine h))
  case sceneLoadStep => exact hwhen (fun _ => floorLawful_refreshRings (floorLawful_stepLoad h))
  all_goals exact absurd hwrites (by dsimp only [Event.parts]; decide)

/-! ### Requests -/

theorem floorLawful_port (p : Port) (g : PortState → PortState) (s : State) (_ : ∀ ps, (g ps).queue = ps.queue)
    (h : s.floorLawful) : (s.modPort p g).floorLawful :=
  floorLawful_reads s _ (fun q _ => modPort_same p g s q) h

theorem floorLawful_claimRun {a : Authority} {b : Bool} {o : Origin} {sel num : Nat} {s : State} (h : s.floorLawful) :
    (claimRun a b o sel num s).floorLawful :=
  floorLawful_refreshRings (floorLawful_runOver (fun _ _ ht => floorLawful_putClaim ht) _ h)

theorem floorLawful_request {i : Instr} {s u : State}
    (hwrites : ∃ q ∈ [Part.floor, .cfg, .claims, .attack, .pos], q ∈ changedBy i)
    (hreset : s.sys.inReset = none) (h : (settle s).floorLawful) (hexec : exec i s = .next u) : u.floorLawful := by
  cases i
  case channelWrite p tag ch trim zone groups =>
    exact StepKept.takeRequest floorLawful_port (fun t ht _ => floorLawful_refreshRings (floorLawful_writeSetup
      (floorLawful_of_changes (touchChannel_changes ch t) ht))) hreset h hexec
  case chairSet p tag ch =>
    exact StepKept.takeRequest floorLawful_port (fun t ht _ => floorLawful_refreshRings (floorLawful_changeChair ht))
      hreset h hexec
  case claimSet p tag sel num flag =>
    exact StepKept.takeRequest floorLawful_port (fun t ht _ => floorLawful_claimRun ht) hreset h hexec
  case claimRelease p tag sel num flag =>
    exact StepKept.takeRequest floorLawful_port (fun t ht _ => floorLawful_claimRun ht) hreset h hexec
  case claimsClear p tag sel num =>
    exact StepKept.takeRequest floorLawful_port (fun t ht _ => floorLawful_refreshRings (floorLawful_runOver
      (fun _ _ hu => floorLawful_changeClaims hu) _ ht)) hreset h hexec
  case farClear p tag =>
    exact StepKept.takeRequest floorLawful_port (fun t ht _ => floorLawful_claimRun ht) hreset h hexec
  case privacyConfig p tag group auto =>
    refine StepKept.takeRequest floorLawful_port (fun t ht _ => ?_) hreset h hexec
    unfold configurePrivacy
    dsimp only
    split
    · exact floorLawful_setPrivacy ht
    · split
      · exact floorLawful_refreshRings (floorLawful_matchPrivacy (floorLawful_setPrivacy ht))
      · exact floorLawful_setPrivacy ht
  case privacyRelease p tag =>
    refine StepKept.takeRequest floorLawful_port (fun t ht _ => ?_) hreset h hexec
    split
    · exact floorLawful_refreshRings (floorLawful_releasePrivacy ht)
    · exact ht
  case modeSet p tag mode =>
    exact StepKept.takeRequest floorLawful_port (fun t ht _ => floorLawful_refreshRings (floorLawful_changeMode ht))
      hreset h hexec
  case floorConfig p tag f =>
    exact StepKept.takeRequest floorLawful_port (fun t ht _ => floorLawful_refreshRings (floorLawful_writeFloorCfg ht))
      hreset h hexec
  case grant p tag ch evict =>
    refine StepKept.takeRequest floorLawful_port (fun t ht hpass => floorLawful_refreshRings
      (floorLawful_grantFloor ht ?_)) hreset h hexec
    have hwaits := (firstFail_none_iff _).mp hpass ((t.floor.waiting? ch).isSome, .state) (by simp)
    exact Option.isSome_iff_ne_none.mp hwaits
  case revoke p tag ch =>
    exact StepKept.takeRequest floorLawful_port (fun t ht _ => floorLawful_refreshRings (floorLawful_leaveList ht))
      hreset h hexec
  case waitDrop p tag ch =>
    exact StepKept.takeRequest floorLawful_port (fun t ht _ => floorLawful_refreshRings (floorLawful_dropWaiting ht))
      hreset h hexec
  case lineStop p tag line =>
    exact StepKept.takeRequest floorLawful_port (fun t ht _ => floorLawful_refreshRings (floorLawful_stopLine ht))
      hreset h hexec
  case podWake p tag line pos =>
    exact StepKept.takeRequest floorLawful_port (fun t ht _ => floorLawful_modPos
      (floorLawful_of_changes (place_changes line (.position pos) (.wake Config.wakeFrames) t) ht) (fun ho => ho))
      hreset h hexec
  case podCounters p tag line pos =>
    exact StepKept.takeRequest floorLawful_port (fun t ht _ => floorLawful_modPos
      (f := fun q => { q with checkFails := 0, missed := 0, rejoins := 0 }) ht (fun ho => ho)) hreset h hexec
  case powerStandby p tag autowake =>
    exact StepKept.takeRequest floorLawful_port (fun t ht _ => floorLawful_refreshRings (floorLawful_standby ht))
      hreset h hexec
  case conferenceClear p tag =>
    exact StepKept.takeRequest floorLawful_port (fun t _ _ => floorLawful_refreshRings floorLawful_clearConference)
      hreset h hexec
  all_goals exact absurd hwrites (by dsimp only [changedBy]; decide)

/-! ### Boundaries -/

theorem qualifies_mayStand {s : State} {c : Nat} (h : s.qualifies c = true) : mayStand s c := by
  simp only [State.qualifies, Bool.and_eq_true, Bool.not_eq_true'] at h
  exact ⟨h.2, h.1.2⟩

/-- An attack count is counted for a channel that may stand, and in CLOSED and ATTACK alone. -/
theorem attackStep_pos {s : State} {c : Nat} (h : s.attackStep c ≠ 0) : mayStand s c := by
  unfold State.attackStep at h
  dsimp only at h
  split at h
  · next hq => exact qualifies_mayStand (Bool.and_eq_true_iff.mp hq).2
  · exact absurd rfl h

theorem gateStep_st (e : FloorEntry) (f : Floor) (k : Channel) :
    (e.gateStep f k).ch = e.ch ∧ ((e.gateStep f k).st == .pending) = (e.st == .pending) := by
  unfold FloorEntry.gateStep
  cases hst : e.st <;> dsimp only
  case pending => exact ⟨rfl, by rw [hst]⟩
  case opened => split <;> simp [hst]
  case held =>
    split
    · simp
    · split
      · simp
      · split
        · simp
        · simp [hst]

theorem floorLawful_setAttack {c n : Nat} {s : State} (h : s.floorLawful) (hn : n ≠ 0 → mayStand s c) :
    (s.modChan c (fun k => { k with attack := n })).floorLawful := by
  have hclaims (d : Nat) : (s.modChan c (fun k => { k with attack := n })).muted d = s.muted d :=
    muted_of_changes (setAttack_changes c n s) d
  have hattack (d : Nat) : ((s.modChan c (fun k => { k with attack := n })).chan d).attack = (s.chan d).attack
      ∨ d = c ∧ ((s.modChan c (fun k => { k with attack := n })).chan d).attack = n := by
    rw [State.chan_modChan]
    split
    · next hdc => exact .inr ⟨hdc.1, rfl⟩
    · exact .inl rfl
  have hzero (d : Nat) (hd : ¬ mayStand s d) (hold : (s.chan d).attack = 0) :
      ((s.modChan c (fun k => { k with attack := n })).chan d).attack = 0 := by
    rcases hattack d with heq | ⟨rfl, heq⟩
    · rw [heq, hold]
    · rw [heq]
      exact Classical.byContradiction (fun hne => hd (hn hne))
  obtain ⟨hbounded, hexclusive, hguarded, hoff, habsent⟩ := h
  refine ⟨hbounded, hexclusive, hguarded, fun d hd hm => ?_, fun d hd hp => ?_⟩
  · rw [hclaims] at hm
    obtain ⟨hentry, hwaiting, hold⟩ := hoff d hd hm
    exact ⟨hentry, hwaiting, hzero d (fun hok => by simp [hok.1] at hm) hold⟩
  · have hps : s.present d = false := (present_of_changes (setAttack_changes c n s) hd).symm.trans hp
    obtain ⟨hentry, hwaiting, hleaving, hold⟩ := habsent d hd hps
    exact ⟨hentry, hwaiting, hleaving, hzero d (fun hok => by simp [hok.2] at hps) hold⟩

theorem floorLawful_gateStep (c : Nat) (s : State) (h : s.floorLawful) : (gateStep c s).floorLawful := by
  have hcount := floorLawful_setAttack (c := c) (n := s.attackStep c) h attackStep_pos
  have hmoved (k : Channel) : ((s.modChan c (fun k => { k with attack := s.attackStep c })).modFloor
      (fun f => f.modEntry c (fun e => e.gateStep f k))).floorLawful :=
    floorLawful_entries hcount (modEntry_chs (fun e => (gateStep_st e _ k).1))
      (hasPending_modEntry (fun e _ _ => (gateStep_st e _ k).2)) rfl rfl rfl rfl
  unfold gateStep
  dsimp only
  split
  · exact hmoved _
  · exact floorLawful_of_changes (floorChange_changes ..) (hmoved _)

theorem floorLawful_stepGates {s : State} (h : s.floorLawful) : (stepGates s).floorLawful := by
  unfold stepGates
  split
  · have hgates := floorLawful_runOver floorLawful_gateStep pods h
    generalize runOver gateStep pods s = u at hgates
    refine floorLawful_of_kept hgates (modFloor_lists _ (by intro; simp)) (guarded_of_lawful (s := u) hgates)
      (fun hk => hk.same rfl ?_ rfl rfl (fun _ => rfl))
    rw [State.modFloor_floor, List.map_map]
    rfl
  · exact h

theorem takeSlot_state (q : Position) (called : Bool) (u : UpSlot) : (q.takeSlot called u).state = q.state := by
  unfold Position.takeSlot
  split
  · next hst =>
    split
    · exact rfl
    · exact rfl
    · exact rfl
  · next hst =>
    dsimp only
    split <;> rfl
  · split
    · split <;> rfl
    · rfl

theorem stepPosition_state (s : State) (inp : BoundaryIn) (c : Nat) (q : Position) :
    (s.stepPosition inp c q).state = q.state := by
  unfold State.stepPosition
  dsimp only
  split
  · exact takeSlot_state ..
  · rfl

theorem unitsStepped_position (inp : BoundaryIn) (s : State) {c : Nat} (hc : c < 32) :
    (unitsStepped inp s).position c = s.stepPosition inp c (s.position c) := by
  simp [unitsStepped, State.position, Tab.get_mapIdx, hc]

theorem unitsStepped_present (inp : BoundaryIn) (s : State) {c : Nat} (hc : c < 32) :
    (unitsStepped inp s).present c = s.present c := by
  rw [State.present, if_pos hc, unitsStepped_position inp s hc, stepPosition_state, State.present, if_pos hc]

/-- Fields that no unit but the gates touches. -/
theorem unitsStepped_kept (inp : BoundaryIn) (s : State) {c : Nat} (hc : c < 42) :
    ((unitsStepped inp s).chan c).claims = (s.chan c).claims ∧ ((unitsStepped inp s).chan c).hand = (s.chan c).hand
      ∧ ((unitsStepped inp s).chan c).attack = (s.chan c).attack
      ∧ ((unitsStepped inp s).chan c).armed = (s.chan c).armed := by
  rw [unitsStepped_chan_eq inp s hc, measuredChans_get inp s hc, measure_eq]
  exact ⟨rfl, rfl, rfl, rfl⟩

theorem floorLawful_unitsStepped (inp : BoundaryIn) {s : State} (h : s.floorLawful) :
    (unitsStepped inp s).floorLawful := by
  obtain ⟨hbounded, hexclusive, hguarded, hoff, habsent⟩ := h
  have hlist : (unitsStepped inp s).floor.list
      = s.floor.list.map (fun e => { e with talk := e.talk.map (fun t => { t with blocks := t.blocks + 1 }) }) := rfl
  have hentry (c : Nat) (hc : s.floor.entry? c = none) : (unitsStepped inp s).floor.entry? c = none := by
    rw [Floor.entry?, hlist, find?_map_ch (g := fun e => { e with talk := e.talk.map (fun t =>
      { t with blocks := t.blocks + 1 }) }) (fun _ => rfl)]
    show (s.floor.entry? c).map _ = none
    rw [hc]
    rfl
  have hmuted (c : Nat) (hc : c < 42) : (unitsStepped inp s).muted c = s.muted c :=
    decide_eq_decide.mpr (by rw [State.claims, (unitsStepped_kept inp s hc).1, State.claims])
  refine ⟨?_, ?_, ?_, fun c hc hm => ?_, fun c hc hp => ?_⟩
  · simpa [Floor.bounded, unitsStepped, Floor.tick] using hbounded
  · simpa [Floor.exclusive, Floor.members, unitsStepped, Floor.tick, Function.comp_def] using hexclusive
  · simpa [Floor.guarded, Floor.hasPending, unitsStepped, Floor.tick, Function.comp_def] using hguarded
  · obtain ⟨he, hw, ha⟩ := hoff c hc (hmuted c (by omega) ▸ hm)
    exact ⟨hentry c he, hw, ((unitsStepped_kept inp s (by omega)).2.2.1).trans ha⟩
  · obtain ⟨he, hw, hl, ha⟩ := habsent c hc (unitsStepped_present inp s hc ▸ hp)
    exact ⟨hentry c he, hw, hl, ((unitsStepped_kept inp s (by omega)).2.2.1).trans ha⟩

theorem floorLawful_boundary (inp : BoundaryIn) (s : State) (h : s.floorLawful) : (boundary inp s).floorLawful :=
  floorLawful_of_changes (setDue_changes _ (stepGates (unitsStepped inp s)))
    (floorLawful_stepGates (floorLawful_unitsStepped inp h))

/-! ### Every step -/

theorem floorLawful_kept : StepKept State.floorLawful := by
  refine StepKept.of_reads floorLawful_reads (by decide) floorLawful_event (fun hp => absurd hp (by decide))
    (fun i p tag kind s u _ hreset hp => floorLawful_request hp hreset) (fun inp s _ => floorLawful_boundary inp s)
    ?restart (fun hp => absurd hp (by decide))
  case restart =>
    intro cause pv al slots free is
    refine floorLawful_of_empty rfl rfl rfl rfl (fun c hc => ?_)
    have hc42 : c < 42 := by omega
    simp [State.afterReset, State.chan, Tab.get_tabulate, hc42, resetChannel]

/-- Settles O57: who may stand in the lists is fixed by claims and positions, and every move of the lists, of a claim and of
a position keeps to it. -/
theorem stepKeepsFloorLawful : Obligations.StepKeepsFloorLawful := fun _ _ => floorLawful_kept.step

end Sys2Proof.Proofs
end

