-- ==== Sys2Proof/Proofs/Resets.lean ====
section
/-! PROOFS. The step, the reset state and the resets, and what every request answers (R178, R179, R180, R186). -/

set_option Elab.async false

namespace Sys2Proof.Proofs

open Sys2Proof Sys2Proof.Machine

/-- Settles O1, by the two cases of the queue. -/
theorem stepTakesFrontCommand : Obligations.StepTakesFrontCommand := fun _ _ _ => ⟨rfl, rfl⟩

/-! ### The reset state -/

theorem reset_chan {pv al : Bool} {cause : ResetCause} {slots : Tab 16 (Option SceneRecord)} {free : Nat}
    {is : List Instr} {c : Nat} (hc : c < 42) :
    (State.afterReset cause pv al slots free is).chan c = resetChannel pv c :=
  (Tab.get_tabulate _ _).trans (if_pos hc)

theorem reset_xp {o c : Nat} (ho : o < 17) (hc : c < 42) : State.reset.mix.xp.get (42 * o + c) = defaultXp o c := by
  have hrow : (42 * o + c) / 42 = o := by omega
  have hcol : (42 * o + c) % 42 = c := by omega
  refine (Tab.get_tabulate _ _).trans ((if_pos (by omega)).trans ?_)
  rw [hrow, hcol]

/-- Settles O3, field by field of the reset state. -/
theorem resetValues : Obligations.ResetValues := by
  refine ⟨fun c hc => ?channel, fun c hc => ?pod, fun l hl => ?line, rfl, rfl, rfl, rfl, rfl, rfl, rfl, rfl,
    fun o ho c hc => ?gain, fun o ho => ?row, rfl, rfl, rfl, rfl, rfl, rfl, rfl, rfl, rfl, fun z hz => ?howl, rfl, rfl,
    rfl, rfl, fun i hi => ?point, fun e he => ?watch, rfl, rfl, rfl, rfl, rfl, rfl, fun i hi => ?slot, rfl,
    fun p => ?port, rfl, rfl, rfl, rfl, rfl, rfl⟩
  case channel =>
    rw [State.reset, reset_chan hc]
    exact ⟨rfl, rfl, rfl, rfl, rfl, rfl, rfl, rfl, rfl⟩
  case pod =>
    have hzone : defaultZone c = c / 8 * 2 + c % 8 / 4 := if_pos hc
    rw [reset_position hc, State.reset, reset_chan (by omega)]
    exact ⟨hzone, hzone, rfl, rfl, rfl, rfl, rfl, rfl, rfl, rfl, rfl, rfl, rfl, rfl, rfl, rfl, rfl, rfl, rfl, rfl, rfl⟩
  case line =>
    rw [reset_line hl]
    exact ⟨rfl, rfl, rfl, rfl⟩
  case gain => exact reset_xp ho hc
  case row => exact ⟨(Tab.get_tabulate _ _).trans (if_pos ho), (Tab.get_tabulate _ _).trans (if_pos ho)⟩
  case howl => exact (Tab.get_tabulate _ _).trans (if_pos hz)
  case point => exact (Tab.get_tabulate _ _).trans (if_pos hi)
  case watch => exact (Tab.get_tabulate _ _).trans (if_pos he)
  case slot => exact (Tab.get_tabulate _ _).trans (if_pos hi)
  case port => cases p <;> exact ⟨rfl, rfl, rfl, rfl⟩

theorem reset_settled : State.reset.settled :=
  ⟨rfl, fun l hl => by rw [reset_line hl]; rfl⟩

/-- Settles O56: the reset state is what a reset leaves, and every law is one that a reset establishes. -/
theorem resetIsLawful : Obligations.ResetIsLawful :=
  ⟨queuesBounded_kept.restart .power false false emptySlots 0 [],
    floorLawful_kept.restart .power false false emptySlots 0 [],
    silenceLawful_kept.restart .power false false emptySlots 0 [],
    positionsBounded_kept.restart .power false false emptySlots 0 [],
    rampsBounded_kept.restart .power false false emptySlots 0 [],
    levelsLawful_kept.restart .power false false emptySlots 0 [],
    tablesKeyed_kept.restart .power false false emptySlots 0 [], reset_settled⟩

/-! ### The resets (R186) -/

/-- What a reset leaves of a channel differs from the reset state in the PRIVACY claim alone. -/
theorem resetChannel_eq (pv : Bool) (c : Nat) :
    resetChannel pv c
      = { resetChannel false c with claims := { ClaimSet.empty with privacy := pv && decide (c < 32) } } := rfl

/-- Settles O4: what a reset leaves is built of the reset values, the level inputs, and what it keeps. -/
theorem resetsRestart : Obligations.ResetsRestart := by
  intro pv al s
  have hchan (cause : ResetCause) (slots : Tab 16 (Option SceneRecord)) (c : Nat) (hc : c < 42) :
      (State.afterReset cause pv al slots s.sys.free s.pending).chan c
        = { State.reset.chan c with claims := { ClaimSet.empty with privacy := pv && decide (c < 32) } } := by
    rw [reset_chan hc, State.reset, reset_chan hc, resetChannel_eq]
  exact ⟨fun h => ⟨_, if_neg h, rfl, hchan _ _⟩, fun h => if_pos h, fun h => ⟨_, if_neg h, rfl, hchan _ _⟩,
    fun h => if_pos h⟩

/-- Outside the resets, a command in reset leaves the state as it is. -/
theorem exec_inReset {c : Instr} {s : State} (hreset : s.sys.inReset ≠ none) (hc : c.isReset = false) :
    exec c s = .next s := by
  have hsome : s.sys.inReset.isSome = true := Option.isSome_iff_ne_none.mpr hreset
  have hrequest {i : Instr} {p : Port} {tag : Byte} {kind : Nat} (hi : i.request = some (p, tag, kind)) :
      exec i s = .next s := by
    obtain ⟨checks, run, body, hexec, -⟩ := exec_request hi
    rw [hexec s, takeRequest_inReset hreset]
  rcases command_shape c with ⟨p, t, k, hreq⟩ | ⟨e, he⟩ | ⟨inp, rfl⟩ | ⟨p, bs, rfl⟩ | ⟨p, n, rfl⟩ | ⟨p, b, n, rfl⟩
    | ⟨a, b, rfl⟩ | ⟨a, b, rfl⟩ | rfl
  · exact hrequest hreq
  · rw [exec_event he, runEvent, if_pos hsome]
  · exact if_pos hsome
  · rcases execUnknownKindFrame_cases p bs s with ⟨r, hbad⟩ | ⟨i, tag, kind, hreq, hi⟩ | hnone
    · exact hbad.trans (takeRequest_inReset hreset ..)
    · exact hi.trans (hrequest hreq)
    · exact hnone
  · exact if_pos hsome
  · exact if_pos hsome
  · cases hc
  · cases hc
  · cases hc

/-- Settles O5. -/
theorem resetPinHoldsThePart : Obligations.ResetPinHoldsThePart := by
  refine ⟨fun s hreset => ?_, fun c s => exec_inReset⟩
  refine ⟨beginReset .pin s, if_neg (by simp [hreset]), rfl, fun o ho => ?_, fun l hl => ?_, fun p => ?_,
    beginReset_onlyIn .pin s⟩
  · exact (Tab.get_tabulate _ _).trans (if_pos ho)
  · rw [State.line, beginReset, Tab.get_mapIdx, if_pos hl]
  · cases p <;> exact ⟨rfl, rfl⟩

/-! ### Every command and every request (R178, R179) -/

/-- Settles O6: the answer is OK or the result of a check that fails, and no check has the result OK. -/
theorem everyRequestIsAnswered : Obligations.EveryRequestIsAnswered := by
  intro i p tag kind s hreq hreset
  obtain ⟨checks, run, body, hexec, hresults⟩ := exec_request hreq
  rw [hexec s]
  rcases takeRequest_cases hreset p tag kind checks run body with ⟨-, hok⟩ | ⟨r, hr, hfail⟩
  · exact .inl ⟨_, _, hok⟩
  · obtain ⟨x, hx, rfl⟩ := firstFail_mem hr
    have hne := List.all_eq_true.mp (hresults (settle s)) x hx
    exact .inr ⟨x.2, by simpa using hne, hfail⟩

theorem pending_notin_changedBy (i : Instr) : Part.pending ∉ changedBy i := by
  cases i <;> (dsimp only [changedBy]; decide)

theorem settle_pending (s : State) : (settle s).pending = s.pending := (settle_changes s).1 .pending (by decide)

theorem closeFrames_pending (s : State) : (closeFrames s).pending = s.pending :=
  closeFrames_keep (P := fun t => t.pending = s.pending)
    (fun l t ht => ((formFrame_changes l t).1 .pending (by decide)).trans ht) s rfl

theorem boundary_pending (inp : BoundaryIn) (s : State) : (boundary inp s).pending = s.pending :=
  boundary_same inp s (q := .pending) (by decide)

/-- A request answers a next state and leaves the queue as it is, in reset also. -/
theorem exec_request_next {i : Instr} {p : Port} {tag : Byte} {kind : Nat} (hreq : i.request = some (p, tag, kind))
    (s : State) : ∃ t, exec i s = .next t ∧ t.pending = s.pending := by
  obtain ⟨checks, run, body, hexec, -⟩ := exec_request hreq
  by_cases hreset : s.sys.inReset = none
  · have hkeep {u : State} (hu : exec i s = .next u) : u.pending = s.pending :=
      (request_onlyIn hreq hreset hu .pending (pending_notin_changedBy i)).trans (settle_pending s)
    rcases takeRequest_cases hreset p tag kind checks run body with ⟨-, hok⟩ | ⟨r, -, hfail⟩
    · exact ⟨_, (hexec s).trans hok, hkeep ((hexec s).trans hok)⟩
    · exact ⟨_, (hexec s).trans hfail, hkeep ((hexec s).trans hfail)⟩
  · exact ⟨s, (hexec s).trans (takeRequest_inReset hreset ..), rfl⟩

theorem badFrame_next (p : Port) (bs : List Byte) (r : Result) (s : State) :
    ∃ t, badFrame p bs r s = .next t ∧ t.pending = s.pending := by
  by_cases hreset : s.sys.inReset = none
  · exact ⟨_, takeRequest_fail hreset rfl, (respond_same p _ _ .pending).trans (settle_pending s)⟩
  · exact ⟨s, takeRequest_inReset hreset .., rfl⟩

theorem execUnknownKindFrame_next (p : Port) (bs : List Byte) (s : State) :
    ∃ t, execUnknownKindFrame p bs s = .next t ∧ t.pending = s.pending := by
  rcases execUnknownKindFrame_cases p bs s with ⟨r, hbad⟩ | ⟨i, tag, kind, hreq, hi⟩ | hnone
  · exact hbad ▸ badFrame_next p bs r s
  · exact hi ▸ exec_request_next hreq s
  · exact ⟨s, hnone, rfl⟩

/-- Settles O2, by the shape of the command. -/
theorem everyCommandCompletes : Obligations.EveryCommandCompletes := by
  intro c s
  have hunless {b : Bool} {u : State} (hu : u.pending = s.pending) :
      ∃ t, (if b then Host.Outcome.next s else .next u (φ := Fault) (ρ := Refusal)) = .next t ∧ t.pending = s.pending := by
    cases b
    · exact ⟨u, rfl, hu⟩
    · exact ⟨s, rfl, rfl⟩
  have hafter {x : Prop} [Decidable x] {u : State} (hu : u.pending = s.pending) :
      ∃ t, (if x then Host.Outcome.next s else .next u (φ := Fault) (ρ := Refusal)) = .next t ∧ t.pending = s.pending := by
    split
    · exact ⟨s, rfl, rfl⟩
    · exact ⟨u, rfl, hu⟩
  rcases command_shape c with ⟨p, t, k, hreq⟩ | ⟨e, he⟩ | ⟨inp, rfl⟩ | ⟨p, bs, rfl⟩ | ⟨p, n, rfl⟩ | ⟨p, b, n, rfl⟩
    | ⟨a, b, rfl⟩ | ⟨a, b, rfl⟩ | rfl
  · exact exec_request_next hreq s
  · exact ⟨_, exec_event he s, (runEvent_changes e s).1 .pending (by decide)⟩
  · exact hunless ((closeFrames_pending _).trans ((boundary_pending inp _).trans (settle_pending s)))
  · exact execUnknownKindFrame_next p bs s
  · exact hunless (modPort_same p _ s .pending)
  · exact hunless (modPort_same p _ s .pending)
  · exact hafter rfl
  · exact hafter rfl
  · exact hunless rfl

/-! ### The Codec Port (R180) -/

theorem settle_farmod (s : State) : (settle s).sys.farmod = s.sys.farmod := (settle_changes s).1 .rights (by decide)

/-- A request of a kind that the Codec Port may not use is DENIED: the rights check is its first. -/
theorem exec_denied {i : Instr} {tag : Byte} {kind : Nat} {s : State} (hreq : i.request = some (.codec, tag, kind))
    (hreset : s.sys.inReset = none) (hkind : codecKind kind s.sys.farmod = false) :
    exec i s = .next (failReply .codec tag kind .denied (settle s)) := by
  cases i
  all_goals simp only [Instr.request, Option.some.injEq, Prod.mk.injEq, reduceCtorEq] at hreq
  all_goals obtain ⟨rfl, rfl, rfl⟩ := hreq
  case status | noticeRead | noticeMask | channelRead | claimSet | claimRelease | farClear | handLower | siteState
      | meterRead | crosspointRead | silenceRaise => simp [codecKind] at hkind
  case grant | revoke | waitDrop =>
    have hfarmod : moderates .codec (settle s) = false := by
      rw [moderates, settle_farmod]
      simpa [codecKind] using hkind
    refine takeRequest_fail hreset ?_
    rw [firstFail, hfarmod]
    rfl
  all_goals exact takeRequest_fail hreset rfl

theorem claim_denied {i : Instr} {tag : Byte} {kind sel num flag : Nat} {s : State}
    (hreq : i.request = some (.codec, tag, kind)) (hreset : s.sys.inReset = none) (hflag : flag ≠ 0)
    (hi : i = .claimSet .codec tag sel num flag ∨ i = .claimRelease .codec tag sel num flag) :
    exec i s = .next (failReply .codec tag kind .denied (settle s)) := by
  have hright : firstFail (claimChecks .codec sel num flag) = some .denied := by
    simp [claimChecks, firstFail, claimRight, hflag]
  rcases hi with rfl | rfl
  · obtain ⟨-, rfl⟩ : Port.codec = .codec ∧ 7 = kind := by simpa [Instr.request] using hreq
    exact takeRequest_fail hreset hright
  · obtain ⟨-, rfl⟩ : Port.codec = .codec ∧ 8 = kind := by simpa [Instr.request] using hreq
    exact takeRequest_fail hreset hright

/-- Settles O7: by the kind, or by the chair flag. -/
theorem codecPortIsDenied : Obligations.CodecPortIsDenied := by
  rintro i tag kind s hreq hreset (hkind | ⟨hkind, hfarmod⟩ | ⟨sel, num, flag, hflag, hi⟩)
  · refine exec_denied hreq hreset ?_
    simp only [List.mem_cons, List.not_mem_nil, or_false, not_or] at hkind
    simp [codecKind, hkind]
  · refine exec_denied hreq hreset ?_
    simp only [List.mem_cons, List.not_mem_nil, or_false] at hkind
    rcases hkind with rfl | rfl | rfl <;> simp [codecKind, hfarmod]
  · exact claim_denied hreq hreset hflag hi

end Sys2Proof.Proofs
end

