-- ==== Sys2Proof/Proofs/PortReads.lean ====
section
/-! PROOFS. The requests that report the state of the part (R13, R104, R143, R144, R162, R181, R183). -/

set_option Elab.async false

namespace Sys2Proof.Proofs

open Sys2Proof Sys2Proof.Machine

/-! ### The fields of responses -/

theorem orOnes_one (v : Option Nat) : orOnes 1 v = u8 (v.getD 255) := by cases v <;> rfl

theorem orOnes_two (v : Option Nat) : orOnes 2 v = u16 (v.getD 65535) := by cases v <;> rfl

/-- A field that pods alone have. -/
theorem orOnes_pod (c z : Nat) : orOnes 1 (if decide (c < 32) then some z else none) = if c < 32 then u8 z else u8 255 := by
  by_cases hc : c < 32
  · simp [hc, orOnes_one]
  · simp [hc, orOnes_one]

theorem s8_pod (c : Nat) (v : Int) : s8 (if decide (c < 32) then v else -1) = if c < 32 then s8 v else u8 255 := by
  by_cases hc : c < 32
  · simp [hc]
  · simp only [hc, decide_false, if_false]
    rfl

theorem listed_range' {first count : Nat} (f : Nat → List Byte) :
    listed f (List.range' first count) = u8 count ++ (List.range' first count).flatMap f := by
  rw [listed, List.length_range']

theorem channelRecord_eq (t : State) (c : Nat) :
    t.channelRecord c = u8 c ++ u8 (if c < 32 then 0 else if c < 40 then 1 else 2) ++ flag (t.present c)
      ++ s8 (t.chan c).trim ++ (if c < 32 then u8 (t.chan c).zone else u8 255) ++ u8 (t.chan c).groups.toNat
      ++ flag (decide (c < 32 ∧ t.floor.chair = some c)) ++ s8 (t.chan c).peak
      ++ (if c < 32 then s8 (t.chan c).noise else u8 255) ++ u8 (t.chan c).claims.bits
      ++ flag (decide (c < 32) && (t.chan c).hand) ++ u8 (t.gate c).code ++ u8 (t.chan c).ramp := by
  have hchair : (decide (c < 32) && t.floor.isChair c) = decide (c < 32 ∧ t.floor.chair = some c) := by
    simp [Floor.isChair, beq_eq_decide]
  unfold State.channelRecord
  dsimp only
  rw [orOnes_pod, s8_pod, hchair]

/-! ### Runs of channels, crosspoints and points -/

/-- Settles O11, by the record of each channel. -/
theorem channelReadReports : Obligations.ChannelReadReports := by
  intro p tag first count s hreset
  refine ⟨fun hfirst hcount hend => ?_, fun hout => ?_⟩
  · refine (takeRequest_ok hreset ((firstFail_none_iff _).mpr (by simp [okRun, hfirst, hcount, hend]))).trans ?_
    rw [listed_range', funext (channelRecord_eq (settle s))]
    rfl
  · refine takeRequest_fail hreset (firstFail_of_all (by simp) ?_)
    simp only [List.mem_cons, List.not_mem_nil, or_false, exists_eq_or_imp, exists_eq_left, okRun, decide_eq_false_iff_not]
    omega

/-- Settles O12. -/
theorem crosspointReadReports : Obligations.CrosspointReadReports := by
  intro p tag out first count s hreset
  refine ⟨fun hout hfirst hcount _ hend => ?_, fun hbad => ?_⟩
  · refine (takeRequest_ok hreset ((firstFail_none_iff _).mpr (by simp [okRun, hout, hfirst, hcount, hend]))).trans ?_
    rw [State.crosspointBody, listed_range', ← List.append_assoc]
    rfl
  · refine takeRequest_fail hreset (firstFail_of_all (by simp) ?_)
    simp only [List.mem_cons, List.not_mem_nil, or_false, exists_eq_or_imp, exists_eq_left, okRun, decide_eq_false_iff_not]
    omega

theorem meterBody_eq (t : State) (first count : Nat) :
    t.meterBody first count = u8 t.meters.window ++ u16 t.meters.stamp.toNat ++ u8 count
      ++ (List.range' first count).flatMap (fun i =>
        s8 (t.meters.points.get i).captured ++ flag (t.meters.points.get i).fresh
          ++ flag (t.meters.points.get i).overrun) := by
  rw [State.meterBody, listed_range', ← List.append_assoc]

/-- Settles O13, request by request. -/
theorem podAndMeterReadsReport : Obligations.PodAndMeterReadsReport := by
  refine ⟨fun tag l p s hreset => ⟨fun hl hp => ?_, fun hbad => ?_⟩,
    fun p tag first count s hreset => ⟨fun hfirst hcount hend => ?_, fun hbad => ?_⟩⟩
  · have hpass : firstFail [(roomOnly .room, .denied), (okPos l p, .range)] = none := by
      simp [firstFail, roomOnly, okPos, hl, hp]
    exact ⟨takeRequest_ok hreset hpass, takeRequest_ok hreset hpass⟩
  · have hfail : firstFail [(roomOnly .room, .denied), (okPos l p, .range)] = some .range := by
      have hpos : okPos l p = false := by
        rw [okPos, decide_eq_false_iff_not]
        omega
      rw [hpos]
      rfl
    exact ⟨takeRequest_fail hreset hfail, takeRequest_fail hreset hfail⟩
  · refine ⟨readPoints first count (settle s), (takeRequest_ok hreset
      ((firstFail_none_iff _).mpr (by simp [okRun, hfirst, hcount, hend]))).trans ?_, ?_, fun i hi => ?_⟩
    · rw [meterBody_eq]
    · rfl
    · rw [readPoints, Tab.get_mapIdx, if_pos hi]
  · refine takeRequest_fail hreset (firstFail_of_all (by simp) ?_)
    simp only [List.mem_cons, List.not_mem_nil, or_false, exists_eq_or_imp, exists_eq_left, okRun, decide_eq_false_iff_not]
    omega

/-! ### Status and the notices -/

theorem HoldTimer.bytes_eq (h : HoldTimer) :
    h.bytes = u16 (match h with
      | .running n => n
      | _ => 65535) := by
  cases h <;> rfl

theorem FloorEntry.warned_eq (e : FloorEntry) : e.warned = e.talk.any (fun k => k.warned) := by
  unfold FloorEntry.warned
  cases e.talk <;> rfl

theorem FloorEntry.bytes_eq (e : FloorEntry) :
    e.bytes = u8 e.ch ++ u8 e.st.code ++ u32 e.stamp.toNat
      ++ u16 (match e.hold with
        | .running n => n
        | _ => 65535)
      ++ u16 ((e.talk.map (fun k => k.secs)).getD 65535) ++ flag (e.talk.any (fun k => k.warned)) := by
  rw [FloorEntry.bytes, HoldTimer.bytes_eq, orOnes_two, FloorEntry.warned_eq]

theorem modPort_self (p : Port) (s : State) : s.modPort p (fun ps => ps) = s := by cases p <;> rfl

/-- Settles O14: Status field by field, then the two requests about notices. -/
theorem statusAndNoticesServeOnePort : Obligations.StatusAndNoticesServeOnePort := by
  refine ⟨fun p tag s hreset => ?_, fun p tag s hreset => ⟨fun n hlow hhigh => ?_, fun n hbad => ?_, fun v => ?_,
    fun v => ?_⟩⟩
  · have hexec : exec (.status p tag) s = .next (okReply p tag 1 ((settle s).statusBody p)
        ((settle s).modPort p (fun ps => { ps with loss := false }))) := takeRequest_ok hreset rfl
    rw [hexec]
    generalize settle s = t
    refine congrArg Host.Outcome.next (congrArg₂ (okReply p tag 1) ?_ rfl)
    unfold State.statusBody
    dsimp only
    simp only [listed, orOnes_one, orOnes_two, Tone.bytes, funext FloorEntry.bytes_eq, ← List.append_assoc]
    rfl
  · refine (takeRequest_ok hreset ((firstFail_none_iff _).mpr (by simp [hlow, hhigh]))).trans ?_
    rw [noticeBody, listed, List.length_drop]
  · refine takeRequest_fail hreset (firstFail_of_all (by simp) ?_)
    simp only [List.mem_cons, List.not_mem_nil, or_false, exists_eq_left, decide_eq_false_iff_not]
    omega
  · exact (takeRequest_ok hreset rfl).trans (by rw [show (fun ps : PortState => { ps with mask := noticeMaskOf ⟨0, v⟩ ps.mask }) = fun ps => ps from rfl, modPort_self])
  · refine (takeRequest_ok hreset rfl).trans ?_
    cases p <;> rfl

end Sys2Proof.Proofs
end

