-- ==== Sys2Proof/Proofs/Saying.lean ====
section
/-! PROOFS. The notices of a change, in order, and how they compose; an event as a command; the pods' counters. -/

set_option Elab.async false

namespace Sys2Proof.Proofs

open Sys2Proof Sys2Proof.Machine

/-! ### What a change says -/

/-- A change raises these notices, in this order, and does not move the block counter that stamps them. -/
def Says (s t : State) (bs : List NoticeBody) : Prop := s.raised t bs ∧ t.sys.blocks = s.sys.blocks

namespace Says

variable {s t u : State} {a b : List NoticeBody}

theorem refl (s : State) : Says s s [] := ⟨State.raised_refl s, rfl⟩

theorem trans (h1 : Says s t a) (h2 : Says t u b) : Says s u (a ++ b) :=
  ⟨State.raised_trans h1.2 h1.1 h2.1, h2.2.trans h1.2⟩

/-- A change that touches neither port says nothing. -/
theorem quiet (hroom : t.room = s.room) (hcodec : t.codec = s.codec) (hblocks : t.sys.blocks = s.sys.blocks) :
    Says s t [] := by
  refine ⟨fun p => ?_, hblocks⟩
  cases p with
  | room => exact hroom
  | codec => exact hcodec

/-- A silent change before a change. -/
theorem after (h1 : Says s t []) (h2 : Says t u b) : Says s u b := h1.trans h2

/-- A silent change after a change. -/
theorem then_ (h1 : Says s t a) (h2 : Says t u []) : Says s u a := List.append_nil a ▸ h1.trans h2

end Says

theorem says_raise (b : NoticeBody) (s : State) : Says s (raise b s) [b] := ⟨State.raised_raise s b, rfl⟩

theorem says_modFloor (f : Floor → Floor) (s : State) : Says s (s.modFloor f) [] := .quiet rfl rfl rfl

theorem says_modChan (c : Nat) (f : Channel → Channel) (s : State) : Says s (s.modChan c f) [] := .quiet rfl rfl rfl

theorem says_modLine (l : Nat) (f : Line → Line) (s : State) : Says s (s.modLine l f) [] := .quiet rfl rfl rfl

theorem says_modPos (c : Nat) (f : Position → Position) (s : State) : Says s (s.modPos c f) [] := .quiet rfl rfl rfl

/-- A run of silent changes is silent. -/
theorem says_runOver {f : Nat → State → State} (hf : ∀ n s, Says s (f n s) []) (ns : List Nat) (s : State) :
    Says s (runOver f ns s) [] :=
  runOver_keep (P := fun t => Says s t []) (fun n _ ht => ht.then_ (hf n _)) ns s (.refl s)

theorem says_placeRing (c : Nat) (pulse : Bool) (s : State) : Says s (placeRing c pulse s) [] := says_modLine ..

theorem says_refreshRing (c : Nat) (s : State) : Says s (refreshRing c s) [] := by
  unfold refreshRing
  split
  · split
    · exact .refl s
    · exact says_placeRing ..
  · exact .refl s

theorem says_refreshRings (s : State) : Says s (refreshRings s) [] := says_runOver says_refreshRing pods s

theorem says_owePulse (c : Nat) (s : State) : Says s (owePulse c s) [] := by
  unfold owePulse
  split
  · exact (says_modChan ..).then_ (says_placeRing ..)
  · exact .refl s

/-! ### The rings compared at the end of an event -/

theorem refreshRings_chan (s : State) (c : Nat) : (refreshRings s).chan c = s.chan c :=
  runOver_keep (P := fun t => t.chan c = s.chan c) (fun n t ht => by
    unfold refreshRing
    split
    · split
      · exact ht
      · exact ht
    · exact ht) pods s rfl

theorem refreshRings_floor (s : State) : (refreshRings s).floor = s.floor :=
  runOver_keep (P := fun t => t.floor = s.floor) (fun n t ht => by
    unfold refreshRing
    split
    · split
      · exact ht
      · exact ht
    · exact ht) pods s rfl

theorem refreshRings_claims (s : State) (c : Nat) : (refreshRings s).claims c = s.claims c := by
  rw [State.claims, refreshRings_chan, State.claims]

theorem refreshRings_muted (s : State) (c : Nat) : (refreshRings s).muted c = s.muted c :=
  decide_eq_decide.mpr (by rw [refreshRings_claims])

theorem refreshRings_gate (s : State) (c : Nat) : (refreshRings s).gate c = s.gate c := by
  unfold State.gate
  rw [refreshRings_chan, refreshRings_floor]

/-- Where every ring matches, none is placed. -/
theorem refreshRings_of_match {s : State} (h : s.ringsMatch) : refreshRings s = s := by
  refine runOver_keep_mem (P := fun t => t = s) pods s (fun c hc t ht => ?_) rfl
  subst ht
  unfold refreshRing
  split
  · next hp => rw [if_pos (h c (List.mem_range.mp hc) hp)]
  · rfl

/-! ### An event as a command -/

/-- An event that comes from outside or is due, and that no other must come before, is taken. -/
theorem exec_event_taken (e : Event) {i : Instr} {s : State} (hi : i.event = some e) (hreset : s.sys.inReset = none)
    (htaken : (e.external || s.isDue e) = true) (hfirst : e.forerunners s = [] := by rfl) :
    exec i s = .next (closeFrames (act e (s.undue e))) := by
  have hrun : takeEvent e s = act e (s.undue e) := by
    rw [takeEvent, if_pos htaken, hfirst, List.foldl_nil, takeOne, if_pos htaken]
  rw [exec_event hi, runEvent, if_neg (by simp [hreset]), hrun]

theorem when_of {b : Bool} (hb : b = true) (f : State → State) (s : State) : when b f s = f s := by
  rw [hb]
  rfl

/-- An event whose condition holds is taken with its effect. -/
theorem exec_event_acts (e : Event) {i : Instr} {s u : State} (hi : i.event = some e) (hreset : s.sys.inReset = none)
    (htaken : (e.external || s.isDue e) = true) (hact : act e (s.undue e) = u)
    (hfirst : e.forerunners s = [] := by rfl) : exec i s = .next (closeFrames u) := by
  rw [exec_event_taken e hi hreset htaken hfirst, hact]

theorem says_undue (e : Event) (s : State) : Says s (s.undue e) [] := .quiet rfl rfl rfl

/-! ### The counters of a pod (R7, R41, R42) -/

/-- Settles O21, counter by counter. -/
theorem channelCountersAct : Obligations.ChannelCountersAct := by
  refine fun c s hreset => ⟨fun hdue hrise => ?_, fun hdue harmed hcount => ?_, fun hdue harmed hcount => ?_⟩
  · have hcond : decide (Config.riseBlocks ≤ (s.chan c).rise) = true := decide_eq_true hrise
    refine exec_event_acts (.noiseFloorRise c) rfl hreset hdue ?_
    dsimp only [act, actNoiseFloorRise]
    exact when_of hcond _ _
  · have hcond : ((s.chan c).armed && decide (Config.mutedTalkBlocks ≤ (s.chan c).talkCount)) = true := by
      rw [harmed]
      exact decide_eq_true hcount
    refine exec_event_acts (.mutedTalk c) rfl hreset hdue ?_
    dsimp only [act, actMutedTalk]
    exact when_of hcond _ _
  · have hcond : (!(s.chan c).armed && decide (Config.rearmBlocks ≤ (s.chan c).talkCount)) = true := by
      rw [harmed]
      exact decide_eq_true hcount
    refine exec_event_acts (.mutedTalkRearm c) rfl hreset hdue ?_
    dsimp only [act, actMutedTalkRearm]
    exact when_of hcond _ _

end Sys2Proof.Proofs
end

