-- ==== Sys2Proof/Proofs/FloorSaying.lean ====
section
/-! PROOFS. The notices of the Floor Controller's operations (R20, R60, R62, R67, R68). -/

set_option Elab.async false

namespace Sys2Proof.Proofs

open Sys2Proof Sys2Proof.Machine

theorem says_floorChange (c : Nat) (b a : Gate) (k : FloorCause) (s : State) :
    Says s (floorChange c b a k s) [.floorChange c b a k s.floor.list.length s.floor.wait.length s.floor.leaving.length
      s.floor.openCount] := says_raise _ s

/-- A run of changes with one notice each. -/
theorem says_runOver_each {P : Nat → NoticeBody → Prop} {f : Nat → State → State}
    (hf : ∀ n s, ∃ b, P n b ∧ Says s (f n s) [b]) :
    ∀ (ns : List Nat) (s : State), ∃ bs, Says s (runOver f ns s) bs ∧ ∀ b ∈ bs, ∃ n ∈ ns, P n b
  | [], s => ⟨[], .refl s, by simp⟩
  | n :: ns, s => by
    obtain ⟨b, hb, hsays⟩ := hf n s
    obtain ⟨bs, hrun, hbs⟩ := says_runOver_each hf ns (f n s)
    refine ⟨b :: bs, hsays.trans hrun, fun x hx => ?_⟩
    rcases List.mem_cons.mp hx with rfl | hx
    · exact ⟨n, List.mem_cons_self .., hb⟩
    · obtain ⟨m, hm, hP⟩ := hbs x hx
      exact ⟨m, List.mem_cons_of_mem _ hm, hP⟩

/-! ### The guard timer (R62) -/

/-- The notice that a PENDING entry opens. -/
def GuardOpens (d : Nat) (b : NoticeBody) : Prop := ∃ nf nw nl n, b = .floorChange d .pending .opened .guard nf nw nl n

theorem says_openPending (s : State) :
    ∃ bs, Says s (openPending s) bs ∧ ∀ b ∈ bs, ∃ d ∈ s.floor.list.map (fun e => e.ch), GuardOpens d b := by
  obtain ⟨bs, hsays, hbs⟩ := says_runOver_each (P := GuardOpens) (f := fun c t => floorChange c .pending .opened .guard
      (t.modFloor (fun f => f.modEntry c (fun e => { e with st := .opened, talk := f.newTalk c }))))
    (fun c t => ⟨_, ⟨_, _, _, _, rfl⟩, (says_modFloor _ t).after (says_floorChange ..)⟩)
    ((s.floor.list.filter (fun e => e.st == .pending)).map (fun e => e.ch)) (s.modFloor (fun f => { f with guard := none }))
  refine ⟨bs, (says_modFloor _ s).after hsays, fun b hb => ?_⟩
  obtain ⟨d, hd, hopens⟩ := hbs b hb
  obtain ⟨e, he, rfl⟩ := List.mem_map.mp hd
  exact ⟨e.ch, List.mem_map.mpr ⟨e, (List.mem_filter.mp he).1, rfl⟩, hopens⟩

theorem says_settleGuard (s : State) :
    ∃ bs, Says s (settleGuard s) bs ∧ ∀ b ∈ bs, ∃ d ∈ s.floor.list.map (fun e => e.ch), GuardOpens d b := by
  have hquiet {t : State} (h : Says s t []) :
      ∃ bs, Says s t bs ∧ ∀ b ∈ bs, ∃ d ∈ s.floor.list.map (fun e => e.ch), GuardOpens d b := ⟨[], h, by simp⟩
  unfold settleGuard
  split
  · exact hquiet (says_modFloor ..)
  · split
    · exact hquiet (.refl s)
    · split
      · exact says_openPending s
      · exact hquiet (says_modFloor ..)

/-- The guard timer says nothing unless it would expire at once. -/
theorem settleGuard_quiet {s : State}
    (h : s.floor.cfg.guard ≠ 0 ∨ s.floor.leaving ≠ [] ∨ s.floor.hasPending = false) : Says s (settleGuard s) [] := by
  unfold settleGuard
  split
  · exact says_modFloor ..
  · next hopen =>
    split
    · exact .refl s
    · split
      · next hguard =>
        rw [Bool.not_eq_true, Bool.or_eq_false_iff, Bool.not_eq_false', Bool.not_eq_false', List.isEmpty_iff] at hopen
        rcases h with h | h | h
        · exact absurd hguard h
        · exact absurd hopen.2 h
        · exact absurd (hopen.1.symm.trans h) (by decide)
      · exact says_modFloor ..

/-! ### Service of the Wait List (R60) -/

/-- The notice that a waiting channel is admitted. -/
def Admits (d : Nat) (b : NoticeBody) : Prop := ∃ nf nw nl n, b = .floorChange d .waiting .opened .admitted nf nw nl n

theorem says_joinFloor (c : Nat) (st : EntryState) (s : State) : Says s (joinFloor c st s) [] := .quiet rfl rfl rfl

theorem says_joinWait (c : Nat) (s : State) : Says s (joinWait c s) [] := .quiet rfl rfl rfl

theorem says_admitHead {s : State} {w : WaitEntry} {ws : List WaitEntry} (h : s.floor.wait = w :: ws) :
    ∃ b, Admits w.ch b ∧ Says s (admitHead s) [b] := by
  rw [admitHead_cons h]
  exact ⟨_, ⟨_, _, _, _, rfl⟩, (says_modFloor _ s).after ((says_joinFloor ..).after (says_floorChange ..))⟩

theorem says_serve (n : Nat) (s : State) :
    ∃ bs, Says s (serve n s) bs ∧ ∀ b ∈ bs, ∃ d ∈ s.floor.wait.map (fun e => e.ch), Admits d b := by
  induction n generalizing s with
  | zero => exact ⟨[], .refl s, by simp⟩
  | succ n ih =>
    unfold serve
    split
    · next hserve =>
      cases hwait : s.floor.wait with
      | nil => simp [Floor.canServe, hwait] at hserve
      | cons w ws =>
        obtain ⟨b, hb, hsays⟩ := says_admitHead hwait
        obtain ⟨bs, hrest, hbs⟩ := ih (admitHead s)
        refine ⟨b :: bs, hsays.trans hrest, fun x hx => ?_⟩
        rcases List.mem_cons.mp hx with rfl | hx
        · exact ⟨w.ch, List.mem_cons_self .., hb⟩
        · obtain ⟨d, hd, hadmits⟩ := hbs x hx
          rw [admitHead_floor hwait] at hd
          exact ⟨d, List.mem_cons_of_mem _ hd, hadmits⟩
    · exact ⟨[], .refl s, by simp⟩

/-! ### The end of every event of the Floor Controller -/

/-- A notice of an entry that opens in place or of a channel that is admitted. -/
def OpensOrAdmits (d : Nat) (b : NoticeBody) : Prop := GuardOpens d b ∨ Admits d b

theorem says_afterFloor (s : State) :
    ∃ bs, Says s (afterFloor s) bs
      ∧ ∀ b ∈ bs, ∃ d, (s.floor.entry? d ≠ none ∨ s.floor.waiting? d ≠ none) ∧ OpensOrAdmits d b := by
  obtain ⟨opened, hguard, hopened⟩ := says_settleGuard s
  obtain ⟨admitted, hserve, hadmitted⟩ := says_serve (settleGuard s).floor.wait.length (settleGuard s)
  refine ⟨opened ++ admitted, hguard.trans hserve, fun b hb => ?_⟩
  rcases List.mem_append.mp hb with hb | hb
  · obtain ⟨d, hd, hopens⟩ := hopened b hb
    exact ⟨d, .inl (fun hnone => Floor.entry?_none.mp hnone hd), .inl hopens⟩
  · obtain ⟨d, hd, hadmits⟩ := hadmitted b hb
    rw [(settleGuard_floor s).1] at hd
    exact ⟨d, .inr (fun hnone => Floor.waiting?_none.mp hnone hd), .inr hadmits⟩

/-- What follows where the guard timer is lawful is of channels admitted alone. -/
theorem says_afterFloor_of_guarded {s : State} (h : s.floor.guarded) :
    ∃ bs, Says s (afterFloor s) bs ∧ ∀ b ∈ bs, ∃ d, s.floor.waiting? d ≠ none ∧ Admits d b := by
  rw [afterFloor_of_guarded h]
  obtain ⟨bs, hsays, hbs⟩ := says_serve s.floor.wait.length s
  refine ⟨bs, hsays, fun b hb => ?_⟩
  obtain ⟨d, hd, hadmits⟩ := hbs b hb
  exact ⟨d, fun hnone => Floor.waiting?_none.mp hnone hd, hadmits⟩

/-- Where the Leaving List holds a channel, neither guard nor service acts. -/
theorem says_afterFloor_of_leaving {s : State} (h : s.floor.leaving ≠ []) : Says s (afterFloor s) [] := by
  rw [afterFloor_leaving h]
  exact says_modFloor ..

/-! ### A channel taken off the floor (R20, R67) -/

theorem says_takeOff (c : Nat) (s : State) : Says s (takeOff c s) [] := says_modFloor ..

/-- Of a channel that stands in no list, no notice follows. -/
theorem ne_of_off {f : Floor} {c d : Nat} (hentry : f.entry? c = none) (hwaiting : f.waiting? c = none)
    (hd : f.entry? d ≠ none ∨ f.waiting? d ≠ none) : d ≠ c := by
  rintro rfl
  exact hd.elim (· hentry) (· hwaiting)

/-- The notices after a channel has left the lists. -/
theorem says_afterFloor_off {s : State} {c : Nat} (hentry : s.floor.entry? c = none)
    (hwaiting : s.floor.waiting? c = none) :
    ∃ bs, Says s (afterFloor s) bs ∧ ∀ b ∈ bs, ∃ d, d ≠ c ∧ OpensOrAdmits d b := by
  obtain ⟨bs, hsays, hbs⟩ := says_afterFloor s
  refine ⟨bs, hsays, fun b hb => ?_⟩
  obtain ⟨d, hd, hopens⟩ := hbs b hb
  exact ⟨d, ne_of_off hentry hwaiting hd, hopens⟩

theorem takeOff_entry? (c d : Nat) (s : State) :
    (takeOff c s).floor.entry? d = if d = c then none else s.floor.entry? d := Floor.entry?_dropEntry ..

/-- A member leaves the Floor List with its FLOOR_CHANGE first, what it leaves behind, and what follows. -/
theorem says_leaveList {ok there : Nat → Prop} {c : Nat} {k : FloorCause} {s : State} (h : s.floorKept ok there)
    (hc : s.floor.entry? c ≠ none) :
    ∃ served, Says s (leaveList c k s) (.floorChange c (s.gate c) .closed k (s.floor.dropEntry c).list.length
        s.floor.wait.length s.floor.leaving.length (s.floor.dropEntry c).openCount :: served)
      ∧ ∀ b ∈ served, ∃ d, d ≠ c ∧ OpensOrAdmits d b := by
  have hentry : (takeOff c s).floor.entry? c = none := by rw [takeOff_entry?, if_pos rfl]
  obtain ⟨served, hsays, hserved⟩ := says_afterFloor_off (s := floorChange c (s.gate c) .closed k (takeOff c s))
    hentry (h.only_list hc).1
  exact ⟨served, ((says_takeOff c s).after (says_floorChange c (s.gate c) .closed k (takeOff c s))).trans hsays, hserved⟩

theorem says_leaveWait {ok there : Nat → Prop} {c : Nat} {k : FloorCause} {s : State} (h : s.floorKept ok there)
    (hc : s.floor.waiting? c ≠ none) :
    ∃ served, Says s (leaveWait c k s) (.floorChange c .waiting .closed k s.floor.list.length
        (s.floor.dropWait c).wait.length s.floor.leaving.length s.floor.openCount :: served)
      ∧ ∀ b ∈ served, ∃ d, d ≠ c ∧ OpensOrAdmits d b := by
  have hwaiting : (s.modFloor (fun f => f.dropWait c)).floor.waiting? c = none :=
    (Floor.waiting?_dropWait ..).trans (if_pos rfl)
  obtain ⟨served, hsays, hserved⟩ := says_afterFloor_off
    (s := floorChange c .waiting .closed k (s.modFloor (fun f => f.dropWait c))) (h.only_wait hc).1 hwaiting
  exact ⟨served, ((says_modFloor _ s).after (says_floorChange c .waiting .closed k
    (s.modFloor (fun f => f.dropWait c)))).trans hsays, hserved⟩

theorem OpensOrAdmits.spelled {d : Nat} {b : NoticeBody} (h : OpensOrAdmits d b) :
    ∃ g k nf nw nl n, (k = .guard ∨ k = .admitted) ∧ b = .floorChange d g .opened k nf nw nl n := by
  rcases h with ⟨nf, nw, nl, n, rfl⟩ | ⟨nf, nw, nl, n, rfl⟩
  · exact ⟨_, _, nf, nw, nl, n, .inl rfl, rfl⟩
  · exact ⟨_, _, nf, nw, nl, n, .inr rfl, rfl⟩

theorem offFloor_served {c : Nat} {served : List NoticeBody} (h : ∀ b ∈ served, ∃ d, d ≠ c ∧ OpensOrAdmits d b) :
    ∀ b ∈ served, ∃ d g k nf nw nl n, d ≠ c ∧ (k = .guard ∨ k = .admitted)
      ∧ b = .floorChange d g .opened k nf nw nl n := by
  intro b hb
  obtain ⟨d, hd, hopens⟩ := h b hb
  obtain ⟨g, k, nf, nw, nl, n, hk, rfl⟩ := hopens.spelled
  exact ⟨d, g, k, nf, nw, nl, n, hd, hk, rfl⟩

theorem says_removeFromFloor {ok there : Nat → Prop} {c : Nat} {k : FloorCause} {s : State} (h : s.floorKept ok there) :
    ∃ bs, Says s (removeFromFloor c k s) bs ∧ s.offFloor c k bs := by
  have hcleared := State.floorKept.noAttack h c
  unfold removeFromFloor
  dsimp only
  split
  · next hentry =>
    have hmember : s.floor.entry? c ≠ none := Option.isSome_iff_ne_none.mp hentry
    obtain ⟨served, hsays, hserved⟩ := says_leaveList (k := k) hcleared (c := c) hmember
    refine ⟨_, (says_modChan ..).after hsays, [_], served, rfl, ?_, offFloor_served hserved⟩
    rw [if_neg (fun hoff => hmember hoff.1)]
    exact ⟨_, _, _, _, _, rfl⟩
  · next hentry =>
    have hnone : s.floor.entry? c = none := Option.not_isSome_iff_eq_none.mp hentry
    split
    · next hwaits =>
      have hwaiting : s.floor.waiting? c ≠ none := Option.isSome_iff_ne_none.mp hwaits
      obtain ⟨served, hsays, hserved⟩ := says_leaveWait (k := k) hcleared (c := c) hwaiting
      refine ⟨_, (says_modChan ..).after hsays, [_], served, rfl, ?_, offFloor_served hserved⟩
      rw [if_neg (fun hoff => hwaiting hoff.2)]
      exact ⟨_, _, _, _, _, rfl⟩
    · next hwaits =>
      have hnowait : s.floor.waiting? c = none := Option.not_isSome_iff_eq_none.mp hwaits
      split
      · obtain ⟨served, hsays, hserved⟩ := says_afterFloor_off (c := c)
          (s := (s.modChan c (fun k => { k with attack := 0 })).modFloor (fun f => f.dropLeaving c)) hnone hnowait
        refine ⟨served, ((says_modChan c _ s).then_ (says_modFloor _ _)).after hsays, [], served, rfl, ?_,
          offFloor_served hserved⟩
        rw [if_pos ⟨hnone, hnowait⟩]
      · refine ⟨[], says_modChan .., [], [], rfl, ?_, by simp⟩
        rw [if_pos ⟨hnone, hnowait⟩]

end Sys2Proof.Proofs
end

