-- ==== Sys2Proof/Proofs/ClaimMoves.lean ====
section
/-! PROOFS. The claim-change path channel by channel (R19 to R21), and the requests and presses that use it (chapter 2). -/

set_option Elab.async false

namespace Sys2Proof.Proofs

open Sys2Proof Sys2Proof.Machine

/-! ### One change of a claim set -/

theorem claims_of_changes {ps : List Part} {s t : State} (h : s.changes ps t) (c : Nat)
    (hps : Part.claims ∉ ps := by decide) : t.claims c = s.claims c := h.1 .claims hps c

theorem hand_of_changes {ps : List Part} {s t : State} (h : s.changes ps t) (c : Nat)
    (hps : Part.hands ∉ ps := by decide) : (t.chan c).hand = (s.chan c).hand := h.1 .hands hps c

theorem lowerHand_hand (c d : Nat) (k : HandCause) (s : State) :
    ((lowerHand c k s).chan d).hand = ((s.chan d).hand && !decide (d = c)) := by
  unfold lowerHand noteHandLower
  split
  · next hup =>
    rw [State.chan_raise, State.chan_modChan]
    by_cases hd : d = c
    · subst hd
      by_cases hc : d < 42
      · simp [hc]
      · have hdown : (s.chan d).hand = false := by rw [State.chan, Tab.get_of_ge _ (by omega)]; rfl
        simp [hdown] at hup
    · simp [hd]
  · next hdown =>
    by_cases hd : d = c
    · subst hd
      simp [hdown]
    · simp [hd]

theorem says_lowerHand (c : Nat) (k : HandCause) (s : State) :
    Says s (lowerHand c k s) (if (s.chan c).hand then [.handLower c (s.claims c) k] else []) := by
  unfold lowerHand
  split
  · have hclaims : (s.modChan c (fun k => { k with hand := false })).claims c = s.claims c := by
      rw [State.claims, State.chan_modChan, State.claims]
      split <;> rfl
    refine (says_modChan c (fun k => { k with hand := false }) s).after ?_
    rw [noteHandLower, hclaims]
    exact says_raise ..
  · exact .refl s

theorem claimed_hand (c d : Nat) (new : ClaimSet) (s : State) :
    ((claimed c new s).chan d).hand = (s.chan d).hand := (withClaims_changes c new s).1 .hands (by decide) d

theorem says_claimNoted (c : Nat) (new : ClaimSet) (note : Option Origin) (s : State) :
    Says s (claimNoted c new note s)
      (note.toList.map (fun o => .claimChange c new (new.less (s.claims c)) ((s.claims c).less new) o)) := by
  cases note with
  | some o => exact (says_modChan ..).after (says_raise ..)
  | none => exact says_modChan ..

theorem claimNoted_claims (c d : Nat) (new : ClaimSet) (note : Option Origin) (s : State) :
    (claimNoted c new note s).claims d = (claimed c new s).claims d :=
  claims_of_changes (claimNoted_changes c new note s) d

theorem claimNoted_hand (c d : Nat) (new : ClaimSet) (note : Option Origin) (s : State) :
    ((claimNoted c new note s).chan d).hand = (s.chan d).hand :=
  (hand_of_changes (claimNoted_changes c new note s) d).trans (claimed_hand c d new s)

theorem changeClaims_claims {c : Nat} (hc : c < 42) (new : ClaimSet) (note : Option Origin) (s : State) (d : Nat) :
    (changeClaims c new note s).claims d = if d = c then new else s.claims d := by
  have hnoted : (claimNoted c new note s).claims d = if d = c then new else s.claims d := by
    rw [claimNoted_claims]
    split
    · next hd => rw [hd, claimed_claims_self new s hc]
    · next hd => rw [claimed_claims_ne new s hd]
  rw [changeClaims_eq]
  split
  · next hnew =>
    split
    · next hd => rw [hd, hnew]
    · rfl
  · split
    · split
      · rw [claims_of_changes (removeFromFloor_changes ..), hnoted]
      · exact hnoted
    · split
      · rw [claims_of_changes (lowerHand_changes ..), hnoted]
      · exact hnoted

/-- A hand is lowered where its channel becomes unmuted (R21), and nowhere else. -/
theorem changeClaims_hand (c : Nat) (new : ClaimSet) (note : Option Origin) (s : State) (d : Nat) :
    ((changeClaims c new note s).chan d).hand
      = ((s.chan d).hand && !(decide (d = c) && s.muted c && decide (new = ClaimSet.empty))) := by
  have hnoted := claimNoted_hand c d new note s
  have hmuted : s.muted c = !decide (s.claims c = ClaimSet.empty) := by simp [State.muted]
  rw [changeClaims_eq, hmuted]
  split
  · next hnew =>
    by_cases hempty : s.claims c = ClaimSet.empty <;> simp [hnew, hempty]
  · split
    · next hold =>
      have hkeep : ((s.chan d).hand && !(decide (d = c) && !decide (s.claims c = ClaimSet.empty)
          && decide (new = ClaimSet.empty))) = (s.chan d).hand := by simp [hold]
      rw [hkeep]
      split
      · rw [hand_of_changes (removeFromFloor_changes ..), hnoted]
      · exact hnoted
    · next hold =>
      split
      · next hempty =>
        rw [lowerHand_hand, hnoted]
        simp [hold, hempty]
      · next hempty =>
        rw [hnoted]
        simp [hempty]

/-- The notices of a claim change: CLAIM_CHANGE first, then the floor's or the hand's (R19, R20, R21). -/
theorem says_changeClaims {c : Nat} {new : ClaimSet} {o : Origin} {s : State} (h : s.floorLawful) (hc : c < 42)
    (hne : new ≠ s.claims c) :
    ∃ rest, Says s (changeClaims c new (some o) s)
        (.claimChange c new (new.less (s.claims c)) ((s.claims c).less new) o :: rest)
      ∧ s.claimMoved c (s.claims c) new rest := by
  have hnoted := says_claimNoted c new (some o) s
  rw [changeClaims_eq, if_neg hne]
  by_cases hold : s.claims c = ClaimSet.empty
  · rw [if_pos hold]
    by_cases hpod : c < 32
    · rw [if_pos hpod]
      have hquiet := claimNoted_changes c new (some o) s
      obtain ⟨hlist, hwait, hleaving, -⟩ := hquiet.1 .floor (by decide)
      have hcfg : (claimNoted c new (some o) s).floor.cfg = s.floor.cfg := hquiet.1 .cfg (by decide)
      have hkept : (claimNoted c new (some o) s).floorKept (mayStand s) (isThere s) :=
        State.floorKept.same (claimed_kept (floorKept_of_lawful h)) (by rw [hlist]) (by rw [hwait]) (by rw [hleaving])
          (congrArg FloorCfg.maxOpen hcfg) (fun d => hquiet.1 .attack (by decide) d)
      obtain ⟨rest, hsays, hoff⟩ := says_removeFromFloor (c := c) (k := .muted) hkept
      refine ⟨rest, hnoted.trans hsays, fun _ => ?_, fun hne => absurd hold hne⟩
      rw [if_pos hpod]
      exact hoff
    · rw [if_neg hpod]
      exact ⟨[], hnoted, fun _ => by rw [if_neg hpod], fun hne => absurd hold hne⟩
  · rw [if_neg hold]
    have hhand : ((claimNoted c new (some o) s).chan c).hand = (s.chan c).hand := claimNoted_hand ..
    have hclaims : (claimNoted c new (some o) s).claims c = new := by
      rw [claimNoted_claims, claimed_claims_self new s hc]
    by_cases hempty : new = ClaimSet.empty
    · rw [if_pos hempty]
      have hlower := says_lowerHand c .cleared (claimNoted c new (some o) s)
      rw [hhand, hclaims] at hlower
      exact ⟨_, hnoted.trans hlower, fun hnil => absurd hnil hold, fun _ => by simp [hempty]⟩
    · rw [if_neg hempty]
      exact ⟨[], hnoted, fun hnil => absurd hnil hold, fun _ => by simp [hempty]⟩

/-! ### A run of claim changes (R22) -/

/-- One step of a run: the claim set of a channel goes by a function of the channel. -/
def claimStep (g : Nat → ClaimSet → ClaimSet) (note : Option Origin) (c : Nat) (s : State) : State :=
  changeClaims c (g c (s.claims c)) note s

theorem putClaim_eq (a : Authority) (b : Bool) (note : Option Origin) :
    putClaim a b note = claimStep (fun _ k => k.put a b) note := rfl

theorem clearChannel_eq : clearChannel = claimStep (fun _ k => k.onlyPrivacy) (some .roomPort) := rfl

theorem muted_eq (s : State) (c : Nat) : s.muted c = !decide (s.claims c = ClaimSet.empty) := by simp [State.muted]

/-- In a run over distinct channels each channel's claims move once; its hand is lowered where it becomes unmuted. -/
theorem runOver_claimStep (g : Nat → ClaimSet → ClaimSet) (note : Option Origin) :
    ∀ (ns : List Nat) (s : State), ns.Nodup → (∀ n ∈ ns, n < 42) → ∀ d,
      (runOver (claimStep g note) ns s).claims d = (if d ∈ ns then g d (s.claims d) else s.claims d)
        ∧ ((runOver (claimStep g note) ns s).chan d).hand
          = ((s.chan d).hand && !(s.muted d && !(runOver (claimStep g note) ns s).muted d))
  | [], s, _, _, d => by
    refine ⟨by simp [runOver], ?_⟩
    show (s.chan d).hand = ((s.chan d).hand && !(s.muted d && !s.muted d))
    simp
  | n :: ns, s, hnodup, hns, d => by
    obtain ⟨hn, hnodup⟩ := List.nodup_cons.mp hnodup
    have hn42 := hns n (List.mem_cons_self ..)
    obtain ⟨hclaims, hhand⟩ := runOver_claimStep g note ns (claimStep g note n s) hnodup
      (fun m hm => hns m (List.mem_cons_of_mem _ hm)) d
    have hstep : (claimStep g note n s).claims d = if d = n then g n (s.claims n) else s.claims d :=
      changeClaims_claims hn42 _ note s d
    have hstephand : ((claimStep g note n s).chan d).hand
        = ((s.chan d).hand && !(decide (d = n) && s.muted n && decide (g n (s.claims n) = ClaimSet.empty))) :=
      changeClaims_hand n _ note s d
    rw [show runOver (claimStep g note) (n :: ns) s = runOver (claimStep g note) ns (claimStep g note n s) from rfl]
    by_cases hd : d = n
    · subst hd
      rw [if_pos rfl] at hstep
      rw [if_neg hn, hstep] at hclaims
      refine ⟨by rw [hclaims, if_pos (List.mem_cons_self ..)], ?_⟩
      have hmuted : (runOver (claimStep g note) ns (claimStep g note d s)).muted d
          = (claimStep g note d s).muted d := by rw [muted_eq, muted_eq, hclaims, hstep]
      rw [hhand, hmuted, hstephand, muted_eq (claimStep g note d s), hstep]
      cases s.muted d <;> simp
    · rw [if_neg hd] at hstep
      rw [hstep] at hclaims
      refine ⟨by rw [hclaims]; simp [hd], ?_⟩
      have hmuted : (claimStep g note n s).muted d = s.muted d := by rw [muted_eq, muted_eq, hstep]
      rw [hhand, hmuted, hstephand]
      simp [hd]

/-! ### Requests -/

theorem named_group (s : State) (g : Nat) :
    s.named 1 g = (List.range 42).filter (fun c => (s.chan c).groups.getLsbD g) := rfl

theorem named_nodup (s : State) (sel num : Nat) : (s.named sel num).Nodup := by
  unfold State.named
  split
  · simp
  · split
    · exact List.nodup_range.filter _
    · exact List.nodup_range

theorem named_lt {s : State} {sel num : Nat} (h : sel = 0 → num < 42) : ∀ c ∈ s.named sel num, c < 42 := by
  intro c hc
  unfold State.named at hc
  split at hc
  · next hsel => rw [List.mem_singleton.mp hc]; exact h hsel
  · split at hc
    · exact List.mem_range.mp (List.mem_of_mem_filter hc)
    · exact List.mem_range.mp hc

theorem put_put (k : ClaimSet) (a : Authority) (b : Bool) : (k.put a b).put a b = k.put a b := by cases a <;> rfl

/-- A member of the floor laws: a pod that has become muted is off the floor (R20). -/
theorem offFloor_of_muted {u : State} (h : u.floorLawful) {c : Nat} (hc : c < 32) (hm : u.muted c = true) :
    u.floor.entry? c = none ∧ u.floor.waiting? c = none ∧ (u.chan c).attack = 0 := h.2.2.2.1 c hc hm

/-- The claims and hands after a run of claim changes and the comparison of the rings. -/
theorem claimRun_claims {g : Nat → ClaimSet → ClaimSet} {note : Option Origin} {ns : List Nat} {t : State}
    (hnodup : ns.Nodup) (hns : ∀ n ∈ ns, n < 42) (d : Nat) :
    (refreshRings (runOver (claimStep g note) ns t)).claims d = if d ∈ ns then g d (t.claims d) else t.claims d := by
  rw [refreshRings_claims]
  exact (runOver_claimStep g note ns t hnodup hns d).1

theorem claimRun_hand {g : Nat → ClaimSet → ClaimSet} {note : Option Origin} {ns : List Nat} {t : State}
    (hnodup : ns.Nodup) (hns : ∀ n ∈ ns, n < 42) (d : Nat) :
    ((refreshRings (runOver (claimStep g note) ns t)).chan d).hand
      = ((t.chan d).hand && !(t.muted d && !(refreshRings (runOver (claimStep g note) ns t)).muted d)) := by
  rw [refreshRings_chan, refreshRings_muted]
  exact (runOver_claimStep g note ns t hnodup hns d).2

theorem claimRun_eq (a : Authority) (b : Bool) (o : Origin) (sel num : Nat) (t : State) :
    claimRun a b o sel num t
      = refreshRings (runOver (claimStep (fun _ k => k.put a b) (some o)) (t.named sel num) t) := rfl

/-- What a claim request leaves, by the authority and the origin of its port (R24, R25). -/
theorem claimRun_moves {a : Authority} {b : Bool} {o : Origin} {sel num : Nat} {t : State} (hnum : sel = 0 → num < 42) :
    (∀ c, (claimRun a b o sel num t).claims c = if c ∈ t.named sel num then (t.claims c).put a b else t.claims c)
      ∧ (t.floorLawful → ∀ c, c < 32 → t.muted c = false → (claimRun a b o sel num t).muted c = true →
        (claimRun a b o sel num t).floor.entry? c = none ∧ (claimRun a b o sel num t).floor.waiting? c = none
          ∧ ((claimRun a b o sel num t).chan c).attack = 0)
      ∧ (∀ c, ((claimRun a b o sel num t).chan c).hand
          = ((t.chan c).hand && !(t.muted c && !(claimRun a b o sel num t).muted c)))
      ∧ (sel = 0 →
        ((t.claims num).put a b = t.claims num → t.raised (claimRun a b o sel num t) [])
        ∧ ((t.claims num).put a b ≠ t.claims num → t.floorLawful → ∃ rest, t.raised (claimRun a b o sel num t)
            (.claimChange num ((t.claims num).put a b) (((t.claims num).put a b).less (t.claims num))
              ((t.claims num).less ((t.claims num).put a b)) o :: rest)
          ∧ t.claimMoved num (t.claims num) ((t.claims num).put a b) rest))
      ∧ t.changes (.tables :: claimParts) (claimRun a b o sel num t) := by
  refine ⟨fun c => ?claims, fun hlaw c hc _ hm => offFloor_of_muted (floorLawful_claimRun hlaw) hc hm, fun c => ?hand,
    fun hsel => ?_, claimRun_changes ..⟩
  case claims =>
    rw [claimRun_eq, claimRun_claims (named_nodup ..) (named_lt hnum)]
  case hand =>
    rw [claimRun_eq, claimRun_hand (named_nodup ..) (named_lt hnum)]
  subst hsel
  have hone : claimRun a b o 0 num t = refreshRings (changeClaims num ((t.claims num).put a b) (some o) t) := rfl
  refine ⟨fun hsame => ?_, fun hmoves hlaw => ?_⟩
  · have hnone : changeClaims num ((t.claims num).put a b) (some o) t = t := by rw [changeClaims_eq, if_pos hsame]
    rw [hone, hnone]
    exact (says_refreshRings t).1
  · obtain ⟨rest, hsays, hmoved⟩ := says_changeClaims (o := o) hlaw (hnum rfl) hmoves
    exact ⟨rest, (hsays.then_ (says_refreshRings _)).1, hmoved⟩

end Sys2Proof.Proofs
end

