-- ==== Sys2Proof/Proofs/ClaimSettles.lean ====
section
/-! PROOFS. The statements about claims and hands (R22 to R33). -/

set_option Elab.async false

namespace Sys2Proof.Proofs

open Sys2Proof Sys2Proof.Machine

/-! ### ClaimSet and ClaimRelease -/

theorem claimChecks_pass {p : Port} {sel num fl : Nat} (hfl : fl ≤ 1) (hp : p = .codec → fl = 0)
    (hsel : sel = 0 ∧ num < 42 ∨ sel = 1 ∧ num < 8) : firstFail (claimChecks p sel num fl) = none := by
  have hright : claimRight p fl = true := by
    cases p with
    | room => rfl
    | codec => simp [claimRight, hp rfl]
  have htarget : okTarget 42 sel num = true := by
    rcases hsel with ⟨rfl, hnum⟩ | ⟨rfl, hnum⟩ <;> simp [okTarget, hnum]
  have hle : sel ≤ 1 := by omega
  simp [claimChecks, firstFail, hright, htarget, okFlag, hfl, hle]

theorem authorityOf_eq (p : Port) (fl : Nat) :
    authorityOf p fl = match p with
      | .codec => .far
      | .room => if fl = 0 then .room else .chair := by
  cases p <;> rfl

theorem originOf_eq (p : Port) :
    originOf p = match p with
      | .room => .roomPort
      | .codec => .codecPort := by
  cases p <;> rfl

theorem named_of_target {t : State} {sel num : Nat} (hsel : sel = 0 ∧ num < 42 ∨ sel = 1 ∧ num < 8) :
    t.named sel num = if sel = 0 then [num] else (List.range 42).filter (fun c => (t.chan c).groups.getLsbD num) := by
  rcases hsel with ⟨rfl, -⟩ | ⟨rfl, -⟩ <;> rfl

/-! ### MUTE presses -/

theorem shortPress_unmuted {c : Nat} {s : State} (h : s.muted c = false) :
    shortPress c s = changeClaims c { ClaimSet.empty with pod := true } (some .podButton) s := by
  have hempty := (muted_eq_false_iff s c).mp h
  unfold shortPress
  dsimp only
  rw [if_pos hempty, putClaim, hempty]
  rfl

theorem shortPress_pod {c : Nat} {s : State} (h : (s.claims c).pod = true) :
    shortPress c s = changeClaims c { s.claims c with pod := false } (some .podButton) s := by
  have hne : s.claims c ≠ ClaimSet.empty := fun hempty => by rw [hempty] at h; cases h
  unfold shortPress
  dsimp only
  rw [if_neg hne, if_pos h]
  rfl

theorem shortPress_other {c : Nat} {s : State} (hm : s.muted c = true) (h : (s.claims c).pod = false) :
    shortPress c s = if (s.chan c).hand then lowerHand c .withdrawn s else raiseHand c s := by
  have hne : s.claims c ≠ ClaimSet.empty := of_decide_eq_true hm
  unfold shortPress
  dsimp only
  rw [if_neg hne, h]
  rfl

theorem raiseHand_hand {c : Nat} (hc : c < 42) (d : Nat) (s : State) :
    ((raiseHand c s).chan d).hand = ((s.chan d).hand || decide (d = c)) := by
  unfold raiseHand
  rw [State.chan_raise, State.chan_modChan]
  by_cases hd : d = c
  · subst hd
    simp [hc]
  · simp [hd]

theorem says_raiseHand (c : Nat) (s : State) : Says s (raiseHand c s) [.handRaise c (s.claims c)] :=
  (says_modChan ..).after (says_raise ..)

theorem raiseHand_claims (c d : Nat) (s : State) : (raiseHand c s).claims d = s.claims d :=
  claims_of_changes (raiseHand_changes c s) d

theorem lowerHand_claims (c d : Nat) (k : HandCause) (s : State) : (lowerHand c k s).claims d = s.claims d :=
  claims_of_changes (lowerHand_changes c k s) d

theorem withPod_ne {k : ClaimSet} (h : k.pod = true) : { k with pod := false } ≠ k := by
  intro heq
  rw [← heq] at h
  cases h

/-- What a short MUTE press leaves of the claims and hands of all channels (R31). -/
theorem shortPress_other_channels {c : Nat} (hc : c < 42) (s : State) {d : Nat} (hd : d ≠ c) :
    (shortPress c s).claims d = s.claims d ∧ ((shortPress c s).chan d).hand = (s.chan d).hand := by
  by_cases hm : s.muted c = false
  · rw [shortPress_unmuted hm, changeClaims_claims hc, changeClaims_hand, if_neg hd]
    simp [hd]
  · by_cases hpod : (s.claims c).pod = true
    · rw [shortPress_pod hpod, changeClaims_claims hc, changeClaims_hand, if_neg hd]
      simp [hd]
    · rw [shortPress_other (by simpa using hm) (by simpa using hpod)]
      split
      · rw [lowerHand_claims, lowerHand_hand]
        simp [hd]
      · rw [raiseHand_claims, raiseHand_hand hc]
        simp [hd]

/-- What a press that moves a claim says (R19, R31). -/
theorem says_pressed {c : Nat} {new : ClaimSet} {s u : State} (hlaw : s.floorLawful) (hc : c < 42)
    (hne : new ≠ s.claims c) (hu : u = refreshRings (changeClaims c new (some .podButton) s)) :
    ∃ rest, s.raised u
        (.claimChange c (u.claims c) ((u.claims c).less (s.claims c)) ((s.claims c).less (u.claims c)) .podButton :: rest)
      ∧ s.claimMoved c (s.claims c) (u.claims c) rest := by
  have hclaims : u.claims c = new := by rw [hu, refreshRings_claims, changeClaims_claims hc, if_pos rfl]
  obtain ⟨rest, hsays, hmoved⟩ := says_changeClaims (o := .podButton) hlaw hc hne
  rw [hclaims]
  exact ⟨rest, hu ▸ (hsays.then_ (says_refreshRings _)).1, hmoved⟩

/-- A pressed pod that was not muted, or that holds a POD claim (rows 1 and 2 of R31). -/
theorem pressed_moves {c : Nat} {s : State} (h : s.muted c = false ∨ (s.claims c).pod = true) :
    ∃ new, new ≠ s.claims c ∧ shortPress c s = changeClaims c new (some .podButton) s := by
  by_cases hm : s.muted c = false
  · refine ⟨_, fun heq => ?_, shortPress_unmuted hm⟩
    rw [(muted_eq_false_iff s c).mp hm] at heq
    cases heq
  · have hpod := h.resolve_left hm
    exact ⟨_, withPod_ne hpod, shortPress_pod hpod⟩

theorem claims_ne_of_muted {s : State} {c : Nat} (h : s.muted c = true) : s.claims c ≠ ClaimSet.empty := of_decide_eq_true h

theorem muted_of_pod {s : State} {c : Nat} (h : (s.claims c).pod = true) : s.muted c = true := by
  refine decide_eq_true (fun hempty => ?_)
  rw [hempty] at h
  cases h

/-- The rows of R31, and the other channels. -/
theorem shortPress_rows {c : Nat} (hc : c < 32) {s u : State} (hu : u = refreshRings (shortPress c s)) :
    (s.muted c = false → u.claims c = { ClaimSet.empty with pod := true } ∧ (u.chan c).hand = (s.chan c).hand
        ∧ (s.floorLawful → u.floor.entry? c = none ∧ u.floor.waiting? c = none ∧ (u.chan c).attack = 0))
      ∧ ((s.claims c).pod = true → u.claims c = { s.claims c with pod := false }
        ∧ (u.chan c).hand = ((s.chan c).hand && u.muted c))
      ∧ (s.muted c = false ∨ (s.claims c).pod = true → s.floorLawful → ∃ rest, s.raised u
          (.claimChange c (u.claims c) ((u.claims c).less (s.claims c)) ((s.claims c).less (u.claims c)) .podButton
            :: rest)
        ∧ s.claimMoved c (s.claims c) (u.claims c) rest)
      ∧ (s.muted c = true → (s.claims c).pod = false → u.claims c = s.claims c ∧ (u.chan c).hand = !(s.chan c).hand
        ∧ s.raised u [if (s.chan c).hand then .handLower c (s.claims c) .withdrawn else .handRaise c (s.claims c)])
      ∧ (∀ d, d ≠ c → u.claims d = s.claims d ∧ (u.chan d).hand = (s.chan d).hand)
      ∧ s.changes (.tables :: claimParts) u := by
  have hc42 : c < 42 := by omega
  have hclaims (d : Nat) : u.claims d = (shortPress c s).claims d := by rw [hu, refreshRings_claims]
  have hhand (d : Nat) : (u.chan d).hand = ((shortPress c s).chan d).hand := by rw [hu, refreshRings_chan]
  refine ⟨fun hm => ?unmuted, fun hpod => ?pod, fun hmoves hlaw => ?notices, fun hm hpod => ?other, fun d hd => ?others,
    hu ▸ (shortPress_changes c s).comp (refreshRings_changes _)⟩
  case unmuted =>
    have hnew : u.claims c = { ClaimSet.empty with pod := true } := by
      rw [hclaims, shortPress_unmuted hm, changeClaims_claims hc42, if_pos rfl]
    refine ⟨hnew, ?_, fun hlaw => offFloor_of_muted ?_ hc ?_⟩
    · rw [hhand, shortPress_unmuted hm, changeClaims_hand, hm]
      simp
    · exact hu ▸ floorLawful_refreshRings (floorLawful_shortPress hlaw)
    · exact muted_of_pod (by rw [hnew])
  case pod =>
    have hnew : u.claims c = { s.claims c with pod := false } := by
      rw [hclaims, shortPress_pod hpod, changeClaims_claims hc42, if_pos rfl]
    refine ⟨hnew, ?_⟩
    rw [hhand, shortPress_pod hpod, changeClaims_hand, muted_of_pod hpod, muted_eq u, hnew]
    simp
  case notices =>
    obtain ⟨new, hne, hpress⟩ := pressed_moves hmoves
    exact says_pressed hlaw hc42 hne (by rw [hu, hpress])
  case other =>
    have hpress := shortPress_other hm hpod
    by_cases hup : (s.chan c).hand = true
    · rw [if_pos hup] at hpress
      refine ⟨by rw [hclaims, hpress, lowerHand_claims], by rw [hhand, hpress, lowerHand_hand, hup]; simp, ?_⟩
      have hsays := says_lowerHand c .withdrawn s
      rw [if_pos hup] at hsays
      rw [if_pos hup, hu, hpress]
      exact (hsays.then_ (says_refreshRings _)).1
    · rw [if_neg hup] at hpress
      refine ⟨by rw [hclaims, hpress, raiseHand_claims], by rw [hhand, hpress, raiseHand_hand hc42]; simp [hup], ?_⟩
      rw [if_neg hup, hu, hpress]
      exact ((says_raiseHand c s).then_ (says_refreshRings _)).1
  case others =>
    rw [hclaims, hhand]
    exact shortPress_other_channels hc42 s hd

theorem put_chair_ne (k : ClaimSet) : k.put .chair true ≠ ClaimSet.empty := by
  intro heq
  have hchair := congrArg ClaimSet.chair heq
  cases hchair

/-- The chair's long press, channel by channel (R33). -/
theorem chairPress_rows {c : Nat} {s u : State} (hu : u = refreshRings (chairPress c s)) :
    (∀ d, d < 32 → d ≠ c → u.claims d = { s.claims d with chair := true }
        ∧ (s.floorLawful → s.muted d = false →
          u.floor.entry? d = none ∧ u.floor.waiting? d = none ∧ (u.chan d).attack = 0))
      ∧ (∀ d, d = c ∨ 32 ≤ d → u.claims d = s.claims d)
      ∧ (∀ d, (u.chan d).hand = (s.chan d).hand)
      ∧ s.changes (.tables :: claimParts) u := by
  have hpress : chairPress c s = runOver (claimStep (fun _ k => k.put .chair true) (some .chairPress))
      (pods.filter (fun d => d != c)) s := rfl
  have hmem (d : Nat) : d ∈ pods.filter (fun d => d != c) ↔ d < 32 ∧ d ≠ c := by simp
  have hnodup : (pods.filter (fun d => d != c)).Nodup := List.nodup_range.filter _
  have hlt : ∀ n ∈ pods.filter (fun d => d != c), n < 42 := fun n hn => by
    have := ((hmem n).mp hn).1
    omega
  have hclaims (d : Nat) : u.claims d = if d < 32 ∧ d ≠ c then (s.claims d).put .chair true else s.claims d := by
    rw [hu, hpress, claimRun_claims hnodup hlt]
    simp only [hmem]
  have hmuted (d : Nat) (hd : s.muted d = true) : u.muted d = true := by
    refine decide_eq_true (fun hempty => ?_)
    rw [hclaims] at hempty
    split at hempty
    · exact put_chair_ne _ hempty
    · exact claims_ne_of_muted hd hempty
  refine ⟨fun d hd hdc => ⟨by rw [hclaims, if_pos ⟨hd, hdc⟩]; rfl, fun hlaw _ => offFloor_of_muted ?_ hd ?_⟩,
    fun d hd => by rw [hclaims, if_neg (by omega)], fun d => ?_,
    hu ▸ (chairPress_changes c s).comp (refreshRings_changes _)⟩
  · exact hu ▸ floorLawful_refreshRings (floorLawful_runOver (fun _ _ ht => floorLawful_putClaim ht) _ hlaw)
  · refine decide_eq_true (fun hempty => ?_)
    rw [hclaims, if_pos ⟨hd, hdc⟩] at hempty
    exact put_chair_ne _ hempty
  · have hhand := claimRun_hand (g := fun _ k => k.put .chair true) (note := some .chairPress) (t := s) hnodup hlt d
    rw [← hpress, ← hu] at hhand
    rw [hhand]
    cases hd : s.muted d
    · simp
    · simp [hmuted d hd]

/-- Settles O17: the two requests by the run of claim changes, the short press by its four rows, the chair's press by the
run over the other pods. -/
theorem claimsMoveByRequestAndPress : Obligations.ClaimsMoveByRequestAndPress := by
  refine ⟨?requests, ?short, ?long⟩
  case requests =>
    intro p tag sel num fl s hreset t a named hfl hp hsel b
    have ha : authorityOf p fl = a := authorityOf_eq p fl
    have hnamed : t.named sel num = named := named_of_target hsel
    have hmoves := claimRun_moves (a := a) (b := b) (o := originOf p) (t := t) (show sel = 0 → num < 42 by omega)
    rw [hnamed, originOf_eq] at hmoves
    refine ⟨claimRun a b _ sel num t, ?_, hmoves⟩
    rw [← ha, ← originOf_eq]
    cases b
    · exact takeRequest_ok hreset (claimChecks_pass hfl hp hsel)
    · exact takeRequest_ok hreset (claimChecks_pass hfl hp hsel)
  case short =>
    intro c s hreset hc hpresent
    obtain ⟨hunmuted, hpod, hnotices, hother, hothers, hchanges⟩ :=
      shortPress_rows hc (s := s.undue (.muteShortPress c)) rfl
    refine ⟨_, exec_event_acts (.muteShortPress c) rfl hreset rfl ?_, hunmuted, hpod, hnotices, hother, hothers,
      (undue_changes _ s).comp hchanges⟩
    have hcond : (decide (c < 32) && s.present c) = true := by simp [hc, hpresent]
    dsimp only [act, actMuteShortPress]
    exact when_of hcond _ _
  case long =>
    intro c s hreset hc hpresent hchair
    obtain ⟨hpods, hrest, hhand, hchanges⟩ := chairPress_rows (c := c) (s := s.undue (.longPress c)) rfl
    refine ⟨_, exec_event_acts (.longPress c) rfl hreset rfl ?_, hpods, hrest, hhand, (undue_changes _ s).comp hchanges⟩
    have hcond : (decide (c < 32) && s.present c && s.floor.isChair c) = true := by
      simp [hc, hpresent, Floor.isChair, hchair]
    dsimp only [act, actLongPress]
    exact when_of hcond _ _

/-! ### ClaimsClear, FarClear, HandLower (R26, R27, R29) -/

theorem lowerHands_hand (k : HandCause) : ∀ (ns : List Nat) (s : State) (d : Nat),
    ((runOver (fun c => lowerHand c k) ns s).chan d).hand = ((s.chan d).hand && !ns.contains d)
  | [], s, d => by simp [runOver]
  | n :: ns, s, d => by
    show ((runOver (fun c => lowerHand c k) ns (lowerHand n k s)).chan d).hand = _
    rw [lowerHands_hand k ns, lowerHand_hand]
    by_cases hd : d = n <;> simp [hd]

/-- The run lowers each raised hand with its notice, in order. -/
theorem says_lowerHands (k : HandCause) : ∀ (ns : List Nat) (s : State), ns.Nodup →
    Says s (runOver (fun c => lowerHand c k) ns s)
      ((ns.filter (fun c => (s.chan c).hand)).map (fun c => .handLower c (s.claims c) k))
  | [], s, _ => .refl s
  | n :: ns, s, hnodup => by
    obtain ⟨hn, hnodup⟩ := List.nodup_cons.mp hnodup
    have hrest := says_lowerHands k ns (lowerHand n k s) hnodup
    have hhands : ns.filter (fun c => ((lowerHand n k s).chan c).hand) = ns.filter (fun c => (s.chan c).hand) := by
      refine List.filter_congr (fun c hc => ?_)
      have hne : c ≠ n := fun heq => hn (heq ▸ hc)
      rw [lowerHand_hand]
      simp [hne]
    rw [hhands] at hrest
    simp only [lowerHand_claims] at hrest
    have hfirst := says_lowerHand n k s
    by_cases hup : (s.chan n).hand = true
    · rw [if_pos hup] at hfirst
      rw [List.filter_cons_of_pos (p := fun c => (s.chan c).hand) hup]
      exact hfirst.trans hrest
    · rw [if_neg hup] at hfirst
      rw [List.filter_cons_of_neg (p := fun c => (s.chan c).hand) hup]
      exact hfirst.after hrest

theorem filter_channels_pods (q : Nat → Bool) :
    ((List.range 42).filter q).filter (fun c => decide (c < 32)) = (List.range 32).filter q := by
  have hpods : (List.range 42).filter (fun c => decide (c < 32)) = List.range 32 := by decide
  rw [List.filter_filter]
  simp only [Bool.and_comm]
  rw [← List.filter_filter, hpods]

theorem named_clear {t : State} {sel num : Nat} (hsel : sel = 0 ∧ num < 42 ∨ sel = 1 ∧ num < 8 ∨ sel = 2) :
    t.named sel num = if sel = 0 then [num]
      else if sel = 1 then (List.range 42).filter (fun c => (t.chan c).groups.getLsbD num) else List.range 42 := by
  rcases hsel with ⟨rfl, -⟩ | ⟨rfl, -⟩ | rfl <;> rfl

theorem handTargets {t : State} {sel num : Nat} (hsel : sel = 0 ∧ num < 32 ∨ sel = 1 ∧ num < 8) :
    (t.named sel num).filter (fun c => decide (c < 32))
      = if sel = 0 then [num] else (List.range 32).filter (fun c => (t.chan c).groups.getLsbD num) := by
  rcases hsel with ⟨rfl, hnum⟩ | ⟨rfl, -⟩
  · simp [State.named, hnum]
  · rw [named_group, if_neg (by decide), filter_channels_pods]

/-- Settles O18: two runs of claim changes and a run over hands. -/
theorem claimsAndHandsAreCleared : Obligations.ClaimsAndHandsAreCleared := by
  refine ⟨fun tag s hreset => ⟨fun sel num hsel => ?clear, fun p => ?far⟩, fun p tag sel num s hreset => ?hands⟩
  case clear =>
    have hpass : firstFail [(roomOnly .room, .denied), (decide (sel ≤ 2), .range), (okTarget 42 sel num, .range)]
        = none := by
      have htarget : okTarget 42 sel num = true := by
        rcases hsel with ⟨rfl, hnum⟩ | ⟨rfl, hnum⟩ | rfl <;> simp [okTarget, *]
      have hle : sel ≤ 2 := by omega
      simp [firstFail, roomOnly, htarget, hle]
    have hlt := named_lt (s := settle s) (sel := sel) (num := num) (by omega)
    refine ⟨refreshRings (runOver clearChannel ((settle s).named sel num) (settle s)), takeRequest_ok hreset hpass,
      fun c => ?_, fun c => ?_, (runOver_clearChannel_changes _ _).comp (refreshRings_changes _)⟩
    · rw [← named_clear hsel, clearChannel_eq, claimRun_claims (named_nodup ..) hlt]
      rfl
    · rw [clearChannel_eq, claimRun_hand (named_nodup ..) hlt]
  case far =>
    obtain ⟨hclaims, -, hhand, -, hchanges⟩ := claimRun_moves (a := .far) (b := false) (o := originOf p) (sel := 2)
      (num := 0) (t := settle s) (by omega)
    refine ⟨_, takeRequest_ok hreset rfl, fun c hc => ?_, fun c _ => hhand c, hchanges⟩
    have hmem : c ∈ (settle s).named 2 0 := List.mem_range.mpr hc
    rw [hclaims, if_pos hmem]
    rfl
  case hands =>
    intro t hsel named
    have hpass : firstFail [(decide (sel ≤ 1), .range), (okTarget 32 sel num, .range)] = none := by
      have htarget : okTarget 32 sel num = true := by
        rcases hsel with ⟨rfl, hnum⟩ | ⟨rfl, hnum⟩ <;> simp [okTarget, *]
      have hle : sel ≤ 1 := by omega
      simp [firstFail, htarget, hle]
    have hnamed : (t.named sel num).filter (fun c => decide (c < 32)) = named := handTargets hsel
    have hnodup : named.Nodup := hnamed ▸ (named_nodup t sel num).filter _
    refine ⟨refreshRings (runOver (fun c => lowerHand c (.request p)) named t), ?_, fun c => ?_, ?_,
      (runOver_lowerHand_changes _ _ t).comp (refreshRings_changes _)⟩
    · rw [← hnamed]
      exact takeRequest_ok hreset hpass
    · rw [refreshRings_chan, lowerHands_hand]
    · exact ((says_lowerHands _ named t hnodup).then_ (says_refreshRings _)).1

end Sys2Proof.Proofs
end

