-- ==== Sys2Proof/Proofs/PrivacySettles.lean ====
section
/-! PROOFS. Privacy (R11, R35 to R39) and ChannelWrite (R14). -/

set_option Elab.async false

namespace Sys2Proof.Proofs

open Sys2Proof Sys2Proof.Machine

/-! ### The PRIVACY claims moved -/

/-- A change of parts says something, whatever it is. -/
theorem Says.of_changes {ps : List Part} {s t : State} (h : s.changes ps t) (hps : Part.clock ∉ ps := by decide) :
    ∃ bs, Says s t bs := by
  obtain ⟨hparts, bs, hraised⟩ := h
  exact ⟨bs, hraised, (hparts .clock hps).1⟩

theorem privacy_of_changes {ps : List Part} {s t : State} (h : s.changes ps t)
    (hps : Part.privacy ∉ ps := by decide) : t.privacy = s.privacy := h.1 .privacy hps

theorem movePrivacy_eq (want : Nat → Bool) (s : State) :
    movePrivacy want s = runOver (claimStep (fun c k => k.put .privacy (want c)) none) channels s := rfl

theorem movePrivacy_claims (want : Nat → Bool) (s : State) {c : Nat} (hc : c < 42) :
    (movePrivacy want s).claims c = { s.claims c with privacy := want c } := by
  rw [movePrivacy_eq, (runOver_claimStep _ none channels s List.nodup_range (fun n hn => List.mem_range.mp hn) c).1,
    if_pos (List.mem_range.mpr hc)]
  rfl

theorem matchPrivacy_claims (s : State) {c : Nat} (hc : c < 42) :
    (matchPrivacy s).claims c = { s.claims c with privacy := (s.chan c).groups.getLsbD s.privacy.group } :=
  movePrivacy_claims _ _ hc

theorem releasePrivacy_claims (s : State) {c : Nat} (hc : c < 42) :
    (releasePrivacy s).claims c = { s.claims c with privacy := false } := movePrivacy_claims _ _ hc

theorem says_matchPrivacy (s : State) :
    ∃ n rest, Says s (matchPrivacy s) (.privacyOn s.privacy.state s.privacy.group n :: rest) := by
  obtain ⟨rest, hrest⟩ := Says.of_changes (movePrivacy_changes s.inPrivacyGroup
    (raise (.privacyOn s.privacy.state s.privacy.group (s.privacyDiffers s.inPrivacyGroup).length) s))
  exact ⟨_, rest, (says_raise ..).trans hrest⟩

theorem privacyDiffers_none (s : State) :
    (s.privacyDiffers (fun _ => false)).length = (List.range 42).countP (fun c => (s.claims c).privacy) := by
  rw [State.privacyDiffers, List.countP_eq_length_filter]
  simp

theorem says_releasePrivacy (s : State) :
    ∃ rest, Says s (releasePrivacy s)
      (.privacyOff .off s.privacy.group ((List.range 42).countP (fun c => (s.claims c).privacy)) :: rest) := by
  have hquiet : Says s { s with privacy := { s.privacy with state := .off } } [] := .quiet rfl rfl rfl
  obtain ⟨rest, hrest⟩ := Says.of_changes (movePrivacy_changes (fun _ => false) (raise (.privacyOff .off s.privacy.group
    (s.privacyDiffers (fun _ => false)).length) { s with privacy := { s.privacy with state := .off } }))
  rw [← privacyDiffers_none]
  exact ⟨rest, (hquiet.after (says_raise ..)).trans hrest⟩

theorem matchPrivacy_privacy (s : State) : (matchPrivacy s).privacy = s.privacy :=
  privacy_of_changes (matchPrivacy_changes s)

theorem releasePrivacy_privacy (s : State) : (releasePrivacy s).privacy = { s.privacy with state := .off } :=
  privacy_of_changes (movePrivacy_changes ..)

theorem refreshRings_privacy (s : State) : (refreshRings s).privacy = s.privacy :=
  privacy_of_changes (refreshRings_changes s)

/-! ### The edges of the privacy line (R36, R37) -/

theorem privacyActive_eq (s : State) :
    privacyActive s = matchPrivacy { s with privacy := { s.privacy with level := true, state := .on } } := rfl

theorem privacyInactive_release {s : State} (h : s.privacy.autoRelease = true) :
    privacyInactive s = releasePrivacy { s with privacy := { s.privacy with level := false } } := if_pos h

theorem privacyInactive_retain {s : State} (h : s.privacy.autoRelease = false) :
    privacyInactive s = raise (.privacyOff .retained s.privacy.group 0)
      { s with privacy := { s.privacy with level := false, state := .retained } } :=
  if_neg (by simp [h])

/-- Settles O20, edge by edge. -/
theorem privacyLineEdges : Obligations.PrivacyLineEdges := by
  refine fun s hreset => ⟨fun hlevel => ?active, fun hlevel hauto => ?release, fun hlevel hauto => ?retain⟩
  case active =>
    have hact : act .privacyActiveEdge (s.undue .privacyActiveEdge)
        = refreshRings (privacyActive (s.undue .privacyActiveEdge)) := by
      dsimp only [act, actPrivacyActive]
      exact when_of (by rw [Bool.not_eq_true']; exact hlevel) _ _
    refine ⟨_, exec_event_acts .privacyActiveEdge rfl hreset rfl hact, ?_, fun c hc => ?_, ?_,
      (undue_changes _ s).comp ((privacyActive_changes _).comp (rs := .tables :: privacyParts) (refreshRings_changes _))⟩
    · rw [refreshRings_privacy, privacyActive_eq, matchPrivacy_privacy]
      rfl
    · rw [refreshRings_claims, privacyActive_eq, matchPrivacy_claims _ hc]
      rfl
    · obtain ⟨n, rest, hsays⟩ := says_matchPrivacy { s.undue .privacyActiveEdge with
        privacy := { s.privacy with level := true, state := .on } }
      have hquiet : Says s { s.undue .privacyActiveEdge with
        privacy := { s.privacy with level := true, state := .on } } [] := .quiet rfl rfl rfl
      exact ⟨n, rest, ((hquiet.after hsays).then_ (says_refreshRings _)).1⟩
  case release =>
    have hact : act .privacyInactiveEdge (s.undue .privacyInactiveEdge)
        = refreshRings (releasePrivacy { s.undue .privacyInactiveEdge with
          privacy := { s.privacy with level := false } }) := by
      dsimp only [act, actPrivacyInactive]
      refine (when_of (by exact hlevel) _ _).trans ?_
      rw [privacyInactive_release (s := s.undue .privacyInactiveEdge) hauto]
      rfl
    refine ⟨_, exec_event_acts .privacyInactiveEdge rfl hreset rfl hact, ?_, fun c hc => ?_, ?_,
      (undue_changes _ s).comp (((setPrivacy_changes ..).comp (rs := privacyParts) (releasePrivacy_changes _)).comp
        (rs := .tables :: privacyParts) (refreshRings_changes _))⟩
    · rw [refreshRings_privacy, releasePrivacy_privacy]
    · rw [refreshRings_claims, releasePrivacy_claims _ hc]
      rfl
    · obtain ⟨rest, hsays⟩ := says_releasePrivacy { s.undue .privacyInactiveEdge with
        privacy := { s.privacy with level := false } }
      have hquiet : Says s { s.undue .privacyInactiveEdge with privacy := { s.privacy with level := false } } [] :=
        .quiet rfl rfl rfl
      exact ⟨_, rest, ((hquiet.after hsays).then_ (says_refreshRings _)).1⟩
  case retain =>
    have hact : act .privacyInactiveEdge (s.undue .privacyInactiveEdge)
        = refreshRings (raise (.privacyOff .retained s.privacy.group 0) { s.undue .privacyInactiveEdge with
          privacy := { s.privacy with level := false, state := .retained } }) := by
      dsimp only [act, actPrivacyInactive]
      refine (when_of (by exact hlevel) _ _).trans ?_
      rw [privacyInactive_retain (s := s.undue .privacyInactiveEdge) hauto]
      rfl
    refine ⟨_, exec_event_acts .privacyInactiveEdge rfl hreset rfl hact, ?_, ?_,
      (undue_changes _ s).comp (((setPrivacy_changes ..).comp (rs := [.privacy]) (raise_changes ..)).comp
        (rs := [.tables, .privacy]) (refreshRings_changes _))⟩
    · rw [refreshRings_privacy]
      rfl
    · have hquiet : Says s { s.undue .privacyInactiveEdge with
        privacy := { s.privacy with level := false, state := .retained } } [] := .quiet rfl rfl rfl
      exact ((hquiet.after (says_raise ..)).then_ (says_refreshRings _)).1

/-! ### PrivacyConfig and PrivacyRelease (R38, R39) -/

theorem isGiven_iff (f : OptField) : isGiven f = true ↔ f.presence = 1 := beq_iff_eq

theorem orKeepN_eq (f : OptField) (old : Nat) : orKeepN f old = if f.presence = 1 then f.value.toNat else old := by
  simp only [orKeepN, isGiven_iff]

theorem orKeep_eq (f : OptField) (old : Int) : orKeep f old = if f.presence = 1 then f.value else old := by
  simp only [orKeep, isGiven_iff]

theorem orKeepB_eq (f : OptField) (old : Bool) :
    orKeepB f old = if f.presence = 1 then decide (f.value = 1) else old := by
  simp only [orKeepB, isGiven_iff, beq_eq_decide]

/-- The privacy record that PrivacyConfig writes. -/
def privacyWritten (group auto : OptField) (x : Privacy) : Privacy :=
  { x with group := orKeepN group x.group, autoRelease := orKeepB auto x.autoRelease }

theorem privacyWritten_eq (group auto : OptField) (x : Privacy) :
    privacyWritten group auto x = { x with
      group := if group.presence = 1 then group.value.toNat else x.group
      autoRelease := if auto.presence = 1 then decide (auto.value = 1) else x.autoRelease } := by
  rw [privacyWritten, orKeepN_eq, orKeepB_eq]

theorem configurePrivacy_eq (group auto : OptField) (t : State) :
    configurePrivacy group auto t
      = if t.privacy.state = .on ∧ (privacyWritten group auto t.privacy).group ≠ t.privacy.group
        then refreshRings (matchPrivacy { t with privacy := privacyWritten group auto t.privacy })
        else { t with privacy := privacyWritten group auto t.privacy } := by
  have hunfold : configurePrivacy group auto t
      = if (privacyWritten group auto t.privacy).group = t.privacy.group
        then { t with privacy := privacyWritten group auto t.privacy }
        else if t.privacy.state = .on
          then refreshRings (matchPrivacy { t with privacy := privacyWritten group auto t.privacy })
          else { t with privacy := privacyWritten group auto t.privacy } := rfl
  rw [hunfold]
  by_cases hgroup : (privacyWritten group auto t.privacy).group = t.privacy.group
  · rw [if_pos hgroup, if_neg (fun h => h.2 hgroup)]
  · by_cases hon : t.privacy.state = .on
    · rw [if_neg hgroup, if_pos hon, if_pos ⟨hon, hgroup⟩]
    · rw [if_neg hgroup, if_neg hon, if_neg (fun h => hon h.1)]

/-- Settles O19, request by request. -/
theorem privacyRequests : Obligations.PrivacyRequests := by
  refine fun tag s hreset => ⟨fun group auto hgroup hauto => ?config, fun hon => ?held, fun hoff => ?off,
    fun hretained => ?retained⟩
  case config =>
    have hpass : firstFail [(roomOnly .room, .denied), (within group 0 7, .range), (yesNo auto, .range)] = none := by
      simp [firstFail, roomOnly, hgroup, hauto]
    generalize ht : settle s = t
    have hprivacy : (configurePrivacy group auto t).privacy = privacyWritten group auto t.privacy := by
      rw [configurePrivacy_eq]
      split
      · rw [refreshRings_privacy, matchPrivacy_privacy]
      · rfl
    refine ⟨configurePrivacy group auto t, ht ▸ takeRequest_ok hreset hpass,
      hprivacy.trans (privacyWritten_eq ..), fun c hc => ?_,
      fun hon hne => ?_, configurePrivacy_changes ..⟩
    · rw [hprivacy, configurePrivacy_eq]
      split
      · rw [refreshRings_claims, matchPrivacy_claims _ hc]
        rfl
      · rfl
    · rw [hprivacy] at hne ⊢
      rw [configurePrivacy_eq, if_pos ⟨hon, hne⟩]
      obtain ⟨n, rest, hsays⟩ := says_matchPrivacy { t with privacy := privacyWritten group auto t.privacy }
      have hquiet : Says t { t with privacy := privacyWritten group auto t.privacy } [] := .quiet rfl rfl rfl
      exact ⟨n, rest, hon ▸ ((hquiet.after hsays).then_ (says_refreshRings _)).1⟩
  case held => exact takeRequest_fail hreset (by simp [firstFail, roomOnly, hon])
  case off =>
    refine (takeRequest_ok hreset (by simp [firstFail, roomOnly, hoff])).trans ?_
    rw [if_neg (by rw [hoff]; decide)]
    rfl
  case retained =>
    have hpass : firstFail [(roomOnly .room, .denied), ((settle s).privacy.state != .on, .held)] = none := by
      simp [firstFail, roomOnly, hretained]
    refine ⟨refreshRings (releasePrivacy (settle s)), (takeRequest_ok hreset hpass).trans ?_, ?_, fun c hc => ?_, ?_,
      (releasePrivacy_changes _).comp (refreshRings_changes _)⟩
    · rw [if_pos hretained]
      rfl
    · rw [refreshRings_privacy, releasePrivacy_privacy]
    · rw [refreshRings_claims, releasePrivacy_claims _ hc]
    · obtain ⟨rest, hsays⟩ := says_releasePrivacy (settle s)
      exact ⟨rest, (hsays.then_ (says_refreshRings _)).1⟩

/-! ### ChannelWrite (R11, R14, R174) -/

theorem touchChannel_chan {c : Nat} (hc : c < 42) (t : State) (d : Nat) :
    (touchChannel c t).chan d
      = if d = c then { t.chan c with touched := (t.chan c).touched || t.notReached .channels c } else t.chan d := by
  unfold touchChannel
  split
  · next hload =>
    rw [State.chan_modChan]
    by_cases hd : d = c
    · subst hd
      simp [hc, hload]
    · simp [hd]
  · next hload =>
    by_cases hd : d = c
    · subst hd
      simp [hload]
    · simp [hd]

/-- The state with the setup of one channel written, before its PRIVACY claim moves. -/
def setupWritten (c : Nat) (w : ChannelSetup) (s : State) : State :=
  s.modChan c (fun k => { k with trim := w.trim, zone := if c < 32 then w.zone else k.zone, groups := w.groups })

theorem writeSetup_eq (c : Nat) (w : ChannelSetup) (o : Origin) (s : State) :
    writeSetup c w o s
      = if (s.chan c).groups = w.groups then setupWritten c w s else regroup c o (setupWritten c w s) := rfl

theorem setupWritten_chan {c : Nat} (hc : c < 42) (w : ChannelSetup) (s : State) (d : Nat) :
    (setupWritten c w s).chan d = if d = c then { s.chan c with
      trim := w.trim, zone := if c < 32 then w.zone else (s.chan c).zone, groups := w.groups } else s.chan d := by
  rw [setupWritten, State.chan_modChan]
  simp only [hc, and_true]

/-- The claims do not follow the setup but where the groups change while privacy is ON. -/
theorem writeSetup_claims {c : Nat} (hc : c < 42) (w : ChannelSetup) (o : Origin) (s : State) (d : Nat) :
    (writeSetup c w o s).claims d = if d = c ∧ (s.chan c).groups ≠ w.groups ∧ s.privacy.state = .on
      then { s.claims c with privacy := w.groups.getLsbD s.privacy.group } else s.claims d := by
  have hbase (e : Nat) : (setupWritten c w s).claims e = s.claims e := by
    rw [State.claims, setupWritten_chan hc, State.claims]
    split
    · next he => rw [he]
    · rfl
  rw [writeSetup_eq]
  split
  · next hsame => rw [hbase, if_neg (fun h => h.2.1 hsame)]
  · next hdiff =>
    unfold regroup
    split
    · next hon =>
      have hon' : s.privacy.state = .on := hon
      have hgroups : (setupWritten c w s).inPrivacyGroup c = w.groups.getLsbD s.privacy.group := by
        rw [State.inPrivacyGroup, setupWritten_chan hc, if_pos rfl]
        rfl
      rw [putClaim, changeClaims_claims hc, hgroups, hbase, hbase]
      by_cases hd : d = c
      · rw [if_pos hd, if_pos ⟨hd, hdiff, hon'⟩]
        rfl
      · rw [if_neg hd, if_neg (fun h => hd h.1)]
    · next hon => rw [hbase, if_neg (fun h => hon h.2.2)]

theorem writeSetup_kept (c : Nat) (w : ChannelSetup) (o : Origin) (s : State) :
    (setupWritten c w s).changes claimParts (writeSetup c w o s) := by
  rw [writeSetup_eq]
  split
  · exact .refl _ _
  · exact regroup_changes ..

/-- Settles O15: the setup is written in the record of the channel, and what moves its PRIVACY claim leaves it. -/
theorem channelWriteWritesSetup : Obligations.ChannelWriteWritesSetup := by
  intro tag c trim zone groups s hreset t hc htrim hzone hpod hgroups
  have hzonepod : (!isGiven zone || decide (c < 32)) = true := by
    by_cases hgiven : zone.presence = 1
    · simp [hpod hgiven]
    · simp [isGiven, hgiven]
  have hpass : firstFail [(roomOnly .room, .denied), (decide (c < 42), .range), (within trim (-40) 40, .range),
      (within zone 0 7 && (!isGiven zone || decide (c < 32)), .range), (okPresence groups, .range)] = none := by
    simp [firstFail, roomOnly, hc, htrim, hzone, hzonepod, hgroups]
  let v := touchChannel c t
  let w := setupOf (t.chan c) trim zone groups
  let u := refreshRings (writeSetup c w .roomPort v)
  have hchan (d : Nat) : u.chan d = (writeSetup c w .roomPort v).chan d := refreshRings_chan _ d
  have hv (d : Nat) : v.chan d = _ := touchChannel_chan hc t d
  have hset (d : Nat) := (writeSetup_kept c w .roomPort v).1 .setup (by decide) d
  have hmark (d : Nat) : _ = ((setupWritten c w v).chan d).touched :=
    ((writeSetup_kept c w .roomPort v).1 .marks (by decide)).2 d
  have hself := setupWritten_chan hc w v c
  rw [if_pos rfl, hv, if_pos rfl] at hself
  obtain ⟨htrim', hzone', hgroups', hsite'⟩ := hset c
  rw [← hchan, hself] at htrim' hzone' hgroups' hsite'
  have hnewgroups : (u.chan c).groups = if groups.presence = 1 then BitVec.ofInt 8 groups.value else (t.chan c).groups := by
    rw [hgroups']
    show (if isGiven groups then _ else _) = _
    simp only [isGiven_iff]
  refine ⟨u, takeRequest_ok hreset hpass, ?_, ?_, hnewgroups, fun d hd => ?_, ?_, hsite', ?_,
    ((touchChannel_changes c t).comp (rs := .setup :: .marks :: claimParts) (writeSetup_changes ..)).comp
      (refreshRings_changes _)⟩
  · rw [htrim']
    exact orKeep_eq ..
  · rw [hzone']
    show (if c < 32 then orKeepN zone (t.chan c).zone else (t.chan c).zone) = _
    rw [orKeepN_eq]
    by_cases hgiven : zone.presence = 1
    · rw [if_pos (hpod hgiven)]
    · simp only [hgiven, if_false, ite_self]
  · obtain ⟨hdtrim, hdzone, hdgroups, -⟩ := hset d
    rw [← hchan, setupWritten_chan hc, if_neg hd, hv, if_neg hd] at hdtrim hdzone hdgroups
    refine ⟨hdtrim, hdzone, hdgroups, ?_⟩
    rw [refreshRings_claims, writeSetup_claims hc, if_neg (fun h => hd h.1), State.claims, hv, if_neg hd, State.claims]
  · have hvc : v.claims c = t.claims c := by rw [State.claims, hv, if_pos rfl, State.claims]
    have hvg : (v.chan c).groups = (t.chan c).groups := by rw [hv, if_pos rfl]
    have hvp : v.privacy = t.privacy := privacy_of_changes (touchChannel_changes c t)
    rw [refreshRings_claims, writeSetup_claims hc, hvc, hvg, hvp, hgroups']
    by_cases hmoves : t.privacy.state = .on ∧ w.groups ≠ (t.chan c).groups
    · rw [if_pos ⟨rfl, hmoves.2.symm, hmoves.1⟩, if_pos hmoves]
    · rw [if_neg (fun h => hmoves ⟨h.2.2, h.2.1.symm⟩), if_neg hmoves]
  · rw [hchan, hmark, hself]

end Sys2Proof.Proofs
end

