-- ==== Sys2Proof/Proofs/FloorRequestSettles.lean ====
section
/-! PROOFS. ChairSet and SiteState (R15, R16), ModeSet (R83), FloorConfig (R69), ConferenceClear and RightsSet (R44, R180). -/

set_option Elab.async false

namespace Sys2Proof.Proofs

open Sys2Proof Sys2Proof.Machine

/-! ### The chair and the sites -/

/-- The Floor List with the talk timers that a move of the designation leaves (R90). -/
def chairMoved (old new : Option Nat) (f : Floor) : Floor :=
  let f := { f with chair := new, latch := false }
  let f := match old with
    | some c => f.modEntry c (fun e => if e.st = .opened then { e with talk := f.newTalk c } else e)
    | none => f
  match new with
  | some c => f.modEntry c (fun e => { e with talk := none })
  | none => f

theorem changeChair_eq {new : Option Nat} {s : State} (h : s.floor.chair ≠ new) :
    changeChair new s
      = raise (.chairChange s.floor.chair new) (s.modFloor (chairMoved s.floor.chair new)) := by
  unfold changeChair
  dsimp only
  rw [if_neg h]
  cases s.floor.chair <;> cases new <;> rfl

theorem changeChair_same {new : Option Nat} {s : State} (h : s.floor.chair = new) : changeChair new s = s := if_pos h

/-- A change of talk timers keeps the other fields of every entry. -/
theorem modEntry_talk {f : Floor} {c : Nat} {g : FloorEntry → FloorEntry}
    (hg : ∀ e, ((g e).ch, (g e).st, (g e).stamp, (g e).hold) = (e.ch, e.st, e.stamp, e.hold)) :
    (f.modEntry c g).list.map (fun e => (e.ch, e.st, e.stamp, e.hold))
      = f.list.map (fun e => (e.ch, e.st, e.stamp, e.hold)) := by
  rw [Floor.modEntry, List.map_map]
  refine List.map_congr_left (fun e _ => ?_)
  dsimp only [Function.comp]
  split
  · exact hg e
  · rfl

theorem chairMoved_floor (old new : Option Nat) (f : Floor) :
    (chairMoved old new f).chair = new ∧ (chairMoved old new f).latch = false ∧ (chairMoved old new f).wait = f.wait
      ∧ (chairMoved old new f).leaving = f.leaving
      ∧ (chairMoved old new f).list.map (fun e => (e.ch, e.st, e.stamp, e.hold))
        = f.list.map (fun e => (e.ch, e.st, e.stamp, e.hold)) := by
  have hstart (h : Floor) (c : Nat) : (h.modEntry c (fun e => if e.st = .opened then { e with talk := h.newTalk c } else
      e)).list.map (fun e => (e.ch, e.st, e.stamp, e.hold)) = h.list.map (fun e => (e.ch, e.st, e.stamp, e.hold)) :=
    modEntry_talk (fun e => by split <;> rfl)
  have hstop (h : Floor) (c : Nat) : (h.modEntry c (fun e => { e with talk := none })).list.map
      (fun e => (e.ch, e.st, e.stamp, e.hold)) = h.list.map (fun e => (e.ch, e.st, e.stamp, e.hold)) :=
    modEntry_talk (fun e => rfl)
  unfold chairMoved
  cases old with
  | none =>
    cases new with
    | none => exact ⟨rfl, rfl, rfl, rfl, rfl⟩
    | some d => exact ⟨rfl, rfl, rfl, rfl, hstop _ d⟩
  | some c =>
    cases new with
    | none => exact ⟨rfl, rfl, rfl, rfl, hstart _ c⟩
    | some d => exact ⟨rfl, rfl, rfl, rfl, (hstop _ d).trans (hstart _ c)⟩

/-- Settles O16: the designation moves or does not; a site has its flag written. -/
theorem chairAndSitesAreSet : Obligations.ChairAndSitesAreSet := by
  refine ⟨fun tag v s hreset hv => ?chair, fun p tag site v s hreset => ⟨fun hsite hv => ?set, fun hbad => ?range⟩⟩
  case chair =>
    intro t new
    have hpass : firstFail [(roomOnly .room, .denied), (v == 255 || decide (v < 32), .range)] = none := by
      have hok : (v == 255 || decide (v < 32)) = true := by
        rcases hv with hv | hv <;> simp [hv]
      simp [firstFail, roomOnly, hok]
    have hchanges : t.changes [.chair, .floor, .latch, .tables] (refreshRings (changeChair new t)) :=
      (changeChair_changes new t).comp (refreshRings_changes _)
    by_cases hsame : t.floor.chair = new
    · have hnone := changeChair_same hsame
      refine ⟨refreshRings (changeChair new t), takeRequest_ok hreset hpass, ?_, fun _ => ⟨?_, ?_⟩,
        fun hne => absurd hsame hne, hchanges, ?_, ?_⟩
      · rw [refreshRings_floor, hnone, hsame]
      · rw [refreshRings_floor, hnone]
      · rw [hnone]
        exact (says_refreshRings t).1
      · rw [refreshRings_floor, hnone]
      · rw [refreshRings_floor, hnone]
    · have hmoved := changeChair_eq hsame
      have hfloor : (refreshRings (changeChair new t)).floor = chairMoved t.floor.chair new t.floor := by
        rw [refreshRings_floor, hmoved]
        rfl
      obtain ⟨hchair, hlatch, hwait, hleaving, hlist⟩ := chairMoved_floor t.floor.chair new t.floor
      refine ⟨refreshRings (changeChair new t), takeRequest_ok hreset hpass, by rw [hfloor, hchair],
        fun heq => absurd heq hsame, fun _ => ⟨by rw [hfloor, hlatch], ?_, by rw [hfloor, hlist]⟩, hchanges,
        by rw [hfloor, hwait], by rw [hfloor, hleaving]⟩
      rw [hmoved]
      exact (((says_modFloor _ t).after (says_raise ..)).then_ (says_refreshRings _)).1
  case set =>
    have hpass : firstFail [(decide (site < 8), .range), (okFlag v, .range)] = none := by
      simp [firstFail, okFlag, hsite, hv]
    refine ⟨_, takeRequest_ok hreset hpass, rfl, ?_, fun c hc => ?_⟩
    · rw [State.present, if_neg (by omega), if_pos (by omega), State.chan_modChan_self _ _ (by omega)]
      exact beq_eq_decide v 1
    · unfold State.present
      rw [State.chan_modChan_ne _ _ hc]
      rfl
  case range =>
    refine takeRequest_fail hreset (firstFail_of_all (by simp) ?_)
    simp only [List.mem_cons, List.not_mem_nil, or_false, exists_eq_or_imp, exists_eq_left, okFlag,
      decide_eq_false_iff_not]
    omega

/-! ### ModeSet -/

theorem changeMode_same {m : FloorMode} {s : State} (h : s.floor.mode = m) : changeMode m s = s := if_pos h

theorem changeMode_moves {m : FloorMode} {s : State} (h : s.floor.mode ≠ m) :
    changeMode m s = raise (.modeChange s.floor.mode m s.floor.list.length s.floor.wait.length s.floor.leaving.length)
      ((emptyFloor s).modFloor (fun g => { g with mode := m })) := if_neg h

theorem says_emptyFloor (s : State) : Says s (emptyFloor s) [] := .quiet rfl rfl rfl

/-- Settles O22. -/
theorem modeSetEmptiesTheFloor : Obligations.ModeSetEmptiesTheFloor := by
  intro tag v s hreset hv t m
  have hpass : firstFail [(roomOnly .room, .denied), (decide (v ≤ 1), .range)] = none := by
    simp [firstFail, roomOnly, hv]
  refine ⟨refreshRings (changeMode m t), takeRequest_ok hreset hpass, fun hsame => ?_, fun hne => ?_,
    (changeMode_changes m t).comp (refreshRings_changes _)⟩
  · rw [changeMode_same hsame]
    exact ⟨(refreshRings_changes t).1, (says_refreshRings t).1, refreshRings_of_match⟩
  · rw [changeMode_moves hne]
    refine ⟨?_, fun c hc => ?_, ((((says_emptyFloor t).after (says_modFloor _ _)).after (says_raise ..)).then_
      (says_refreshRings _)).1⟩
    · rw [refreshRings_floor]
      rfl
    · rw [refreshRings_chan]
      exact emptyFloor_attack hc

/-! ### FloorConfig -/

theorem floorCfgOf_eq (f : FloorFields) (g : FloorCfg) :
    floorCfgOf f g
      = { maxOpen := if f.maxOpen.presence = 1 then f.maxOpen.value.toNat else g.maxOpen
          openMargin := if f.openMargin.presence = 1 then f.openMargin.value.toNat else g.openMargin
          closeMargin := if f.closeMargin.presence = 1 then f.closeMargin.value.toNat else g.closeMargin
          attack := if f.attack.presence = 1 then f.attack.value.toNat else g.attack
          holdTime := if f.holdTime.presence = 1 then f.holdTime.value.toNat else g.holdTime
          waitMax := if f.waitMax.presence = 1 then f.waitMax.value.toNat else g.waitMax
          guard := if f.guard.presence = 1 then f.guard.value.toNat else g.guard
          lastMic := if f.lastMic.presence = 1 then decide (f.lastMic.value = 1) else g.lastMic
          ramp := if f.ramp.presence = 1 then f.ramp.value.toNat else g.ramp
          talkLimit := if f.talkLimit.presence = 1 then f.talkLimit.value.toNat else g.talkLimit
          talkWarn := if f.talkWarn.presence = 1 then f.talkWarn.value.toNat else g.talkWarn
          autoGrant := if f.autoGrant.presence = 1 then decide (f.autoGrant.value = 1) else g.autoGrant
          chairDuck := if f.chairDuck.presence = 1 then f.chairDuck.value.toNat else g.chairDuck } := by
  simp only [floorCfgOf, orKeepN_eq, orKeepB_eq]

theorem cutFloor_of_le {n : Nat} {s : State} (h : s.floor.list.length ≤ s.floor.cfg.maxOpen) : cutFloor n s = s := by
  cases n with
  | zero => rfl
  | succ n => exact if_neg (by omega)

/-- The state with the quantities written, before the lists settle. -/
def quantitiesWritten (new : FloorCfg) (s : State) : State :=
  let t := rescaleRamps s.floor.cfg.ramp new.ramp (s.modFloor (fun f => { f with cfg := new }))
  (if new.lastMic then t else t.modFloor Floor.restartHolds).modFloor
    (fun f => f.talkLimitWritten s.floor.cfg.talkLimit)

theorem writeFloorCfg_eq (new : FloorCfg) (s : State) :
    writeFloorCfg new s = if s.floor.cfg = new then s
      else afterFloor (cutFloor (quantitiesWritten new s).floor.list.length (quantitiesWritten new s)) := rfl

theorem rescaleRamps_floor (old new : Nat) (s : State) : (rescaleRamps old new s).floor = s.floor := by
  unfold rescaleRamps
  split <;> rfl

theorem rescaleRamps_ramp (old new : Nat) (s : State) {c : Nat} (hc : c < 42) :
    ((rescaleRamps old new s).chan c).ramp = if old = new then (s.chan c).ramp else (s.chan c).ramp * new / old := by
  unfold rescaleRamps
  split
  · rfl
  · rw [State.chan_mapChans, if_pos hc]

theorem talkLimitWritten_floor (f : Floor) (old : Nat) :
    (f.talkLimitWritten old).cfg = f.cfg ∧ (f.talkLimitWritten old).leaving = f.leaving
      ∧ (f.talkLimitWritten old).mode = f.mode ∧ (f.talkLimitWritten old).chair = f.chair := by
  unfold Floor.talkLimitWritten
  split
  · exact ⟨rfl, rfl, rfl, rfl⟩
  · split <;> exact ⟨rfl, rfl, rfl, rfl⟩

theorem quantitiesWritten_floor (new : FloorCfg) (s : State) :
    (quantitiesWritten new s).floor.cfg = new ∧ (quantitiesWritten new s).floor.leaving = s.floor.leaving
      ∧ (quantitiesWritten new s).floor.mode = s.floor.mode ∧ (quantitiesWritten new s).floor.chair = s.floor.chair
      ∧ (quantitiesWritten new s).floor.list.map (fun e => e.ch) = s.floor.list.map (fun e => e.ch) := by
  unfold quantitiesWritten
  dsimp only
  rw [State.modFloor_floor]
  obtain ⟨hcfg, hleaving, hmode, hchair⟩ := talkLimitWritten_floor
    (if new.lastMic then rescaleRamps s.floor.cfg.ramp new.ramp (s.modFloor (fun f => { f with cfg := new }))
      else (rescaleRamps s.floor.cfg.ramp new.ramp (s.modFloor (fun f => { f with cfg := new }))).modFloor
        Floor.restartHolds).floor s.floor.cfg.talkLimit
  rw [hcfg, hleaving, hmode, hchair, talkLimitWritten_chs]
  split
  · rw [rescaleRamps_floor]
    exact ⟨rfl, rfl, rfl, rfl, rfl⟩
  · rw [State.modFloor_floor, restartHolds_chs, rescaleRamps_floor]
    exact ⟨rfl, rfl, rfl, rfl, rfl⟩

theorem quantitiesWritten_ramp (new : FloorCfg) (s : State) {c : Nat} (hc : c < 42) :
    ((quantitiesWritten new s).chan c).ramp
      = if s.floor.cfg.ramp = new.ramp then (s.chan c).ramp else (s.chan c).ramp * new.ramp / s.floor.cfg.ramp := by
  unfold quantitiesWritten
  dsimp only
  rw [State.chan_modFloor]
  split
  · exact rescaleRamps_ramp _ _ _ hc
  · exact rescaleRamps_ramp _ _ _ hc

/-- What a write of quantities that keeps every member leaves (R69, R70, R97). -/
theorem writeFloorCfg_rows {new : FloorCfg} {s : State} (h : s.floor.list.length ≤ new.maxOpen) :
    (writeFloorCfg new s).floor.cfg = new
      ∧ (∀ c, c < 42 → ((writeFloorCfg new s).chan c).ramp = if s.floor.cfg.ramp = new.ramp then (s.chan c).ramp
          else (s.chan c).ramp * new.ramp / s.floor.cfg.ramp)
      ∧ (∀ c, (s.floor.entry? c).isSome → ((writeFloorCfg new s).floor.entry? c).isSome)
      ∧ (writeFloorCfg new s).floor.leaving = s.floor.leaving ∧ (writeFloorCfg new s).floor.mode = s.floor.mode
      ∧ (writeFloorCfg new s).floor.chair = s.floor.chair := by
  by_cases hsame : s.floor.cfg = new
  · rw [writeFloorCfg_eq, if_pos hsame]
    exact ⟨hsame, fun c _ => by rw [if_pos (by rw [hsame])], fun c hc => hc, rfl, rfl, rfl⟩
  · obtain ⟨hcfg, hleaving, hmode, hchair, hchs⟩ := quantitiesWritten_floor new s
    have hlength : (quantitiesWritten new s).floor.list.length = s.floor.list.length := by
      have := congrArg List.length hchs
      simpa using this
    have hwritten : writeFloorCfg new s = afterFloor (quantitiesWritten new s) := by
      rw [writeFloorCfg_eq, if_neg hsame, cutFloor_of_le (by rw [hlength, hcfg]; exact h)]
    obtain ⟨hleaving', hmode', hcfg', hchair', -⟩ := afterFloor_floor (quantitiesWritten new s)
    rw [hwritten, hcfg', hleaving', hmode', hchair']
    refine ⟨hcfg, fun c hc => ?_, fun c hc => afterFloor_isSome ?_, hleaving, hmode, hchair⟩
    · rw [(afterFloor_changes (quantitiesWritten new s)).1 .ramps (by decide) c, quantitiesWritten_ramp new s hc]
    · rw [Option.isSome_iff_ne_none, Ne, Floor.entry?_none] at hc ⊢
      rw [hchs]
      exact hc

/-- Settles O23: the checks in their order, then what the write leaves. -/
theorem floorConfigWritesQuantities : Obligations.FloorConfigWritesQuantities := by
  intro tag f s hreset hfields t old new
  have hnew : floorCfgOf f t.floor.cfg = new := floorCfgOf_eq f t.floor.cfg
  have htalk {b : Bool} (hlimit : (new.talkLimit == 0 || decide (new.talkWarn < new.talkLimit)) = b) :
      ((floorCfgOf f t.floor.cfg).talkLimit == 0
        || decide ((floorCfgOf f t.floor.cfg).talkWarn < (floorCfgOf f t.floor.cfg).talkLimit)) = b := by rw [hnew, hlimit]
  refine ⟨fun hlimit hwarn => ?range, fun hlimit hmembers => ?state, fun hlimit hmembers => ?ok⟩
  case range =>
    have hbad := htalk (b := false) (by simp [hlimit, hwarn])
    refine takeRequest_fail hreset ?_
    dsimp only
    simp only [firstFail, roomOnly, hfields, beq_self_eq_true, if_true]
    rw [if_neg (by rw [Bool.not_eq_true]; exact hbad)]
  case state =>
    have hok := htalk (b := true) (by rcases hlimit with h | h <;> simp [h])
    refine takeRequest_fail hreset ?_
    dsimp only
    simp only [firstFail, roomOnly, hfields, beq_self_eq_true, if_true]
    rw [if_pos (by exact hok), if_neg (by rw [decide_eq_true_eq, hnew]; exact Nat.not_le.mpr hmembers)]
  case ok =>
    have hok := htalk (b := true) (by rcases hlimit with h | h <;> simp [h])
    obtain ⟨hcfg, hramp, hentry, hleaving, hmode, hchair⟩ := writeFloorCfg_rows (s := t) hmembers
    refine ⟨refreshRings (writeFloorCfg new t), ?_, ?_, fun c hc => ?_, fun c hc => ?_, ?_, ?_, ?_,
      (writeFloorCfg_changes new t).comp (refreshRings_changes _)⟩
    · refine (takeRequest_ok hreset ?_).trans ?_
      · dsimp only
        simp only [firstFail, roomOnly, hfields, beq_self_eq_true, if_true]
        rw [if_pos (by exact hok), if_pos (by rw [decide_eq_true_eq, hnew]; exact hmembers)]
      · rw [hnew, refreshRings_floor, hcfg]
    · rw [refreshRings_floor, hcfg]
    · rw [refreshRings_chan, hramp c hc]
    · rw [refreshRings_floor]
      exact hentry c hc
    · rw [refreshRings_floor, hleaving]
    · rw [refreshRings_floor, hmode]
    · rw [refreshRings_floor, hchair]

/-! ### ConferenceClear and RightsSet -/

/-- The notice of a load that ends, where one runs (R176). -/
def sceneEnds (cause : SceneCause) (s : State) : List NoticeBody :=
  match s.scenes.load with
  | some ld => [.sceneDone ld.slot cause ld.applied ld.passed]
  | none => []

theorem says_clearTouched (s : State) : Says s (clearTouched s) [] := .quiet rfl rfl rfl

theorem says_endLoad (cause : SceneCause) (s : State) : Says s (endLoad cause s) (sceneEnds cause s) := by
  unfold endLoad sceneEnds
  split
  · next hload =>
    rw [hload]
    exact .refl s
  · next ld hload =>
    rw [hload]
    have hquiet : Says s (clearTouched { s with scenes := { s.scenes with load := none } }) [] := .quiet rfl rfl rfl
    exact hquiet.after (says_raise ..)

theorem endLoad_load (cause : SceneCause) (s : State) : (endLoad cause s).scenes.load = none := by
  unfold endLoad
  split
  · assumption
  · rfl

/-- The notice of a tone that ends, where one runs (R167, R168). -/
def toneEnds (ending : ToneEnding) (s : State) : List NoticeBody :=
  if s.tone.running then [.toneDone s.tone.target s.tone.freq ending s.tone.generated.toNat] else []

theorem says_endTone (ending : ToneEnding) (s : State) : Says s (endTone ending s) (toneEnds ending s) := by
  unfold endTone toneEnds
  split
  · have hquiet : Says s { s with tone := { s.tone with running := false, remaining := none } } [] :=
      .quiet rfl rfl rfl
    exact hquiet.after (says_raise ..)
  · exact .refl s

theorem endTone_tone (ending : ToneEnding) (s : State) :
    (endTone ending s).tone
      = { s.tone with running := false, remaining := if s.tone.running then none else s.tone.remaining } := by
  unfold endTone
  split
  · rfl
  · next hstopped =>
    rw [Bool.not_eq_true] at hstopped
    show s.tone = _
    rw [← hstopped]

theorem clearClaims_chan (s : State) {c : Nat} (hc : c < 42) :
    (clearClaims s).chan c = if c < 32
      then { s.chan c with claims := (s.claims c).onlyPrivacy, hand := false, talkCount := 0, armed := true }
      else { s.chan c with claims := (s.claims c).onlyPrivacy } := by
  rw [clearClaims, State.chan_mapChans, if_pos hc]
  rfl

/-- The state that ConferenceClear leaves before load and tone end. -/
def conferenceCleared (s : State) : State :=
  raise (.conferenceClear s.clearable.length s.floor.list.length s.floor.wait.length s.floor.leaving.length)
    (clearClaims (emptyFloor s))

theorem clearConference_eq (s : State) :
    clearConference s = endTone .cleared (endLoad .cleared (conferenceCleared s)) := rfl

theorem says_conferenceCleared (s : State) :
    Says s (conferenceCleared s) [.conferenceClear s.clearable.length s.floor.list.length s.floor.wait.length
      s.floor.leaving.length] := by
  have hquiet : Says s (clearClaims (emptyFloor s)) [] := .quiet rfl rfl rfl
  exact hquiet.after (says_raise ..)

theorem clearable_length (s : State) :
    s.clearable.length = (List.range 42).countP (fun c =>
      decide (s.claims c ≠ { ClaimSet.empty with privacy := (s.claims c).privacy })) := by
  rw [State.clearable, List.countP_eq_length_filter]
  rfl

/-- What the ends of a load and a tone leave of a channel and of the floor. -/
theorem ends_kept (s : State) : s.changes [.load, .marks, .tone] (endTone .cleared (endLoad .cleared s)) :=
  (endLoad_changes .cleared s).comp (endTone_changes .cleared _)

theorem conferenceCleared_claims (s : State) {c : Nat} (hc : c < 42) :
    (conferenceCleared s).claims c = { ClaimSet.empty with privacy := (s.claims c).privacy } := by
  have hempty : (emptyFloor s).claims c = s.claims c := claims_of_changes (emptyFloor_changes s) c
  rw [State.claims, conferenceCleared, State.chan_raise, clearClaims_chan _ hc, hempty]
  split <;> rfl

theorem conferenceCleared_attack (s : State) {c : Nat} (hc : c < 42) :
    ((conferenceCleared s).chan c).attack = 0 := by
  have hempty := emptyFloor_attack (s := s) hc
  rw [conferenceCleared, State.chan_raise, clearClaims_chan _ hc]
  split <;> exact hempty

theorem conferenceCleared_pod (s : State) {c : Nat} (hc : c < 32) :
    ((conferenceCleared s).chan c).hand = false ∧ ((conferenceCleared s).chan c).talkCount = 0
      ∧ ((conferenceCleared s).chan c).armed = true := by
  rw [conferenceCleared, State.chan_raise, clearClaims_chan _ (by omega), if_pos hc]
  exact ⟨rfl, rfl, rfl⟩

/-- Settles O55. -/
theorem conferenceClearAndRights : Obligations.ConferenceClearAndRights := by
  refine fun tag s hreset => ⟨?clear, fun v hv => ?write, fun v hv => ?range⟩
  case clear =>
    generalize ht : settle s = t
    have hkept := ends_kept (conferenceCleared t)
    have hchan (c : Nat) := refreshRings_chan (clearConference t) c
    rw [clearConference_eq] at hchan
    refine ⟨refreshRings (clearConference t), ht ▸ takeRequest_ok hreset rfl, fun c hc => ⟨?_, ?_⟩, fun c hc => ?_, ?_, ?_,
      ?_, ?_, (clearConference_changes t).comp (refreshRings_changes _)⟩
    · rw [refreshRings_claims, clearConference_eq, claims_of_changes hkept, conferenceCleared_claims t hc]
    · rw [clearConference_eq, hchan, hkept.1 .attack (by decide), conferenceCleared_attack t hc]
    · obtain ⟨htalk, harmed⟩ := hkept.1 .talk (by decide) c
      rw [clearConference_eq, hchan, hkept.1 .hands (by decide), htalk, harmed]
      exact conferenceCleared_pod t hc
    · have hfloor : (endTone .cleared (endLoad .cleared (conferenceCleared t))).floor = (conferenceCleared t).floor := by
        unfold endTone endLoad
        split <;> split <;> rfl
      rw [refreshRings_floor, clearConference_eq, hfloor]
      rfl
    · rw [(refreshRings_changes _).1 .load (by decide), clearConference_eq, (endTone_changes ..).1 .load (by decide),
        endLoad_load]
    · rw [show (refreshRings (clearConference t)).tone = _ from (refreshRings_changes _).1 .tone (by decide),
        clearConference_eq, endTone_tone]
    · have hload := says_endLoad .cleared (conferenceCleared t)
      have htone := says_endTone .cleared (endLoad .cleared (conferenceCleared t))
      have htonekept : (endLoad .cleared (conferenceCleared t)).tone = t.tone :=
        (endLoad_changes .cleared (conferenceCleared t)).1 .tone (by decide)
      rw [toneEnds, htonekept] at htone
      have hsays := ((says_conferenceCleared t).trans (hload.trans htone)).then_ (says_refreshRings _)
      rw [clearable_length] at hsays
      exact hsays.1
  case write => exact takeRequest_ok hreset (by simp [firstFail, roomOnly, okFlag, hv])
  case range => exact takeRequest_fail hreset (by simp [firstFail, roomOnly, okFlag, Nat.not_le.mpr hv])

end Sys2Proof.Proofs
end

