-- ==== Sys2Proof/Proofs/SilenceSettles.lean ====
section
/-! PROOFS. The Silence Controller (chapter 6): its requests, the Alarm line, howl latches, the end of RESTORING. -/

set_option Elab.async false

namespace Sys2Proof.Proofs

open Sys2Proof Sys2Proof.Machine

/-! ### A source becomes effective (R119) -/

/-- The covered sets after a source of a scope, as R119 lists them. -/
theorem sourceEffective_eq (q : Silence) (sc : Scope) :
    q.sourceEffective sc = { q with
      state := .active
      covered := if sc = .all then .ab else if q.state = .quiet ∨ q.covered = .none then .a else q.covered
      chime := if q.state = .quiet then 0 else q.chime } := by
  unfold Silence.sourceEffective
  cases hstate : q.state <;> cases sc <;> cases hcovered : q.covered <;> simp [Covered.widen]

theorem says_modSilence (f : Silence → Silence) (s : State) : Says s (s.modSilence f) [] := .quiet rfl rfl rfl

/-- SILENCE carries the controller as it stands (R123). -/
theorem says_noteSilence (k : SilenceCause) (s : State) :
    Says s (noteSilence k s) [.silence s.silence.state s.silence.alarm s.silence.requestLatch s.silence.howl
      s.silence.covered k s.silence.alarmLevel] := says_raise _ s

theorem refreshRings_silence (s : State) : (refreshRings s).silence = s.silence :=
  (refreshRings_changes s).1 .silence (by decide)

/-- The notice of a change of the controller that is closed by the comparison of the rings. -/
theorem says_silenceChanged (f : Silence → Silence) (k : SilenceCause) (s : State) :
    Says s (refreshRings (noteSilence k (s.modSilence f))) [.silence (f s.silence).state (f s.silence).alarm
      (f s.silence).requestLatch (f s.silence).howl (f s.silence).covered k (f s.silence).alarmLevel] :=
  ((says_modSilence f s).after (says_noteSilence k (s.modSilence f))).then_ (says_refreshRings _)

/-! ### SilenceRaise and SilenceRestore (R115, R121) -/

/-- Settles O37. -/
theorem silenceRaiseSetsTheLatch : Obligations.SilenceRaiseSetsTheLatch := by
  intro p tag s hreset t q
  refine ⟨fun hoff => takeRequest_fail hreset (by simp only [firstFail]; rw [if_neg (by rw [hoff]; decide)]),
    fun hon => ?_⟩
  refine ⟨refreshRings (raiseSilence p t), takeRequest_ok hreset (by simp only [firstFail]; rw [if_pos hon]),
    fun hlatch => ?_, fun hlatch => ?_, (raiseSilence_changes p t).comp (refreshRings_changes _)⟩
  · have hnone : raiseSilence p t = t := if_pos hlatch
    rw [hnone]
    exact ⟨refreshRings_silence t, (says_refreshRings t).1⟩
  · have hset : raiseSilence p t = noteSilence (.request p) (t.modSilence (fun q =>
        { q.sourceEffective q.cfg.requestScope with requestLatch := true })) := if_neg (by rw [hlatch]; decide)
    have hsilence : (refreshRings (raiseSilence p t)).silence
        = { t.silence.sourceEffective t.silence.cfg.requestScope with requestLatch := true } := by
      rw [refreshRings_silence, hset]
      rfl
    refine ⟨by rw [hsilence, sourceEffective_eq], ?_⟩
    have hsays := says_silenceChanged (fun q =>
      { q.sourceEffective q.cfg.requestScope with requestLatch := true }) (.request p) t
    rw [hsilence, hset]
    simp only [sourceEffective_eq] at hsays ⊢
    exact hsays.1

theorem dropDisabled_eq (q : Silence) :
    q.dropDisabled = { q with
      howl := if q.cfg.howlEnable then q.howl else 0
      howlCount := if q.cfg.howlEnable then q.howlCount else Tab.tabulate 8 (fun _ => 0)
      requestLatch := q.cfg.requestEnable && q.requestLatch } := by
  unfold Silence.dropDisabled
  dsimp only
  cases hhowl : q.cfg.howlEnable <;> cases hrequest : q.cfg.requestEnable <;> simp [hrequest]

/-- The controller with the settings written and the covered sets widened, before ALARM is looked at (R125). -/
def settingsWritten (q : Silence) (new : SilenceCfg) : Silence :=
  let d := { q with cfg := new }.dropDisabled
  if d.inForce && d.scopeWidened q.cfg then { d with covered := .ab } else d

theorem configure_eq (q : Silence) (new : SilenceCfg) :
    q.configure new
      = if (settingsWritten q new).alarm && !q.alarm then
          ((settingsWritten q new).sourceEffective (settingsWritten q new).cfg.alarmScope, .alarmOn)
        else if q.alarm && !(settingsWritten q new).alarm && (settingsWritten q new).autoRestores then
          ({ settingsWritten q new with state := .restoring }, .autoRestore)
        else (settingsWritten q new, .config) := rfl

theorem dropDisabled_rows (q : Silence) :
    q.dropDisabled.cfg = q.cfg ∧ q.dropDisabled.alarmLevel = q.alarmLevel ∧ q.dropDisabled.state = q.state
      ∧ q.dropDisabled.howl = (if q.cfg.howlEnable then q.howl else 0)
      ∧ q.dropDisabled.howlCount = (if q.cfg.howlEnable then q.howlCount else Tab.tabulate 8 (fun _ => 0))
      ∧ q.dropDisabled.requestLatch = (q.cfg.requestEnable && q.requestLatch) := by
  rw [dropDisabled_eq]
  exact ⟨rfl, rfl, rfl, rfl, rfl, rfl⟩

theorem settingsWritten_rows (q : Silence) (new : SilenceCfg) :
    (settingsWritten q new).cfg = new ∧ (settingsWritten q new).alarmLevel = q.alarmLevel
      ∧ (settingsWritten q new).state = q.state ∧ (settingsWritten q new).howl = (if new.howlEnable then q.howl else 0)
      ∧ (settingsWritten q new).howlCount = (if new.howlEnable then q.howlCount else Tab.tabulate 8 (fun _ => 0))
      ∧ (settingsWritten q new).requestLatch = (new.requestEnable && q.requestLatch) := by
  have hrows := dropDisabled_rows { q with cfg := new }
  unfold settingsWritten
  generalize ({ q with cfg := new } : Silence).dropDisabled = d at hrows ⊢
  dsimp only
  generalize (d.inForce && d.scopeWidened q.cfg) = widened
  cases widened <;> exact hrows

/-- What a configuration leaves that ALARM has no say in. -/
theorem configure_kept (q : Silence) (new : SilenceCfg) :
    (q.configure new).1.cfg = (settingsWritten q new).cfg
      ∧ (q.configure new).1.alarmLevel = (settingsWritten q new).alarmLevel
      ∧ (q.configure new).1.howl = (settingsWritten q new).howl
      ∧ (q.configure new).1.howlCount = (settingsWritten q new).howlCount
      ∧ (q.configure new).1.requestLatch = (settingsWritten q new).requestLatch := by
  rw [configure_eq]
  split
  · rw [sourceEffective_eq]
    exact ⟨rfl, rfl, rfl, rfl, rfl⟩
  · split <;> exact ⟨rfl, rfl, rfl, rfl, rfl⟩

/-- The settings written and what becomes of them (R125). -/
theorem configure_rows (q : Silence) (new : SilenceCfg) :
    (q.configure new).1.cfg = new ∧ (q.configure new).1.alarmLevel = q.alarmLevel
      ∧ (q.configure new).1.howl = (if new.howlEnable then q.howl else 0)
      ∧ (new.howlEnable = false → ∀ z, z < 8 → (q.configure new).1.howlCount.get z = 0)
      ∧ (q.configure new).1.requestLatch = (new.requestEnable && q.requestLatch)
      ∧ (q.alarmLevel = true → q.cfg.alarmEnable = false → new.alarmEnable = true → (q.configure new).1.state = .active)
      ∧ (q.state = .quiet → (q.alarmLevel && new.alarmEnable) = (q.alarmLevel && q.cfg.alarmEnable) →
          (q.configure new).1.state = .quiet) := by
  obtain ⟨hcfg, hlevel, hstate, hhowl, hcount, hlatch⟩ := settingsWritten_rows q new
  obtain ⟨kcfg, klevel, khowl, kcount, klatch⟩ := configure_kept q new
  have halarm : (settingsWritten q new).alarm = (q.alarmLevel && new.alarmEnable) := by rw [Silence.alarm, hlevel, hcfg]
  refine ⟨kcfg.trans hcfg, klevel.trans hlevel, khowl.trans hhowl, fun hoff z hz => ?_, klatch.trans hlatch,
    fun hon hwas hnow => ?_, fun hquiet hsame => ?_⟩
  · rw [kcount, hcount, hoff, if_neg (by decide), Tab.get_tabulate, if_pos hz]
  · rw [configure_eq, if_pos (by rw [halarm, Silence.alarm, hon, hwas, hnow]; rfl), sourceEffective_eq]
  · rw [configure_eq, halarm, Silence.alarm, hsame]
    cases q.alarmLevel && q.cfg.alarmEnable <;> exact hstate.trans hquiet

/-- Settles O38. -/
theorem silenceRestoreAndSettings : Obligations.SilenceRestoreAndSettings := by
  refine ⟨fun tag s hreset => ?restore, fun tag f s hreset hfields => ?config⟩
  case restore =>
    intro t q alarm
    refine ⟨fun hon => takeRequest_fail hreset ?_, fun hoff => ?_⟩
    · have halarm : (settle s).silence.alarm = true := hon
      simp [firstFail, roomOnly, halarm]
    · have halarm : (settle s).silence.alarm = false := hoff
      refine ⟨refreshRings (restoreSilence .room t), takeRequest_ok hreset (by simp [firstFail, roomOnly, halarm]),
        fun hidle => ?_, fun hactive => ?_, (restoreSilence_changes .room t).comp (refreshRings_changes _)⟩
      · have hnone : restoreSilence .room t = t := if_neg hidle
        rw [hnone]
        exact ⟨refreshRings_silence t, (says_refreshRings t).1⟩
      · have hset : restoreSilence .room t = noteSilence (.restore .room) (t.modSilence (fun q =>
            { q with state := .restoring, requestLatch := false, howl := 0, howlCount := Tab.tabulate 8 (fun _ => 0) })) :=
          if_pos hactive
        rw [hset]
        refine ⟨by rw [refreshRings_silence]; rfl, ?_⟩
        have hsays := says_silenceChanged (fun q => { q with
          state := .restoring, requestLatch := false, howl := 0, howlCount := Tab.tabulate 8 (fun _ => 0) })
          (.restore .room) t
        have hnow : ({ t.silence with
          state := .restoring, requestLatch := false, howl := 0, howlCount := Tab.tabulate 8 (fun _ => 0) } : Silence).alarm
          = false := hoff
        rw [hnow] at hsays
        exact hsays.1
  case config =>
    intro t q new
    have hwritten : (writeSilenceCfg new t).silence = (t.silence.configure new).1 := by
      unfold writeSilenceCfg
      dsimp only
      split <;> rfl
    obtain ⟨hcfg, hlevel, hhowl, hcounts, hlatch, hstarts, hquiet⟩ := configure_rows t.silence new
    have hsilence : (refreshRings (writeSilenceCfg new t)).silence = (t.silence.configure new).1 := by
      rw [refreshRings_silence, hwritten]
    refine ⟨refreshRings (writeSilenceCfg new t), ?_, by rw [hsilence, hcfg], by rw [hsilence, hlevel],
      by rw [hsilence, hhowl], fun hoff z hz => ?_, by rw [hsilence, hlatch], fun h1 h2 h3 => ?_, fun h1 h2 => ?_,
      (writeSilenceCfg_changes new t).comp (refreshRings_changes _)⟩
    · have hpass : firstFail [(roomOnly .room, .denied), (silenceFieldsOk f, .range)] = none := by
        simp [firstFail, roomOnly, hfields]
      have hexec : exec (.silenceConfig .room tag f) s = takeRequest .room tag 26
          (fun _ => [(roomOnly .room, .denied), (silenceFieldsOk f, .range)])
          (fun t => refreshRings (writeSilenceCfg (silenceCfgOf f t.silence.cfg) t)) (fun _ t => t.silence.cfg.bytes) s :=
        rfl
      rw [hexec, takeRequest_ok hreset hpass, hsilence, hcfg]
    · rw [hsilence]
      exact hcounts hoff z hz
    · rw [hsilence]
      exact hstarts h1 h2 h3
    · rw [hsilence]
      exact hquiet h1 h2

/-! ### The Alarm line (R113, R120), howl (R114), the end of RESTORING (R122) -/

theorem alarmActive_off {s : State} (h : s.silence.cfg.alarmEnable = false) :
    alarmActive s = s.modSilence (fun q => { q with alarmLevel := true }) := by
  have hoff : ¬ s.silence.cfg.alarmEnable = true := by simp [h]
  exact if_neg hoff

/-- The controller after an active edge of an enabled Alarm line. -/
def alarmBegun (q : Silence) : Silence := ({ q with alarmLevel := true } : Silence).sourceEffective q.cfg.alarmScope

theorem alarmActive_on {s : State} (h : s.silence.cfg.alarmEnable = true) :
    alarmActive s = noteSilence .alarmOn (s.modSilence alarmBegun) := if_pos h

theorem alarmInactive_off {s : State} (h : s.silence.cfg.alarmEnable = false) :
    alarmInactive s = s.modSilence (fun q => { q with alarmLevel := false }) := by
  have hoff : ¬ s.silence.cfg.alarmEnable = true := by simp [h]
  exact if_neg hoff

/-- An inactive edge ends the silence by itself (R120). -/
def alarmEnds (q : Silence) : Bool := q.cfg.autoRestore && q.state == .active && !(q.requestLatch || q.howl != 0)

theorem alarmInactive_on {s : State} (h : s.silence.cfg.alarmEnable = true) :
    alarmInactive s = noteSilence (if alarmEnds s.silence then .autoRestore else .alarmOff) (s.modSilence (fun q =>
      { q with alarmLevel := false, state := if alarmEnds q then .restoring else q.state })) := by
  have hedge : alarmInactive s = if alarmEnds s.silence
      then noteSilence .autoRestore (s.modSilence (fun q => { q with alarmLevel := false, state := .restoring }))
      else noteSilence .alarmOff (s.modSilence (fun q => { q with alarmLevel := false })) := if_pos h
  have hfun {b : Bool} (hb : alarmEnds s.silence = b) : s.modSilence (fun q =>
      { q with alarmLevel := false, state := if alarmEnds q then .restoring else q.state })
      = s.modSilence (fun q => { q with alarmLevel := false, state := if b then .restoring else q.state }) := by
    subst hb
    rfl
  rw [hedge]
  cases hends : alarmEnds s.silence <;> rw [hfun hends] <;> rfl

/-- The controller after a zone's howl is latched. -/
def howlLatched (z : Nat) (q : Silence) : Silence :=
  { q.sourceEffective q.cfg.howlScope with
    howl := q.howl ||| BitVec.twoPow 8 z, howlCount := q.howlCount.set z 0 }

theorem latchHowl_eq (z : Nat) (s : State) : latchHowl z s = noteSilence (.howl z) (s.modSilence (howlLatched z)) := rfl

theorem howlLatched_eq (z : Nat) (q : Silence) : howlLatched z q = { q with
    state := .active
    covered := if q.cfg.howlScope = .all then .ab else if q.state = .quiet ∨ q.covered = .none then .a else q.covered
    chime := if q.state = .quiet then 0 else q.chime
    howl := q.howl ||| BitVec.twoPow 8 z
    howlCount := q.howlCount.set z 0 } := by
  rw [howlLatched, sourceEffective_eq]

/-- Settles O39. -/
theorem silenceSourcesAndEnds : Obligations.SilenceSourcesAndEnds := by
  refine ⟨fun s hreset => ?edges, fun s hreset => ?ends⟩
  case edges =>
    intro q
    refine ⟨fun hlevel => ?active, fun hlevel => ?inactive⟩
    case active =>
      have hact : act .alarmActiveEdge (s.undue .alarmActiveEdge)
          = refreshRings (alarmActive (s.undue .alarmActiveEdge)) := by
        dsimp only [act, actAlarmActive]
        exact when_of (by rw [Bool.not_eq_true']; exact hlevel) _ _
      refine ⟨_, exec_event_acts .alarmActiveEdge rfl hreset rfl hact, fun hoff => ?_, fun hon => ?_,
        (undue_changes _ s).comp ((alarmActive_changes _).comp (rs := [.silence, .tables]) (refreshRings_changes _))⟩
      · rw [alarmActive_off (s := s.undue .alarmActiveEdge) hoff]
        exact ⟨refreshRings_silence _, ((says_modSilence _ (s.undue .alarmActiveEdge)).then_ (says_refreshRings _)).1⟩
      · rw [alarmActive_on (s := s.undue .alarmActiveEdge) hon]
        have hsilence : (refreshRings (noteSilence .alarmOn ((s.undue .alarmActiveEdge).modSilence alarmBegun))).silence
            = alarmBegun s.silence := refreshRings_silence _
        have hsays := says_silenceChanged alarmBegun .alarmOn (s.undue .alarmActiveEdge)
        have hbegun : alarmBegun s.silence = _ := sourceEffective_eq _ _
        have halarm : (alarmBegun s.silence).alarm = true := by
          rw [hbegun]
          exact hon
        refine ⟨hsilence.trans hbegun, ?_⟩
        rw [hsilence]
        have hnotice := hsays.1
        rw [show (s.undue .alarmActiveEdge).silence = s.silence from rfl, halarm] at hnotice
        rw [hbegun] at hnotice ⊢
        exact hnotice
    case inactive =>
      have hact : act .alarmInactiveEdge (s.undue .alarmInactiveEdge)
          = refreshRings (alarmInactive (s.undue .alarmInactiveEdge)) := by
        dsimp only [act, actAlarmInactive]
        exact when_of (by exact hlevel) _ _
      refine ⟨_, exec_event_acts .alarmInactiveEdge rfl hreset rfl hact, fun hoff => ?_, fun hon => ?_,
        (undue_changes _ s).comp ((alarmInactive_changes _).comp (rs := [.silence, .tables]) (refreshRings_changes _))⟩
      · rw [alarmInactive_off (s := s.undue .alarmInactiveEdge) hoff]
        exact ⟨refreshRings_silence _, ((says_modSilence _ (s.undue .alarmInactiveEdge)).then_ (says_refreshRings _)).1⟩
      · rw [alarmInactive_on (s := s.undue .alarmInactiveEdge) hon]
        refine ⟨refreshRings_silence _, ?_⟩
        rw [refreshRings_silence]
        exact (says_silenceChanged (fun q =>
          { q with alarmLevel := false, state := if alarmEnds q then .restoring else q.state }) _
          (s.undue .alarmInactiveEdge)).1
  case ends =>
    intro q
    refine ⟨fun z hz hdue hon hclear hcount => ?howl, fun hdue hstate => ?restoring⟩
    case howl =>
      have hcond : (s.silence.cfg.howlEnable && !s.silence.howl.getLsbD z
          && decide (s.silence.cfg.howlBlocks ≤ s.silence.howlCount.get z)) = true := by
        rw [show s.silence.cfg.howlEnable = true from hon, show s.silence.howl.getLsbD z = false from hclear]
        exact decide_eq_true hcount
      have hact : act (.howlLatch z) (s.undue (.howlLatch z)) = refreshRings (latchHowl z (s.undue (.howlLatch z))) := by
        dsimp only [act, actHowlLatch]
        exact when_of hcond _ _
      have hsilence : (refreshRings (latchHowl z (s.undue (.howlLatch z)))).silence = howlLatched z s.silence :=
        refreshRings_silence _
      have hnotice := (says_silenceChanged (howlLatched z) (.howl z) (s.undue (.howlLatch z))).1
      refine ⟨_, exec_event_acts (.howlLatch z) rfl hreset hdue hact, hsilence.trans (howlLatched_eq z _), ?_,
        (undue_changes _ s).comp ((latchHowl_changes z _).comp (rs := [.silence, .tables]) (refreshRings_changes _))⟩
      rw [hsilence, latchHowl_eq]
      rw [show (s.undue (.howlLatch z)).silence = s.silence from rfl] at hnotice
      rw [howlLatched_eq] at hnotice ⊢
      exact hnotice
    case restoring =>
      have hact : act .restoringEnd (s.undue .restoringEnd) = refreshRings (endRestoring (s.undue .restoringEnd)) := by
        dsimp only [act, actRestoringEnd]
        exact when_of (by rw [beq_iff_eq]; exact hstate) _ _
      refine ⟨_, exec_event_acts .restoringEnd rfl hreset hdue hact, refreshRings_silence _, fun c hc => ?_, ?_,
        (undue_changes _ s).comp ((endRestoring_changes _).comp (rs := [.silence, .ramps, .tables])
          (refreshRings_changes _))⟩
      · have hramp : ((endRestoring (s.undue .restoringEnd)).chan c).ramp = 0 := by
          rw [endRestoring, noteSilence, State.chan_raise, restartRamps, State.chan_mapChans, if_pos hc]
        rw [refreshRings_chan, hramp]
      · have hquiet : Says (s.undue .restoringEnd) (restartRamps ((s.undue .restoringEnd).modSilence (fun q =>
            { q with state := .quiet, covered := .none, chime := 0 }))) [] := .quiet rfl rfl rfl
        exact ((hquiet.after (says_noteSilence .quiet _)).then_ (says_refreshRings _)).1

end Sys2Proof.Proofs
end

