-- ==== Sys2Proof/Proofs/PodRequests.lean ====
section
/-! PROOFS. The Room Port's requests about one pod line (R129, R140, R141, R146). -/

set_option Elab.async false

namespace Sys2Proof.Proofs

open Sys2Proof Sys2Proof.Machine

/-- The checks before the last two hold, and one of the last two does not. -/
theorem firstFail_lastTwo {l : List (Bool × Result)} {a b : Bool} {r : Result} (hpass : ∀ x ∈ l, x.1 = true)
    (hfail : a = false ∨ b = false) : firstFail (l ++ [(a, r), (b, r)]) = some r := by
  induction l with
  | nil =>
    rcases hfail with rfl | rfl
    · rfl
    · cases a <;> rfl
  | cons x l ih =>
    obtain ⟨ok, q⟩ := x
    obtain rfl : ok = true := hpass _ List.mem_cons_self
    exact ih fun y hy => hpass y (List.mem_cons_of_mem _ hy)

/-- Settles O40. -/
theorem lineStartAndTest : Obligations.LineStartAndTest := by
  intro tag l n s hreset hl hn hmax t
  refine ⟨fun hrunning hoff => ⟨?_, ?_⟩, fun hno => ?_⟩
  · exact takeRequest_ok hreset ((firstFail_none_iff _).2 (by
      simp [roomOnly, hl, show (settle s).sys.power = .running from hrunning,
        show ((settle s).line l).state = .off from hoff]))
  · exact takeRequest_ok hreset ((firstFail_none_iff _).2 (by
      simp [roomOnly, hl, hn, hmax, show (settle s).sys.power = .running from hrunning,
        show ((settle s).line l).state = .off from hoff]))
  · have hfail : (t.sys.power == .running) = false ∨ ((t.line l).state == .off) = false := by
      rcases hno with hstandby | hbusy
      · exact .inl (by rw [hstandby]; rfl)
      · exact .inr (beq_eq_false_iff_ne.2 hbusy)
    exact ⟨takeRequest_fail hreset (firstFail_lastTwo (l := [_, _]) (by simp [roomOnly, hl]) hfail),
      takeRequest_fail hreset (firstFail_lastTwo (l := [_, _, _]) (by simp [roomOnly, hl, hn, hmax]) hfail)⟩

/-- Settles O42. -/
theorem podSleepAndWake : Obligations.PodSleepAndWake := by
  intro tag l p s hreset hl hp t st key
  have hpos : okPos l p = true := decide_eq_true ⟨hl, hp⟩
  refine ⟨fun hrunning hst => ?_, fun hrunning hst => ?_, fun hno => ?_, fun hno => ?_⟩
  · exact takeRequest_ok hreset ((firstFail_none_iff _).2 (by
      simp [roomOnly, hpos, show ((settle s).line l).state = .running from hrunning]; exact hst))
  · exact takeRequest_ok hreset ((firstFail_none_iff _).2 (by
      simp [roomOnly, hpos, show ((settle s).line l).state = .running from hrunning]; exact hst))
  · refine takeRequest_fail hreset (firstFail_lastTwo (l := [_, _]) (by simp [roomOnly, hpos]) ?_)
    rcases hno with hline | ⟨honline, hjoining⟩
    · exact .inl (beq_eq_false_iff_ne.2 hline)
    · exact .inr (Bool.or_eq_false_iff.2 ⟨beq_eq_false_iff_ne.2 honline, beq_eq_false_iff_ne.2 hjoining⟩)
  · refine takeRequest_fail hreset (firstFail_lastTwo (l := [_, _]) (by simp [roomOnly, hpos]) ?_)
    rcases hno with hline | hst
    · exact .inl (beq_eq_false_iff_ne.2 hline)
    · exact .inr (beq_eq_false_iff_ne.2 hst)

end Sys2Proof.Proofs
end

