-- ==== Sys2Proof/Proofs/MeterScene.lean ====
section
/-! PROOFS. Meters, level watches and tones (chapter 9); scenes stored, loads started and aborted (chapter 10). -/

set_option Elab.async false

namespace Sys2Proof.Proofs

open Sys2Proof Sys2Proof.Machine

/-! ### Meters and watches (R160 to R164) -/

/-- A window that is given, as MeterConfig writes it. -/
theorem writeWindow_given (w : Nat) (s : State) : writeWindow ⟨1, w⟩ s
    = if w = s.meters.window then s else { s with meters := { s.meters with
        window := w, counter := 0, points := s.meters.points.mapIdx (fun _ m => { m with running := -96 }) } } := rfl

theorem writeWindow_meters (w : Nat) (s : State) :
    let u := writeWindow ⟨1, w⟩ s
    u = { s with meters := u.meters } ∧ u.meters.window = w ∧ u.meters.watches = s.meters.watches
      ∧ u.meters.stamp = s.meters.stamp ∧ (w = s.meters.window → u.meters = s.meters)
      ∧ (w ≠ s.meters.window → u.meters.counter = 0
        ∧ ∀ i, i < 59 → u.meters.points.get i = { s.meters.points.get i with running := -96 }) := by
  dsimp only
  rw [writeWindow_given]
  split
  · next hsame => exact ⟨rfl, hsame.symm, rfl, rfl, fun _ => rfl, fun hne => absurd hsame hne⟩
  · next hne => exact ⟨rfl, rfl, rfl, rfl, fun hsame => absurd hsame hne, fun _ => ⟨rfl, fun i hi => by
      rw [Tab.get_mapIdx, if_pos hi]⟩⟩

/-- Settles O48. -/
theorem meterAndWatchWrites : Obligations.MeterAndWatchWrites := by
  intro tag s hreset t
  refine ⟨fun w hw => ?given, fun v => ?kept, fun e point thr dir count arm => ⟨?write, ?range⟩⟩
  case given =>
    obtain ⟨hstate, hwindow, hrest⟩ := writeWindow_meters w t
    refine ⟨writeWindow ⟨1, w⟩ t, ?_, hstate, hwindow, hrest⟩
    have hfields : firstFail [(roomOnly .room, .denied), (okPresence ⟨1, w⟩ && (!isGiven ⟨1, w⟩
        || (⟨1, w⟩ : OptField).value == 1 || (⟨1, w⟩ : OptField).value == 4 || (⟨1, w⟩ : OptField).value == 16), .range)]
        = none := by
      rcases hw with rfl | rfl | rfl <;> rfl
    exact (takeRequest_ok hreset hfields).trans (by rw [hwindow])
  case kept =>
    have hsame : writeWindow ⟨0, v⟩ t = t := if_pos rfl
    exact (takeRequest_ok hreset rfl).trans (by rw [hsame])
  case write =>
    intro he hpoint hlow hhigh hdir hmin hmax harm
    refine ⟨_, takeRequest_ok hreset (by simp [firstFail, roomOnly, okFlag, *]), rfl, fun k hk => ?_⟩
    dsimp only
    rw [Tab.get_set]
    by_cases hke : k = e
    · subst hke
      rw [if_pos ⟨rfl, hk⟩, if_pos rfl, watchOf]
      congr 1
    · rw [if_neg (fun h => hke h.1), if_neg hke]
  case range =>
    intro hbad
    refine takeRequest_fail hreset (firstFail_of_all (l := [(decide (e < 8), .range), (decide (point < 59), .range),
      (decide (-96 ≤ thr ∧ thr ≤ 0), .range), (decide (dir ≤ 1), .range), (decide (1 ≤ count ∧ count ≤ 1000), .range),
      (okFlag arm, .range)]) (by simp) ?_)
    simp only [List.mem_cons, List.not_mem_nil, or_false, exists_eq_or_imp, exists_eq_left, okFlag, decide_eq_false_iff_not]
    omega

theorem captureNow_point (s : State) {i : Nat} (hi : i < 59) : (captureNow s).meters.points.get i
    = { running := -96, captured := (s.meters.points.get i).running, fresh := true,
        overrun := (s.meters.points.get i).overrun || (s.meters.points.get i).fresh } :=
  (Tab.get_mapIdx _ _ i).trans (if_pos hi)

/-- A watch counts a capture that meets its condition, and one that does not starts the count again (R163). -/
theorem judge_eq (w : Watch) (peak : Int) : w.judge peak = { w with
    matched := if w.armed = false then w.matched else if w.meets peak then w.matched + 1 else 0 } := by
  obtain ⟨point, threshold, dir, count, armed, matched⟩ := w
  cases armed <;> rfl

theorem captureNow_watch (s : State) {e : Nat} (he : e < 8) : (captureNow s).meters.watches.get e
    = (s.meters.watches.get e).judge ((captureNow s).meters.points.get (s.meters.watches.get e).point).captured :=
  (Tab.get_mapIdx _ _ e).trans (if_pos he)

/-- Settles O49. -/
theorem capturesAndWatches : Obligations.CapturesAndWatches := by
  intro s hreset
  refine ⟨fun hdue hfull => ?capture, fun e he hdue hlower harmed hcount => ?watch⟩
  case capture =>
    have hact : act .capture (s.undue .capture) = captureNow (s.undue .capture) := by
      dsimp only [act, actCapture]
      exact when_of (decide_eq_true hfull) _ _
    refine ⟨_, exec_event_acts .capture rfl hreset hdue hact, rfl, rfl, rfl, fun i hi => ?_, fun e he hpoint => ?_,
      ?_, (Says.quiet rfl rfl rfl).1, (undue_changes _ s).comp (captureNow_changes _)⟩
    · exact captureNow_point (s.undue .capture) hi
    · have hpeak : ((captureNow (s.undue .capture)).meters.points.get (s.meters.watches.get e).point).captured
          = (s.meters.points.get (s.meters.watches.get e).point).running := by
        rw [captureNow_point _ hpoint]
        rfl
      refine (captureNow_watch (s.undue .capture) he).trans ((judge_eq _ _).trans ?_)
      rw [show (s.undue .capture).meters = s.meters from rfl, hpeak]
      rfl
    · rfl
  case watch =>
    have hact : act (.levelWatch e) (s.undue (.levelWatch e)) = fireWatch e (s.undue (.levelWatch e)) := by
      dsimp only [act, actLevelWatch]
      exact when_of (Bool.and_eq_true_iff.2 ⟨harmed, decide_eq_true hcount⟩) _ _
    have hfirst : Event.forerunners (.levelWatch e) s = [] := by
      refine List.filter_eq_nil_iff.2 fun d hd => ?_
      split
      · next m =>
        intro hm
        have hnot := hlower m (of_decide_eq_true hm)
        simp [State.isDue, hd] at hnot
      · decide
    exact exec_event_acts (.levelWatch e) rfl hreset hdue hact hfirst

/-! ### Tones (R166 to R168) -/

/-- The operands of ToneStart within their ranges pass its checks, up to the two of state. -/
theorem toneChecks_pass {kind num freq : Nat} {level : Int} {mode count : Nat}
    (hnum : kind = 0 ∧ num < 42 ∨ kind = 1 ∧ num < 17) (hfreq : freq = 250 ∨ freq = 1000 ∨ freq = 2000 ∨ freq = 4000)
    (hlow : -60 ≤ level) (hhigh : level ≤ 0) (hmode : mode = 0 ∧ 1 ≤ count ∧ count ≤ 10000 ∨ mode = 1) :
    ∀ x ∈ [(roomOnly .room, Result.denied), (decide (kind ≤ 1), .range), (decide (num < if kind = 0 then 42 else 17), .range),
      (freq == 250 || freq == 1000 || freq == 2000 || freq == 4000, .range), (decide (-60 ≤ level ∧ level ≤ 0), .range),
      (decide (mode ≤ 1), .range), (mode == 1 || decide (1 ≤ count ∧ count ≤ 10000), .range)], x.1 = true := by
  have hkind : kind ≤ 1 := by omega
  have hbound : num < if kind = 0 then 42 else 17 := by
    rcases hnum with ⟨rfl, hn⟩ | ⟨rfl, hn⟩ <;> exact hn
  have hone : mode ≤ 1 := by omega
  have hcount : (mode == 1 || decide (1 ≤ count ∧ count ≤ 10000)) = true := by
    rcases hmode with ⟨-, hc⟩ | rfl
    · exact Bool.or_eq_true_iff.2 (.inr (decide_eq_true hc))
    · rfl
  simp only [List.forall_mem_cons, List.not_mem_nil, false_imp_iff, implies_true, and_true]
  refine ⟨rfl, decide_eq_true hkind, decide_eq_true hbound, ?_, decide_eq_true ⟨hlow, hhigh⟩, decide_eq_true hone, hcount⟩
  rcases hfreq with rfl | rfl | rfl | rfl <;> rfl

theorem refreshRings_tone (s : State) : (refreshRings s).tone = s.tone :=
  (refreshRings_changes s).1 .tone (by decide)

/-- Settles O50. -/
theorem tonesStartAndEnd : Obligations.TonesStartAndEnd := by
  intro tag s hreset t
  refine ⟨fun kind num freq level mode count hnum hfreq hlow hhigh hmode => ⟨fun hrunning hidle => ?start,
    fun hno => ?refused⟩, ?stop, fun hdue hrunning hremaining => ?ends⟩
  case start =>
    have hpass := toneChecks_pass hnum hfreq hlow hhigh hmode
    have hquiet : Says t { t with tone := toneOf kind num freq level mode count } [] := .quiet rfl rfl rfl
    refine ⟨refreshRings { t with tone := toneOf kind num freq level mode count },
      takeRequest_ok hreset ((firstFail_none_iff _).2 ?_), refreshRings_tone _, (hquiet.then_ (says_refreshRings _)).1,
      (setTone_changes _ t).comp (refreshRings_changes _)⟩
    have hstate : ∀ x ∈ [((settle s).sys.power == .running, Result.state), (!(settle s).tone.running, .state)],
        x.1 = true := by
      rw [show (settle s).sys.power = .running from hrunning, show (settle s).tone.running = false from hidle]
      simp
    exact List.forall_mem_append.2 ⟨hpass, hstate⟩
  case refused =>
    refine takeRequest_fail hreset (firstFail_lastTwo (toneChecks_pass hnum hfreq hlow hhigh hmode) ?_)
    rcases hno with hstandby | hbusy
    · exact .inl (by rw [show (settle s).sys.power = .standby from hstandby]; rfl)
    · exact .inr (by rw [show (settle s).tone.running = true from hbusy]; rfl)
  case stop =>
    refine ⟨refreshRings (endTone .stopped t), takeRequest_ok hreset rfl, ?_, ?_,
      (endTone_changes _ t).comp (refreshRings_changes _)⟩
    · rw [refreshRings_tone, endTone_tone]
    · exact ((says_endTone .stopped t).then_ (says_refreshRings _)).1
  case ends =>
    have hact : act .toneCountEnd (s.undue .toneCountEnd) = refreshRings (endTone .count (s.undue .toneCountEnd)) := by
      dsimp only [act, actToneCountEnd]
      exact when_of (Bool.and_eq_true_iff.2 ⟨hrunning, beq_iff_eq.2 hremaining⟩) _ _
    refine ⟨_, exec_event_acts .toneCountEnd rfl hreset hdue hact, ?_, ?_,
      (undue_changes _ s).comp ((endTone_changes _ _).comp (rs := [.tone, .tables]) (refreshRings_changes _))⟩
    · rw [refreshRings_tone, endTone_tone, show (s.undue .toneCountEnd).tone = s.tone from rfl, hrunning, if_pos rfl]
    · have hsays := ((says_endTone .count (s.undue .toneCountEnd)).then_ (says_refreshRings _)).1
      rw [toneEnds, show (s.undue .toneCountEnd).tone = s.tone from rfl, hrunning, if_pos rfl] at hsays
      exact hsays

/-! ### Scenes (R170 to R172, R176) -/

theorem sceneRecord_rows (s : State) (parts : Nat) :
    let r := s.sceneRecord (BitVec.ofNat 4 parts)
    r.channels = (if parts.testBit 0 then some (s.chans.mapIdx (fun _ k => ⟨k.trim, k.zone, k.groups⟩)) else none)
      ∧ r.crosspoints = (if parts.testBit 1 then some ⟨s.mix.xp, s.mix.bus⟩ else none)
      ∧ r.floor = (if parts.testBit 2 then some ⟨s.floor.mode, s.floor.cfg, s.floor.chair⟩ else none)
      ∧ r.claims = (if parts.testBit 3 then some (s.chans.mapIdx (fun _ k => k.claims.room)) else none) := by
  have hbit {i : Nat} (hi : i < 4) : (BitVec.ofNat 4 parts).getLsbD i = parts.testBit i := by
    rw [BitVec.getLsbD_ofNat, decide_eq_true hi, Bool.true_and]
  simp only [State.sceneRecord, hbit (i := 0) (by decide), hbit (i := 1) (by decide), hbit (i := 2) (by decide),
    hbit (i := 3) (by decide), and_self]

/-- A part that is stored where its bit is set. -/
theorem isSome_stored {α : Type} {b : Bool} {o : Option α} {x : α} (h : o = if b then some x else none) :
    o.isSome = b ∧ ∀ y, o = some y → y = x := by
  subst h
  cases b <;> simp +contextual [eq_comm]

/-- Settles O51. -/
theorem sceneStoreKeepsTheSetup : Obligations.SceneStoreKeepsTheSetup := by
  intro tag slot parts s hreset hslot hmin hmax t
  refine ⟨fun ld hload hreads => ?refused, fun hfree => ?stored⟩
  case refused =>
    have hreading : (settle s).loadsFrom slot = true := by
      rw [State.loadsFrom, show (settle s).scenes.load = some ld from hload]
      exact beq_iff_eq.2 hreads
    exact takeRequest_fail hreset (by simp [firstFail, roomOnly, hslot, hmin, hmax, hreading])
  case stored =>
    have hfreed : (settle s).loadsFrom slot = false := by
      rw [State.loadsFrom]
      cases hload : (settle s).scenes.load with
      | none => rfl
      | some ld => exact beq_eq_false_iff_ne.2 (hfree ld hload)
    obtain ⟨hch, hxp, hfl, hcl⟩ := sceneRecord_rows t parts
    refine ⟨_, t.sceneRecord (BitVec.ofNat 4 parts),
      takeRequest_ok hreset (by simp [firstFail, roomOnly, hslot, hmin, hmax, hfreed]), rfl, fun k hk => ?_,
      (isSome_stored hch).1, (isSome_stored hxp).1, (isSome_stored hfl).1, (isSome_stored hcl).1, fun x hx c hc => ?_,
      (isSome_stored hxp).2, (isSome_stored hfl).2, fun x hx c hc => ?_⟩
    · dsimp only
      rw [Tab.get_set]
      simp only [hslot, and_true]
      rfl
    · rw [(isSome_stored hch).2 x hx, Tab.get_mapIdx, if_pos hc]
      rfl
    · rw [(isSome_stored hcl).2 x hx, Tab.get_mapIdx, if_pos hc]
      rfl

/-- The items of a record, part by part. -/
theorem steps_eq (r : SceneRecord) : r.steps = (if r.channels.isSome then 42 else 0)
    + (if r.crosspoints.isSome then 17 else 0) + (if r.floor.isSome then 1 else 0)
    + (if r.claims.isSome then 1 else 0) := by
  obtain ⟨channels, crosspoints, floor, claims⟩ := r
  cases channels <;> cases crosspoints <;> cases floor <;> cases claims <;> rfl

/-- The first part that a record holds. -/
theorem headPart_eq (r : SceneRecord) : r.parts.headD .channels = if r.channels.isSome then .channels
    else if r.crosspoints.isSome then .crosspoints else if r.floor.isSome then .floor
    else if r.claims.isSome then .claims else .channels := by
  obtain ⟨channels, crosspoints, floor, claims⟩ := r
  cases channels <;> cases crosspoints <;> cases floor <;> cases claims <;> rfl

/-- A load starts at the first part that the record holds (R172). -/
theorem firstPart (r : SceneRecord) :
    let ph := r.parts.headD .channels
    (r.channels.isSome → ph = .channels) ∧ (r.channels = none → r.crosspoints.isSome → ph = .crosspoints)
      ∧ (r.channels = none → r.crosspoints = none → r.floor.isSome → ph = .floor)
      ∧ (r.channels = none → r.crosspoints = none → r.floor = none → r.claims.isSome → ph = .claims) := by
  dsimp only
  rw [headPart_eq]
  simp +contextual

theorem clearTouched_marks (s : State) : (∀ c, c < 42 → ((clearTouched s).chan c).touched = false)
    ∧ ∀ o, o < 17 → (clearTouched s).mix.rowTouched.get o = false := by
  refine ⟨fun c hc => ?_, fun o ho => (Tab.get_tabulate _ o).trans (if_pos ho)⟩
  exact congrArg Channel.touched ((State.chan_mapChans s c _).trans (if_pos hc))

/-- Settles O52. -/
theorem sceneLoadsStartAndAbort : Obligations.SceneLoadsStartAndAbort := by
  intro tag s hreset t
  refine ⟨fun slot hslot hno => ?refused, fun slot r hslot hrunning hstored => ?start, fun hidle => ?nothing,
    fun ld hload => ?abort⟩
  case refused =>
    refine takeRequest_fail hreset (firstFail_lastTwo (l := [(roomOnly .room, .denied), (decide (slot < 16), .range)])
      (by simp [roomOnly, hslot]) ?_)
    rcases hno with hstandby | hempty
    · exact .inl (by rw [show (settle s).sys.power = .standby from hstandby]; rfl)
    · exact .inr (by rw [show (settle s).scenes.slots.get slot = none from hempty]; rfl)
  case start =>
    have hfound : (settle s).scenes.slots.get slot = some r := hstored
    have hload : loadScene slot t = startLoad slot r t := by rw [loadScene, hstored]
    have hmarks := clearTouched_marks (endLoad .secondLoad t)
    refine ⟨startLoad slot r t, ?_, ⟨r.parts.headD .channels, rfl, firstPart r⟩, hmarks.1, hmarks.2, ?_,
      startLoad_changes slot r t⟩
    · refine (takeRequest_ok hreset (by simp [firstFail, roomOnly, hslot, hfound,
        show (settle s).sys.power = .running from hrunning])).trans ?_
      rw [hfound, ← steps_eq, ← hload]
    · have hquiet : Says (clearTouched (endLoad .secondLoad t)) (startLoad slot r t) [] := .quiet rfl rfl rfl
      exact (((says_endLoad .secondLoad t).then_ (says_clearTouched _)).then_ hquiet).1
  case nothing =>
    have hnone : endLoad .sceneAbort t = t := by rw [endLoad, hidle]
    exact (takeRequest_ok hreset rfl).trans (by rw [hnone]; rfl)
  case abort =>
    have hends : endLoad .sceneAbort t = raise (.sceneDone ld.slot .sceneAbort ld.applied ld.passed)
        (clearTouched { t with scenes := { t.scenes with load := none } }) := by rw [endLoad, hload]
    have hsays := (says_endLoad .sceneAbort t).1
    rw [sceneEnds, hload] at hsays
    refine ⟨endLoad .sceneAbort t, takeRequest_ok hreset rfl, endLoad_load _ t, fun c hc => ?_, hsays,
      endLoad_changes _ t⟩
    rw [hends, State.chan_raise]
    exact (clearTouched_marks _).1 c hc

end Sys2Proof.Proofs
end

