-- ==== Sys2Proof/Proofs/GainsWritten.lean ====
section
/-! PROOFS. Crosspoint and bus gains as they are written (R101, R105, R106, R174). -/

set_option Elab.async false

namespace Sys2Proof.Proofs

open Sys2Proof Sys2Proof.Machine

/-- A run of neighbouring entries written one after the other. -/
theorem runOver_set_get {α : Type} {m : Nat} [Inhabited α] (base : Nat) (g : Nat → α) (n : Nat) (t : Tab m α) {j : Nat}
    (hj : j < m) : (runOver (fun i x => x.set (base + i) (g i)) (List.range n) t).get j
      = if base ≤ j ∧ j < base + n then g (j - base) else t.get j := by
  induction n with
  | zero => rw [if_neg (by omega)]; rfl
  | succ n ih =>
    rw [List.range_succ, runOver, List.foldl_append]
    show ((runOver _ (List.range n) t).set (base + n) (g n)).get j = _
    rw [Tab.get_set, ih]
    by_cases hlast : j = base + n
    · subst hlast
      rw [if_pos ⟨rfl, hj⟩, if_pos ⟨by omega, by omega⟩, Nat.add_sub_cancel_left]
    · rw [if_neg (fun h => hlast h.1)]
      refine if_congr ?_ rfl rfl
      omega

/-- The checks before the last hold, and the last does not. -/
theorem firstFail_last {l : List (Bool × Result)} {a : Bool} {r : Result} (hpass : ∀ x ∈ l, x.1 = true)
    (hfail : a = false) : firstFail (l ++ [(a, r)]) = some r := by
  induction l with
  | nil => rw [hfail]; rfl
  | cons x l ih =>
    obtain ⟨ok, q⟩ := x
    obtain rfl : ok = true := hpass _ List.mem_cons_self
    exact ih fun y hy => hpass y (List.mem_cons_of_mem _ hy)

theorem touchRow_kept (o : Nat) (s : State) : (touchRow o s).mix.xp = s.mix.xp ∧ (touchRow o s).mix.bus = s.mix.bus := by
  unfold touchRow
  split <;> exact ⟨rfl, rfl⟩

/-- A row is marked where a load has not reached it (R174). -/
theorem touchRow_marks (o : Nat) (s : State) {r : Nat} (hr : r < 17) : (touchRow o s).mix.rowTouched.get r
    = (s.mix.rowTouched.get r || (decide (r = o) && s.notReached .crosspoints o)) := by
  unfold touchRow
  cases s.notReached .crosspoints o
  · simp
  · rw [if_pos rfl]
    dsimp only
    rw [Tab.get_set]
    by_cases hro : r = o
    · subst hro
      simp [hr]
    · simp [hro]

/-- Every masked pair of a run is given OFF. -/
theorem noSelf_iff (t : State) (o first : Nat) (values : List Int) : noSelf t o first values = true
    ↔ ∀ i, i < values.length → masked o (first + i) (t.chan (first + i)).zone = true → values.getD i 0 = -128 := by
  simp only [noSelf, State.maskedNow, List.all_eq_true, List.mem_range, Bool.or_eq_true, Bool.not_eq_true', beq_iff_eq]
  refine forall_congr' fun i => imp_congr_right fun _ => ?_
  cases masked o (first + i) (t.chan (first + i)).zone <;> simp

/-- A run written in one row, pair by pair. -/
theorem writeRun_xp {o first : Nat} {values : List Int} (ho : o < 17) (hrun : first + values.length ≤ 42) (s : State)
    {r c : Nat} (hr : r < 17) (hc : c < 42) : (writeRun o first values s).mix.xp.get (42 * r + c)
      = if r = o ∧ first ≤ c ∧ c < first + values.length then gainOf (values.getD (c - first) 0)
        else s.mix.xp.get (42 * r + c) := by
  have hsame : writeRun o first values s = { s with mix := { s.mix with
      xp := runOver (fun i x => x.set (42 * o + first + i) (gainOf (values.getD i 0))) (List.range values.length) s.mix.xp } } := by
    simp only [writeRun, Nat.add_assoc]
  rw [hsame, runOver_set_get (42 * o + first) (fun i => gainOf (values.getD i 0)) _ _ (by omega)]
  by_cases hin : r = o ∧ first ≤ c ∧ c < first + values.length
  · obtain ⟨rfl, hlow, hhigh⟩ := hin
    rw [if_pos ⟨by omega, by omega⟩, if_pos ⟨rfl, hlow, hhigh⟩, Nat.add_sub_add_left]
  · rw [if_neg hin, if_neg (by omega)]

/-- Settles O30. -/
theorem gainWrites : Obligations.GainWrites := by
  intro tag o s hreset ho t
  refine ⟨fun first values hne hrun hcodes => ?run, fun v hv => ?bus⟩
  case run =>
    have hcount : 1 ≤ values.length := List.length_pos_iff.2 hne
    have hpass : ∀ x ∈ [(roomOnly .room, Result.denied), (values.length == values.length, .malformed),
        (decide (o < 17), .range), (decide (first < 42), .range), (okRun 42 first values.length, .range),
        (values.all (okGain 0), .range)], x.1 = true := by
      have hall : values.all (okGain 0) = true := by
        rw [List.all_eq_true]
        intro v hv
        simpa [okGain] using hcodes v hv
      simp [roomOnly, ho, okRun, hcount, hrun, hall]
      omega
    refine ⟨fun hself => takeRequest_fail hreset ?_, fun hoff => ?_⟩
    · have hbad : noSelf (settle s) o first values = false := by
        refine Bool.eq_false_iff.2 fun hno => ?_
        obtain ⟨i, hi, hmasked, hgain⟩ := hself
        exact hgain ((noSelf_iff _ o first values).1 hno i hi hmasked)
      exact firstFail_last hpass hbad
    · refine ⟨writeRun o first values (touchRow o t), takeRequest_ok hreset ?_, fun r c hr hc => ?_, (touchRow_kept o t).2,
        fun r hr => touchRow_marks o t hr, (touchRow_changes o t).comp (setGains_changes _ _ _)⟩
      · exact (firstFail_none_iff _).2 (List.forall_mem_append.2 ⟨hpass, List.forall_mem_singleton.2
          ((noSelf_iff _ o first values).2 hoff)⟩)
      · rw [writeRun_xp ho hrun _ hr hc, (touchRow_kept o t).1, gainOf]
  case bus =>
    have hcode : okGain 24 v = true := by simpa [okGain] using hv
    refine ⟨_, takeRequest_ok hreset (by simp [firstFail, roomOnly, ho, hcode]), fun r hr => ?_, (touchRow_kept o t).1,
      fun r hr => touchRow_marks o t hr, (touchRow_changes o t).comp (setGains_changes _ _ _)⟩
    dsimp only
    rw [Tab.get_set, (touchRow_kept o t).2]
    simp only [ho, and_true]
    rfl

end Sys2Proof.Proofs
end

