-- ==== Sys2Proof/Proofs/FrameReads.lean ====
section
/-! PROOFS. Frames as bytes (R178, R179, R189, R190): what a request spells is read back field by field. -/

set_option Elab.async false

namespace Sys2Proof.Proofs

open Sys2Proof Sys2Proof.Machine

/-! ### Numbers as bytes -/

theorem length_uN (n v : Nat) : (uN n v).length = n := by
  induction n with
  | zero => rfl
  | succ n ih => rw [uN, List.length_cons, ih]

/-- The bytes of a number, read behind a number read before. -/
theorem foldl_uN (n v a : Nat) :
    (uN n v).foldl (fun m b => 256 * m + b.toNat) a = 256 ^ n * a + v % 256 ^ n := by
  induction n generalizing a with
  | zero => simp [uN, Nat.mod_one]
  | succ n ih =>
    have hbyte : (BitVec.ofNat 8 (v / 256 ^ n)).toNat = v / 256 ^ n % 256 := BitVec.toNat_ofNat _ _
    rw [uN, List.foldl_cons, ih, hbyte, Nat.pow_succ, Nat.mod_mul]
    ring

theorem ofBytes_uN {n v : Nat} (h : v < 256 ^ n) : ofBytes (uN n v) = v := by
  rw [ofBytes, foldl_uN, Nat.mod_eq_of_lt h]
  simp

theorem numAt_uN {n v : Nat} (h : v < 256 ^ n) (rest : List Byte) : numAt (uN n v ++ rest) 0 n = v := by
  rw [numAt, List.drop_zero, List.take_left' (length_uN n v), ofBytes_uN h]

theorem numAt_skip {xs rest : List Byte} {i : Nat} (n : Nat) (h : xs.length ≤ i) :
    numAt (xs ++ rest) i n = numAt rest (i - xs.length) n := by
  rw [numAt, numAt, List.drop_append, List.drop_of_length_le h, List.nil_append]

theorem numAt_uN_last {n v : Nat} (h : v < 256 ^ n) : numAt (uN n v) 0 n = v := by
  simpa using numAt_uN h []

/-! ### Fields -/

theorem fitsU_nat {n v : Nat} : fitsU n v = true ↔ v < 256 ^ n := by
  simp only [fitsU, decide_eq_true_eq]
  exact ⟨fun h => by exact_mod_cast h.2, fun h => ⟨Int.natCast_nonneg v, by exact_mod_cast h⟩⟩

theorem signedAt_s8 {v : Int} (h : fitsS v = true) (rest : List Byte) : signedAt (s8 v ++ rest) 0 = v := by
  obtain ⟨hlow, hhigh⟩ := of_decide_eq_true h
  show (BitVec.ofInt 8 v).toInt = v
  rw [BitVec.toInt_ofInt, Int.bmod_eq_of_le (by omega) (by omega)]

theorem signedAt_skip {xs rest : List Byte} {i : Nat} (h : xs.length ≤ i) :
    signedAt (xs ++ rest) i = signedAt rest (i - xs.length) := by
  rw [signedAt, signedAt, List.getD_append_right _ _ _ _ h]

theorem length_spelled (n : Nat) (f : OptField) : (f.spelled n).length = n + 1 := by
  rw [OptField.spelled, List.length_append, u8, length_uN, length_uN, Nat.add_comm]

theorem length_s8 (v : Int) : (s8 v).length = 1 := by simp [s8]

theorem length_spelledS (f : OptField) : f.spelledS.length = 2 := by
  rw [OptField.spelledS, List.length_append, u8, length_uN, length_s8]

/-- An optional field is read back as it was spelled. -/
theorem optAt_spelled {n : Nat} {f : OptField} (h : f.fitsU n = true) (rest : List Byte) :
    optAt (f.spelled n ++ rest) 0 n = f := by
  obtain ⟨hpresence, hvalue⟩ := Bool.and_eq_true_iff.1 h
  obtain ⟨hnonneg, hless⟩ := of_decide_eq_true hvalue
  have hnum : f.value.toNat < 256 ^ n := by
    have hcast : ((f.value.toNat : Nat) : Int) < ((256 ^ n : Nat) : Int) := by
      rw [Int.toNat_of_nonneg hnonneg]
      exact_mod_cast hless
    exact_mod_cast hcast
  obtain ⟨presence, value⟩ := f
  rw [optAt, OptField.spelled, List.append_assoc, u8, numAt_uN (by simpa using of_decide_eq_true hpresence),
    numAt_skip n (by rw [length_uN]), length_uN, Nat.sub_self, numAt_uN hnum, Int.toNat_of_nonneg hnonneg]

theorem optAt_skip {xs rest : List Byte} {i : Nat} (n : Nat) (h : xs.length ≤ i) :
    optAt (xs ++ rest) i n = optAt rest (i - xs.length) n := by
  rw [optAt, optAt, numAt_skip 1 h, numAt_skip n (by omega), Nat.sub_add_comm h]

theorem optSignedAt_spelled {f : OptField} (h : f.fitsS = true) (rest : List Byte) :
    optSignedAt (f.spelledS ++ rest) 0 = f := by
  obtain ⟨hpresence, hvalue⟩ := Bool.and_eq_true_iff.1 h
  obtain ⟨presence, value⟩ := f
  rw [optSignedAt, OptField.spelledS, List.append_assoc, u8, numAt_uN (by simpa using of_decide_eq_true hpresence),
    signedAt_skip (by rw [length_uN]), length_uN, Nat.sub_self, signedAt_s8 hvalue]

theorem optSignedAt_skip {xs rest : List Byte} {i : Nat} (h : xs.length ≤ i) :
    optSignedAt (xs ++ rest) i = optSignedAt rest (i - xs.length) := by
  rw [optSignedAt, optSignedAt, numAt_skip 1 h, signedAt_skip (by omega), Nat.sub_add_comm h]

theorem optAt_spelled_last {n : Nat} {f : OptField} (h : f.fitsU n = true) : optAt (f.spelled n) 0 n = f := by
  simpa using optAt_spelled h []

theorem optSignedAt_spelled_last {f : OptField} (h : f.fitsS = true) : optSignedAt f.spelledS 0 = f := by
  simpa using optSignedAt_spelled h []

theorem signedAt_s8_last {v : Int} (h : fitsS v = true) : signedAt (s8 v) 0 = v := signedAt_s8 h []

/-! ### Bodies -/

/-- The values of a run are read back. -/
theorem values_read {values : List Int} (h : values.all fitsS = true) :
    (values.flatMap s8).map BitVec.toInt = values := by
  induction values with
  | nil => rfl
  | cons v values ih =>
    obtain ⟨hv, hvalues⟩ := Bool.and_eq_true_iff.1 h
    have hhead : (BitVec.ofInt 8 v).toInt = v := signedAt_s8 hv []
    rw [List.flatMap_cons, List.map_append, ih hvalues]
    show (BitVec.ofInt 8 v).toInt :: values = _
    rw [hhead]

/-- The body that a request spells is taken as that request (R190). -/
theorem takeBody_body {i : Instr} {p : Port} {tag : Byte} {kind : Nat} (hreq : i.request = some (p, tag, kind))
    (hwf : i.wf = true) (s : State) : takeBody p tag kind i.body s = exec i s := by
  cases i
  all_goals simp only [Instr.request, Option.some.injEq, Prod.mk.injEq, reduceCtorEq] at hreq
  all_goals obtain ⟨rfl, rfl, rfl⟩ := hreq
  all_goals simp only [Instr.wf, Bool.and_eq_true, fitsU_nat, FloorFields.wf, SilenceFields.wf, Nat.reducePow] at hwf
  case crosspointWrite out first count values =>
    obtain ⟨⟨⟨hout, hfirst⟩, hcount⟩, hvalues⟩ := hwf
    have hdrop : (u8 out ++ (u8 first ++ (u8 count ++ values.flatMap s8))).drop 3 = values.flatMap s8 := rfl
    rw [takeBody, Instr.body, List.append_assoc, List.append_assoc, hdrop, values_read hvalues]
    simp [exec, u8, numAt_uN, numAt_skip, length_uN, hout, hfirst, hcount]
  all_goals simp [takeBody, floorFieldsAt, silenceFieldsAt, Instr.body, exec, u8, u16, List.append_assoc, numAt_uN,
    numAt_uN_last, numAt_skip, length_uN, length_s8, signedAt_s8, signedAt_s8_last, signedAt_skip, optAt_spelled,
    optAt_spelled_last, optAt_skip, optSignedAt_spelled, optSignedAt_spelled_last, optSignedAt_skip, length_spelled,
    length_spelledS, hwf]

theorem length_values (values : List Int) : (values.flatMap s8).length = values.length := by
  induction values with
  | nil => rfl
  | cons v values ih => rw [List.flatMap_cons, List.length_append, ih, length_s8, List.length_cons, Nat.add_comm]

/-- The body of a request has its kind's length (R190). -/
theorem bodyLength_body {i : Instr} {p : Port} {tag : Byte} {kind : Nat} (hreq : i.request = some (p, tag, kind))
    (hwf : i.wf = true) (hcounts : i.countsItems = true) :
    i.body.length = bodyLength kind i.body ∧ i.body.length < 259 ∧ 1 ≤ kind ∧ kind ≤ 44 := by
  cases i
  all_goals simp only [Instr.request, Option.some.injEq, Prod.mk.injEq, reduceCtorEq] at hreq
  all_goals obtain ⟨rfl, rfl, rfl⟩ := hreq
  case crosspointWrite out first count values =>
    obtain rfl : count = values.length := eq_of_beq hcounts
    simp only [Instr.wf, Bool.and_eq_true, fitsU_nat, Nat.reducePow] at hwf
    obtain ⟨⟨⟨hout, hfirst⟩, hcount⟩, hvalues⟩ := hwf
    simp [Instr.body, bodyLength, length_values, u8, length_uN, List.append_assoc, numAt_uN, numAt_skip, hcount,
      -List.length_flatMap]
    omega
  all_goals simp [Instr.body, bodyLength, u8, u16, length_uN, length_s8, length_spelled, length_spelledS]

/-! ### Frames -/

/-- The bytes of a frame before its check. -/
def frameInner (i : Instr) (kind : Nat) (tag : Byte) : List Byte := u16 (i.body.length + 2) ++ u8 kind ++ [tag] ++ i.body

theorem frame_eq (i : Instr) (kind : Nat) (tag : Byte) :
    i.frame kind tag = frameInner i kind tag ++ u16 (crc16 (frameInner i kind tag)).toNat := rfl

theorem length_frameInner (i : Instr) (kind : Nat) (tag : Byte) : (frameInner i kind tag).length = i.body.length + 4 := by
  simp [frameInner, u16, u8, length_uN]
  omega

theorem length_frame (i : Instr) (kind : Nat) (tag : Byte) : (i.frame kind tag).length = i.body.length + 6 := by
  rw [frame_eq, List.length_append, length_frameInner, u16, length_uN]

/-- The frame that a request spells is whole, and holds its kind, tag and body (R179, R189). -/
theorem frame_parts (i : Instr) {kind : Nat} (tag : Byte) (hlength : i.body.length + 2 < 65536) (hkind : kind < 256) :
    frameOk (i.frame kind tag) = true ∧ frameKind (i.frame kind tag) = kind ∧ frameTag (i.frame kind tag) = tag
      ∧ ((i.frame kind tag).drop 4).take ((i.frame kind tag).length - 6) = i.body := by
  have hsplit : i.frame kind tag = u16 (i.body.length + 2) ++ (u8 kind ++ (tag :: (i.body
      ++ u16 (crc16 (frameInner i kind tag)).toNat))) := by
    rw [frame_eq, frameInner]
    simp
  have hlen := length_frame i kind tag
  refine ⟨?_, ?_, ?_, ?_⟩
  · have hfield : numAt (i.frame kind tag) 0 2 = i.body.length + 2 := by
      rw [hsplit, u16, numAt_uN (by simpa using hlength)]
    have hend : (i.frame kind tag).length - 2 = (frameInner i kind tag).length := by
      rw [hlen, length_frameInner]
      rfl
    rw [frameOk, hfield, hend, frame_eq, List.drop_left, List.take_left, u16, ofBytes_uN (by exact BitVec.isLt _),
      ← u16, ← frame_eq, hlen]
    simp
  · rw [frameKind, if_pos (by omega), hsplit, u16, numAt_skip 1 (by rw [length_uN]), length_uN, u8,
      numAt_uN (by simpa using hkind)]
  · rw [frameTag, if_pos (by omega), hsplit]
    rfl
  · rw [hlen, Nat.add_sub_cancel, hsplit]
    exact List.take_left

/-- A frame taken while no reset is in force that is refused. -/
theorem badFrame_eq {p : Port} {bs : List Byte} {r : Result} {s : State} (hreset : s.sys.inReset = none) :
    badFrame p bs r s = .next (failReply p (frameTag bs) (frameKind bs) r (settle s)) :=
  takeRequest_fail hreset rfl

theorem isReset_of_request {i : Instr} {x : Port × Byte × Nat} (hreq : i.request = some x) : i.isReset = false := by
  refine Bool.eq_false_iff.2 fun hreset => ?_
  unfold Instr.isReset at hreset
  split at hreset
  · cases hreq
  · cases hreq
  · cases hreq
  · cases hreset

/-- A whole frame that spells a request is taken as it (R189, R190). -/
theorem exec_frame {i : Instr} {p : Port} {tag : Byte} {kind : Nat} (s : State) (hreq : i.request = some (p, tag, kind))
    (hwf : i.wf = true) (hcounts : i.countsItems = true) :
    exec (.unknownKindFrame p (i.frame kind tag)) s = exec i s := by
  obtain ⟨hbody, hshort, hmin, hmax⟩ := bodyLength_body hreq hwf hcounts
  obtain ⟨hok, hkind, htag, hrest⟩ := frame_parts i (kind := kind) tag (by omega) (by omega)
  have hlong : ¬ ((i.frame kind tag).length < 6 ∨ i.body.length ≠ bodyLength kind i.body) := by
    rw [length_frame, ← hbody]
    omega
  show execUnknownKindFrame p (i.frame kind tag) s = _
  rw [execUnknownKindFrame, hok, hkind, if_neg (by simp), if_neg (by omega), knownFrame, hrest, hkind, htag]
  by_cases hreset : s.sys.inReset = none
  · cases hright : kindRight p kind s
    · cases p with
      | room => simp [kindRight] at hright
      | codec =>
        have hdenied : codecKind kind s.sys.farmod = false := by simpa [kindRight] using hright
        rw [if_pos (by decide), badFrame_eq hreset, hkind, htag, exec_denied hreq hreset hdenied]
    · rw [if_neg (by simp), if_neg hlong, takeBody_body hreq hwf]
  · have hnone : exec i s = .next s := exec_inReset hreset (isReset_of_request hreq)
    cases kindRight p kind s
    · rw [if_pos (by decide), hnone]
      exact takeRequest_inReset hreset ..
    · rw [if_neg (by decide), if_neg hlong, takeBody_body hreq hwf]

/-- What a port becomes depends on the port as it stands. -/
theorem modPort_congr {p : Port} {s : State} {f g : PortState → PortState} (h : f (s.port p) = g (s.port p)) :
    s.modPort p f = s.modPort p g := by
  cases p with
  | room => exact congrArg (fun ps => { s with room := ps }) h
  | codec => exact congrArg (fun ps => { s with codec := ps }) h

/-- Settles O8. -/
theorem transactionsAndBadFrames : Obligations.TransactionsAndBadFrames := by
  refine ⟨fun p bs s hreset => ?frames, fun i p tag kind s hreq hwf hcounts => exec_frame s hreq hwf hcounts,
    fun p n s hreset => ?reads⟩
  case frames =>
    intro whole kind tag body
    have hok : frameOk bs = true ↔ whole := by
      simp only [frameOk, Bool.and_eq_true, decide_eq_true_eq, beq_iff_eq, and_assoc, whole]
    have hframe : exec (.unknownKindFrame p bs) s = execUnknownKindFrame p bs s := rfl
    have hbad {r : Result} (h : execUnknownKindFrame p bs s = badFrame p bs r s) :
        exec (.unknownKindFrame p bs) s = .next (failReply p tag kind r (settle s)) :=
      h.trans (badFrame_eq hreset)
    have hpassed (hwhole : whole) : ¬ (!frameOk bs) = true := by rw [hok.2 hwhole]; decide
    refine ⟨fun hnot => hbad ?_, fun hwhole hunknown => hbad ?_, fun hwhole hmin hmax => ?_⟩
    · exact if_pos (by rw [Bool.eq_false_iff.2 (fun h => hnot (hok.1 h))]; rfl)
    · exact (if_neg (hpassed hwhole)).trans (if_pos hunknown)
    · have hknown : execUnknownKindFrame p bs s = knownFrame p bs s := by
        have hin : ¬ (kind = 0 ∨ 44 < kind) := by omega
        exact (if_neg (hpassed hwhole)).trans (if_neg hin)
      refine ⟨fun hright => hbad (hknown.trans ?_), fun hright hlength => hbad (hknown.trans ?_)⟩
      · have hdenied : (!kindRight p (frameKind bs) s) = true := by rw [show kindRight p (frameKind bs) s = false from hright]; rfl
        exact if_pos hdenied
      · have hallowed : ¬ (!kindRight p (frameKind bs) s) = true := by
          rw [show kindRight p (frameKind bs) s = true from hright]; decide
        exact (if_neg hallowed).trans (if_pos hlength)
  case reads =>
    have hreset' : ¬ s.sys.inReset.isSome = true := by rw [hreset]; decide
    refine ⟨fun r hslot hread => ?_, fun hslot => ?_, fun b => if_neg hreset'⟩
    · have hout : (s.port p).readOut n
          = { s.port p with dataOut := r.frame.take n, read := decide (r.frame.length ≤ n) } := by
        simp [PortState.readOut, PortState.readFrame, hslot, hread]
      exact (if_neg hreset').trans (congrArg Host.Outcome.next (modPort_congr hout))
    · have hout : (s.port p).readOut n = { s.port p with dataOut := [0, 0].take n } := by
        rcases hslot with hnone | ⟨hsome, hread⟩
        · simp [PortState.readOut, PortState.readFrame, hnone, emptyFrame]
        · obtain ⟨r, hr⟩ := Option.isSome_iff_exists.1 hsome
          simp [PortState.readOut, PortState.readFrame, hr, hread, emptyFrame]
      exact (if_neg hreset').trans (congrArg Host.Outcome.next (modPort_congr hout))

end Sys2Proof.Proofs
end

