-- ==== Sys2Proof/Proofs/Settling.lean ====
section
/-! PROOFS. Settling a boundary (log 1 to 3), the frame that a line forms and its bytes (R128 to R130, R139, R146). -/

set_option Elab.async false

namespace Sys2Proof.Proofs

open Sys2Proof Sys2Proof.Machine

/-! ### Frames that are formed -/

theorem closeFrames_due (s : State) : (closeFrames s).due = s.due := (closeFrames_changes s).1 .due (by decide)

theorem formed_toForm (ln : Line) (audio : List (List Int)) (n : Nat) : (ln.formed audio n).toForm = false := by
  unfold Line.formed Line.runningFrame
  dsimp only
  split
  case h_4 | h_5 => split <;> rfl
  all_goals rfl

theorem closeFrames_of_unready {s : State} (h : ∀ l, l < 4 → s.frameReady l = false) : closeFrames s = s :=
  runOver_keep_mem (P := fun t => t = s) lineNumbers s (fun l hl t ht => by
    subst ht
    rw [h l (List.mem_range.1 hl)]
    rfl) rfl

/-- Forming the frames again forms none. -/
theorem closeFrames_twice (s : State) : closeFrames (closeFrames s) = closeFrames s := by
  refine closeFrames_of_unready fun l hl => ?_
  have hline := closeFrames_line s hl
  by_cases hready : s.frameReady l = true
  · rw [if_pos hready] at hline
    rw [State.frameReady, hline, formed_toForm]
    rfl
  · rw [if_neg hready] at hline
    rw [State.frameReady, hline, closeFrames_due]
    exact Bool.eq_false_iff.2 hready

/-! ### Draining -/

theorem takings_append (xs ys : List Event) : takings (xs ++ ys) = takings xs + takings ys := by
  rw [takings, List.map_append, List.sum_append]
  rfl

theorem takings_cons (e : Event) (es : List Event) : takings (e :: es) = e.takings + takings es := rfl

theorem takings_pos (e : Event) : 1 ≤ e.takings := by
  unfold Event.takings
  split <;> decide

theorem takings_filter_le (f : Event → Bool) (es : List Event) : takings (es.filter f) ≤ takings es := by
  induction es with
  | nil => exact Nat.le_refl _
  | cons e es ih =>
    rw [List.filter_cons]
    split
    · rw [takings_cons, takings_cons]
      omega
    · rw [takings_cons]
      omega

/-- Level watches lead to one taking each. -/
theorem takings_watches (ns : List Nat) : takings (ns.map Event.levelWatch) = ns.length := by
  induction ns with
  | nil => rfl
  | cons n ns ih => rw [List.map_cons, takings_cons, ih, List.length_cons, Nat.add_comm]; rfl

/-- An event makes no more due than its takings count. -/
theorem takings_act (e : Event) (s : State) : takings (act e s).due + 1 ≤ takings s.due + e.takings := by
  have hpos := takings_pos e
  by_cases hdue : Part.due ∈ e.parts
  · cases e
    case capture =>
      have hcount : (watchNumbers.filter (fun n => ((captureNow s).meters.watches.get n).fires)).length ≤ 8 :=
        List.length_filter_le _ _
      have hadd : (captureNow s).due
          = s.due ++ (watchNumbers.filter (fun n => ((captureNow s).meters.watches.get n).fires)).map Event.levelWatch := rfl
      show takings (when _ captureNow s).due + 1 ≤ takings s.due + 9
      unfold when
      split
      · rw [hadd, takings_append, takings_watches]
        omega
      · omega
    case talkTimerTick c =>
      show takings (actTalkTimerTick c s).due + 1 ≤ takings s.due + 2
      have hadd {u : State} {es : List Event} (hu : u.due = s.due) (hes : takings es ≤ 1) :
          takings (u.addDue es).due + 1 ≤ takings s.due + 2 := by
        rw [State.addDue_due, takings_append, hu]
        omega
      have hticked (x : TalkTimer) : (refreshRings (s.modFloor (fun f => f.modEntry c (fun e =>
          { e with talk := some x })))).due = s.due := (refreshRings_changes _).1 .due (by decide)
      unfold actTalkTimerTick
      split
      · omega
      · split
        · omega
        · dsimp only
          split
          · exact hadd (hticked _) (Nat.le_refl 1)
          · split
            · exact hadd (hticked _) (Nat.le_refl 1)
            · rw [hticked]
              omega
    all_goals exact absurd hdue (by dsimp only [Event.parts]; decide)
  · have hsame : (act e s).due = s.due := (act_changes e s).1 .due hdue
    rw [hsame]
    omega

theorem takings_undue (e : Event) (s : State) :
    takings (s.undue e).due + (if s.isDue e then e.takings else 0) ≤ takings s.due := by
  rw [State.undue_due, State.isDue]
  induction s.due with
  | nil => exact Nat.le_refl _
  | cons d ds ih =>
    by_cases hd : d = e
    · subst hd
      have hle := takings_filter_le (fun x => x != d) ds
      rw [List.filter_cons_of_neg (by simp), takings_cons, List.contains_cons, beq_self_eq_true, Bool.true_or, if_pos rfl]
      omega
    · have hne : (d != e) = true := bne_iff_ne.2 hd
      have hne' : (e == d) = false := beq_eq_false_iff_ne.2 (Ne.symm hd)
      rw [List.filter_cons_of_pos (p := fun x => x != e) hne, takings_cons, takings_cons, List.contains_cons, hne', Bool.false_or]
      omega

/-- An event from outside makes none due. -/
theorem takings_external {e : Event} (h : e.external = true) : e.takings = 1 := by
  unfold Event.takings
  split
  · cases h
  · cases h
  · rfl

/-- An event that is taken leaves fewer takings where it was due, and no more where it was not. -/
theorem takings_takeOne (e : Event) (s : State) :
    takings (takeOne e s).due + (if s.isDue e then 1 else 0) ≤ takings s.due := by
  have hundue := takings_undue e s
  have hact := takings_act e (s.undue e)
  unfold takeOne
  by_cases hdue : s.isDue e = true
  · rw [if_pos hdue] at hundue
    rw [if_pos (Bool.or_eq_true_iff.2 (.inr hdue)), if_pos hdue]
    omega
  · rw [if_neg hdue] at hundue
    rw [if_neg hdue]
    by_cases hext : e.external = true
    · have hone := takings_external hext
      rw [if_pos (Bool.or_eq_true_iff.2 (.inl hext))]
      omega
    · rw [if_neg (by rw [Bool.or_eq_true_iff]; exact fun h => h.elim hext hdue)]
      omega

theorem takings_foldl (es : List Event) (s : State) :
    takings (es.foldl (fun s d => takeOne d s) s).due ≤ takings s.due := by
  induction es generalizing s with
  | nil => exact Nat.le_refl _
  | cons d ds ih =>
    have hone := takings_takeOne d s
    exact (ih (takeOne d s)).trans (by omega)

theorem forerunners_due {e d : Event} {s : State} (h : d ∈ e.forerunners s) : s.isDue d = true := by
  rw [State.isDue, List.contains_iff_mem]
  unfold Event.forerunners at h
  split at h
  · exact (List.mem_filter.1 h).1
  · exact (List.mem_filter.1 h).1
  · cases h

/-- A due event that is taken leaves fewer takings. -/
theorem takings_takeEvent_lt {e : Event} {s : State} (h : s.isDue e = true) :
    takings (takeEvent e s).due + 1 ≤ takings s.due := by
  rw [takeEvent, h, Bool.or_true, if_pos rfl]
  cases hfirst : e.forerunners s with
  | nil =>
    have hone := takings_takeOne e s
    rw [h, if_pos rfl] at hone
    exact hone
  | cons d ds =>
    have hd := takings_takeOne d s
    rw [forerunners_due (hfirst ▸ List.mem_cons_self), if_pos rfl] at hd
    have hrest := takings_foldl ds (takeOne d s)
    have hlast := takings_takeOne e (ds.foldl (fun s d => takeOne d s) (takeOne d s))
    rw [List.foldl_cons]
    omega

theorem drain_cons {n : Nat} {s : State} {e : Event} {rest : List Event} (h : s.due = e :: rest) :
    drain (n + 1) s = drain n (closeFrames (takeEvent e s)) := by
  rw [drain, h]

theorem drain_nil {n : Nat} {s : State} (h : s.due = []) : drain n s = s := by
  cases n with
  | zero => rfl
  | succ n => rw [drain, h]

/-- What is left after the event at the head is taken. -/
theorem takings_next {s : State} {e : Event} {rest : List Event} (h : s.due = e :: rest) :
    takings (closeFrames (takeEvent e s)).due + 1 ≤ takings s.due := by
  rw [closeFrames_due]
  exact takings_takeEvent_lt (by rw [State.isDue, h]; simp)

/-- With the takings of the due events at hand, one more drains no further. -/
theorem drain_succ {n : Nat} {s : State} (h : takings s.due ≤ n) : drain (n + 1) s = drain n s := by
  induction n generalizing s with
  | zero =>
    cases hdue : s.due with
    | nil => rw [drain_nil hdue, drain_nil hdue]
    | cons e rest =>
      have hpos := takings_pos e
      rw [hdue, takings_cons] at h
      omega
  | succ n ih =>
    cases hdue : s.due with
    | nil => rw [drain_nil hdue, drain_nil hdue]
    | cons e rest =>
      have hnext := takings_next hdue
      rw [drain_cons hdue, drain_cons hdue]
      exact ih (by omega)

theorem drain_enough {s : State} (k : Nat) : drain (takings s.due + k) s = drain (takings s.due) s := by
  induction k with
  | zero => rfl
  | succ k ih => rw [← Nat.add_assoc, drain_succ (by omega), ih]

/-- Settling takes the event at the head of those due, and goes on so (log 1, 2). -/
theorem settle_cons {s : State} {e : Event} {rest : List Event} (h : s.due = e :: rest) :
    settle s = settle (closeFrames (takeEvent e (closeFrames s))) := by
  have hdue : (closeFrames s).due = e :: rest := (closeFrames_due s).trans h
  have hnext := takings_next hdue
  unfold settle
  dsimp only
  rw [closeFrames_twice]
  generalize hs' : closeFrames (takeEvent e (closeFrames s)) = s' at hnext
  obtain ⟨k, hk⟩ := Nat.exists_eq_add_of_le (show takings s'.due + 1 ≤ takings (closeFrames s).due from hnext)
  rw [hk, show takings s'.due + 1 + k = takings s'.due + k + 1 by omega, drain_cons hdue, hs', drain_enough]

theorem settle_nil {s : State} (h : s.due = []) : settle s = closeFrames s := by
  have hdue : (closeFrames s).due = [] := (closeFrames_due s).trans h
  have hsame : { closeFrames s with due := [] } = closeFrames s := by rw [← hdue]
  unfold settle
  dsimp only
  rw [drain_nil hdue, hsame, closeFrames_twice]

/-! ### The arbiter (R138, R139, R141) -/

theorem kind_priority (c : LineCmd) : c.kind = c.priority + 1 := by cases c <;> rfl

/-- What goes before has the lower rank, where every position is one of a line. -/
theorem rank_of_goesBefore {e f : Entry} (h : e.goesBefore f) (he : ∀ p, e.dest = .position p → p < 8) :
    e.rank < f.rank := by
  have horder : e.dest.order ≤ 8 := by
    cases hdest : e.dest with
    | broadcast => decide
    | position p => exact he p hdest
  have hpe := kind_priority e.cmd
  have hpf := kind_priority f.cmd
  unfold Entry.rank
  rcases h with hkind | ⟨hkind, hbroadcast | ⟨p, q, hp, hq, hpq⟩⟩
  · omega
  · obtain ⟨hbe, hbf⟩ := hbroadcast
    cases hdest : f.dest with
    | broadcast => exact absurd hdest hbf
    | position q =>
      rw [hbe, Addressee.order, Addressee.order]
      omega
  · rw [hp, hq, Addressee.order, Addressee.order]
    omega

theorem choose_mem {table : List Entry} {f : Entry} (h : choose table = some f) : f ∈ table := by
  induction table generalizing f with
  | nil => cases h
  | cons x xs ih =>
    unfold choose at h
    split at h
    · obtain rfl := Option.some.inj h
      exact List.mem_cons_self
    · next g hg =>
      split at h
      · obtain rfl := Option.some.inj h
        exact List.mem_cons_self
      · obtain rfl := Option.some.inj h
        exact List.mem_cons_of_mem _ (ih hg)

/-- The entry whose rank is below that of every other is chosen. -/
theorem choose_of_least {table : List Entry} {e : Entry} (he : e ∈ table)
    (hleast : ∀ f ∈ table, f = e ∨ e.rank < f.rank) : choose table = some e := by
  induction table with
  | nil => cases he
  | cons x xs ih =>
    have hrest : ∀ f ∈ xs, f = e ∨ e.rank < f.rank := fun f hf => hleast f (List.mem_cons_of_mem _ hf)
    unfold choose
    split
    · next hnone =>
      rcases List.mem_cons.1 he with rfl | hin
      · rfl
      · rw [ih hin hrest] at hnone
        cases hnone
    · next g hg =>
      by_cases hin : e ∈ xs
      · obtain rfl : e = g := Option.some.inj ((ih hin hrest).symm.trans hg)
        rcases hleast x List.mem_cons_self with rfl | hlt
        · rw [if_pos (Nat.le_refl _)]
        · rw [if_neg (Nat.not_le.2 hlt)]
      · obtain rfl : e = x := (List.mem_cons.1 he).resolve_right hin
        rcases hrest g (choose_mem hg) with rfl | hlt
        · exact absurd (choose_mem hg) hin
        · rw [if_pos (Nat.le_of_lt hlt)]

/-- Of entries that are chosen among, the chosen one alone has its key. -/
theorem sameKey_chosen {e f : Entry} (h : f = e ∨ e.goesBefore f) : f.sameKey e = decide (f = e) := by
  rcases h with rfl | hbefore
  · simp [Entry.sameKey]
  · have hkey : f.sameKey e = false := by
      rw [Entry.sameKey, Bool.and_eq_false_iff, beq_eq_false_iff_ne, beq_eq_false_iff_ne]
      rcases hbefore with hkind | ⟨-, ⟨hbe, hbf⟩ | ⟨p, q, hp, hq, hpq⟩⟩
      · exact .inr (Nat.ne_of_gt hkind)
      · exact .inl (by rw [hbe]; exact hbf)
      · refine .inl ?_
        rw [hp, hq]
        exact fun h => absurd (Addressee.position.inj h) (by omega)
    have hne : f ≠ e := by
      rintro rfl
      simp [Entry.sameKey] at hkey
    rw [hkey, decide_eq_false hne]

/-- An entry once the frame of the chosen one is formed. -/
def markedEntry (e f : Entry) : Entry :=
  match f.cmd with
  | .wake k => ⟨f.dest, .wake (if f = e then k - 1 else 12), decide (f = e)⟩
  | _ => { f with sent := decide (f = e) }

theorem afterFrame_eq {e f : Entry} (h : f = e ∨ e.goesBefore f) : Entry.afterFrame e f = markedEntry e f := by
  unfold Entry.afterFrame markedEntry
  rw [sameKey_chosen h]
  by_cases hfe : f = e
  · rw [if_pos (decide_eq_true hfe), decide_eq_true hfe]
    simp only [if_pos hfe]
    rcases f with ⟨dest, cmd, sent⟩
    cases cmd <;> rfl
  · rw [if_neg (by simpa using hfe), decide_eq_false hfe]
    simp only [if_neg hfe]
    rcases f with ⟨dest, cmd, sent⟩
    cases cmd <;> rfl

theorem sameKey_marked (e f : Entry) : (markedEntry e f).sameKey e = f.sameKey e := by
  unfold markedEntry
  rcases f with ⟨dest, cmd, sent⟩
  cases cmd <;> rfl

/-- The table once the frame of the chosen entry is formed. -/
theorem tableAfter_eq {table : List Entry} {e : Entry} (h : ∀ f ∈ table, f = e ∨ e.goesBefore f) :
    tableAfter table e = (table.filter (fun f => !(f == e && e.dest == .broadcast))).map (markedEntry e) := by
  have hmarked : table.map (Entry.afterFrame e) = table.map (markedEntry e) :=
    List.map_congr_left fun f hf => afterFrame_eq (h f hf)
  unfold tableAfter
  dsimp only
  rw [hmarked]
  cases hdest : e.dest == .broadcast
  · rw [if_neg (by decide)]
    simp
  · rw [if_pos rfl, List.filter_map]
    congr 1
    refine List.filter_congr fun f hf => ?_
    rw [Function.comp_apply, sameKey_marked, sameKey_chosen (h f hf), Bool.and_true]
    rfl

/-! ### Frames by state and as bytes (R128, R130, R146, R189) -/

theorem formed_running {ln : Line} (hstate : ln.state = .running ∨ ln.state = .sleeping) (audio : List (List Int)) (n : Nat) :
    ln.formed audio n = { ln with toForm := false, early := false }.runningFrame audio := by
  unfold Line.formed
  rcases hstate with h | h <;> rw [h]

theorem runningFrame_none {ln : Line} (h : ln.table = []) (audio : List (List Int)) :
    ln.runningFrame audio = { ln with frame := some (.running none audio) } := by
  unfold Line.runningFrame
  rw [h]
  rfl

theorem runningFrame_chosen {ln : Line} {e : Entry} (h : choose ln.table = some e) (audio : List (List Int)) :
    ln.runningFrame audio = { ln with
      frame := some (.running (some { e with sent := true }) audio), table := tableAfter ln.table e } := by
  unfold Line.runningFrame
  rw [h]

/-- Another pattern than before, of any number of patterns above 1. -/
theorem add_mod_ne {a k m : Nat} (ha : a < m) (hm : 1 < m) : (a + 1 + k % (m - 1)) % m ≠ a := by
  have hk : k % (m - 1) < m - 1 := Nat.mod_lt _ (by omega)
  rcases Nat.lt_or_ge (a + 1 + k % (m - 1)) m with hlt | hge
  · rw [Nat.mod_eq_of_lt hlt]
    omega
  · rw [Nat.mod_eq_sub_mod hge, Nat.mod_eq_of_lt (by omega)]
    omega

theorem testPattern_lt (l n : Nat) : testPattern l n < testPatterns := by
  have hpos : 0 < testPatterns := Nat.pow_pos (by decide)
  cases n with
  | zero => exact Nat.mod_lt _ hpos
  | succ n => exact Nat.mod_lt _ hpos

theorem testPattern_ne (l n : Nat) : testPattern l (n + 1) ≠ testPattern l n :=
  add_mod_ne (testPattern_lt l n) (Nat.one_lt_pow (by decide) (by decide))

/-- The head of a running frame with a command, byte by byte. -/
theorem commandHead_eq (e : Entry) :
    (match e.dest with
      | .position p => u8 p
      | .broadcast => u8 0xFF) ++ u8 e.cmd.kind ++ u8 e.cmd.argByte ++ u8 0
    = (match e.dest with
      | .position p => u8 p
      | .broadcast => [0xFF]) ++ u8 e.cmd.kind ++ (match e.cmd with
      | .rollCall called => u8 called.toNat
      | .ring v pulse => u8 (v.colour.code + 8 * v.fn.code + (if pulse then 32 else 0))
      | _ => [0]) ++ [0] := by
  have hdest : (match e.dest with
      | .position p => u8 p
      | .broadcast => u8 0xFF) = (match e.dest with
      | .position p => u8 p
      | .broadcast => [0xFF]) := by cases e.dest <;> rfl
  have harg : u8 e.cmd.argByte = (match e.cmd with
      | .rollCall called => u8 called.toNat
      | .ring v pulse => u8 (v.colour.code + 8 * v.fn.code + (if pulse then 32 else 0))
      | _ => [0]) := by
    cases e.cmd with
    | sleep => rfl
    | wake n => exact (rfl : u8 0 = [0])
    | rollCall called => rfl
    | ring v pulse => rfl
  rw [hdest, harg]
  rfl

/-- Bytes behind a sync word, with their check. -/
def framedBytes (sync : Nat) (inner : List Byte) : List Byte := u16 sync ++ inner ++ u16 (crc16 inner).toNat

theorem runningBytes_some (e : Entry) (audio : List (List Int)) : runningBytes (some e) audio
    = framedBytes 0x3C96 ((match e.dest with
      | .position p => u8 p
      | .broadcast => u8 0xFF) ++ u8 e.cmd.kind ++ u8 e.cmd.argByte ++ u8 0
      ++ positions.flatMap (fun p => audioBytes (audio.getD p []))) := rfl

theorem runningBytes_none (audio : List (List Int)) : runningBytes none audio
    = framedBytes 0x3C96 ([0xFE, 0, 0, 0] ++ positions.flatMap (fun p => audioBytes (audio.getD p []))) := rfl

theorem testBytes_eq (l n : Nat) : testBytes l n = framedBytes 0xC369 ([0xFE, 0, 0, 0] ++ uN 1152 (testPattern l n)) := rfl

/-- Settles O10. -/
theorem settlingTakesEventsAndFormsFrames : Obligations.SettlingTakesEventsAndFormsFrames := by
  refine ⟨fun s => ⟨settle_settled s, settle_of_settled, settle_nil, fun e rest h => settle_cons h, fun i e he hreset => ?_,
    fun l hl => closeFrames_line s hl, (closeFrames_changes s).1, fun l p hp => ⟨rfl, ?_⟩⟩, fun ln audio n => ?formed,
    fun l n e audio => ?bytes⟩
  · rw [exec_event he, runEvent, if_neg (by rw [hreset]; decide)]
  · rw [State.audioSlots, List.getD_eq_getElem?_getD, List.getElem?_map, List.getElem?_range hp]
    rfl
  case formed =>
    refine ⟨fun h => ?_, fun h => ?_, fun h => ?_, fun h => ⟨fun hempty => ?_, fun e he hleast hpos => ?_⟩⟩
    · rw [Line.formed, h]
    · rw [Line.formed, h]
      rfl
    · rw [Line.formed, h]
    · rw [formed_running h]
      exact runningFrame_none (ln := { ln with toForm := false, early := false }) hempty audio
    · have hchosen : choose ln.table = some e := choose_of_least he fun f hf =>
        (hleast f hf).imp_right fun hbefore => rank_of_goesBefore hbefore fun p => hpos e he p
      rw [formed_running h]
      refine (runningFrame_chosen (ln := { ln with toForm := false, early := false }) hchosen audio).trans ?_
      dsimp only
      rw [tableAfter_eq hleast]
      rfl
  case bytes =>
    have hcommand : runningBytes (some e) audio = _ := runningBytes_some e audio
    rw [commandHead_eq] at hcommand
    exact ⟨runningBytes_none audio, hcommand, hcommand, testBytes_eq l n, testPattern_lt l n, testPattern_ne l n⟩

end Sys2Proof.Proofs
end

