-- ==== Sys2Proof/Proofs/FloorDepartures.lean ====
section
/-! PROOFS. Departures from the floor: Revoke, WaitDrop, the timers of the lists (R57, R59, R77, R78, R81). -/

set_option Elab.async false

namespace Sys2Proof.Proofs

open Sys2Proof Sys2Proof.Machine

/-! ### The guard timer where it runs as it should -/

/-- The guard timer stands where a PENDING entry waits for it. -/
def timed (f : Floor) : Prop := f.hasPending = true → f.leaving = [] → f.guard.isSome = true

theorem timed_of_guarded {f : Floor} (h : f.guarded) : timed f := by
  intro hpending hleaving
  rw [h, hpending, hleaving]
  rfl

/-- The guard timer is stopped, or kept as it stands. -/
def guardKept (f : Floor) : Floor := { f with guard := if f.hasPending && f.leaving.isEmpty then f.guard else none }

theorem settleGuard_of_timed {s : State} (h : timed s.floor) : settleGuard s = s.modFloor guardKept := by
  unfold settleGuard
  by_cases hboth : (s.floor.hasPending && s.floor.leaving.isEmpty) = true
  · obtain ⟨hpending, hleaving⟩ := Bool.and_eq_true_iff.1 hboth
    have hsame : guardKept s.floor = s.floor := by rw [guardKept, if_pos hboth]
    rw [if_neg (by rw [hpending, hleaving]; decide), if_pos (h hpending (List.isEmpty_iff.1 hleaving)),
      State.modFloor, hsame]
  · have hstops : guardKept s.floor = { s.floor with guard := none } := by rw [guardKept, if_neg hboth]
    rw [if_pos (by rw [← Bool.not_and, Bool.eq_false_iff.2 hboth]; rfl), State.modFloor,
      State.modFloor, hstops]

theorem guarded_guardKept {f : Floor} (h : timed f) : (guardKept f).guarded := by
  show (if f.hasPending && f.leaving.isEmpty then f.guard else none).isSome = (f.hasPending && f.leaving.isEmpty)
  by_cases hboth : (f.hasPending && f.leaving.isEmpty) = true
  · rw [if_pos hboth, hboth]
    obtain ⟨hpending, hleaving⟩ := Bool.and_eq_true_iff.1 hboth
    exact h hpending (List.isEmpty_iff.1 hleaving)
  · rw [if_neg hboth, Bool.eq_false_iff.2 hboth]
    rfl

theorem afterFloor_of_timed {s : State} (h : timed s.floor) : afterFloor s = afterFloor (s.modFloor guardKept) := by
  have hguarded : (s.modFloor guardKept).floor.guarded := guarded_guardKept h
  unfold afterFloor
  rw [settleGuard_of_timed h, settleGuard_of_guarded hguarded]

/-- What follows where the guard timer runs as it should is of channels admitted alone. -/
theorem says_afterFloor_of_timed {s : State} (h : timed s.floor) :
    ∃ bs, Says s (afterFloor s) bs ∧ ∀ b ∈ bs, ∃ d, s.floor.waiting? d ≠ none ∧ Admits d b := by
  rw [afterFloor_of_timed h]
  obtain ⟨bs, hsays, hbs⟩ := says_afterFloor_of_guarded (s := s.modFloor guardKept) (guarded_guardKept h)
  exact ⟨bs, (says_modFloor _ s).after hsays, hbs⟩

/-- An entry that leaves leaves the timer as it should be. -/
theorem timed_dropEntry {f : Floor} (h : f.guarded) (c : Nat) : timed (f.dropEntry c) := by
  intro hpending hleaving
  obtain ⟨e, he, hst⟩ := List.any_eq_true.1 hpending
  have hbefore : f.hasPending = true := List.any_eq_true.2 ⟨e, (List.mem_filter.1 he).1, hst⟩
  have htimed : timed f := timed_of_guarded h
  exact htimed hbefore hleaving

/-! ### Revoke and WaitDrop (R77, R78) -/

/-- A member leaves without a handover, and what it leaves behind (R57, R77, R81). -/
theorem leaveList_rows {c : Nat} {k : FloorCause} {s : State} (h : s.floorLawful) (hc : s.floor.entry? c ≠ none) :
    (leaveList c k s).floor.entry? c = none ∧ (leaveList c k s).floor.waiting? c = none
      ∧ (leaveList c k s).floor.leaving = s.floor.leaving
      ∧ (leaveList c k s).floor.latch = (s.floor.latch && s.floor.chair != some c) := by
  obtain ⟨hentry, hwaiting, -⟩ := leaveList_off (k := k) (floorKept_of_lawful h) hc
  obtain ⟨hleaving, -, -, -, hlatch⟩ := afterFloor_floor (floorChange c (s.gate c) .closed k (takeOff c s))
  exact ⟨hentry, hwaiting, hleaving, hlatch⟩

/-- A waiting channel is dropped, with WAIT_DROPPED (R59, R78). -/
theorem dropWaiting_rows {c : Nat} {k : DropCause} {w : WaitEntry} {s : State} (h : s.floorLawful)
    (hc : s.floor.waiting? c = some w) :
    (dropWaiting c k s).floor.entry? c = none ∧ (dropWaiting c k s).floor.waiting? c = none
      ∧ (dropWaiting c k s).floor.leaving = s.floor.leaving
      ∧ ∃ rest, Says s (dropWaiting c k s) (.waitDropped c k w.timer (s.floor.dropWait c).wait.length :: rest) := by
  have hdrop : dropWaiting c k s = afterFloor (raise (.waitDropped c k w.timer (s.floor.dropWait c).wait.length)
      (s.modFloor (fun f => f.dropWait c))) := by
    unfold dropWaiting
    rw [hc]
    rfl
  have hentry := ((floorKept_of_lawful h).only_wait (c := c) (by rw [hc]; simp)).1
  have hwaiting : (s.modFloor (fun f => f.dropWait c)).floor.waiting? c = none :=
    (Floor.waiting?_dropWait ..).trans (if_pos rfl)
  obtain ⟨rest, hsays, -⟩ := says_afterFloor (raise (.waitDropped c k w.timer (s.floor.dropWait c).wait.length)
    (s.modFloor (fun f => f.dropWait c)))
  obtain ⟨hoff, hnowait⟩ := afterFloor_off (c := c) (s := raise (.waitDropped c k w.timer
    (s.floor.dropWait c).wait.length) (s.modFloor (fun f => f.dropWait c))) hentry hwaiting
  rw [hdrop]
  exact ⟨hoff, hnowait, (afterFloor_floor _).1, rest,
    ((says_modFloor _ s).after (says_raise _ (s.modFloor (fun f => f.dropWait c)))).trans hsays⟩

/-- Settles O25. -/
theorem revokeAndWaitDrop : Obligations.RevokeAndWaitDrop := by
  intro p tag c s hreset t hlaw hright hc
  have hmoderates : moderates p (settle s) = true := by
    cases p with
    | room => rfl
    | codec => exact hright rfl
  refine ⟨fun hnone => ?_, fun hmember => ?_, fun hnone => ?_, fun w hw => ?_⟩
  · exact takeRequest_fail hreset (by simp [firstFail, hmoderates, hc, show (settle s).floor.entry? c = none from hnone])
  · obtain ⟨hentry, hwaiting, hleaving, hlatch⟩ := leaveList_rows (k := .revoked) hlaw hmember
    obtain ⟨rest, hsays, -⟩ := says_leaveList (k := .revoked) (floorKept_of_lawful hlaw) hmember
    refine ⟨refreshRings (leaveList c .revoked t), takeRequest_ok hreset ?_, ?_, ?_, ?_, ?_,
      ⟨rest, (hsays.then_ (says_refreshRings _)).1⟩,
      (leaveList_changes c .revoked t).comp (refreshRings_changes _)⟩
    · have hsome : ((settle s).floor.entry? c).isSome = true := Option.isSome_iff_ne_none.2 hmember
      simp [firstFail, hmoderates, hc, hsome]
    all_goals rw [refreshRings_floor]; assumption
  · exact takeRequest_fail hreset (by simp [firstFail, hmoderates, hc, show (settle s).floor.waiting? c = none from hnone])
  · obtain ⟨hentry, hwaiting, hleaving, rest, hsays⟩ := dropWaiting_rows (k := .request p) hlaw hw
    refine ⟨refreshRings (dropWaiting c (.request p) t), takeRequest_ok hreset ?_, ?_, ?_, ?_,
      ⟨rest, (hsays.then_ (says_refreshRings _)).1⟩,
      (dropWaiting_changes c (.request p) t).comp (refreshRings_changes _)⟩
    · simp [firstFail, hmoderates, hc, show (settle s).floor.waiting? c = some w from hw]
    all_goals rw [refreshRings_floor]; assumption

/-! ### Timers (R57, R59, R81) -/

/-- The talk limit takes a member off, and TALK_END stands for its FLOOR_CHANGE (R81). -/
theorem endTalk_rows {c n : Nat} {s : State} (h : s.floorLawful) (hc : s.floor.entry? c ≠ none) :
    (endTalk c n s).floor.entry? c = none ∧ (endTalk c n s).floor.waiting? c = none
      ∧ (endTalk c n s).floor.leaving = s.floor.leaving
      ∧ (endTalk c n s).floor.latch = (s.floor.latch && s.floor.chair != some c)
      ∧ ∃ rest, Says s (endTalk c n s) (.talkEnd c n (s.floor.dropEntry c).list.length s.floor.wait.length
          s.floor.leaving.length (s.floor.dropEntry c).openCount :: rest) ∧ ∀ b ∈ rest, ∃ d, d ≠ c ∧ Admits d b := by
  have hwaiting := ((floorKept_of_lawful h).only_list hc).1
  have hentry : (takeOff c s).floor.entry? c = none := by rw [takeOff_entry?, if_pos rfl]
  have hend : endTalk c n s = afterFloor (raise (.talkEnd c n (s.floor.dropEntry c).list.length s.floor.wait.length
      s.floor.leaving.length (s.floor.dropEntry c).openCount) (takeOff c s)) := rfl
  rw [hend]
  generalize hb : NoticeBody.talkEnd c n (s.floor.dropEntry c).list.length s.floor.wait.length
      s.floor.leaving.length (s.floor.dropEntry c).openCount = b
  have htimed : timed (raise b (takeOff c s)).floor := timed_dropEntry (guarded_of_lawful h) c
  obtain ⟨rest, hsays, hrest⟩ := says_afterFloor_of_timed htimed
  obtain ⟨hoff, hnowait⟩ := afterFloor_off (s := raise b (takeOff c s)) hentry hwaiting
  obtain ⟨hleaving, -, -, -, hlatch⟩ := afterFloor_floor (raise b (takeOff c s))
  refine ⟨hoff, hnowait, hleaving, hlatch, rest, ((says_takeOff c s).after (says_raise b (takeOff c s))).trans hsays,
    fun x hx => ?_⟩
  obtain ⟨d, hd, hadmits⟩ := hrest x hx
  exact ⟨d, fun heq => hd (heq ▸ hwaiting), hadmits⟩

theorem floorLawful_undue {s : State} (h : s.floorLawful) (e : Event) : (s.undue e).floorLawful := h

/-- Settles O27. -/
theorem floorTimersExpire : Obligations.FloorTimersExpire := by
  refine ⟨fun c s hreset hlaw => ?members, fun c w s hreset hlaw hw => ?waiting⟩
  case members =>
    intro f
    refine ⟨fun e hdue hentry hhold => ?hold, fun e k hdue hentry htalk hlimit => ?talk⟩
    case hold =>
      have hmember : (s.undue (.holdExpired c)).floor.entry? c ≠ none := by
        rw [show (s.undue (.holdExpired c)).floor = s.floor from rfl, hentry]
        simp
      have hany : s.floor.list.any (fun x => x.ch == c && x.hold == .running 0) = true :=
        List.any_eq_true.2 ⟨e, List.mem_of_find?_eq_some hentry, by simp [Floor.entry?_ch hentry, hhold]⟩
      have hact : act (.holdExpired c) (s.undue (.holdExpired c))
          = refreshRings (leaveList c .holdExpired (s.undue (.holdExpired c))) := by
        dsimp only [act, actHoldExpired]
        exact when_of hany _ _
      obtain ⟨hoff, hwaiting, hleaving, hlatch⟩ := leaveList_rows (k := .holdExpired) (floorLawful_undue hlaw _) hmember
      obtain ⟨rest, hsays, -⟩ := says_leaveList (k := .holdExpired)
        (floorKept_of_lawful (floorLawful_undue hlaw (.holdExpired c))) hmember
      refine ⟨_, exec_event_acts (.holdExpired c) rfl hreset hdue hact, ?_, ?_, ?_, ?_,
        ⟨rest, (hsays.then_ (says_refreshRings _)).1⟩,
        (undue_changes _ s).comp ((leaveList_changes c .holdExpired _).comp (rs := .tables :: departParts)
          (refreshRings_changes _))⟩
      all_goals rw [refreshRings_floor]; assumption
    case talk =>
      have hmember : (s.undue (.talkEnd c)).floor.entry? c ≠ none := by
        rw [show (s.undue (.talkEnd c)).floor = s.floor from rfl, hentry]
        simp
      have hact : act (.talkEnd c) (s.undue (.talkEnd c))
          = refreshRings (endTalk c k.secs (s.undue (.talkEnd c))) := by
        have htimer : ((s.undue (.talkEnd c)).floor.entry? c).bind (fun e => e.talk) = some k := by
          rw [show (s.undue (.talkEnd c)).floor = s.floor from rfl, hentry]
          exact htalk
        dsimp only [act, actTalkEnd]
        rw [htimer]
        exact when_of (Bool.or_eq_true_iff.2 (.inr (decide_eq_true hlimit))) _ _
      obtain ⟨hoff, hwaiting, hleaving, hlatch, rest, hsays, hrest⟩ :=
        endTalk_rows (n := k.secs) (floorLawful_undue hlaw (.talkEnd c)) hmember
      refine ⟨_, exec_event_acts (.talkEnd c) rfl hreset hdue hact, ?_, ?_, ?_, ?_,
        ⟨rest, (hsays.then_ (says_refreshRings _)).1, fun b hb => ?_⟩,
        (undue_changes _ s).comp ((endTalk_changes c k.secs _).comp (rs := .tables :: departParts)
          (refreshRings_changes _))⟩
      on_goal 5 =>
        obtain ⟨d, hd, nf, nw, nl, n, rfl⟩ := hrest b hb
        exact ⟨d, nf, nw, nl, n, hd, rfl⟩
      all_goals rw [refreshRings_floor]; assumption
  case waiting =>
    refine ⟨fun hdue hlimit => ?timeout, fun hdue hlimit => ?quiet⟩
    case timeout =>
      have hany : s.floor.wait.any (fun w => w.ch == c && lapsed s.floor.cfg.waitMax w.timer) = true :=
        List.any_eq_true.2 ⟨w, List.mem_of_find?_eq_some hw, by simp [Floor.waiting?_ch hw, lapsed, hlimit]⟩
      have hact : act (.waitTimeout c) (s.undue (.waitTimeout c))
          = refreshRings (dropWaiting c .timeout (s.undue (.waitTimeout c))) := by
        dsimp only [act, actWaitTimeout]
        exact when_of hany _ _
      obtain ⟨hoff, hnowait, hleaving, rest, hsays⟩ :=
        dropWaiting_rows (k := .timeout) (floorLawful_undue hlaw (.waitTimeout c)) hw
      refine ⟨_, exec_event_acts (.waitTimeout c) rfl hreset hdue hact, ?_, ?_, ?_,
        ⟨rest, (hsays.then_ (says_refreshRings _)).1⟩,
        (undue_changes _ s).comp ((dropWaiting_changes c .timeout _).comp (rs := [.attack, .floor, .tables])
          (refreshRings_changes _))⟩
      all_goals rw [refreshRings_floor]; assumption
    case quiet =>
      have hany : s.floor.wait.any (fun w => w.ch == c && lapsed s.floor.cfg.holdTime w.quiet) = true :=
        List.any_eq_true.2 ⟨w, List.mem_of_find?_eq_some hw, by simp [Floor.waiting?_ch hw, lapsed, hlimit]⟩
      have hact : act (.waitQuietDrop c) (s.undue (.waitQuietDrop c))
          = refreshRings (dropWaiting c .quiet (s.undue (.waitQuietDrop c))) := by
        dsimp only [act, actWaitQuietDrop]
        exact when_of hany _ _
      obtain ⟨hoff, hnowait, hleaving, rest, hsays⟩ :=
        dropWaiting_rows (k := .quiet) (floorLawful_undue hlaw (.waitQuietDrop c)) hw
      refine ⟨_, exec_event_acts (.waitQuietDrop c) rfl hreset hdue hact, ?_, ?_, ?_,
        ⟨rest, (hsays.then_ (says_refreshRings _)).1⟩,
        (undue_changes _ s).comp ((dropWaiting_changes c .quiet _).comp (rs := [.attack, .floor, .tables])
          (refreshRings_changes _))⟩
      all_goals rw [refreshRings_floor]; assumption

end Sys2Proof.Proofs
end

