-- ==== Sys2Proof/Proofs/FloorHandovers.lean ====
section
/-! PROOFS. The end of a handover, the guard timer, the seconds of talk time (R62, R63, R80 to R82). -/

set_option Elab.async false

namespace Sys2Proof.Proofs

open Sys2Proof Sys2Proof.Machine

theorem chs_nodup {f : Floor} (h : f.exclusive) : (f.list.map (fun e => e.ch)).Nodup :=
  (List.nodup_append.1 (List.nodup_append.1 h.1).1).1

/-! ### PENDING entries open (R62) -/

/-- A PENDING entry opened in place counts as OPEN. -/
theorem openCount_opened {f : Floor} {e : FloorEntry} {x : Option TalkTimer}
    (hnodup : (f.list.map (fun e => e.ch)).Nodup) (he : e ∈ f.list) (hst : e.st = .pending) :
    (f.modEntry e.ch (fun y => { y with st := .opened, talk := x })).openCount = f.openCount + 1 := by
  show (f.list.map (fun y => if y.ch == e.ch then { y with st := .opened, talk := x } else y)).countP
    (fun y => y.st != .pending) = f.list.countP (fun y => y.st != .pending) + 1
  generalize f.list = l at hnodup he
  induction l with
  | nil => cases he
  | cons y ys ih =>
    obtain ⟨hy, hys⟩ := List.nodup_cons.1 hnodup
    rw [List.map_cons, List.countP_cons, List.countP_cons]
    rcases List.mem_cons.1 he with rfl | hin
    · have hrest : ys.map (fun y => if y.ch == e.ch then { y with st := EntryState.opened, talk := x } else y) = ys := by
        refine (List.map_congr_left fun z hz => if_neg fun hch => hy ?_).trans (List.map_id ys)
        exact List.mem_map.2 ⟨z, hz, eq_of_beq hch⟩
      rw [hrest, if_pos (beq_self_eq_true _), hst]
      rfl
    · have hne : ¬ (y.ch == e.ch) = true := fun hch => hy (List.mem_map.2 ⟨e, hin, (eq_of_beq hch).symm⟩)
      rw [ih hys hin, if_neg hne]
      omega

/-- A PENDING entry opens in place (R62). -/
def openOne (c : Nat) (s : State) : State :=
  floorChange c .pending .opened .guard
    (s.modFloor (fun f => f.modEntry c (fun e => { e with st := .opened, talk := f.newTalk c })))

/-- The entries named open one after the other, each with its notice. -/
theorem says_openEach {n : Nat} (es : List FloorEntry) (k : Nat) (s : State)
    (hlist : (s.floor.list.map (fun e => e.ch)).Nodup) (hes : (es.map (fun e => e.ch)).Nodup)
    (hmem : ∀ e ∈ es, e ∈ s.floor.list ∧ e.st = .pending) (hcount : s.floor.openCount = n + k) :
    Says s (runOver openOne (es.map (fun e => e.ch)) s)
      ((es.zipIdx k).map (fun e => .floorChange e.1.ch .pending .opened .guard s.floor.list.length s.floor.wait.length
        s.floor.leaving.length (n + e.2 + 1))) := by
  induction es generalizing k s with
  | nil => exact .refl s
  | cons e es ih =>
    obtain ⟨hin, hst⟩ := hmem e List.mem_cons_self
    obtain ⟨hne, hes'⟩ := List.nodup_cons.1 hes
    have hopened := openCount_opened (x := s.floor.newTalk e.ch) hlist hin hst
    have hchs : ((openOne e.ch s).floor.list.map (fun e => e.ch)) = s.floor.list.map (fun e => e.ch) :=
      modEntry_chs (fun _ => rfl)
    have hlen : (openOne e.ch s).floor.list.length = s.floor.list.length := by
      simpa using congrArg List.length hchs
    have hsays : Says s (openOne e.ch s) [.floorChange e.ch .pending .opened .guard s.floor.list.length
        s.floor.wait.length s.floor.leaving.length (n + k + 1)] := by
      have hnotice := (says_modFloor (fun f => f.modEntry e.ch (fun x =>
        { x with st := .opened, talk := f.newTalk e.ch })) s).after (says_floorChange e.ch .pending .opened .guard _)
      rw [← hlen, ← hcount, ← hopened]
      exact hnotice
    have hrest := ih (k + 1) (openOne e.ch s) (hchs ▸ hlist) hes' (fun x hx => ?_) (hopened.trans (by omega))
    · rw [hlen] at hrest
      exact hsays.trans hrest
    · obtain ⟨hxin, hxst⟩ := hmem x (List.mem_cons_of_mem _ hx)
      have hxne : ¬ (x.ch == e.ch) = true := fun hch => hne (List.mem_map.2 ⟨x, hx, eq_of_beq hch⟩)
      exact ⟨List.mem_map.2 ⟨x, hxin, if_neg hxne⟩, hxst⟩

/-- Every PENDING entry opens in place, in order, with FLOOR_CHANGE cause GUARD (R62). -/
theorem openPending_rows {s : State} (h : s.floor.exclusive) :
    (openPending s).floor = { s.floor with
        guard := none
        list := s.floor.list.map (fun e =>
          if e.st = .pending then { e with st := .opened, talk := s.floor.newTalk e.ch } else e) }
      ∧ Says s (openPending s) ((s.floor.list.filter (fun e => e.st == .pending)).zipIdx.map (fun e =>
          .floorChange e.1.ch .pending .opened .guard s.floor.list.length s.floor.wait.length
            s.floor.leaving.length (s.floor.openCount + e.2 + 1))) := by
  have hnodup := chs_nodup h
  constructor
  · rw [openPending_floor]
    dsimp only
    congr 1
    refine List.map_congr_left fun e he => ?_
    have hopens : (s.floor.list.filter (fun x => x.st == .pending)).any (fun x => x.ch == e.ch) = true
        ↔ e.st = .pending := by
      rw [List.any_eq_true]
      refine ⟨fun ⟨x, hx, hch⟩ => ?_, fun hst => ⟨e, List.mem_filter.2 ⟨he, beq_iff_eq.2 hst⟩, beq_self_eq_true _⟩⟩
      obtain ⟨hxin, hxst⟩ := List.mem_filter.1 hx
      obtain rfl : x = e := List.inj_on_of_nodup_map hnodup hxin he (eq_of_beq hch)
      exact eq_of_beq hxst
    simp only [hopens]
  · have hsub : ((s.floor.list.filter (fun e => e.st == .pending)).map (fun e => e.ch)).Nodup :=
      hnodup.sublist (List.Sublist.map _ List.filter_sublist)
    exact (says_modFloor (fun f => { f with guard := none }) s).after (says_openEach
      (s.floor.list.filter (fun e => e.st == .pending)) 0 (s.modFloor (fun f => { f with guard := none })) hnodup hsub
      (fun e he => ⟨(List.mem_filter.1 he).1, eq_of_beq (List.mem_filter.1 he).2⟩) rfl)

/-! ### A handover ends (R62, R63) -/

/-- A channel leaves the Leaving List, and what follows (R54, R60, R62). -/
theorem removeLeaving_rows {c : Nat} {s : State} (h : s.floorLawful) (hc : s.floor.isLeaving c = true) :
    (removeLeaving c s).floor.leaving = s.floor.leaving.filter (fun e => e.ch != c)
      ∧ (s.floor.wait = [] → s.floor.cfg.guard ≠ 0 → Says s (removeLeaving c s) [])
      ∧ ∃ bs, Says s (removeLeaving c s) bs ∧ ∀ b ∈ bs, ∃ d, d ≠ c ∧ OpensOrAdmits d b := by
  obtain ⟨hentry, hwaiting⟩ := (floorKept_of_lawful h).only_leaving hc
  obtain ⟨bs, hsays, hbs⟩ := says_afterFloor_off (s := s.modFloor (fun f => f.dropLeaving c)) hentry hwaiting
  refine ⟨(afterFloor_floor _).1, fun hwait hguard => ?_, bs, (says_modFloor _ s).after hsays, hbs⟩
  have hnone : (settleGuard (s.modFloor (fun f => f.dropLeaving c))).floor.wait = [] :=
    (settleGuard_floor _).1.trans hwait
  have hserve : removeLeaving c s = settleGuard (s.modFloor (fun f => f.dropLeaving c)) := by
    rw [removeLeaving, afterFloor, hnone]
    rfl
  rw [hserve]
  exact (says_modFloor _ s).after (settleGuard_quiet (.inl hguard))

/-- The guard timer does not run while a handover does. -/
theorem guard_stopped {f : Floor} (h : f.guarded) (hleaving : f.leaving ≠ []) : f.guard = none := by
  rw [Floor.guarded, show f.leaving.isEmpty = false from Bool.eq_false_iff.2 fun he => hleaving (List.isEmpty_iff.1 he),
    Bool.and_false] at h
  simpa using h

/-- The guard timer starts where the last channel of the Leaving List has gone (R62). -/
theorem afterFloor_guard_starts {s : State} (hleaving : s.floor.leaving = []) (hpending : s.floor.hasPending = true)
    (hstopped : s.floor.guard = none) (hguard : s.floor.cfg.guard ≠ 0) :
    (afterFloor s).floor.guard = some s.floor.cfg.guard := by
  have hstarts : settleGuard s = s.modFloor (fun f => { f with guard := some f.cfg.guard }) := by
    rw [settleGuard, hleaving, hpending, hstopped, if_neg (by decide), if_neg (by decide), if_neg hguard]
  unfold afterFloor
  rw [hstarts]
  exact serve_keep (P := fun t => t.floor.guard = some s.floor.cfg.guard) (fun t w ws ht _ hw => by
    rw [admitHead_floor hw]; exact ht) _ _ rfl

/-- The last of the Leaving List gives the guard timer its start (R62). -/
theorem removeLeaving_guard {c : Nat} {s : State} (h : s.floorLawful) (hlast : s.floor.leaving.filter (fun e => e.ch != c) = [])
    (hleaving : s.floor.leaving ≠ []) (hpending : s.floor.hasPending = true) (hguard : s.floor.cfg.guard ≠ 0) :
    (removeLeaving c s).floor.guard = some s.floor.cfg.guard := by
  have hstopped := guard_stopped (guarded_of_lawful h) hleaving
  exact afterFloor_guard_starts (s := s.modFloor (fun f => f.dropLeaving c)) hlast hpending hstopped hguard

/-! ### Talk time (R80 to R82) -/

/-- In a lawful floor one entry stands for its channel. -/
theorem modEntry_of_entry? {f : Floor} {c : Nat} {e : FloorEntry} (h : f.exclusive) (he : f.entry? c = some e)
    (g : FloorEntry → FloorEntry) :
    f.modEntry c g = { f with list := f.list.map (fun x => if x.ch = c then g e else x) } := by
  unfold Floor.modEntry
  congr 1
  refine List.map_congr_left fun x hx => ?_
  by_cases hch : x.ch = c
  · have hsame := entry?_of_mem h hx
    rw [hch, he] at hsame
    rw [if_pos (beq_iff_eq.2 hch), if_pos hch, Option.some.inj hsame]
  · rw [if_neg (by simpa using hch), if_neg hch]

theorem refreshRings_due (s : State) : (refreshRings s).due = s.due := (refreshRings_changes s).1 .due (by decide)

theorem addDue_select (v : State) (a b : Prop) [Decidable a] [Decidable b] (w : Bool) (x y : Event) :
    (if a then v.addDue [x] else if decide b && !w then v.addDue [y] else v)
      = v.addDue (if a then [x] else if b ∧ w = false then [y] else []) := by
  have hnone : v.addDue [] = v := by rw [State.addDue, List.append_nil]
  by_cases ha : a
  · rw [if_pos ha, if_pos ha]
  · rw [if_neg ha, if_neg ha]
    by_cases hb : b
    · cases w <;> simp [hb, hnone]
    · simp [hb, hnone]

/-- A second of talk time has passed (R80, R81). -/
theorem actTalkTimerTick_eq {c : Nat} {k : TalkTimer} {s : State} (htimer : (s.floor.entry? c).bind (fun e => e.talk) = some k)
    (hblocks : 1000 ≤ k.blocks) :
    let g := s.floor.cfg
    let w := k.warned && decide (g.talkLimit - g.talkWarn ≤ k.secs + 1)
    act (.talkTimerTick c) s
      = (refreshRings (s.modFloor (fun f => f.modEntry c (fun e => { e with talk := some ⟨k.secs + 1, 0, w⟩ })))).addDue
          (if g.talkLimit ≤ k.secs + 1 then [.talkEnd c]
            else if g.talkLimit - g.talkWarn ≤ k.secs + 1 ∧ w = false then [.talkWarn c] else []) := by
  intro g w
  have hsecond : ¬ k.blocks < Config.secondBlocks := Nat.not_lt.2 hblocks
  dsimp only [act, actTalkTimerTick]
  rw [htimer]
  dsimp only
  rw [if_neg hsecond]
  exact addDue_select ..

/-- Settles O28. -/
theorem handoversAndTalkTimersRun : Obligations.HandoversAndTalkTimersRun := by
  refine ⟨fun s hreset hlaw => ⟨fun c hdue hleaves hramp => ?removal, fun hdue hexpired => ?guard⟩,
    fun c e k s hreset hlaw hentry htalk => ?timers⟩
  case removal =>
    have hact : act (.leavingRemoval c) (s.undue (.leavingRemoval c))
        = refreshRings (removeLeaving c (s.undue (.leavingRemoval c))) := by
      dsimp only [act, actLeavingRemoval]
      exact when_of (Bool.and_eq_true_iff.2 ⟨hleaves, beq_iff_eq.2 hramp⟩) _ _
    have hlaw' := floorLawful_undue hlaw (.leavingRemoval c)
    obtain ⟨hleaving, hquiet, bs, hsays, hbs⟩ := removeLeaving_rows hlaw' hleaves
    refine ⟨_, exec_event_acts (.leavingRemoval c) rfl hreset hdue hact, ?_, fun e he hch hone hpending hguard => ?_,
      fun hwait hguard => ((hquiet hwait hguard).then_ (says_refreshRings _)).1,
      ⟨bs, (hsays.then_ (says_refreshRings _)).1, offFloor_served hbs⟩,
      (undue_changes _ s).comp ((removeLeaving_changes c _).comp (rs := [.attack, .floor, .tables])
        (refreshRings_changes _))⟩
    · rw [refreshRings_floor]
      exact hleaving
    · rw [refreshRings_floor]
      refine removeLeaving_guard hlaw' ?_ (List.ne_nil_of_mem he) hpending hguard
      obtain ⟨x, hx⟩ := List.length_eq_one_iff.1 hone
      rw [hx, List.mem_singleton] at he
      show s.floor.leaving.filter (fun e => e.ch != c) = []
      rw [hx, ← he, List.filter_cons_of_neg (by simp [hch]), List.filter_nil]
  case guard =>
    have hact : act .guardExpiry (s.undue .guardExpiry) = refreshRings (openPending (s.undue .guardExpiry)) := by
      dsimp only [act, actGuardExpiry]
      exact when_of (beq_iff_eq.2 hexpired) _ _
    obtain ⟨hfloor, hsays⟩ := openPending_rows (s := s.undue .guardExpiry) hlaw.2.1
    refine ⟨_, exec_event_acts .guardExpiry rfl hreset hdue hact, ?_, (hsays.then_ (says_refreshRings _)).1,
      (undue_changes _ s).comp ((openPending_changes _).comp (rs := [.floor, .tables]) (refreshRings_changes _))⟩
    rw [refreshRings_floor]
    exact hfloor
  case timers =>
    intro warnAt w
    have htimer (x : Event) : ((s.undue x).floor.entry? c).bind (fun e => e.talk) = some k := by
      rw [show (s.undue x).floor = s.floor from rfl, hentry]
      exact htalk
    refine ⟨fun hdue hblocks => ?tick, fun hdue hwarn hlimit hwarned => ?warn⟩
    case tick =>
      have hact := (actTalkTimerTick_eq (htimer (.talkTimerTick c)) hblocks)
      have hfloor := modEntry_of_entry? hlaw.2.1 hentry (fun x => { x with talk := some ⟨k.secs + 1, 0, w⟩ })
      refine ⟨_, exec_event_acts (.talkTimerTick c) rfl hreset hdue hact, ?_, ?_, ?_,
        (undue_changes _ s).comp ((modEntry_changes c (fun _ x => { x with talk := some ⟨k.secs + 1, 0, w⟩ }) _).comp
          (rs := [.due, .floor, .tables]) ((refreshRings_changes _).comp (rs := [.due, .tables]) (addDue_changes ..)))⟩
      · rw [State.addDue_floor, refreshRings_floor]
        exact hfloor
      · rw [State.addDue_due, refreshRings_due]
        rfl
      · have hquiet {u : State} {es : List Event} : Says u (u.addDue es) [] := .quiet rfl rfl rfl
        exact (((says_modFloor _ (s.undue (.talkTimerTick c))).then_ (says_refreshRings _)).then_ hquiet).1
    case warn =>
      have hact : act (.talkWarn c) (s.undue (.talkWarn c)) = refreshRings (raise (.talkWarn c k.secs s.floor.cfg.talkLimit)
          (setWarned c true (s.undue (.talkWarn c)))) := by
        have hcond : ((k.ticked || decide (s.floor.cfg.warnAt ≤ k.secs ∧ k.secs < s.floor.cfg.talkLimit)) && !k.warned)
            = true := by
          rw [hwarned, decide_eq_true ⟨hwarn, hlimit⟩, Bool.or_true]
          rfl
        dsimp only [act, actTalkWarn]
        rw [htimer]
        exact when_of hcond _ _
      have hfloor := modEntry_of_entry? hlaw.2.1 hentry (fun x =>
        { x with talk := x.talk.map (fun t => { t with warned := true }) })
      refine ⟨_, exec_event_acts (.talkWarn c) rfl hreset hdue hact, ?_,
        (((says_modFloor _ (s.undue (.talkWarn c))).after (says_raise _ (setWarned c true (s.undue (.talkWarn c))))).then_
          (says_refreshRings _)).1,
        (undue_changes _ s).comp ((setWarned_changes c true _).comp (rs := [.floor, .tables])
          ((raise_changes ..).comp (rs := [.tables]) (refreshRings_changes _)))⟩
      rw [refreshRings_floor]
      refine hfloor.trans ?_
      rw [htalk]
      rfl

end Sys2Proof.Proofs
end

