-- ==== Sys2Proof/Proofs/FloorJoins.lean ====
section
/-! PROOFS. Joining the floor and eviction (R47, R53, R60, R64, R76): the entry, the counts, the notices; Grant. -/

set_option Elab.async false

namespace Sys2Proof.Proofs

open Sys2Proof Sys2Proof.Machine

/-! ### Counts -/

theorem openCount_restartHolds (f : Floor) : f.restartHolds.openCount = f.openCount := by
  show (f.list.map (fun e => if e.hold = .stopped then { e with hold := .running f.cfg.holdTime } else e)).countP
    (fun e => e.st != .pending) = f.list.countP (fun e => e.st != .pending)
  rw [List.countP_map]
  refine List.countP_congr fun e _ => ?_
  rw [Function.comp_apply]
  split <;> rfl

theorem joinFloor_length (c : Nat) (st : EntryState) (s : State) :
    (joinFloor c st s).floor.list.length = s.floor.list.length + 1 := by
  rw [joinFloor_floor]
  simp [Floor.restartHolds]

theorem joinFloor_openCount (c : Nat) (st : EntryState) (s : State) :
    (joinFloor c st s).floor.openCount = s.floor.openCount + if st = .pending then 0 else 1 := by
  have hcount : (joinFloor c st s).floor.openCount = s.floor.restartHolds.openCount + if st = .pending then 0 else 1 := by
    rw [joinFloor_floor]
    show (s.floor.restartHolds.list ++ [_]).countP (fun e : FloorEntry => e.st != EntryState.pending) = _
    rw [List.countP_append]
    cases st <;> rfl
  rw [hcount, openCount_restartHolds]

theorem joinFloor_hasPending (c : Nat) (st : EntryState) (s : State) :
    (joinFloor c st s).floor.hasPending = (s.floor.hasPending || st == .pending) := by
  rw [joinFloor_floor]
  show (s.floor.restartHolds.list ++ [_]).any (fun e : FloorEntry => e.st == EntryState.pending) = _
  rw [List.any_append, Floor.restartHolds, List.any_map]
  have hsame : ((fun e : FloorEntry => e.st == .pending) ∘ fun e =>
      if e.hold = .stopped then { e with hold := .running s.floor.cfg.holdTime } else e) = fun e => e.st == .pending := by
    funext e
    rw [Function.comp_apply]
    split <;> rfl
  rw [hsame]
  simp [Floor.hasPending]

/-- One entry leaves. -/
theorem dropEntry_counts {f : Floor} {v : Nat} {e : FloorEntry} (h : f.exclusive) (he : f.entry? v = some e) :
    (f.dropEntry v).list.length + 1 = f.list.length
      ∧ (f.dropEntry v).openCount + (if e.st = .pending then 0 else 1) = f.openCount := by
  have hnodup := chs_nodup h
  have hin : e ∈ f.list := List.mem_of_find?_eq_some he
  have hch : e.ch = v := Floor.entry?_ch he
  show (f.list.filter (fun x => x.ch != v)).length + 1 = f.list.length
    ∧ (f.list.filter (fun x => x.ch != v)).countP (fun x => x.st != .pending) + (if e.st = .pending then 0 else 1)
      = f.list.countP (fun x => x.st != .pending)
  generalize f.list = l at hnodup hin
  induction l with
  | nil => cases hin
  | cons x xs ih =>
    obtain ⟨hx, hxs⟩ := List.nodup_cons.1 hnodup
    rcases List.mem_cons.1 hin with rfl | hrest
    · have hkeep : xs.filter (fun y => y.ch != v) = xs := by
        refine List.filter_eq_self.2 fun y hy => bne_iff_ne.2 fun hyv => hx (List.mem_map.2 ⟨y, hy, hyv.trans hch.symm⟩)
      rw [List.filter_cons_of_neg (by simp [hch]), hkeep, List.countP_cons, List.length_cons]
      refine ⟨rfl, ?_⟩
      cases e.st <;> rfl
    · have hne : x.ch ≠ v := fun hxv => hx (List.mem_map.2 ⟨e, hrest, hch.trans hxv.symm⟩)
      obtain ⟨hlen, hcount⟩ := ih hxs hrest
      rw [List.filter_cons_of_pos (p := fun y : FloorEntry => y.ch != v) (bne_iff_ne.2 hne), List.countP_cons,
        List.countP_cons, List.length_cons, List.length_cons]
      exact ⟨by omega, by omega⟩

/-! ### What follows a change of the lists -/

theorem guardKept_of_guarded {f : Floor} (h : f.guarded) : guardKept f = f := by
  unfold guardKept
  split
  · rfl
  · next hnot =>
    have hnone : f.guard = none := by
      cases hg : f.guard with
      | none => rfl
      | some n =>
        rw [Floor.guarded, hg] at h
        exact absurd h.symm hnot
    rw [← hnone]

theorem afterFloor_stays {s : State} (h : timed s.floor) (hno : s.floor.canServe = false) :
    afterFloor s = s.modFloor guardKept := by
  unfold afterFloor
  rw [settleGuard_of_timed h]
  exact serve_of_not (s := s.modFloor guardKept) hno _

theorem afterFloor_guarded_stays {s : State} (h : s.floor.guarded) (hno : s.floor.canServe = false) : afterFloor s = s := by
  rw [afterFloor_stays (timed_of_guarded h) hno, State.modFloor, guardKept_of_guarded h]

theorem afterFloor_entry? {c : Nat} {e : FloorEntry} {s : State} (h : timed s.floor) (he : s.floor.entry? c = some e)
    (hhold : e.hold ≠ .stopped) : (afterFloor s).floor.entry? c = some e := by
  rw [afterFloor_of_timed h, afterFloor_of_guarded (s := s.modFloor guardKept) (guarded_guardKept h)]
  exact serve_entry? hhold _ _ he

theorem afterFloor_waiting {c : Nat} {s : State} (h : s.floor.waiting? c = none) : (afterFloor s).floor.waiting? c = none := by
  refine afterFloor_keep (P := fun t => t.floor.waiting? c = none) (fun t ht => ?_) (fun t w ws ht _ hw => ?_) s h
  · rw [Floor.waiting?_none] at *
    rw [(settleGuard_floor t).1]
    exact ht
  · rw [Floor.waiting?_none] at *
    rw [admitHead_floor hw]
    rw [hw] at ht
    exact fun hin => ht (List.mem_cons_of_mem _ hin)

/-- A channel joins the tail of the list as OPEN, with its notice, and what follows (R47, R60). -/
theorem joinOpen_rows {c : Nat} {g : Gate} {k : FloorCause} {s : State} (h : timed s.floor)
    (hentry : s.floor.entry? c = none) (hwaiting : s.floor.waiting? c = none) :
    let u := afterFloor (floorChange c g .opened k (joinFloor c .opened s))
    u.floor.entry? c = some ⟨c, .opened, s.sys.blocks, .none, s.floor.newTalk c⟩ ∧ u.floor.waiting? c = none
      ∧ u.floor.leaving = s.floor.leaving
      ∧ ∃ rest, Says s u (.floorChange c g .opened k (s.floor.list.length + 1) s.floor.wait.length s.floor.leaving.length
          (s.floor.openCount + 1) :: rest) ∧ (∀ b ∈ rest, ∃ d, d ≠ c ∧ Admits d b)
          ∧ ((joinFloor c .opened s).floor.canServe = false → rest = []) := by
  have htimed : timed (joinFloor c .opened s).floor := by
    intro hpending hleaving
    rw [joinFloor_hasPending] at hpending
    exact h (by simpa using hpending) hleaving
  have hin : (joinFloor c .opened s).floor.entry? c = some ⟨c, .opened, s.sys.blocks, .none, s.floor.newTalk c⟩ := by
    rw [joinFloor_entry?, hentry]
    simp
  have hnowait : (joinFloor c .opened s).floor.waiting? c = none := hwaiting
  obtain ⟨rest, hsays, hrest⟩ := says_afterFloor_of_timed (s := floorChange c g .opened k (joinFloor c .opened s)) htimed
  have hnotice := (says_joinFloor c .opened s).after (says_floorChange c g .opened k (joinFloor c .opened s))
  rw [joinFloor_length, joinFloor_openCount] at hnotice
  refine ⟨afterFloor_entry? (s := floorChange c g .opened k (joinFloor c .opened s)) htimed hin (by simp),
    afterFloor_waiting (s := floorChange c g .opened k (joinFloor c .opened s)) hnowait, (afterFloor_floor _).1, ?_⟩
  by_cases hserves : (joinFloor c .opened s).floor.canServe = true
  · refine ⟨rest, hnotice.trans hsays, fun b hb => ?_, fun hno => absurd (hno.symm.trans hserves) (by decide)⟩
    obtain ⟨d, hd, hadmits⟩ := hrest b hb
    exact ⟨d, fun heq => hd (heq ▸ hnowait), hadmits⟩
  · have hstays := afterFloor_stays (s := floorChange c g .opened k (joinFloor c .opened s)) htimed
      (Bool.eq_false_iff.2 hserves)
    refine ⟨[], ?_, by simp, fun _ => rfl⟩
    rw [hstays]
    exact hnotice.then_ (says_modFloor _ _)

/-! ### Eviction (R64) -/

/-- A member goes to the Leaving List. -/
def toLeaving (v : Nat) (s : State) : State :=
  (s.modFloor (fun f => f.dropEntry v)).modFloor (fun f => { f with leaving := f.leaving ++ [⟨v, s.sys.blocks⟩] })

/-- An eviction of `v` for `c`, with the gate states that its notices carry. -/
def evicted (v c : Nat) (gv gc : Gate) (k : FloorCause) (s : State) : State :=
  floorChange c gc .pending k
    (joinFloor c .pending ((floorChange v gv .closed .evicted (toLeaving v s)).modFloor (fun f => f.dropWait c)))

theorem evict_eq (v c : Nat) (k : FloorCause) (s : State) : evict v c k s = evicted v c (s.gate v) (s.gate c) k s := rfl

/-- An eviction of an entry that is not PENDING: the lists, and both notices. -/
theorem evicted_rows {v c : Nat} {gv gc : Gate} {k : FloorCause} {e : FloorEntry} {s : State} (h : s.floor.exclusive)
    (he : s.floor.entry? v = some e) (hheard : e.st ≠ .pending) (hentry : s.floor.entry? c = none) :
    let u := afterFloor (evicted v c gv gc k s)
    u.floor.entry? c = some ⟨c, .pending, s.sys.blocks, .none, none⟩ ∧ u.floor.waiting? c = none
      ∧ u.floor.entry? v = none ∧ u.floor.leaving = s.floor.leaving ++ [⟨v, s.sys.blocks⟩] ∧ u.floor.guard = none
      ∧ Says s u [
          .floorChange v gv .closed .evicted (s.floor.list.length - 1) s.floor.wait.length
            (s.floor.leaving.length + 1) (s.floor.openCount - 1),
          .floorChange c gc .pending k s.floor.list.length (s.floor.dropWait c).wait.length
            (s.floor.leaving.length + 1) (s.floor.openCount - 1)] := by
  have hne : v ≠ c := fun heq => by rw [heq, hentry] at he; cases he
  obtain ⟨hlen, hopen⟩ := dropEntry_counts h he
  rw [if_neg hheard] at hopen
  have hleft : (evicted v c gv gc k s).floor.leaving = s.floor.leaving ++ [⟨v, s.sys.blocks⟩] := rfl
  have hstops := afterFloor_leaving (s := evicted v c gv gc k s) (by rw [hleft]; simp)
  have hdropped (d : Nat) : (toLeaving v s).floor.entry? d = if d = v then none else s.floor.entry? d :=
    Floor.entry?_dropEntry ..
  have hjoined (d : Nat) := joinFloor_entry? c .pending
    ((floorChange v gv .closed .evicted (toLeaving v s)).modFloor (fun f => f.dropWait c)) d
  have hfirst := (Says.quiet (s := s) (t := toLeaving v s) rfl rfl rfl).after
    (says_floorChange v gv .closed .evicted (toLeaving v s))
  have hsecond := ((says_modFloor (fun f => f.dropWait c) (floorChange v gv .closed .evicted (toLeaving v s))).then_
    (says_joinFloor c .pending _)).after (says_floorChange c gc .pending k _)
  rw [joinFloor_length, joinFloor_openCount, if_pos rfl] at hsecond
  have hlength : (toLeaving v s).floor.list.length = s.floor.list.length - 1 := by
    show (s.floor.dropEntry v).list.length = _
    omega
  have hleaving : (toLeaving v s).floor.leaving.length = s.floor.leaving.length + 1 := List.length_append
  have hcount : (toLeaving v s).floor.openCount = s.floor.openCount - 1 := by
    show (s.floor.dropEntry v).openCount = _
    omega
  dsimp only
  rw [hstops]
  refine ⟨(hjoined c).trans ?_, (Floor.waiting?_dropWait ..).trans (if_pos rfl), (hjoined v).trans ?_, hleft, rfl, ?_⟩
  · rw [show ((floorChange v gv .closed .evicted (toLeaving v s)).modFloor (fun f => f.dropWait c)).floor.entry? c
      = none from (hdropped c).trans (by rw [if_neg hne.symm, hentry])]
    exact if_pos rfl
  · rw [show ((floorChange v gv .closed .evicted (toLeaving v s)).modFloor (fun f => f.dropWait c)).floor.entry? v
      = none from (hdropped v).trans (if_pos rfl)]
    exact if_neg hne
  · refine Says.then_ ?_ (says_modFloor _ _)
    rw [hlength, hleaving, hcount] at hfirst
    have hsecond' : Says (floorChange v gv .closed .evicted (toLeaving v s)) (evicted v c gv gc k s)
        [.floorChange c gc .pending k s.floor.list.length (s.floor.dropWait c).wait.length
            (s.floor.leaving.length + 1) (s.floor.openCount - 1)] := by
      rw [← hleaving, ← hcount, show s.floor.list.length = (toLeaving v s).floor.list.length + 1 by omega]
      exact hsecond
    exact hfirst.trans hsecond'

/-! ### Grant (R76) -/

/-- Neither service of the Wait List acts while a handover runs, nor in QUEUE mode without AUTOGRANT. -/
theorem canServe_false {f : Floor} (h : f.leaving ≠ [] ∨ f.mode = .queue ∧ f.cfg.autoGrant = false) :
    f.canServe = false := by
  unfold Floor.canServe
  rcases h with hleaving | ⟨hmode, hauto⟩
  · rw [show f.leaving.isEmpty = false from Bool.eq_false_iff.2 fun h => hleaving (List.isEmpty_iff.1 h)]
    simp
  · rw [hmode, hauto]
    simp

theorem grantFloor_free {c ev : Nat} {s : State} (h : s.floor.placeFree = true) :
    grantFloor c ev s = afterFloor (floorChange c .waiting .opened .granted
      (joinFloor c .opened (s.modFloor (fun f => f.dropWait c)))) := if_pos h

theorem grantFloor_evicts {c ev : Nat} {e : FloorEntry} {s : State} (h : s.floor.placeFree = false)
    (he : s.floor.grantVictim ev = some e) : grantFloor c ev s = afterFloor (evict e.ch c .granted s) := by
  rw [grantFloor, h, if_neg (by decide), he]

theorem grantVictim_none {f : Floor} {ev : Nat} (h : ev = 0 ∨ 6 ≤ f.leaving.length ∨ f.oldestHeard = none) :
    f.grantVictim ev = none := by
  unfold Floor.grantVictim
  split
  · next hboth =>
    rcases h with h0 | hfull | hnone
    · omega
    · exact absurd (of_decide_eq_true hboth.2) (Nat.not_lt.2 hfull)
    · exact hnone
  · rfl

/-- What an eviction names: an entry of the list that is heard. -/
theorem oldestHeard_rows {f : Floor} {e : FloorEntry} (h : f.exclusive) (he : f.oldestHeard = some e) :
    f.entry? e.ch = some e ∧ e.st ≠ .pending := by
  have hin : e ∈ f.list := List.mem_of_find?_eq_some he
  have hheard := List.find?_some he
  exact ⟨entry?_of_mem h hin, bne_iff_ne.1 (Bool.and_eq_true_iff.1 hheard).1⟩

/-- Settles O24. -/
theorem grantGivesTheFloor : Obligations.GrantGivesTheFloor := by
  intro p tag c ev s hreset t hlaw hright hc hev oldest
  have hmoderates : moderates p (settle s) = true := by
    cases p with
    | room => rfl
    | codec => exact hright rfl
  have hflag : okFlag ev = true := decide_eq_true hev
  have hkept := floorKept_of_lawful hlaw
  refine ⟨fun hnone => ?refused, fun hwaits hfree => ?opens, fun hwaits hfull hevict hroom e he => ?evicts,
    fun hwaits hfull hno => ?full⟩
  case refused =>
    exact takeRequest_fail hreset (by
      simp [firstFail, hmoderates, hc, hflag, show (settle s).floor.waiting? c = none from hnone])
  case opens =>
    have hplace : t.floor.placeFree = true := decide_eq_true hfree
    have hsome : ((settle s).floor.waiting? c).isSome = true := Option.isSome_iff_ne_none.2 hwaits
    obtain ⟨hin, hnowait, hleaving, rest, hsays, hrest, hquiet⟩ := joinOpen_rows (c := c) (g := .waiting) (k := .granted)
      (s := t.modFloor (fun f => f.dropWait c)) (timed_of_guarded (f := t.floor) (guarded_of_lawful hlaw))
      (hkept.only_wait hwaits).1 ((Floor.waiting?_dropWait ..).trans (if_pos rfl))
    rw [← grantFloor_free (ev := ev) hplace] at hin hnowait hleaving hsays
    have hgate : (refreshRings (grantFloor c ev t)).gate c = .opened := by
      rw [refreshRings_gate, gate_of_entry? hc hin]
      rfl
    refine ⟨refreshRings (grantFloor c ev t), ?_, ?_, ?_, ?_, ⟨rest, (hsays.then_ (says_refreshRings _)).1, fun hno => ?_,
      fun b hb => ?_⟩, (grantFloor_changes c ev t).comp (refreshRings_changes _)⟩
    · refine (takeRequest_ok hreset (by
        simp [firstFail, hmoderates, hc, hflag, hsome, show (settle s).floor.placeFree = true from hplace])).trans ?_
      rw [hgate]
      rfl
    · rw [refreshRings_floor]
      exact hin
    · rw [refreshRings_floor]
      exact hnowait
    · rw [refreshRings_floor]
      exact hleaving
    · exact hquiet (canServe_false hno)
    · obtain ⟨d, hd, nf, nw, nl, n, rfl⟩ := hrest b hb
      exact ⟨d, nf, nw, nl, n, hd, rfl⟩
  case evicts =>
    have hplace : t.floor.placeFree = false := decide_eq_false (Nat.not_lt.2 hfull)
    have hsome : ((settle s).floor.waiting? c).isSome = true := Option.isSome_iff_ne_none.2 hwaits
    have hvictim : t.floor.grantVictim ev = some e := (if_pos ⟨hevict, decide_eq_true hroom⟩).trans he
    obtain ⟨hentry, hheard⟩ := oldestHeard_rows hlaw.2.1 he
    have hvgate : t.gate e.ch = e.st.gate :=
      gate_of_entry? (hkept.ok_of_entry (c := e.ch) (by rw [hentry]; simp)).1 hentry
    have hcgate : t.gate c = .waiting := by
      rw [State.gate, if_pos hc, (hkept.only_wait hwaits).1]
      exact if_pos hsome
    obtain ⟨hin, hnowait, hout, hleaving, hguard, hsays⟩ := evicted_rows (c := c) (gv := t.gate e.ch) (gc := t.gate c)
      (k := .granted) hlaw.2.1 hentry hheard (hkept.only_wait hwaits).1
    rw [← evict_eq, ← grantFloor_evicts (ev := ev) hplace hvictim] at hin hnowait hout hleaving hguard hsays
    rw [hvgate, hcgate] at hsays
    have hgate : (refreshRings (grantFloor c ev t)).gate c = .pending := by
      rw [refreshRings_gate, gate_of_entry? hc hin]
      rfl
    refine ⟨refreshRings (grantFloor c ev t), ?_, ?_, ?_, ?_, ?_, ?_, (hsays.then_ (says_refreshRings _)).1,
      (grantFloor_changes c ev t).comp (refreshRings_changes _)⟩
    · refine (takeRequest_ok hreset (by
        simp [firstFail, hmoderates, hc, hflag, hsome, show (settle s).floor.grantVictim ev = some e from hvictim])).trans ?_
      rw [hgate]
      rfl
    all_goals rw [refreshRings_floor]; assumption
  case full =>
    have hplace : (settle s).floor.placeFree = false := decide_eq_false (Nat.not_lt.2 hfull)
    have hsome : ((settle s).floor.waiting? c).isSome = true := Option.isSome_iff_ne_none.2 hwaits
    have hnone : (settle s).floor.grantVictim ev = none := grantVictim_none hno
    exact takeRequest_fail hreset (by simp [firstFail, hmoderates, hc, hflag, hsome, hplace, hnone])

end Sys2Proof.Proofs
end

