-- ==== Sys2Proof/Proofs/FloorOverride.lean ====
section
/-! PROOFS. The chair's override (R84), row by row, with its notices. -/

set_option Elab.async false

namespace Sys2Proof.Proofs

open Sys2Proof Sys2Proof.Machine

/-! ### Channels admitted are OPEN (R60) -/

theorem says_serve_gates {ok there : Nat → Prop} (n : Nat) (s : State) (h : s.floorKept ok there) :
    ∃ bs, Says s (serve n s) bs
      ∧ ∀ b ∈ bs, ∃ d, s.floor.waiting? d ≠ none ∧ Admits d b ∧ (serve n s).gate d = .opened := by
  induction n generalizing s with
  | zero => exact ⟨[], .refl s, by simp⟩
  | succ n ih =>
    unfold serve
    by_cases hserve : s.floor.canServe = true
    · rw [if_pos hserve]
      cases hwait : s.floor.wait with
      | nil => simp [Floor.canServe, hwait] at hserve
      | cons w ws =>
        obtain ⟨b, hb, hsays⟩ := says_admitHead hwait
        obtain ⟨bs, hrest, hbs⟩ := ih (admitHead s) (h.admitHead hserve hwait)
        have hw : s.floor.waiting? w.ch ≠ none := by simp [Floor.waiting?, hwait]
        refine ⟨b :: bs, hsays.trans hrest, fun x hx => ?_⟩
        rcases List.mem_cons.mp hx with rfl | hx
        · have hin : (admitHead s).floor.entry? w.ch
              = some ⟨w.ch, .opened, s.sys.blocks, .none, s.floor.newTalk w.ch⟩ := by
            rw [admitHead_cons hwait]
            show (joinFloor w.ch .opened (s.modFloor (fun f => { f with wait := ws }))).floor.entry? w.ch = _
            rw [joinFloor_entry?, show (s.modFloor (fun f => { f with wait := ws })).floor.entry? w.ch = none from
              (h.only_wait hw).1]
            simp [Floor.newTalk, Floor.isChair]
          exact ⟨w.ch, hw, hb, gate_of_entry? (h.ok_of_waiting hw).1 (serve_entry? (by simp) n _ hin)⟩
        · obtain ⟨d, hd, hadmits, hgate⟩ := hbs x hx
          refine ⟨d, fun hnone => hd ?_, hadmits, hgate⟩
          rw [Floor.waiting?_none] at hnone ⊢
          rw [admitHead_floor hwait]
          rw [hwait] at hnone
          exact fun hin => hnone (List.mem_cons_of_mem _ hin)
    · rw [if_neg hserve]
      exact ⟨[], .refl s, by simp⟩

/-- What follows where the guard timer runs as it should: channels admitted, each of them OPEN. -/
theorem says_afterFloor_gates {ok there : Nat → Prop} {s : State} (h : s.floorKept ok there) (ht : timed s.floor) :
    ∃ bs, Says s (afterFloor s) bs
      ∧ ∀ b ∈ bs, ∃ d, s.floor.waiting? d ≠ none ∧ Admits d b ∧ (afterFloor s).gate d = .opened := by
  have hkept : (s.modFloor guardKept).floorKept ok there := h.same rfl rfl rfl rfl (fun _ => rfl)
  rw [afterFloor_of_timed ht, afterFloor_of_guarded (s := s.modFloor guardKept) (guarded_guardKept ht)]
  obtain ⟨bs, hsays, hbs⟩ := says_serve_gates (s.modFloor guardKept).floor.wait.length _ hkept
  exact ⟨bs, (says_modFloor _ s).after hsays, hbs⟩

/-! ### The override's rows as changes -/

/-- The lists as an override reads them: the chair stands in no list but the Floor List (R84). -/
def overrideStart (c : Nat) (s : State) : State := settleGuard (s.modFloor (fun f => (f.dropWait c).dropLeaving c))

theorem override_free {c : Nat} {s : State} (h : (overrideStart c s).floor.placeFree = true) : override c s
    = afterFloor (floorChange c (s.gate c) .opened .override (joinFloor c .opened (overrideStart c s))) := by
  unfold override
  exact congrArg afterFloor (if_pos h)

/-- What an override makes of the oldest entry that is not the chair's, where no place is free. -/
def overrideFull (c : Nat) (e : FloorEntry) (s : State) : State :=
  if e.st = .pending then overridePending e.ch c (s.gate c) (overrideStart c s)
  else if (overrideStart c s).floor.leavingRoom then
    floorChange c (s.gate c) .pending .override
      (joinFloor c .pending (floorChange e.ch e.st.gate .closed .evicted (toLeaving e.ch (overrideStart c s))))
  else
    match (overrideStart c s).floor.oldestPending with
    | some q => overridePending q.ch c (s.gate c) (overrideStart c s)
    | none => overrideRefused c s.floor.wait (overrideStart c s)

theorem override_full {c : Nat} {e : FloorEntry} {s : State} (h : (overrideStart c s).floor.placeFree = false)
    (he : (overrideStart c s).floor.oldestOther = some e) : override c s = afterFloor (overrideFull c e s) := by
  have hnot : ¬ (overrideStart c s).floor.placeFree = true := by rw [h]; decide
  unfold override
  refine congrArg afterFloor ((if_neg hnot).trans ?_)
  rw [show (settleGuard (s.modFloor (fun f => (f.dropWait c).dropLeaving c))).floor.oldestOther = some e from he]
  rfl

/-! ### A PENDING entry gives its place (R84, rows 2 and 4) -/

theorem overridePending_rows {v c : Nat} {g : Gate} {e : FloorEntry} {s : State} (hguard : s.floor.guarded)
    (hexcl : s.floor.exclusive) (he : s.floor.entry? v = some e) (hst : e.st = .pending)
    (hentry : s.floor.entry? c = none) (hwaiting : s.floor.waiting? c = none)
    (hfull : s.floor.cfg.maxOpen ≤ s.floor.list.length) :
    let u := afterFloor (overridePending v c g s)
    u.floor.entry? c = some ⟨c, .opened, s.sys.blocks, .none, s.floor.newTalk c⟩ ∧ u.floor.waiting? c = none
      ∧ u.floor.entry? v = none ∧ u.floor.leaving = s.floor.leaving
      ∧ (∀ d, d ≠ v → s.floor.entry? d ≠ none → (u.floor.entry? d).isSome = true)
      ∧ Says s u [
          .floorChange v .pending .closed .evicted (s.floor.list.length - 1) s.floor.wait.length s.floor.leaving.length
            s.floor.openCount,
          .floorChange c g .opened .override s.floor.list.length s.floor.wait.length s.floor.leaving.length
            (s.floor.openCount + 1)] := by
  have hne : v ≠ c := fun heq => by rw [heq, hentry] at he; cases he
  obtain ⟨hlen, hopen⟩ := dropEntry_counts hexcl he
  rw [if_pos hst] at hopen
  -- The state once the PENDING entry has left.
  generalize ht : floorChange v .pending .closed .evicted (s.modFloor (fun f => f.dropEntry v)) = t
  have hfloor : t.floor = s.floor.dropEntry v := by rw [← ht]; rfl
  have hu : overridePending v c g s = floorChange c g .opened .override (joinFloor c .opened t) := by rw [← ht]; rfl
  have hblocks : t.sys = s.sys := by rw [← ht]; rfl
  have hlength : t.floor.list.length + 1 = s.floor.list.length := by rw [hfloor]; exact hlen
  have hcount : t.floor.openCount = s.floor.openCount := by rw [hfloor]; exact hopen
  have hjoined (d : Nat) := joinFloor_entry? c .opened t d
  have htimed : timed (joinFloor c .opened t).floor := by
    intro _ hleaving
    have hbefore : s.floor.hasPending = true :=
      List.any_eq_true.2 ⟨e, List.mem_of_find?_eq_some he, beq_iff_eq.2 hst⟩
    have hempty : s.floor.leaving = [] := by
      rw [joinFloor_floor, hfloor] at hleaving
      exact hleaving
    have hruns := timed_of_guarded hguard hbefore hempty
    rw [joinFloor_floor, hfloor]
    exact hruns
  have hno : (joinFloor c .opened t).floor.canServe = false := by
    have hplace : (joinFloor c .opened t).floor.placeFree = false := by
      refine decide_eq_false (Nat.not_lt.2 ?_)
      rw [joinFloor_length, hlength, joinFloor_floor, hfloor]
      exact hfull
    rw [Floor.canServe, hplace]
    rfl
  have hstays := afterFloor_stays (s := overridePending v c g s) (by rw [hu]; exact htimed) (by rw [hu]; exact hno)
  have hchanged : Says s t [.floorChange v .pending .closed .evicted (s.floor.list.length - 1) s.floor.wait.length
      s.floor.leaving.length s.floor.openCount] := by
    have hnotice := (says_modFloor (fun f => f.dropEntry v) s).after (says_floorChange v .pending .closed .evicted _)
    rw [ht] at hnotice
    rw [show s.floor.list.length - 1 = t.floor.list.length by omega, ← hcount, hfloor]
    exact hnotice
  have hjoins : Says t (overridePending v c g s) [.floorChange c g .opened .override s.floor.list.length s.floor.wait.length
      s.floor.leaving.length (s.floor.openCount + 1)] := by
    have hnotice := (says_joinFloor c .opened t).after (says_floorChange c g .opened .override (joinFloor c .opened t))
    rw [joinFloor_length, joinFloor_openCount, hlength, hcount, ← hu, joinFloor_floor, hfloor] at hnotice
    exact hnotice
  dsimp only
  rw [hstays]
  refine ⟨?_, ?_, ?_, ?_, fun d hd hmember => ?_, (hchanged.trans hjoins).then_ (says_modFloor _ _)⟩
  · rw [hu]
    refine (hjoined c).trans ?_
    rw [show t.floor.entry? c = none by rw [hfloor, Floor.entry?_dropEntry, if_neg hne.symm, hentry], hblocks, hfloor]
    exact if_pos rfl
  · rw [hu]
    show (joinFloor c .opened t).floor.waiting? c = none
    rw [joinFloor_floor, hfloor]
    exact hwaiting
  · rw [hu]
    refine (hjoined v).trans ?_
    rw [show t.floor.entry? v = none by rw [hfloor, Floor.entry?_dropEntry, if_pos rfl]]
    exact if_neg hne
  · rw [hu]
    show (joinFloor c .opened t).floor.leaving = _
    rw [joinFloor_floor, hfloor]
    rfl
  · rw [hu]
    show ((joinFloor c .opened t).floor.entry? d).isSome = true
    obtain ⟨x, hx⟩ := Option.ne_none_iff_exists'.1 hmember
    rw [hjoined d, hfloor, Floor.entry?_dropEntry, if_neg hd, hx]
    rfl

/-! ### The lists as an override reads them -/

theorem overrideStart_floor (c : Nat) (s : State) :
    (overrideStart c s).floor.wait = (s.floor.dropWait c).wait
      ∧ (overrideStart c s).floor.leaving = s.floor.leaving.filter (fun e => e.ch != c)
      ∧ (overrideStart c s).floor.mode = s.floor.mode ∧ (overrideStart c s).floor.cfg = s.floor.cfg
      ∧ (overrideStart c s).floor.chair = s.floor.chair
      ∧ (overrideStart c s).floor.list.map (fun e => e.ch) = s.floor.list.map (fun e => e.ch) := by
  obtain ⟨hwait, hleaving, hmode, hcfg, hchair, -, hchs⟩ :=
    settleGuard_floor (s.modFloor (fun f => (f.dropWait c).dropLeaving c))
  exact ⟨hwait, hleaving, hmode, hcfg, hchair, hchs⟩

theorem overrideStart_off {c : Nat} {s : State} (hentry : s.floor.entry? c = none) :
    (overrideStart c s).floor.entry? c = none ∧ (overrideStart c s).floor.waiting? c = none
      ∧ (overrideStart c s).floor.isLeaving c = false := by
  obtain ⟨hwait, hleaving, -, -, -, hchs⟩ := overrideStart_floor c s
  refine ⟨?_, ?_, ?_⟩
  · rw [Floor.entry?_none, hchs, ← Floor.entry?_none]
    exact hentry
  · rw [Floor.waiting?_none, hwait, ← Floor.waiting?_none, Floor.waiting?_dropWait, if_pos rfl]
  · have hdropped := Floor.isLeaving_dropLeaving s.floor c c
    rw [if_pos rfl] at hdropped
    rw [Floor.isLeaving, hleaving]
    exact hdropped

theorem overrideStart_kept {ok there : Nat → Prop} {c : Nat} {s : State} (h : s.floorKept ok there) :
    (overrideStart c s).floorKept ok there := ((h.dropWait c).dropLeaving c).settleGuard

/-- Only the guard timer moves where the PENDING entries do not open at once (R62). -/
theorem settleGuard_guardOnly {s : State}
    (h : s.floor.cfg.guard ≠ 0 ∨ s.floor.leaving ≠ [] ∨ timed s.floor) :
    ∃ g, settleGuard s = s.modFloor (fun f => { f with guard := g }) := by
  unfold settleGuard
  by_cases hstops : (!s.floor.hasPending || !s.floor.leaving.isEmpty) = true
  · exact ⟨none, if_pos hstops⟩
  · rw [if_neg hstops]
    by_cases hruns : s.floor.guard.isSome = true
    · exact ⟨s.floor.guard, if_pos hruns⟩
    · rw [if_neg hruns]
      rw [Bool.not_eq_true, Bool.or_eq_false_iff, Bool.not_eq_false', Bool.not_eq_false', List.isEmpty_iff] at hstops
      rcases h with hguard | hleaving | htimed
      · exact ⟨some s.floor.cfg.guard, if_neg hguard⟩
      · exact absurd hstops.2 hleaving
      · exact absurd (htimed hstops.1 hstops.2) hruns

/-- Rows 2 to 5 read the lists as they stand, but for the guard timer. -/
theorem overrideStart_guardOnly {c : Nat} {s : State} (hlaw : s.floorLawful)
    (h : s.floor.isLeaving c = false ∨ s.floor.leaving.filter (fun e => e.ch != c) ≠ [] ∨ s.floor.cfg.guard ≠ 0) :
    ∃ g, overrideStart c s = s.modFloor (fun f => { (f.dropWait c).dropLeaving c with guard := g }) := by
  refine settleGuard_guardOnly (s := s.modFloor (fun f => (f.dropWait c).dropLeaving c)) ?_
  rcases h with hnot | hleaving | hguard
  · have htimed : timed s.floor := timed_of_guarded (guarded_of_lawful hlaw)
    refine .inr (.inr fun hpending hempty => htimed hpending ?_)
    have hsame : s.floor.leaving.filter (fun e => e.ch != c) = s.floor.leaving := by
      refine List.filter_eq_self.2 fun e he => bne_iff_ne.2 fun hch => ?_
      have hin : s.floor.isLeaving c = true := List.any_eq_true.2 ⟨e, he, beq_iff_eq.2 hch⟩
      exact absurd (hin.symm.trans hnot) (by decide)
    exact hsame.symm.trans hempty
  · exact .inr (.inl hleaving)
  · exact .inl hguard

theorem overrideStart_guarded (c : Nat) (s : State) : (overrideStart c s).floor.guarded := settleGuard_guarded _

theorem overrideStart_sys (c : Nat) (s : State) : (overrideStart c s).sys = s.sys := settleGuard_blocks _

theorem dropWait_of_not {f : Floor} {c : Nat} (h : f.waiting? c = none) : f.dropWait c = f := by
  rw [Floor.waiting?_none] at h
  rw [Floor.dropWait, List.filter_eq_self.2 fun w hw => bne_iff_ne.2 fun hch => h (List.mem_map.2 ⟨w, hw, hch⟩)]

/-! ### The rows of R84 -/

theorem newTalk_chair {f : Floor} {c : Nat} (h : f.chair = some c) : f.newTalk c = none := by
  rw [Floor.newTalk, Floor.isChair, h]
  simp

/-- An override's own notices, between the openings of PENDING entries and the channels admitted. -/
theorem overrideRaises_of {c : Nat} {s u : State} {pre own post : List NoticeBody} (hsays : Says s u (pre ++ own ++ post))
    (hpre : ∀ b ∈ pre, ∃ d, d ≠ c ∧ GuardOpens d b)
    (hpost : ∀ b ∈ post, ∃ d, d ≠ c ∧ Admits d b ∧ u.gate d = .opened) : s.overrideRaises c u own := by
  refine ⟨pre, post, hsays.1, fun b hb => ?_, fun b hb => ?_⟩
  · obtain ⟨d, hd, nf, nw, nl, n, rfl⟩ := hpre b hb
    exact ⟨d, nf, nw, nl, n, hd, rfl⟩
  · obtain ⟨d, hd, ⟨nf, nw, nl, n, rfl⟩, hgate⟩ := hpost b hb
    exact ⟨d, .waiting, .admitted, nf, nw, nl, n, .inl ⟨hd, rfl⟩, by rw [hgate]⟩

/-- What every row of an override has of its chair `c` beforehand. -/
structure Overrides (c : Nat) (s : State) : Prop where
  lawful : s.floorLawful
  pod : c < 32
  stands : mayStand s c
  chair : s.floor.chair = some c
  off : s.floor.entry? c = none

/-- Row 1: a place is free. -/
theorem override_opens {c : Nat} {s : State} (h : Overrides c s) (hfree : s.floor.list.length < s.floor.cfg.maxOpen) :
    (override c s).floor.entry? c = some ⟨c, .opened, s.sys.blocks, .none, none⟩
      ∧ (override c s).floor.waiting? c = none ∧ (override c s).floor.isLeaving c = false
      ∧ ∃ n, s.overrideRaises c (override c s) [.floorChange c (s.gate c) .opened .override (s.floor.list.length + 1)
          (s.floor.dropWait c).wait.length (s.floor.leaving.filter (fun e => e.ch != c)).length n] := by
  obtain ⟨hwait, hleaving, hmode, hcfg, hchair, hchs⟩ := overrideStart_floor c s
  obtain ⟨hentry, hwaiting, hgone⟩ := overrideStart_off h.off
  have hlen : (overrideStart c s).floor.list.length = s.floor.list.length := by simpa using congrArg List.length hchs
  have hroom : (overrideStart c s).floor.list.length < (overrideStart c s).floor.cfg.maxOpen := by rw [hlen, hcfg]; exact hfree
  have hguarded := overrideStart_guarded c s
  have hkept := (overrideStart_kept (c := c) (floorKept_of_lawful h.lawful)).joinFloor .opened h.pod h.stands
    (Floor.not_mem_members.2 ⟨hentry, hwaiting, hgone⟩) hroom
  have htimed : timed (joinFloor c .opened (overrideStart c s)).floor := by
    intro hpending hempty
    rw [joinFloor_hasPending] at hpending
    exact timed_of_guarded (f := (overrideStart c s).floor) hguarded (by simpa using hpending) hempty
  obtain ⟨hin, hnowait, hleft, -⟩ := joinOpen_rows (c := c) (g := s.gate c) (k := .override)
    (timed_of_guarded hguarded) hentry hwaiting
  rw [← override_free (decide_eq_true hroom)] at hin hnowait hleft
  obtain ⟨pre, hpre, hopens⟩ := says_settleGuard (s.modFloor (fun f => (f.dropWait c).dropLeaving c))
  obtain ⟨post, hpost, hadmits⟩ := says_afterFloor_gates
    (s := floorChange c (s.gate c) .opened .override (joinFloor c .opened (overrideStart c s)))
    (hkept.same rfl rfl rfl rfl (fun _ => rfl)) htimed
  rw [← override_free (decide_eq_true hroom)] at hpost hadmits
  have hown : Says (overrideStart c s)
      (floorChange c (s.gate c) .opened .override (joinFloor c .opened (overrideStart c s)))
      [.floorChange c (s.gate c) .opened .override (s.floor.list.length + 1) (s.floor.dropWait c).wait.length
        (s.floor.leaving.filter (fun e => e.ch != c)).length (joinFloor c .opened (overrideStart c s)).floor.openCount] := by
    rw [← hlen, ← joinFloor_length c .opened, ← hwait, ← hleaving]
    exact (says_joinFloor c .opened (overrideStart c s)).after (says_floorChange c (s.gate c) .opened .override _)
  refine ⟨hin.trans ?_, hnowait, ?_, _, overrideRaises_of
    (((says_modFloor (fun f => (f.dropWait c).dropLeaving c) s).after hpre).trans hown |>.trans hpost)
    (fun b hb => ?_) (fun b hb => ?_)⟩
  · rw [newTalk_chair (hchair.trans h.chair), overrideStart_sys]
  · rw [Floor.isLeaving, hleft, ← Floor.isLeaving]
    exact hgone
  · obtain ⟨d, hd, hguard⟩ := hopens b hb
    exact ⟨d, fun heq => Floor.entry?_none.1 h.off (heq ▸ hd), hguard⟩
  · obtain ⟨d, hd, hadmit, hgate⟩ := hadmits b hb
    exact ⟨d, fun heq => hd (heq ▸ hwaiting), hadmit, hgate⟩

/-- What rows 2 to 5 have in common: no place is free, and the lists stand but for the guard timer. -/
structure OverrideFull (c : Nat) (s : State) : Prop extends Overrides c s where
  full : s.floor.cfg.maxOpen ≤ s.floor.list.length
  steady : s.floor.isLeaving c = false ∨ s.floor.leaving.filter (fun e => e.ch != c) ≠ [] ∨ s.floor.cfg.guard ≠ 0

theorem OverrideFull.start {c : Nat} {s : State} (h : OverrideFull c s) :
    (overrideStart c s).floor.list = s.floor.list ∧ Says s (overrideStart c s) []
      ∧ (overrideStart c s).floor.openCount = s.floor.openCount
      ∧ (overrideStart c s).floor.placeFree = false ∧ (overrideStart c s).floor.exclusive := by
  obtain ⟨g, hstart⟩ := overrideStart_guardOnly h.lawful h.steady
  refine ⟨by rw [hstart]; rfl, ?_, by rw [hstart]; rfl, ?_, (overrideStart_kept (floorKept_of_lawful h.lawful)).2.1⟩
  · rw [hstart]
    exact says_modFloor _ s
  · rw [hstart]
    exact decide_eq_false (Nat.not_lt.2 h.full)

/-- The oldest entry is the oldest that is not the chair's. -/
theorem OverrideFull.oldest {c : Nat} {e : FloorEntry} {s : State} (h : OverrideFull c s)
    (he : s.floor.list.head? = some e) : (overrideStart c s).floor.oldestOther = some e
      ∧ (overrideStart c s).floor.entry? e.ch = some e := by
  obtain ⟨hlist, -, -, -, hexcl⟩ := h.start
  obtain ⟨-, -, -, -, hchair, -⟩ := overrideStart_floor c s
  obtain ⟨rest, hrest⟩ := List.head?_eq_some_iff.1 he
  have hin : e ∈ s.floor.list := by rw [hrest]; exact List.mem_cons_self
  have hne : e.ch ≠ c := fun heq => Floor.entry?_none.1 h.off (List.mem_map.2 ⟨e, hin, heq⟩)
  refine ⟨?_, entry?_of_mem hexcl (by rw [hlist]; exact hin)⟩
  rw [Floor.oldestOther, hlist, hrest]
  refine List.find?_cons_of_pos ?_
  rw [Floor.isChair, hchair, h.chair, Bool.not_eq_true', beq_eq_false_iff_ne]
  exact fun heq => hne (Option.some.inj heq).symm

/-- A PENDING entry that is not the chair's gives its place (rows 2 and 4). -/
theorem OverrideFull.pending {c v : Nat} {q : FloorEntry} {s : State} (h : OverrideFull c s)
    (hq : (overrideStart c s).floor.entry? v = some q) (hst : q.st = .pending)
    (hoverride : override c s = afterFloor (overridePending v c (s.gate c) (overrideStart c s))) :
    (override c s).floor.entry? c = some ⟨c, .opened, s.sys.blocks, .none, none⟩
      ∧ (override c s).floor.waiting? c = none ∧ (override c s).floor.isLeaving c = false
      ∧ (override c s).floor.entry? v = none
      ∧ (override c s).floor.leaving = s.floor.leaving.filter (fun e => e.ch != c)
      ∧ (∀ d, d ≠ v → s.floor.entry? d ≠ none → ((override c s).floor.entry? d).isSome = true)
      ∧ s.overrideRaises c (override c s) [
          .floorChange v .pending .closed .evicted (s.floor.list.length - 1) (s.floor.dropWait c).wait.length
            (s.floor.leaving.filter (fun e => e.ch != c)).length s.floor.openCount,
          .floorChange c (s.gate c) .opened .override s.floor.list.length (s.floor.dropWait c).wait.length
            (s.floor.leaving.filter (fun e => e.ch != c)).length (s.floor.openCount + 1)] := by
  obtain ⟨hlist, hsays, hcount, -, hexcl⟩ := h.start
  obtain ⟨hwait, hleaving, -, hcfg, hchair, -⟩ := overrideStart_floor c s
  obtain ⟨hentry, hwaiting, hgone⟩ := overrideStart_off h.off
  obtain ⟨hin, hnowait, hout, hleft, hothers, hown⟩ := overridePending_rows (g := s.gate c)
    (overrideStart_guarded c s) hexcl hq hst hentry hwaiting (by rw [hlist, hcfg]; exact h.full)
  rw [hlist, hwait, hleaving, hcount] at hown
  rw [hoverride]
  refine ⟨hin.trans ?_, hnowait, ?_, hout, hleft.trans hleaving, fun d hd hmember => hothers d hd ?_,
    overrideRaises_of (pre := []) (post := []) ?_ (by simp) (by simp)⟩
  · rw [newTalk_chair (hchair.trans h.chair), overrideStart_sys]
  · rw [Floor.isLeaving, hleft, ← Floor.isLeaving]
    exact hgone
  · rw [Floor.entry?, hlist]
    exact hmember
  · rw [List.append_nil]
    exact hsays.after hown

/-- Row 3: the oldest entry goes to the Leaving List, and the chair is PENDING. -/
theorem OverrideFull.evicts {c : Nat} {e : FloorEntry} {s : State} (h : OverrideFull c s)
    (he : s.floor.list.head? = some e) (hst : e.st ≠ .pending)
    (hroom : (s.floor.leaving.filter (fun e => e.ch != c)).length < 6) :
    (override c s).floor.entry? c = some ⟨c, .pending, s.sys.blocks, .none, none⟩
      ∧ (override c s).floor.waiting? c = none ∧ (override c s).floor.entry? e.ch = none
      ∧ (override c s).floor.leaving = s.floor.leaving.filter (fun e => e.ch != c) ++ [⟨e.ch, s.sys.blocks⟩]
      ∧ (override c s).floor.guard = none
      ∧ s.overrideRaises c (override c s) [
          .floorChange e.ch e.st.gate .closed .evicted (s.floor.list.length - 1) (s.floor.dropWait c).wait.length
            ((s.floor.leaving.filter (fun e => e.ch != c)).length + 1) (s.floor.openCount - 1),
          .floorChange c (s.gate c) .pending .override s.floor.list.length (s.floor.dropWait c).wait.length
            ((s.floor.leaving.filter (fun e => e.ch != c)).length + 1) (s.floor.openCount - 1)] := by
  obtain ⟨hlist, hsays, hcount, hplace, hexcl⟩ := h.start
  obtain ⟨hwait, hleaving, -, -, -, -⟩ := overrideStart_floor c s
  obtain ⟨hentry, hwaiting, -⟩ := overrideStart_off h.off
  obtain ⟨hother, hoccupied⟩ := h.oldest he
  have hgone : (overrideStart c s).floor.dropWait c = (overrideStart c s).floor := dropWait_of_not hwaiting
  have hoverride : override c s = afterFloor (evicted e.ch c e.st.gate (s.gate c) .override (overrideStart c s)) := by
    have hfits : (overrideStart c s).floor.leavingRoom = true := decide_eq_true (by rw [hleaving]; exact hroom)
    have hsame (t : State) (ht : t.floor.wait = (overrideStart c s).floor.wait) : t.modFloor (fun f => f.dropWait c) = t := by
      rw [State.modFloor, dropWait_of_not (f := t.floor) (by rw [Floor.waiting?, ht]; exact hwaiting)]
    rw [override_full hplace hother, overrideFull, if_neg hst, if_pos hfits, evicted,
      hsame (floorChange e.ch e.st.gate .closed .evicted (toLeaving e.ch (overrideStart c s))) rfl]
  obtain ⟨hin, hnowait, hout, hleft, hguard, hown⟩ := evicted_rows (c := c) (gv := e.st.gate) (gc := s.gate c)
    (k := .override) hexcl hoccupied hst hentry
  rw [hgone, hlist, hwait, hleaving, hcount] at hown
  rw [hoverride]
  refine ⟨?_, hnowait, hout, ?_, hguard, overrideRaises_of (pre := []) (post := []) ?_ (by simp) (by simp)⟩
  · rw [← overrideStart_sys c s]
    exact hin
  · rw [← overrideStart_sys c s, ← hleaving]
    exact hleft
  · rw [List.append_nil]
    exact hsays.after hown

/-- The Leaving List is full, and its channels are not the chair. -/
theorem leaving_full {c : Nat} {s : State} (h : s.floorLawful)
    (hfull : 6 ≤ (s.floor.leaving.filter (fun e => e.ch != c)).length) :
    s.floor.leaving.filter (fun e => e.ch != c) = s.floor.leaving ∧ s.floor.leaving ≠ [] ∧ s.floor.guard = none := by
  have hlimit : s.floor.leaving.length ≤ 6 := h.1.2.2
  have hsame : s.floor.leaving.filter (fun e => e.ch != c) = s.floor.leaving :=
    List.filter_sublist.eq_of_length_le (hlimit.trans hfull)
  have hne : s.floor.leaving ≠ [] := by
    intro hempty
    rw [hempty] at hfull
    rw [List.filter_nil] at hfull
    exact absurd hfull (by decide)
  exact ⟨hsame, hne, guard_stopped (guarded_of_lawful h) hne⟩

/-- Row 5: the override is refused, and nothing moves. -/
theorem OverrideFull.refused {c : Nat} {e : FloorEntry} {s : State} (h : OverrideFull c s)
    (he : s.floor.list.head? = some e) (hst : e.st ≠ .pending)
    (hno : 6 ≤ (s.floor.leaving.filter (fun e => e.ch != c)).length)
    (hnone : s.floor.list.find? (fun x => x.st == .pending) = none) :
    (override c s).floor = s.floor ∧ ((override c s).chan c).attack = 0 ∧ ((override c s).chan c).pulseOwed = true
      ∧ s.raised (override c s) [.floorRefused c s.floor.list.length s.floor.wait.length] := by
  obtain ⟨hlist, hsays, -, hplace, -⟩ := h.start
  obtain ⟨-, hleaving, -, -, -, -⟩ := overrideStart_floor c s
  obtain ⟨hother, -⟩ := h.oldest he
  obtain ⟨hsame, hne, hguard⟩ := leaving_full h.lawful hno
  obtain ⟨g, hstart⟩ := overrideStart_guardOnly h.lawful h.steady
  have hroom : ¬ (overrideStart c s).floor.leavingRoom = true := by
    rw [Floor.leavingRoom, hleaving, decide_eq_true_eq]
    exact Nat.not_lt.2 hno
  have hpending : (overrideStart c s).floor.oldestPending = none := by
    rw [Floor.oldestPending, hlist, List.find?_eq_none]
    intro x hx hboth
    exact List.find?_eq_none.1 hnone x hx (Bool.and_eq_true_iff.1 hboth).1
  have hoverride : override c s = afterFloor (overrideRefused c s.floor.wait (overrideStart c s)) := by
    rw [override_full hplace hother, overrideFull, if_neg hst, if_neg hroom, hpending]
  -- The chair back in its place of the Wait List, its attack count discarded.
  generalize hr : ((overrideStart c s).modFloor (fun f => { f with wait := s.floor.wait })).modChan c
    (fun k => { k with attack := 0 }) = r at *
  have hrefused : overrideRefused c s.floor.wait (overrideStart c s) = owePulse c (floorRefused c r) := by rw [← hr]; rfl
  have hrfloor : r.floor = { s.floor with guard := g } := by
    rw [← hr, hstart]
    show ({ s.floor with wait := s.floor.wait, leaving := s.floor.leaving.filter (fun e => e.ch != c), guard := g } : Floor) = _
    rw [hsame]
  have hpresent : (floorRefused c r).present c = true := by
    have honline := h.stands.2
    rw [State.present, if_pos h.pod] at honline ⊢
    rw [← hr, hstart]
    exact honline
  have howed : owePulse c (floorRefused c r)
      = placeRing c true ((floorRefused c r).modChan c (fun k => { k with pulseOwed := true })) := if_pos hpresent
  have hfloor : (owePulse c (floorRefused c r)).floor = { s.floor with guard := g } := by
    rw [howed]
    exact hrfloor
  have hstops : override c s = (owePulse c (floorRefused c r)).modFloor (fun f => { f with guard := none }) := by
    rw [hoverride, hrefused]
    exact afterFloor_leaving (by rw [hfloor]; exact hne)
  have hchan : (override c s).chan c = { r.chan c with pulseOwed := true } := by
    rw [hstops, howed]
    show (((floorRefused c r).modChan c (fun k => { k with pulseOwed := true })).chan c) = _
    rw [State.chan_modChan, if_pos ⟨rfl, by have := h.pod; omega⟩]
    rfl
  have hattack : (r.chan c).attack = 0 := by
    rw [← hr, State.chan_modChan, if_pos ⟨rfl, by have := h.pod; omega⟩]
  refine ⟨?_, by rw [hchan]; exact hattack, by rw [hchan], ?_⟩
  · rw [hstops]
    show ({ (owePulse c (floorRefused c r)).floor with guard := none } : Floor) = s.floor
    rw [hfloor, ← hguard]
  · have hquiet : Says (overrideStart c s) r [] := by
      rw [← hr]
      exact (says_modFloor _ _).then_ (says_modChan ..)
    have hnotice : Says r (floorRefused c r) [.floorRefused c r.floor.list.length r.floor.wait.length] := says_raise _ r
    rw [hrfloor] at hnotice
    rw [hstops]
    exact (((hsays.after hquiet).after hnotice).then_ (says_owePulse ..) |>.then_ (says_modFloor _ _)).1

/-- The override, row by row (R84). -/
theorem override_rows {c : Nat} {s : State} (h : Overrides c s) : s.overrideRows c (override c s) := by
  refine ⟨fun hfree => ?_, fun hfull hsteady e he => ⟨fun hst => ?_, fun hst hroom => ?_, fun hst hno =>
    ⟨fun q hq => ?_, fun hnone => ?_⟩⟩⟩
  · obtain ⟨hin, hnowait, hgone, n, hraises⟩ := override_opens h hfree
    exact ⟨⟨hin, hnowait, hgone⟩, n, hraises⟩
  · have hall : OverrideFull c s := ⟨h, hfull, hsteady⟩
    obtain ⟨hother, hoccupied⟩ := hall.oldest he
    have hoverride := (override_full hall.start.2.2.2.1 hother).trans (congrArg afterFloor (if_pos hst))
    obtain ⟨hin, hnowait, hgone, hout, hleft, -, hraises⟩ := hall.pending hoccupied hst hoverride
    exact ⟨⟨hin, hnowait, hgone⟩, hout, hleft, hraises⟩
  · exact OverrideFull.evicts ⟨h, hfull, hsteady⟩ he hst hroom
  · have hall : OverrideFull c s := ⟨h, hfull, hsteady⟩
    obtain ⟨hlist, -, -, hplace, hexcl⟩ := hall.start
    obtain ⟨-, hleaving, -, -, hchair, -⟩ := overrideStart_floor c s
    obtain ⟨hother, hoccupied⟩ := hall.oldest he
    have hqin : q ∈ s.floor.list := List.mem_of_find?_eq_some hq
    have hqbeq := List.find?_some hq
    have hqst : q.st = .pending := eq_of_beq hqbeq
    have hqentry : (overrideStart c s).floor.entry? q.ch = some q := entry?_of_mem hexcl (by rw [hlist]; exact hqin)
    have hoverride : override c s = afterFloor (overridePending q.ch c (s.gate c) (overrideStart c s)) := by
      have hroom : ¬ (overrideStart c s).floor.leavingRoom = true := by
        rw [Floor.leavingRoom, hleaving, decide_eq_true_eq]
        exact Nat.not_lt.2 hno
      have hoff : ∀ x ∈ s.floor.list, ((overrideStart c s).floor.isChair x.ch) = false := by
        intro x hx
        rw [Floor.isChair, hchair, h.chair, beq_eq_false_iff_ne]
        exact fun heq => Floor.entry?_none.1 h.off (List.mem_map.2 ⟨x, hx, (Option.some.inj heq).symm⟩)
      have hpending : (overrideStart c s).floor.oldestPending = some q := by
        rw [Floor.oldestPending, hlist, ← hq]
        refine List.find?_congr fun x hx => ?_
        rw [hoff x hx, Bool.not_false, Bool.and_true]
      rw [override_full hplace hother, overrideFull, if_neg hst, if_neg hroom, hpending]
    obtain ⟨hin, hnowait, hgone, hout, hleft, hothers, hraises⟩ := hall.pending hqentry hqst hoverride
    have hmember : s.floor.entry? e.ch ≠ none := by
      rw [Floor.entry?, ← hlist, ← Floor.entry?, hoccupied]
      simp
    have hne : e.ch ≠ q.ch := fun heq => by
      rw [heq, hqentry] at hoccupied
      exact hst (Option.some.inj hoccupied ▸ hqst)
    exact ⟨⟨hin, hnowait, hgone⟩, hout, hothers e.ch hne hmember, hleft, hraises⟩
  · exact OverrideFull.refused ⟨h, hfull, hsteady⟩ he hst hno hnone

end Sys2Proof.Proofs
end

