-- ==== Sys2Proof/Proofs/FloorRequests.lean ====
section
/-! PROOFS. Level floor requests against the lists (R53, R54, R86). -/

set_option Elab.async false

namespace Sys2Proof.Proofs

open Sys2Proof Sys2Proof.Machine

/-! ### A channel in ATTACK -/

/-- A channel in ATTACK is a pod that stands in neither list and may join one (R52). -/
theorem gate_attack {c : Nat} {s : State} (h : s.floorLawful) (hgate : s.gate c = .attack) :
    c < 32 ∧ s.floor.entry? c = none ∧ s.floor.waiting? c = none ∧ mayStand s c := by
  unfold State.gate at hgate
  split at hgate
  · next hc =>
    split at hgate
    · next e _ => cases hst : e.st <;> rw [hst] at hgate <;> cases hgate
    · next hentry =>
      split at hgate
      · cases hgate
      · next hwaiting =>
        split at hgate
        · next hattack =>
          have hstands : mayStand s c := by
            by_contra hno
            have hzero := ((floorKept_of_lawful h).2.2.1 c hc hno).2.2
            omega
          exact ⟨hc, hentry, Option.not_isSome_iff_eq_none.1 hwaiting, hstands⟩
        · cases hgate
  · cases hgate

/-- Where the lists, the guard timer but for its count, and the chair's notices stand, the rows of an override stand. -/
theorem overrideRaises_then {c : Nat} {s u v : State} {own extra : List NoticeBody} (h : s.overrideRaises c u own)
    (hblocks : u.sys.blocks = s.sys.blocks) (hgate : ∀ d, v.gate d = u.gate d) (hsays : Says u v extra)
    (hextra : ∀ b ∈ extra, ∃ g nf nw nl n, b = .floorChange c g (v.gate c) .latched nf nw nl n) :
    s.overrideRaises c v own := by
  obtain ⟨pre, post, hraised, hpre, hpost⟩ := h
  refine ⟨pre, post ++ extra, ?_, hpre, fun b hb => ?_⟩
  · rw [← List.append_assoc]
    exact State.raised_trans hblocks hraised hsays.1
  · rcases List.mem_append.1 hb with hb | hb
    · obtain ⟨d, g, k, nf, nw, nl, n, hk, rfl⟩ := hpost b hb
      exact ⟨d, g, k, nf, nw, nl, n, hk, by rw [hgate]⟩
    · obtain ⟨g, nf, nw, nl, n, rfl⟩ := hextra b hb
      exact ⟨c, g, .latched, nf, nw, nl, n, .inr ⟨rfl, rfl⟩, rfl⟩

/-- The rows of an override read the lists, the chair's channel and the notices alone. -/
theorem overrideRows_then {c : Nat} {s u v : State} {extra : List NoticeBody} (h : s.overrideRows c u)
    (hblocks : u.sys.blocks = s.sys.blocks) (hlist : v.floor.list = u.floor.list) (hwait : v.floor.wait = u.floor.wait)
    (hleaving : v.floor.leaving = u.floor.leaving) (hguard : v.floor.guard = u.floor.guard)
    (hchan : v.chan c = u.chan c) (hgate : ∀ d, v.gate d = u.gate d) (hsays : Says u v extra)
    (hextra : ∀ b ∈ extra, ∃ g nf nw nl n, b = .floorChange c g (v.gate c) .latched nf nw nl n)
    (hrefused : u.floor = s.floor → v.floor = s.floor ∧ extra = []) : s.overrideRows c v := by
  have hentry (d : Nat) : v.floor.entry? d = u.floor.entry? d := by rw [Floor.entry?, hlist, ← Floor.entry?]
  have hwaiting (d : Nat) : v.floor.waiting? d = u.floor.waiting? d := by rw [Floor.waiting?, hwait, ← Floor.waiting?]
  have hleaves (d : Nat) : v.floor.isLeaving d = u.floor.isLeaving d := by
    rw [Floor.isLeaving, hleaving, ← Floor.isLeaving]
  have hraises {own : List NoticeBody} (hown : s.overrideRaises c u own) : s.overrideRaises c v own :=
    overrideRaises_then hown hblocks hgate hsays hextra
  obtain ⟨hfree, hfull⟩ := h
  unfold State.overrideRows
  simp only [hentry, hwaiting, hleaves, hleaving, hguard, hchan]
  refine ⟨fun hroom => ?_, fun hno hsteady e he => ?_⟩
  · obtain ⟨hopened, n, hown⟩ := hfree hroom
    exact ⟨hopened, n, hraises hown⟩
  · obtain ⟨hpending, hheard, hlast⟩ := hfull hno hsteady e he
    refine ⟨fun hst => ?_, fun hst hroom => ?_, fun hst hroom => ⟨fun q hq => ?_, fun hnone => ?_⟩⟩
    · obtain ⟨hopened, hout, hleft, hown⟩ := hpending hst
      exact ⟨hopened, hout, hleft, hraises hown⟩
    · obtain ⟨hin, hnowait, hout, hleft, hstops, hown⟩ := hheard hst hroom
      exact ⟨hin, hnowait, hout, hleft, hstops, hraises hown⟩
    · obtain ⟨hopened, hout, hstays, hleft, hown⟩ := (hlast hst hroom).1 q hq
      exact ⟨hopened, hout, hstays, hleft, hraises hown⟩
    · obtain ⟨hfloor, hattack, hpulse, hraised⟩ := (hlast hst hroom).2 hnone
      obtain ⟨hsame, rfl⟩ := hrefused hfloor
      exact ⟨hsame, hattack, hpulse, State.raised_trans hblocks hraised hsays.1⟩

theorem overrideRows_refreshRings {c : Nat} {s u : State} (h : s.overrideRows c u) (hblocks : u.sys.blocks = s.sys.blocks) :
    s.overrideRows c (refreshRings u) :=
  overrideRows_then h hblocks (by rw [refreshRings_floor]) (by rw [refreshRings_floor]) (by rw [refreshRings_floor])
    (by rw [refreshRings_floor]) (refreshRings_chan u c) (refreshRings_gate u) (says_refreshRings u) (by simp)
    (fun hfloor => ⟨by rw [refreshRings_floor, hfloor], rfl⟩)

/-! ### The rows of R53 -/

/-- What a level floor request has of its channel beforehand. -/
structure Requests (c : Nat) (s : State) : Prop where
  lawful : s.floorLawful
  gate : s.gate c = .attack
  voice : s.floor.mode = .voice
  notChair : s.floor.chair ≠ some c
  notLeaving : s.floor.isLeaving c = false

theorem requestFloor_byLists {c : Nat} {s : State} (h : Requests c s) :
    requestFloor c s = afterFloor (requestByLists c s) := by
  have hchair : ¬ s.floor.isChair c = true := fun hc => h.notChair (eq_of_beq hc)
  have hleaving : ¬ s.floor.isLeaving c = true := by rw [h.notLeaving]; decide
  exact (if_neg hchair).trans (if_neg hleaving)

theorem joinFloor_noAttack {c : Nat} (st : EntryState) (s : State) (hc : c < 42) :
    ((joinFloor c st s).chan c).attack = 0 := by
  rw [joinFloor_chan, if_pos ⟨rfl, hc⟩]

theorem joinWait_noAttack {c : Nat} (s : State) (hc : c < 42) : ((joinWait c s).chan c).attack = 0 := by
  show ((s.modChan c (fun k => { k with attack := 0 })).chan c).attack = 0
  rw [State.chan_modChan, if_pos ⟨rfl, hc⟩]

theorem refuseRequest_noAttack {c : Nat} (s : State) (hc : c < 42) : ((refuseRequest c s).chan c).attack = 0 := by
  show ((s.modChan c (fun k => { k with attack := 0 })).chan c).attack = 0
  rw [State.chan_modChan, if_pos ⟨rfl, hc⟩]

/-- The attack count of a request is discarded, whatever becomes of it. -/
theorem requestByLists_noAttack {c : Nat} (s : State) (hc : c < 42) : ((requestByLists c s).chan c).attack = 0 := by
  unfold requestByLists
  dsimp only
  split
  · exact joinFloor_noAttack .opened s hc
  · split
    · exact joinFloor_noAttack .pending _ hc
    · split
      · exact joinWait_noAttack s hc
      · exact refuseRequest_noAttack s hc

theorem newTalk_voice {f : Floor} (h : f.mode = .voice) (c : Nat) : f.newTalk c = none := by
  rw [Floor.newTalk, h]
  rfl

/-- Row 1: a place is free and nobody waits. -/
theorem Requests.opens {c : Nat} {s : State} (h : Requests c s) (hfree : s.floor.list.length < s.floor.cfg.maxOpen)
    (hwait : s.floor.wait = []) :
    (requestFloor c s).floor.entry? c = some ⟨c, .opened, s.sys.blocks, .none, none⟩
      ∧ (requestFloor c s).floor.leaving = s.floor.leaving
      ∧ Says s (requestFloor c s) [.floorChange c .attack .opened .level (s.floor.list.length + 1) 0
          s.floor.leaving.length (s.floor.openCount + 1)] := by
  obtain ⟨-, hentry, hwaiting, -⟩ := gate_attack h.lawful h.gate
  have hcond : (s.floor.placeFree && s.floor.wait.isEmpty) = true := by
    rw [hwait]
    exact Bool.and_eq_true_iff.2 ⟨decide_eq_true hfree, rfl⟩
  have hrequest : requestFloor c s = afterFloor (floorChange c (s.gate c) .opened .level (joinFloor c .opened s)) :=
    (requestFloor_byLists h).trans (congrArg afterFloor (if_pos hcond))
  obtain ⟨hin, -, hleaving, rest, hsays, -, hquiet⟩ := joinOpen_rows (c := c) (g := s.gate c) (k := .level)
    (timed_of_guarded (guarded_of_lawful h.lawful)) hentry hwaiting
  have hnone : (joinFloor c .opened s).floor.canServe = false := by
    rw [Floor.canServe, show (joinFloor c .opened s).floor.wait = [] from hwait]
    simp
  rw [hquiet hnone, h.gate, hwait] at hsays
  rw [newTalk_voice h.voice] at hin
  rw [hrequest, h.gate]
  rw [h.gate] at hin hleaving
  exact ⟨hin, hleaving, hsays⟩

/-- What the request finds where it cannot open at once. -/
theorem requestByLists_blocked {c : Nat} {s : State} (h : ¬ (s.floor.placeFree && s.floor.wait.isEmpty) = true) :
    requestByLists c s = match (if s.floor.wait.isEmpty && s.floor.leavingRoom then s.floor.oldestHeld else none) with
      | some e => evict e.ch c .level s
      | none =>
        if s.floor.waitRoom then floorChange c (s.gate c) .waiting .level (joinWait c s) else refuseRequest c s := by
  unfold requestByLists
  dsimp only
  exact if_neg h

/-- Row 2: the oldest HOLD entry but the chair's is evicted. -/
theorem Requests.evicts {c : Nat} {e : FloorEntry} {s : State} (h : Requests c s)
    (hfull : ¬ s.floor.list.length < s.floor.cfg.maxOpen) (hwait : s.floor.wait = [])
    (hroom : s.floor.leaving.length < 6) (he : s.floor.oldestHeld = some e) :
    (requestFloor c s).floor.entry? c = some ⟨c, .pending, s.sys.blocks, .none, none⟩
      ∧ (requestFloor c s).floor.entry? e.ch = none
      ∧ (requestFloor c s).floor.leaving = s.floor.leaving ++ [⟨e.ch, s.sys.blocks⟩]
      ∧ (requestFloor c s).floor.guard = none
      ∧ Says s (requestFloor c s) [
          .floorChange e.ch .held .closed .evicted (s.floor.list.length - 1) 0 (s.floor.leaving.length + 1)
            (s.floor.openCount - 1),
          .floorChange c .attack .pending .level s.floor.list.length 0 (s.floor.leaving.length + 1)
            (s.floor.openCount - 1)] := by
  obtain ⟨hc, hentry, -, -⟩ := gate_attack h.lawful h.gate
  have hplace : s.floor.placeFree = false := decide_eq_false hfull
  have hfits : s.floor.leavingRoom = true := decide_eq_true hroom
  have hin : e ∈ s.floor.list := List.mem_of_find?_eq_some he
  have hboth := List.find?_some he
  have hheld : e.st = .held := eq_of_beq (Bool.and_eq_true_iff.1 hboth).1
  have hoccupied : s.floor.entry? e.ch = some e := entry?_of_mem h.lawful.2.1 hin
  have hvgate : s.gate e.ch = .held := by
    have hpod := ((floorKept_of_lawful h.lawful).ok_of_entry (c := e.ch) (by rw [hoccupied]; simp)).1
    rw [gate_of_entry? hpod hoccupied, hheld]
    rfl
  have hrequest : requestFloor c s = afterFloor (evicted e.ch c (s.gate e.ch) (s.gate c) .level s) := by
    rw [requestFloor_byLists h, requestByLists_blocked (by rw [hplace]; simp), hwait, hfits, he]
    rfl
  obtain ⟨hjoined, -, hout, hleaving, hguard, hsays⟩ := evicted_rows (c := c) (gv := s.gate e.ch) (gc := s.gate c)
    (k := .level) h.lawful.2.1 hoccupied (by rw [hheld]; decide) hentry
  rw [← hrequest] at hjoined hout hleaving hguard hsays
  rw [hvgate, h.gate, Floor.dropWait, hwait] at hsays
  exact ⟨hjoined, hout, hleaving, hguard, hsays⟩

/-- Rows 3 and 4 are read where the request neither opens nor evicts. -/
theorem Requests.held_back {c : Nat} {s : State} (h : Requests c s)
    (hblocked : s.floor.wait ≠ [] ∨ (¬ s.floor.list.length < s.floor.cfg.maxOpen
      ∧ (6 ≤ s.floor.leaving.length ∨ s.floor.oldestHeld = none))) :
    requestFloor c s = afterFloor (if s.floor.waitRoom then floorChange c .attack .waiting .level (joinWait c s)
      else refuseRequest c s) := by
  have hnone : (if s.floor.wait.isEmpty && s.floor.leavingRoom then s.floor.oldestHeld else none) = none := by
    rcases hblocked with hwait | ⟨-, hleaving | hheld⟩
    · rw [show s.floor.wait.isEmpty = false from Bool.eq_false_iff.2 fun he => hwait (List.isEmpty_iff.1 he)]
      rfl
    · rw [show s.floor.leavingRoom = false from decide_eq_false (Nat.not_lt.2 hleaving), Bool.and_false]
      rfl
    · rw [hheld, ite_self]
  have hnot : ¬ (s.floor.placeFree && s.floor.wait.isEmpty) = true := by
    intro hboth
    obtain ⟨hplace, hempty⟩ := Bool.and_eq_true_iff.1 hboth
    rcases hblocked with hwait | ⟨hfull, -⟩
    · exact hwait (List.isEmpty_iff.1 hempty)
    · exact hfull (of_decide_eq_true hplace)
  rw [requestFloor_byLists h, requestByLists_blocked hnot, hnone, h.gate]

/-- The Wait List is not served while no place is free or a handover runs. -/
theorem canServe_blocked {f : Floor} (h : ¬ f.list.length < f.cfg.maxOpen ∨ f.leaving ≠ []) : f.canServe = false := by
  rcases h with hfull | hleaving
  · rw [Floor.canServe, show f.placeFree = false from decide_eq_false hfull]
    rfl
  · exact canServe_false (.inl hleaving)

/-- Row 3: the channel waits at the tail. -/
theorem Requests.waits {c : Nat} {s : State} (h : Requests c s)
    (hunserved : ¬ s.floor.list.length < s.floor.cfg.maxOpen ∨ s.floor.leaving ≠ [])
    (hblocked : s.floor.wait ≠ [] ∨ (¬ s.floor.list.length < s.floor.cfg.maxOpen
      ∧ (6 ≤ s.floor.leaving.length ∨ s.floor.oldestHeld = none))) (hroom : s.floor.wait.length < 8) :
    (requestFloor c s).floor.wait = s.floor.wait ++ [⟨c, s.sys.blocks, 0, 0⟩]
      ∧ (requestFloor c s).floor.entry? c = none
      ∧ Says s (requestFloor c s) [.floorChange c .attack .waiting .level s.floor.list.length (s.floor.wait.length + 1)
          s.floor.leaving.length s.floor.openCount] := by
  obtain ⟨-, hentry, -, -⟩ := gate_attack h.lawful h.gate
  have hfits : s.floor.waitRoom = true := decide_eq_true hroom
  have hguarded := guarded_of_lawful h.lawful
  have hrequest : requestFloor c s = floorChange c .attack .waiting .level (joinWait c s) := by
    rw [h.held_back hblocked, if_pos hfits]
    exact afterFloor_guarded_stays (s := floorChange c .attack .waiting .level (joinWait c s)) hguarded (canServe_blocked hunserved)
  have hnotice := (says_joinWait c s).after (says_floorChange c .attack .waiting .level (joinWait c s))
  rw [show (joinWait c s).floor.wait.length = s.floor.wait.length + 1 from List.length_append] at hnotice
  rw [hrequest]
  exact ⟨rfl, hentry, hnotice⟩

/-- Row 4: the request is refused. -/
theorem Requests.refused {c : Nat} {s : State} (h : Requests c s)
    (hunserved : ¬ s.floor.list.length < s.floor.cfg.maxOpen ∨ s.floor.leaving ≠ []) (hfull : s.floor.wait.length = 8) :
    (requestFloor c s).floor = s.floor ∧ (requestFloor c s).gate c = .closed
      ∧ Says s (requestFloor c s) [.floorRefused c s.floor.list.length 8] := by
  obtain ⟨hc, hentry, hwaiting, -⟩ := gate_attack h.lawful h.gate
  have hwait : s.floor.wait ≠ [] := fun hempty => by rw [hempty] at hfull; cases hfull
  have hnoroom : ¬ s.floor.waitRoom = true := by
    rw [Floor.waitRoom, hfull, decide_eq_true_eq]
    decide
  have hguarded := guarded_of_lawful h.lawful
  have hrequest : requestFloor c s = refuseRequest c s := by
    rw [h.held_back (.inl hwait), if_neg hnoroom]
    exact afterFloor_guarded_stays (s := refuseRequest c s) hguarded (canServe_blocked hunserved)
  have hnotice : Says s (refuseRequest c s) [.floorRefused c s.floor.list.length s.floor.wait.length] :=
    (says_modChan c (fun k => { k with attack := 0 }) s).after (says_raise _ _)
  rw [hfull] at hnotice
  rw [hrequest]
  refine ⟨rfl, ?_, hnotice⟩
  rw [State.gate, if_pos hc, show (refuseRequest c s).floor = s.floor from rfl, hentry, hwaiting,
    refuseRequest_noAttack s (by omega)]
  rfl

/-! ### A channel in the Leaving List asks (R54) -/

theorem requestFloor_leaving {c : Nat} {s : State} (hchair : s.floor.chair ≠ some c) (hleaves : s.floor.isLeaving c = true) :
    requestFloor c s = afterFloor (requestFromLeaving c s) := by
  have hnot : ¬ s.floor.isChair c = true := fun hc => hchair (eq_of_beq hc)
  exact (if_neg hnot).trans (if_pos hleaves)

theorem requestFromLeaving_noAttack {c : Nat} (s : State) (hc : c < 42) :
    ((requestFromLeaving c s).chan c).attack = 0 := by
  unfold requestFromLeaving
  split
  · exact joinWait_noAttack _ hc
  · exact refuseRequest_noAttack s hc

/-- The channel at the tail of the Wait List, out of the Leaving List. -/
def leavingWaits (c : Nat) (s : State) : State := joinWait c (s.modFloor (fun f => f.dropLeaving c))

theorem leavingWaits_floor (c : Nat) (s : State) : (leavingWaits c s).floor = { s.floor with
    wait := s.floor.wait ++ [⟨c, s.sys.blocks, 0, 0⟩], leaving := s.floor.leaving.filter (fun e => e.ch != c) } := rfl

theorem requestFromLeaving_room {c : Nat} {s : State} (h : s.floor.wait.length < 8) :
    requestFromLeaving c s = floorChange c (s.gate c) .waiting .level (leavingWaits c s) := if_pos (decide_eq_true h)

theorem afterFloor_wait_of_unserved {s : State} (h : (settleGuard s).floor.canServe = false) :
    (afterFloor s).floor.wait = s.floor.wait ∧ (afterFloor s).floor.list.map (fun e => e.ch) = s.floor.list.map (fun e => e.ch) := by
  obtain ⟨hwait, -, -, -, -, -, hchs⟩ := settleGuard_floor s
  unfold afterFloor
  rw [serve_of_not h]
  exact ⟨hwait, hchs⟩

theorem settleGuard_canServe (s : State) : (settleGuard s).floor.canServe = s.floor.canServe := by
  obtain ⟨hwait, hleaving, hmode, hcfg, -, -, hchs⟩ := settleGuard_floor s
  have hlen : (settleGuard s).floor.list.length = s.floor.list.length := by simpa using congrArg List.length hchs
  rw [Floor.canServe, Floor.placeFree, hwait, hleaving, hmode, hcfg, hlen]
  rfl

/-- One that waits alone is admitted at once where a place is free (R54, R60). -/
theorem afterFloor_admits {c : Nat} {s : State} (hwait : s.floor.wait = [⟨c, s.sys.blocks, 0, 0⟩])
    (hentry : s.floor.entry? c = none) (hvoice : s.floor.mode = .voice) (hleaving : s.floor.leaving = [])
    (hfree : s.floor.list.length < s.floor.cfg.maxOpen) :
    (afterFloor s).floor.entry? c = some ⟨c, .opened, s.sys.blocks, .none, none⟩ ∧ (afterFloor s).floor.wait = [] := by
  obtain ⟨hw, hl, hm, hcfg, -, -, hchs⟩ := settleGuard_floor s
  have hserves : (settleGuard s).floor.canServe = true := by
    rw [settleGuard_canServe, Floor.canServe, hwait, hleaving, hvoice, Floor.placeFree, decide_eq_true hfree]
    rfl
  have hhead : (settleGuard s).floor.wait = [⟨c, s.sys.blocks, 0, 0⟩] := hw.trans hwait
  have hserved : afterFloor s = admitHead (settleGuard s) := by
    unfold afterFloor
    dsimp only
    rw [hhead]
    show serve 1 (settleGuard s) = _
    unfold serve
    rw [if_pos hserves]
    rfl
  have hnone : (settleGuard s).floor.entry? c = none := by
    rw [Floor.entry?_none, hchs, ← Floor.entry?_none]
    exact hentry
  rw [hserved]
  refine ⟨?_, by rw [admitHead_floor hhead]⟩
  rw [admitHead_cons hhead]
  show (joinFloor c .opened ((settleGuard s).modFloor (fun f => { f with wait := [] }))).floor.entry? c = _
  rw [joinFloor_entry?, show ((settleGuard s).modFloor (fun f => { f with wait := [] })).floor.entry? c = none from hnone]
  have htalk : ((settleGuard s).modFloor (fun f => { f with wait := [] })).floor.newTalk c = none :=
    newTalk_voice (hm.trans hvoice) c
  rw [htalk, show ((settleGuard s).modFloor (fun f => { f with wait := [] })).sys = s.sys from settleGuard_blocks s]
  simp

theorem override_sys (c : Nat) (s : State) : (override c s).sys.blocks = s.sys.blocks :=
  ((override_changes c s).1 .clock (by decide)).1

theorem filter_leaving_of_not {f : Floor} {c : Nat} (h : f.isLeaving c = false) :
    f.leaving.filter (fun e => e.ch != c) = f.leaving := by
  refine List.filter_eq_self.2 fun e he => bne_iff_ne.2 fun hch => ?_
  have hin : f.isLeaving c = true := List.any_eq_true.2 ⟨e, he, beq_iff_eq.2 hch⟩
  exact absurd (hin.symm.trans h) (by decide)

/-- Settles O26. -/
theorem floorRequestTakesTheTables : Obligations.FloorRequestTakesTheTables := by
  have hact {c : Nat} {s : State} (hgate : s.gate c = .attack) (hvoice : s.floor.mode = .voice) :
      act (.floorRequest c) (s.undue (.floorRequest c)) = refreshRings (requestFloor c (s.undue (.floorRequest c))) := by
    have hcond : (s.gate c == .attack && s.floor.mode == .voice) = true := by
      rw [hgate, hvoice]
      rfl
    dsimp only [act, actFloorRequest]
    exact when_of hcond _ _
  refine ⟨fun c s hreset hlaw hdue hgate hcount hvoice hchair hleaves => ?lists,
    fun c s hreset hlaw hdue hgate hcount hvoice hchair => ?chair,
    fun c s hreset hlaw hdue hgate hvoice hchair hleaves => ?leaving⟩
  case lists =>
    intro free oldest
    have h : Requests c (s.undue (.floorRequest c)) := ⟨hlaw, hgate, hvoice, hchair, hleaves⟩
    have hc := (gate_attack hlaw hgate).1
    have hrequest := requestFloor_byLists h
    refine ⟨_, exec_event_acts (.floorRequest c) rfl hreset hdue (hact hgate hvoice), ?_, fun hfree hwait => ?_,
      fun hfull hwait hroom e he => ?_, fun hunserved hblocked hroom => ?_, fun hunserved hfull => ?_, ?_⟩
    · rw [refreshRings_chan, hrequest]
      exact afterFloor_attack (requestByLists_noAttack _ (by omega))
    · obtain ⟨hin, hleaving, hsays⟩ := h.opens hfree hwait
      rw [refreshRings_floor]
      exact ⟨hin, hleaving, (hsays.then_ (says_refreshRings _)).1⟩
    · obtain ⟨hin, hout, hleaving, hguard, hsays⟩ := h.evicts hfull hwait hroom he
      rw [refreshRings_floor]
      exact ⟨hin, hout, hleaving, hguard, (hsays.then_ (says_refreshRings _)).1⟩
    · obtain ⟨hwaits, hentry, hsays⟩ := h.waits hunserved hblocked hroom
      rw [refreshRings_floor]
      exact ⟨hwaits, hentry, (hsays.then_ (says_refreshRings _)).1⟩
    · obtain ⟨hfloor, hclosed, hsays⟩ := h.refused hunserved hfull
      rw [refreshRings_floor, refreshRings_gate, hfloor]
      exact ⟨rfl, (gate_attack hlaw hgate).2.1, hclosed, (hsays.then_ (says_refreshRings _)).1⟩
    · rw [hrequest]
      exact (undue_changes _ s).comp ((requestByLists_changes c _).comp (rs := [.attack, .floor, .tables])
        ((afterFloor_changes _).comp (rs := [.attack, .floor, .tables]) (refreshRings_changes _)))
  case chair =>
    obtain ⟨hc, hentry, -, hstands⟩ := gate_attack hlaw hgate
    have h : Overrides c (s.undue (.floorRequest c)) := ⟨hlaw, hc, hstands, hchair, hentry⟩
    have hrequest : requestFloor c (s.undue (.floorRequest c)) = override c (s.undue (.floorRequest c)) :=
      if_pos (beq_iff_eq.2 hchair)
    have hrows := overrideRows_refreshRings (override_rows h) (override_sys c _)
    rw [← hrequest] at hrows
    obtain ⟨hfree, hfull⟩ := id hrows
    refine ⟨_, exec_event_acts (.floorRequest c) rfl hreset hdue (hact hgate hvoice), fun hroom => ?_,
      fun hno hnot e he => ?_, hrows,
      (undue_changes _ s).comp ((requestFloor_changes c _).comp (rs := requestParts) (refreshRings_changes _))⟩
    · obtain ⟨⟨hin, -, hgone⟩, -⟩ := hfree hroom
      exact ⟨hin, hgone⟩
    · have hsame : s.floor.leaving.filter (fun e => e.ch != c) = s.floor.leaving := filter_leaving_of_not hnot
      have hhead : s.floor.list.head? = some e := by
        cases hlist : s.floor.list with
        | nil => rw [hlist] at he; cases he
        | cons x xs =>
          have hne : (x.ch != c) = true := bne_iff_ne.2 fun hch =>
            Floor.entry?_none.1 hentry (by rw [hlist, List.map_cons, hch]; exact List.mem_cons_self)
          rw [hlist, List.find?_cons_of_pos (p := fun y : FloorEntry => y.ch != c) hne] at he
          exact he
      obtain ⟨hpending, hheard, -⟩ := hfull hno (.inl hnot) e hhead
      refine ⟨fun hst => ?_, fun hst hroom => ?_⟩
      · obtain ⟨⟨hin, -, -⟩, hout, hleft, -⟩ := hpending hst
        exact ⟨hin, hout, hleft.trans hsame⟩
      · obtain ⟨hin, -, hout, hleft, -, -⟩ := hheard hst (by rw [show (s.undue (.floorRequest c)).floor = s.floor from rfl, hsame]; exact hroom)
        refine ⟨hin, hout, hleft.trans ?_⟩
        rw [show (s.undue (.floorRequest c)).floor = s.floor from rfl, hsame]
        rfl
  case leaving =>
    intro f L
    obtain ⟨hc, hentry, hwaiting, -⟩ := gate_attack hlaw hgate
    have hrequest := requestFloor_leaving (s := s.undue (.floorRequest c)) hchair hleaves
    have hnonempty : s.floor.leaving ≠ [] := by
      intro hempty
      rw [Floor.isLeaving, hempty] at hleaves
      cases hleaves
    refine ⟨_, exec_event_acts (.floorRequest c) rfl hreset hdue (hact hgate hvoice), ?_, fun hroom => ?_, fun hfull => ?_,
      ?_⟩
    · rw [refreshRings_chan, hrequest]
      exact afterFloor_attack (requestFromLeaving_noAttack _ (by omega))
    · rw [refreshRings_floor, hrequest, requestFromLeaving_room (s := s.undue (.floorRequest c)) hroom,
        show (s.undue (.floorRequest c)).gate c = .attack from hgate]
      generalize hx : floorChange c .attack .waiting .level (leavingWaits c (s.undue (.floorRequest c))) = x
      have hfloor : x.floor = { s.floor with wait := s.floor.wait ++ [⟨c, s.sys.blocks, 0, 0⟩], leaving := L } := by
        rw [← hx]
        rfl
      have hsys : x.sys = s.sys := by rw [← hx]; rfl
      have hnotice : Says (s.undue (.floorRequest c)) x [.floorChange c .attack .waiting .level f.list.length
          (f.wait.length + 1) L.length f.openCount] := by
        have hsays := ((says_modFloor (fun f => f.dropLeaving c) (s.undue (.floorRequest c))).then_
          (says_joinWait c _)).after (says_floorChange c .attack .waiting .level (leavingWaits c (s.undue (.floorRequest c))))
        rw [hx, show (leavingWaits c (s.undue (.floorRequest c))).floor.wait.length = f.wait.length + 1 from
          List.length_append] at hsays
        exact hsays
      obtain ⟨rest, hrest, -⟩ := says_afterFloor x
      refine ⟨?_, fun hunserved => ?_, fun hfree hempty hnobody => ?_, fun hempty hpending hguard => ?_, rest,
        ((hnotice.trans hrest).then_ (says_refreshRings _)).1⟩
      · rw [(afterFloor_floor x).1, hfloor]
      · have hno : (settleGuard x).floor.canServe = false := by
          rw [settleGuard_canServe, hfloor]
          exact canServe_blocked (hunserved.imp_left Nat.not_lt.2)
        obtain ⟨hwait, hchs⟩ := afterFloor_wait_of_unserved hno
        refine ⟨by rw [hwait, hfloor], ?_⟩
        rw [Floor.entry?_none, hchs, hfloor, ← Floor.entry?_none]
        exact hentry
      · have hadmits := afterFloor_admits (c := c) (s := x) (by rw [hfloor, hsys, show s.floor.wait = [] from hnobody]; rfl)
          (by rw [hfloor]; exact hentry) (by rw [hfloor]; exact hvoice) (by rw [hfloor]; exact hempty)
          (by rw [hfloor]; exact hfree)
        rw [hsys] at hadmits
        exact hadmits
      · have hstopped : s.floor.guard = none := guard_stopped (guarded_of_lawful hlaw) hnonempty
        have hstarts := afterFloor_guard_starts (s := x) (by rw [hfloor]; exact hempty) (by rw [hfloor]; exact hpending)
          (by rw [hfloor]; exact hstopped) (by rw [hfloor]; exact hguard)
        rw [hfloor] at hstarts
        exact hstarts
    · have hnoroom : ¬ (s.undue (.floorRequest c)).floor.waitRoom = true := by
        rw [Floor.waitRoom, show (s.undue (.floorRequest c)).floor.wait.length = 8 from hfull, decide_eq_true_eq]
        decide
      have hrefused : requestFloor c (s.undue (.floorRequest c)) = refuseRequest c (s.undue (.floorRequest c)) := by
        have hguarded := guarded_of_lawful hlaw
        rw [hrequest, requestFromLeaving, if_neg hnoroom]
        exact afterFloor_guarded_stays (s := refuseRequest c (s.undue (.floorRequest c))) hguarded
          (canServe_false (.inl hnonempty))
      have hnotice : Says (s.undue (.floorRequest c)) (refuseRequest c (s.undue (.floorRequest c)))
          [.floorRefused c f.list.length f.wait.length] :=
        (says_modChan c (fun k => { k with attack := 0 }) (s.undue (.floorRequest c))).after (says_raise _ _)
      rw [refreshRings_floor, hrefused]
      refine ⟨rfl, ?_⟩
      rw [show f.wait.length = 8 from hfull] at hnotice
      exact (hnotice.then_ (says_refreshRings _)).1
    · rw [hrequest]
      exact (undue_changes _ s).comp ((requestFromLeaving_changes c _).comp (rs := [.attack, .floor, .tables])
        ((afterFloor_changes _).comp (rs := [.attack, .floor, .tables]) (refreshRings_changes _)))

end Sys2Proof.Proofs
end

