-- ==== Sys2Proof/Proofs/FloorPresses.lean ====
section
/-! PROOFS. TALK presses against the lists (R46, R73, R85, R87). -/

set_option Elab.async false

namespace Sys2Proof.Proofs

open Sys2Proof Sys2Proof.Machine

/-! ### A press that is refused (R73, R156) -/

theorem owePulse_floor (c : Nat) (s : State) : (owePulse c s).floor = s.floor := by
  unfold owePulse
  split <;> rfl

theorem owePulse_owed {c : Nat} {s : State} (hc : c < 42) (h : s.present c = true) :
    ((owePulse c s).chan c).pulseOwed = true := by
  rw [owePulse, if_pos h]
  show ((s.modChan c (fun k => { k with pulseOwed := true })).chan c).pulseOwed = true
  rw [State.chan_modChan, if_pos ⟨rfl, hc⟩]

theorem refusePress_rows {c : Nat} {s : State} (hc : c < 42) (h : s.present c = true) :
    (refusePress c s).floor = s.floor ∧ ((refusePress c s).chan c).pulseOwed = true
      ∧ Says s (refusePress c s) [.floorRefused c s.floor.list.length s.floor.wait.length] :=
  ⟨owePulse_floor c _, owePulse_owed hc h, (says_raise _ s).then_ (says_owePulse ..)⟩

/-! ### A channel that waits, and the service after it (R48, R60, R75) -/

/-- A channel stands in the Wait List, or has been admitted from it. -/
def waitsOrOpen (c : Nat) (f : Floor) : Prop :=
  f.entry? c = none ∧ f.waiting? c ≠ none ∨ ∃ e, f.entry? c = some e ∧ e.st = .opened

theorem waitsOrOpen_admitHead {c : Nat} {s : State} {w : WaitEntry} {ws : List WaitEntry} (h : waitsOrOpen c s.floor)
    (hwait : s.floor.wait = w :: ws) : waitsOrOpen c (admitHead s).floor := by
  have hadmitted : (admitHead s).floor.entry? c
      = (joinFloor w.ch .opened (s.modFloor (fun f => { f with wait := ws }))).floor.entry? c := by
    rw [admitHead_cons hwait]
    rfl
  have hentry : (s.modFloor (fun f => { f with wait := ws })).floor.entry? c = s.floor.entry? c := rfl
  rw [joinFloor_entry?, hentry] at hadmitted
  rcases h with ⟨hnone, hwaits⟩ | ⟨e, he, hst⟩
  · rw [hnone] at hadmitted
    by_cases hhead : c = w.ch
    · exact .inr ⟨_, hadmitted.trans (if_pos hhead), rfl⟩
    · refine .inl ⟨hadmitted.trans (if_neg hhead), fun hgone => hwaits ?_⟩
      rw [Floor.waiting?_none, admitHead_floor hwait] at hgone
      rw [Floor.waiting?_none, hwait, List.map_cons, List.mem_cons]
      exact fun hin => hin.elim hhead hgone
  · rw [he] at hadmitted
    refine .inr ⟨_, hadmitted, ?_⟩
    split <;> exact hst

theorem waitsOrOpen_gate {c : Nat} {s : State} (hc : c < 32) (h : waitsOrOpen c s.floor) :
    s.gate c = .waiting ∨ s.gate c = .opened := by
  rcases h with ⟨hnone, hwaits⟩ | ⟨e, he, hst⟩
  · refine .inl ?_
    rw [State.gate, if_pos hc, hnone]
    exact if_pos (Option.isSome_iff_ne_none.2 hwaits)
  · refine .inr ?_
    rw [gate_of_entry? hc he, hst]
    rfl

/-- A press that joins the Wait List (R73, row 6). -/
theorem joins_rows {c : Nat} {g : Gate} {s : State} (h : s.floorLawful) (hc : c < 32) (hentry : s.floor.entry? c = none) :
    let u := afterFloor (floorChange c g .waiting .request (joinWait c s))
    (s.floor.mode = .queue → s.floor.cfg.autoGrant = false → u.floor.wait = s.floor.wait ++ [⟨c, s.sys.blocks, 0, 0⟩])
      ∧ (u.gate c = .waiting ∨ u.gate c = .opened)
      ∧ ∃ rest, Says s u (.floorChange c g .waiting .request s.floor.list.length (s.floor.wait.length + 1)
          s.floor.leaving.length s.floor.openCount :: rest) := by
  have hguarded := guarded_of_lawful h
  generalize hx : floorChange c g .waiting .request (joinWait c s) = x
  have hfloor : x.floor = { s.floor with wait := s.floor.wait ++ [⟨c, s.sys.blocks, 0, 0⟩] } := by
    rw [← hx]
    rfl
  have hxguarded : x.floor.guarded := by
    rw [hfloor]
    exact hguarded
  have hwaits : waitsOrOpen c x.floor := by
    refine .inl ⟨by rw [hfloor]; exact hentry, ?_⟩
    rw [Ne, Floor.waiting?_none, hfloor]
    simp
  have hnotice : Says s x [.floorChange c g .waiting .request s.floor.list.length (s.floor.wait.length + 1)
      s.floor.leaving.length s.floor.openCount] := by
    have hsays := (says_joinWait c s).after (says_floorChange c g .waiting .request (joinWait c s))
    rw [hx, show (joinWait c s).floor.wait.length = s.floor.wait.length + 1 from List.length_append] at hsays
    exact hsays
  obtain ⟨rest, hrest, -⟩ := says_afterFloor x
  refine ⟨fun hmode hauto => ?_, waitsOrOpen_gate hc ?_, rest, hnotice.trans hrest⟩
  · have hno : x.floor.canServe = false := canServe_false (.inr (by rw [hfloor]; exact ⟨hmode, hauto⟩))
    rw [afterFloor_guarded_stays hxguarded hno, hfloor]
  · rw [afterFloor_of_guarded hxguarded]
    exact serve_keep (P := fun t => waitsOrOpen c t.floor) (fun _ _ _ ht _ hw => waitsOrOpen_admitHead ht hw) _ x hwaits

/-! ### The press in QUEUE mode (R73, R85) -/

theorem gate_of_waiting {c : Nat} {s : State} (hc : c < 32) (hentry : s.floor.entry? c = none)
    (hwaiting : s.floor.waiting? c ≠ none) : s.gate c = .waiting := by
  rw [State.gate, if_pos hc, hentry]
  exact if_pos (Option.isSome_iff_ne_none.2 hwaiting)

/-- Rows 1 and 2 of R73: a member yields, a waiting channel withdraws. -/
theorem queuePress_leaves {c : Nat} {s : State} (h : s.floorLawful) (hc : c < 32)
    (hmember : s.floor.entry? c ≠ none ∨ s.floor.waiting? c ≠ none) :
    (queuePress c s).floor.entry? c = none ∧ (queuePress c s).floor.waiting? c = none
      ∧ (queuePress c s).floor.leaving = s.floor.leaving
      ∧ ∃ nf nw nl n rest, Says s (queuePress c s) (.floorChange c (s.gate c) .closed
          (if s.floor.entry? c = none then .withdrawn else .yield) nf nw nl n :: rest) := by
  have hkept := floorKept_of_lawful h
  by_cases hentry : s.floor.entry? c = none
  · have hwaiting := hmember.resolve_left (not_not_intro hentry)
    have hpress : queuePress c s = leaveWait c .withdrawn s := by
      rw [queuePress, hentry, if_neg (by decide), if_pos (Option.isSome_iff_ne_none.2 hwaiting)]
    obtain ⟨hout, hnowait, -⟩ := leaveWait_off (k := .withdrawn) hkept hwaiting
    obtain ⟨served, hsays, -⟩ := says_leaveWait (k := .withdrawn) hkept hwaiting
    have hleaving : (leaveWait c .withdrawn s).floor.leaving = s.floor.leaving := (afterFloor_floor _).1
    rw [hpress, if_pos hentry, gate_of_waiting hc hentry hwaiting]
    exact ⟨hout, hnowait, hleaving, _, _, _, _, served, hsays⟩
  · have hpress : queuePress c s = leaveList c .yield s := if_pos (Option.isSome_iff_ne_none.2 hentry)
    obtain ⟨hout, hnowait, hleaving, -⟩ := leaveList_rows (k := .yield) h hentry
    obtain ⟨served, hsays, -⟩ := says_leaveList (k := .yield) hkept hentry
    rw [hpress, if_neg hentry]
    exact ⟨hout, hnowait, hleaving, _, _, _, _, served, hsays⟩

/-- Rows 3 and 4 of R73: a muted channel and one in the Leaving List are refused. -/
theorem queuePress_refused {c : Nat} {s : State} (hentry : s.floor.entry? c = none) (hwaiting : s.floor.waiting? c = none)
    (hno : s.muted c = true ∨ s.floor.isLeaving c = true) : queuePress c s = refusePress c s := by
  unfold queuePress
  dsimp only
  rw [hentry, hwaiting, if_neg (by decide), if_neg (by decide)]
  rcases hno with hmuted | hleaves
  · exact if_pos hmuted
  · rw [hleaves, if_pos rfl, ite_self]

/-- Row 5 of R73: the Wait List is full. -/
theorem queuePress_full {c : Nat} {s : State} (hentry : s.floor.entry? c = none) (hwaiting : s.floor.waiting? c = none)
    (hmuted : s.muted c = false) (hleaves : s.floor.isLeaving c = false) (hfull : s.floor.wait.length = 8) :
    queuePress c s = owePulse c (raise (.waitFull c 8) s) := by
  have hroom : (!s.floor.waitRoom) = true := by
    rw [Floor.waitRoom, hfull]
    decide
  unfold queuePress
  dsimp only
  rw [hentry, hwaiting, hmuted, hleaves, hfull, if_neg (by decide), if_neg (by decide), if_neg (by decide),
    if_neg (by decide), if_pos hroom]

/-- Row 6 of R73: the channel joins the Wait List. -/
theorem queuePress_joins {c : Nat} {s : State} (hentry : s.floor.entry? c = none) (hwaiting : s.floor.waiting? c = none)
    (hmuted : s.muted c = false) (hleaves : s.floor.isLeaving c = false) (hroom : s.floor.wait.length < 8) :
    queuePress c s = afterFloor (floorChange c (s.gate c) .waiting .request (joinWait c s)) := by
  have hfits : ¬ (!s.floor.waitRoom) = true := by
    rw [Floor.waitRoom, show decide (s.floor.wait.length < Config.waitCapacity) = true from decide_eq_true hroom]
    decide
  unfold queuePress
  dsimp only
  rw [hentry, hwaiting, hmuted, hleaves, if_neg (by decide), if_neg (by decide), if_neg (by decide), if_neg (by decide),
    if_neg hfits]

/-! ### The chair's latch (R87) -/

theorem setLatch_gate (c : Nat) (on : Bool) (g : Gate) (s : State) (d : Nat) : (setLatch c on g s).gate d = s.gate d := rfl

theorem says_setLatch (c : Nat) (on : Bool) (g : Gate) (s : State) :
    Says s (setLatch c on g s) [.floorChange c g (s.gate c) (if on then .latched else .unlatched) s.floor.list.length
      s.floor.wait.length s.floor.leaving.length s.floor.openCount] :=
  (says_modFloor (fun f => { f with latch := on }) s).after (says_floorChange ..)

/-- A member that is latched is OPEN, without a hold timer (R87, row 3). -/
def openLatched (c : Nat) (s : State) : State :=
  s.modFloor (fun f => f.modEntry c (fun e => { e with st := .opened, hold := .none }))

theorem openLatched_rows {c : Nat} {e : FloorEntry} {s : State} (h : s.floorLawful) (hc : c < 32)
    (he : s.floor.entry? c = some e) (hst : e.st ≠ .pending) :
    (openLatched c s).floor.list = s.floor.list.map (fun x =>
        if x.ch = c ∧ e.st ≠ .pending then { x with st := .opened, hold := .none } else x)
      ∧ (openLatched c s).gate c = .opened ∧ (openLatched c s).floor.openCount = s.floor.openCount := by
  have hexcl : s.floor.exclusive := h.2.1
  have hmember (x : FloorEntry) (hx : x ∈ s.floor.list) (hch : x.ch = c) : x = e := by
    have hsome := entry?_of_mem hexcl hx
    rw [hch, he] at hsome
    exact (Option.some.inj hsome).symm
  refine ⟨?_, ?_, ?_⟩
  · refine List.map_congr_left fun x _ => ?_
    simp [hst]
  · have hin : (openLatched c s).floor.entry? c = some { e with st := .opened, hold := .none } := by
      show (s.floor.list.map _).find? _ = _
      rw [List.find?_map, Option.map_eq_some_iff]
      refine ⟨e, ?_, if_pos (beq_iff_eq.2 (Floor.entry?_ch he))⟩
      rw [← he]
      refine List.find?_congr fun x _ => ?_
      rw [Function.comp_apply]
      split <;> rfl
    rw [gate_of_entry? hc hin]
    rfl
  · show (s.floor.list.map _).countP _ = s.floor.list.countP _
    rw [List.countP_map]
    refine List.countP_congr fun x hx => ?_
    rw [Function.comp_apply]
    by_cases hch : x.ch = c
    · rw [if_pos (beq_iff_eq.2 hch), hmember x hx hch]
      simp [hst]
    · rw [if_neg (by simpa using hch)]

/-- A member is latched where it stands (R87, rows 3 and 4). -/
theorem latchPress_member {c : Nat} {e : FloorEntry} {s : State} (h : s.floorLawful) (hc : c < 32)
    (he : s.floor.entry? c = some e) (hlatch : s.floor.latch = false) (hmuted : s.muted c = false) :
    (latchPress c s).floor = { s.floor with
        latch := true
        list := s.floor.list.map (fun x => if x.ch = c ∧ e.st ≠ .pending then { x with st := .opened, hold := .none } else x) }
      ∧ Says s (latchPress c s) [.floorChange c (s.gate c) (if e.st = .pending then .pending else .opened) .latched
          s.floor.list.length s.floor.wait.length s.floor.leaving.length s.floor.openCount] := by
  have hgate := gate_of_entry? hc he
  by_cases hst : e.st = .pending
  · have hpending : s.gate c = .pending := by
      rw [hgate, hst]
      rfl
    have hpress : latchPress c s = setLatch c true .pending s := by
      rw [latchPress, hlatch, hmuted, hpending]
      rfl
    have hsays := says_setLatch c true .pending s
    rw [hpending] at hsays
    rw [hpress, hpending, if_pos hst]
    refine ⟨?_, hsays⟩
    have hsame : s.floor.list.map (fun x => if x.ch = c ∧ e.st ≠ .pending then { x with st := .opened, hold := .none } else x)
        = s.floor.list := List.map_id'' (fun x => if_neg fun hboth => hboth.2 hst) _
    rw [hsame]
    rfl
  · have hpress : latchPress c s = setLatch c true (s.gate c) (openLatched c s) := by
      have hopen : (s.gate c == .opened || s.gate c == .held) = true := by
        rw [hgate]
        cases hcase : e.st with
        | opened => rfl
        | held => rfl
        | pending => exact absurd hcase hst
      unfold latchPress
      dsimp only
      rw [hlatch, hmuted, if_neg (by decide), if_neg (by decide), if_pos hopen]
      rfl
    obtain ⟨hlist, hopened, hcount⟩ := openLatched_rows h hc he hst
    have hsays := (says_modFloor _ s).after (says_setLatch c true (s.gate c) (openLatched c s))
    rw [hopened, hcount, show (openLatched c s).floor.list.length = s.floor.list.length from List.length_map _] at hsays
    rw [hpress, if_neg hst, ← hlist]
    exact ⟨rfl, hsays⟩

/-- A chair off the floor overrides, and is latched where that admits it (R87, row 5). -/
theorem latchPress_off {c : Nat} {s : State} (hc : c < 32) (hentry : s.floor.entry? c = none)
    (hlatch : s.floor.latch = false) (hmuted : s.muted c = false) :
    latchPress c s = if ((override c s).floor.entry? c).isSome then setLatch c true ((override c s).gate c) (override c s)
      else override c s := by
  have hopen : ¬ (s.gate c == .opened || s.gate c == .held) = true ∧ ¬ (s.gate c == .pending) = true := by
    rw [State.gate, if_pos hc, hentry]
    dsimp only
    split
    · decide
    · split <;> decide
  unfold latchPress
  dsimp only
  rw [hlatch, hmuted, if_neg (by decide), if_neg (by decide), if_neg hopen.1, if_neg hopen.2]

theorem override_latch (c : Nat) (s : State) : (override c s).floor.latch = s.floor.latch :=
  (override_changes c s).1 .latch (by decide)

theorem latchPress_overrides {c : Nat} {s : State} (h : Overrides c s) (hlatch : s.floor.latch = false) :
    let u := latchPress c s
    s.overrideRows c u ∧ u.floor.latch = (u.floor.entry? c).isSome
      ∧ (s.floor.list.length < s.floor.cfg.maxOpen →
        u.floor.entry? c = some ⟨c, .opened, s.sys.blocks, .none, none⟩ ∧ u.floor.latch = true)
      ∧ (u.floor.latch = true → ∃ bs, s.raised u (bs ++ [.floorChange c (u.gate c) (u.gate c) .latched
          u.floor.list.length u.floor.wait.length u.floor.leaving.length u.floor.openCount])) := by
  have hrows := override_rows h
  have hblocks := override_sys c s
  have hkeeps := (override_latch c s).trans hlatch
  obtain ⟨bs, hbs⟩ := (override_changes c s).2
  dsimp only
  rw [latchPress_off h.pod h.off hlatch h.stands.1]
  generalize override c s = v at *
  by_cases hin : (v.floor.entry? c).isSome = true
  · rw [if_pos hin]
    have hsays := says_setLatch c true (v.gate c) v
    refine ⟨overrideRows_then hrows hblocks rfl rfl rfl rfl rfl (fun _ => rfl) hsays (fun b hb => ?_) (fun hsame => ?_),
      hin.symm, fun hfree => ⟨(hrows.1 hfree).1.1, rfl⟩, fun _ => ⟨bs, State.raised_trans hblocks hbs hsays.1⟩⟩
    · exact ⟨_, _, _, _, _, List.mem_singleton.1 hb⟩
    · rw [hsame, h.off] at hin
      cases hin
  · rw [if_neg hin]
    have hnone := Bool.not_eq_true _ ▸ hin
    refine ⟨hrows, hkeeps.trans hnone.symm, fun hfree => ?_, fun hon => ?_⟩
    · rw [(hrows.1 hfree).1.1] at hin
      exact absurd rfl hin
    · exact absurd (hon.symm.trans hkeeps) (by decide)

/-- Settles O29. -/
theorem talkPressTakesTheTables : Obligations.TalkPressTakesTheTables := by
  have hact {c : Nat} {s : State} (hc : c < 32) (hpresent : s.present c = true) (hbutton : (s.position c).talkButton = true) :
      act (.talkPress c) (s.undue (.talkPress c)) = refreshRings (pressTalk c (s.undue (.talkPress c))) := by
    have hcond : (decide (c < 32) && s.present c && (s.position c).talkButton) = true := by
      rw [hpresent, hbutton, decide_eq_true hc]
      rfl
    dsimp only [act, actTalkPress]
    exact when_of hcond _ _
  have hchanges (c : Nat) (s : State) :
      s.changes (.due :: pressParts) (refreshRings (pressTalk c (s.undue (.talkPress c)))) :=
    (undue_changes _ s).comp ((pressTalk_changes c _).comp (rs := pressParts) (refreshRings_changes _))
  refine ⟨fun c s hreset hlaw hc hpresent hbutton hchair => ?member, fun c s hreset hlaw hc hpresent hbutton hchair => ?chair⟩
  case member =>
    refine ⟨_, exec_event_acts (.talkPress c) rfl hreset rfl (hact hc hpresent hbutton), fun hmode => ?_, fun hmode => ?_,
      hchanges c s⟩
    · have hpress : pressTalk c (s.undue (.talkPress c)) = s.undue (.talkPress c) := by
        rw [pressTalk, show (s.undue (.talkPress c)).floor.mode = .voice from hmode,
          show (s.undue (.talkPress c)).floor.isChair c = false from beq_eq_false_iff_ne.2 hchair]
      rw [hpress, refreshRings_floor]
      exact ⟨rfl, (says_refreshRings (s.undue (.talkPress c))).1⟩
    · have hpress : pressTalk c (s.undue (.talkPress c)) = queuePress c (s.undue (.talkPress c)) := by
        rw [pressTalk, show (s.undue (.talkPress c)).floor.mode = .queue from hmode,
          show (s.undue (.talkPress c)).floor.isChair c = false from beq_eq_false_iff_ne.2 hchair]
      rw [hpress, refreshRings_floor, refreshRings_chan, refreshRings_gate]
      have hlaw' := floorLawful_undue hlaw (.talkPress c)
      refine ⟨fun hmember => ?_, fun hentry hwaiting => ?_⟩
      · obtain ⟨hout, hnowait, hleaving, nf, nw, nl, n, rest, hsays⟩ := queuePress_leaves hlaw' hc hmember
        exact ⟨hout, hnowait, hleaving, nf, nw, nl, n, rest, (hsays.then_ (says_refreshRings _)).1⟩
      · have hrefused := refusePress_rows (c := c) (s := s.undue (.talkPress c)) (by omega) hpresent
        refine ⟨fun hno => ?_, fun hmuted hleaves hfull => ?_, fun hmuted hleaves hroom => ?_⟩
        · obtain ⟨hfloor, howed, hsays⟩ := hrefused
          rw [queuePress_refused (s := s.undue (.talkPress c)) hentry hwaiting hno]
          exact ⟨hfloor, howed, (hsays.then_ (says_refreshRings _)).1⟩
        · rw [queuePress_full (s := s.undue (.talkPress c)) hentry hwaiting hmuted hleaves hfull, owePulse_floor]
          have hnotice : Says (s.undue (.talkPress c)) (owePulse c (raise (.waitFull c 8) (s.undue (.talkPress c))))
            [.waitFull c 8] := (says_raise _ _).then_ (says_owePulse ..)
          exact ⟨rfl, owePulse_owed (by omega) hpresent, (hnotice.then_ (says_refreshRings _)).1⟩
        · obtain ⟨hwait, hgate, rest, hsays⟩ := joins_rows (g := s.gate c) hlaw' hc hentry
          rw [queuePress_joins (s := s.undue (.talkPress c)) hentry hwaiting hmuted hleaves hroom,
            show (s.undue (.talkPress c)).gate c = s.gate c from rfl]
          exact ⟨hwait hmode, hgate, rest, (hsays.then_ (says_refreshRings _)).1⟩
  case chair =>
    have hisChair : (s.undue (.talkPress c)).floor.isChair c = true := beq_iff_eq.2 hchair
    have hlaw' := floorLawful_undue hlaw (.talkPress c)
    have hrefused := refusePress_rows (c := c) (s := s.undue (.talkPress c)) (by omega) hpresent
    have hoverrides (hentry : s.floor.entry? c = none) (hmuted : s.muted c = false) :
        Overrides c (s.undue (.talkPress c)) := ⟨hlaw', hc, ⟨hmuted, hpresent⟩, hchair, hentry⟩
    refine ⟨_, exec_event_acts (.talkPress c) rfl hreset rfl (hact hc hpresent hbutton), fun hmode => ?_, fun hmode => ?_,
      hchanges c s⟩
    · have hpress : pressTalk c (s.undue (.talkPress c)) = latchPress c (s.undue (.talkPress c)) := by
        rw [pressTalk, show (s.undue (.talkPress c)).floor.mode = .voice from hmode, hisChair]
      rw [hpress]
      simp only [refreshRings_floor, refreshRings_chan, refreshRings_gate]
      refine ⟨fun hlatch => ?_, fun hlatch hmuted => ?_, fun hlatch hmuted e he => ?_, fun hlatch hmuted hentry hfree => ?_,
        fun hlatch hmuted hentry => ?_⟩
      · have hclears : latchPress c (s.undue (.talkPress c)) = setLatch c false (s.gate c) (s.undue (.talkPress c)) :=
          if_pos hlatch
        rw [hclears]
        exact ⟨rfl, ((says_setLatch c false (s.gate c) (s.undue (.talkPress c))).then_ (says_refreshRings _)).1⟩
      · have hrefuses : latchPress c (s.undue (.talkPress c)) = refusePress c (s.undue (.talkPress c)) := by
          have hoff : ¬ s.floor.latch = true := by rw [hlatch]; decide
          exact (if_neg hoff).trans (if_pos hmuted)
        obtain ⟨hfloor, howed, hsays⟩ := hrefused
        rw [hrefuses]
        exact ⟨hfloor, howed, (hsays.then_ (says_refreshRings _)).1⟩
      · obtain ⟨hfloor, hsays⟩ := latchPress_member hlaw' hc he hlatch hmuted
        exact ⟨hfloor, (hsays.then_ (says_refreshRings _)).1⟩
      · exact (latchPress_overrides (hoverrides hentry hmuted) hlatch).2.2.1 hfree
      · obtain ⟨hrows, hlatched, -, hlast⟩ := latchPress_overrides (hoverrides hentry hmuted) hlatch
        have hblocks : (latchPress c (s.undue (.talkPress c))).sys.blocks = s.sys.blocks :=
          ((latchPress_changes c _).1 .clock (by decide)).1
        refine ⟨overrideRows_refreshRings hrows hblocks, hlatched, fun hon => ?_⟩
        obtain ⟨bs, hbs⟩ := hlast hon
        have hquiet := State.raised_trans (s := s.undue (.talkPress c)) hblocks hbs (says_refreshRings _).1
        rw [List.append_nil] at hquiet
        exact ⟨bs, hquiet⟩
    · have hpress : pressTalk c (s.undue (.talkPress c)) = chairQueuePress c (s.undue (.talkPress c)) := by
        rw [pressTalk, show (s.undue (.talkPress c)).floor.mode = .queue from hmode, hisChair]
      rw [hpress]
      simp only [refreshRings_floor, refreshRings_chan]
      have hoff (hentry : s.floor.entry? c = none) : ¬ ((s.undue (.talkPress c)).floor.entry? c).isSome = true := by
        rw [show (s.undue (.talkPress c)).floor.entry? c = none from hentry]
        decide
      refine ⟨fun hmember => ?_, fun hentry hmuted => ?_, fun hentry hmuted hfree => ?_, fun hentry hmuted => ?_⟩
      · have hleaves : chairQueuePress c (s.undue (.talkPress c)) = leaveList c .yield (s.undue (.talkPress c)) :=
          if_pos (Option.isSome_iff_ne_none.2 hmember)
        obtain ⟨hout, -, -, hlatch⟩ := leaveList_rows (k := .yield) hlaw' hmember
        obtain ⟨served, hsays, -⟩ := says_leaveList (k := .yield) (floorKept_of_lawful hlaw') hmember
        rw [hleaves]
        refine ⟨hout, ?_, _, _, _, _, served, (hsays.then_ (says_refreshRings _)).1⟩
        rw [hlatch, show (s.undue (.talkPress c)).floor.chair = some c from hchair]
        simp
      · have hrefuses : chairQueuePress c (s.undue (.talkPress c)) = refusePress c (s.undue (.talkPress c)) :=
          (if_neg (hoff hentry)).trans (if_pos hmuted)
        obtain ⟨hfloor, howed, hsays⟩ := hrefused
        rw [hrefuses]
        exact ⟨hfloor, howed, (hsays.then_ (says_refreshRings _)).1⟩
      all_goals
        have hnot : ¬ (s.undue (.talkPress c)).muted c = true := by
          rw [show (s.undue (.talkPress c)).muted c = false from hmuted]
          decide
        have hclaims : chairQueuePress c (s.undue (.talkPress c)) = override c (s.undue (.talkPress c)) :=
          (if_neg (hoff hentry)).trans (if_neg hnot)
        have hrows := override_rows (hoverrides hentry hmuted)
        rw [hclaims]
      · obtain ⟨⟨hin, -, hgone⟩, -⟩ := hrows.1 hfree
        exact ⟨hin, hgone⟩
      · exact overrideRows_refreshRings hrows (override_sys c _)

end Sys2Proof.Proofs
end

