-- ==== Sys2Proof/Proofs/LineRuns.lean ====
section
/-! PROOFS. Runs over the lines and over the positions of a line: what each step leaves of its own item and of the
others. -/

set_option Elab.async false

namespace Sys2Proof.Proofs

open Sys2Proof Sys2Proof.Machine

/-! ### Parts read as a whole -/

/-- Where none of its parts changes, the floor stands. -/
theorem floor_of_changes {ps : List Part} {s t : State} (h : s.changes ps t)
    (hps : ∀ p ∈ [Part.floor, .mode, .cfg, .chair, .latch], p ∉ ps := by decide) : t.floor = s.floor := by
  obtain ⟨hlist, hwait, hleaving, hguard⟩ := h.1 .floor (hps _ (by decide))
  have hmode := h.1 .mode (hps _ (by decide))
  have hcfg := h.1 .cfg (hps _ (by decide))
  have hchair := h.1 .chair (hps _ (by decide))
  have hlatch := h.1 .latch (hps _ (by decide))
  simp only [Part.same] at hmode hcfg hchair hlatch
  cases ht : t.floor
  cases hs : s.floor
  simp_all

/-- Where neither power, rights, counters nor resets change, the system registers stand. -/
theorem sys_of_changes {ps : List Part} {s t : State} (h : s.changes ps t)
    (hps : ∀ p ∈ [Part.power, .rights, .clock, .resets], p ∉ ps := by decide) : t.sys = s.sys := by
  obtain ⟨hpower, hauto⟩ := h.1 .power (hps _ (by decide))
  have hrights := h.1 .rights (hps _ (by decide))
  obtain ⟨hblocks, hfree⟩ := h.1 .clock (hps _ (by decide))
  obtain ⟨hcause, hreset⟩ := h.1 .resets (hps _ (by decide))
  simp only [Part.same] at hrights
  cases ht : t.sys
  cases hs : s.sys
  simp_all

/-! ### Runs whose steps read and write each its own item -/

/-- Each step of a run moves the reading of its own item and of no other. -/
theorem runOver_reads {α : Type} {rd : State → Nat → α} {f : Nat → State → State} {key : Nat → Nat} {g : α → α}
    (ns : List Nat) (hkey : (ns.map key).Nodup) (hself : ∀ n ∈ ns, ∀ s, rd (f n s) (key n) = g (rd s (key n)))
    (hother : ∀ n ∈ ns, ∀ s i, i ≠ key n → rd (f n s) i = rd s i) (s : State) (i : Nat) :
    rd (runOver f ns s) i = if i ∈ ns.map key then g (rd s i) else rd s i := by
  induction ns generalizing s with
  | nil => rfl
  | cons n ns ih =>
    rw [List.map_cons, List.nodup_cons] at hkey
    have hrest := ih hkey.2 (fun m hm => hself m (List.mem_cons_of_mem _ hm))
      (fun m hm => hother m (List.mem_cons_of_mem _ hm)) (f n s)
    rw [show runOver f (n :: ns) s = runOver f ns (f n s) from rfl, hrest, List.map_cons]
    by_cases hi : i = key n
    · rw [hi, if_neg hkey.1, if_pos List.mem_cons_self, hself n List.mem_cons_self]
    · rw [hother n List.mem_cons_self s i hi]
      simp [hi]

/-- Each step of a run says what the reading of its own item calls for. -/
theorem says_runOver_reads {α : Type} {rd : State → Nat → α} {f : Nat → State → State} {key : Nat → Nat}
    {what : Nat → α → List NoticeBody} (ns : List Nat) (hkey : (ns.map key).Nodup)
    (hsays : ∀ n ∈ ns, ∀ s, Says s (f n s) (what n (rd s (key n))))
    (hother : ∀ n ∈ ns, ∀ s i, i ≠ key n → rd (f n s) i = rd s i) (s : State) :
    Says s (runOver f ns s) (ns.flatMap (fun n => what n (rd s (key n)))) := by
  induction ns generalizing s with
  | nil => exact .refl s
  | cons n ns ih =>
    rw [List.map_cons, List.nodup_cons] at hkey
    have hrest := ih hkey.2 (fun m hm => hsays m (List.mem_cons_of_mem _ hm))
      (fun m hm => hother m (List.mem_cons_of_mem _ hm)) (f n s)
    have hsame : ns.flatMap (fun m => what m (rd (f n s) (key m))) = ns.flatMap (fun m => what m (rd s (key m))) := by
      rw [List.flatMap_def, List.flatMap_def]
      refine congrArg List.flatten (List.map_congr_left fun m hm => ?_)
      have hne : key m ≠ key n := fun heq => hkey.1 (heq ▸ List.mem_map_of_mem hm)
      rw [hother n List.mem_cons_self s (key m) hne]
    rw [hsame] at hrest
    exact (hsays n List.mem_cons_self s).trans hrest

/-! ### The positions of a line -/

theorem podOf_mem {l k p : Nat} (hp : p < 8) : podOf k p ∈ positions.map (podOf l) ↔ k = l := by
  rw [List.mem_map]
  constructor
  · rintro ⟨q, hq, heq⟩
    have := List.mem_range.1 hq
    simp only [podOf] at heq
    omega
  · rintro rfl
    exact ⟨p, List.mem_range.2 hp, rfl⟩

theorem podOf_nodup (l : Nat) : (positions.map (podOf l)).Nodup := by
  refine List.Nodup.map (fun p q heq => ?_) List.nodup_range
  simp only [podOf] at heq
  omega

/-- A run over the positions of a line whose steps move each its own position. -/
theorem runOver_positions {l : Nat} {f : Nat → State → State} {g : Position → Position}
    (hself : ∀ p, p < 8 → ∀ s : State, (f p s).position (podOf l p) = g (s.position (podOf l p)))
    (hother : ∀ p (s : State) c, c ≠ podOf l p → (f p s).position c = s.position c) (s : State) {k p : Nat} (hp : p < 8) :
    (runOver f positions s).position (podOf k p)
      = if k = l then g (s.position (podOf k p)) else s.position (podOf k p) := by
  rw [runOver_reads (rd := State.position) (key := podOf l) positions (podOf_nodup l)
    (fun q hq t => hself q (List.mem_range.1 hq) t) (fun q _ t c hc => hother q t c hc) s (podOf k p)]
  simp only [podOf_mem hp]

/-! ### The lines -/

/-- A run over the lines whose steps move each its own line. -/
theorem runOver_lines {f : Nat → State → State} {g : Line → Line}
    (hself : ∀ l, l < 4 → ∀ s : State, (f l s).line l = g (s.line l))
    (hother : ∀ l (s : State) k, k ≠ l → (f l s).line k = s.line k) (s : State) {l : Nat} (hl : l < 4) :
    (runOver f lineNumbers s).line l = g (s.line l) := by
  have hrun := runOver_reads (rd := State.line) (key := id) lineNumbers (by decide)
    (fun k hk t => hself k (List.mem_range.1 hk) t) (fun k _ t j hj => hother k t j hj) s l
  rw [List.map_id, if_pos (List.mem_range.2 hl)] at hrun
  exact hrun

end Sys2Proof.Proofs
end

