-- ==== Sys2Proof/Proofs/PowerChanges.lean ====
section
/-! PROOFS. Power changes (11.4): standby entry, PowerWake and the wake pulse of a line. -/

set_option Elab.async false

namespace Sys2Proof.Proofs

open Sys2Proof Sys2Proof.Machine

/-! ### Standby entry of one line (R147, R150) -/

/-- A line after standby entry. -/
def atStandby (ln : Line) : Line :=
  match ln.state with
  | .starting => ln.enter .sleeping 0
  | .running => ln.enter .sleeping 0
  | .waking => ln.enter .sleeping 0
  | .testing => ln.off
  | _ => ln

theorem atStandby_state (ln : Line) : (atStandby ln).state = (match ln.state with
    | .starting => .sleeping
    | .running => .sleeping
    | .waking => .sleeping
    | .testing => .off
    | st => st) := by
  unfold atStandby
  cases hstate : ln.state with
  | starting => rfl
  | running => rfl
  | waking => rfl
  | testing => rfl
  | off => exact hstate
  | sleeping => exact hstate
  | standby => exact hstate

/-- A position of a line after standby entry: one of a line that is OFF then is left without counts, levels and timers. -/
def positionAtStandby (st : LineState) (q : Position) : Position :=
  if st = .off ∨ st = .testing then q.rested else q

/-- What standby entry of a line says: the end of its test. -/
def lineStandbySays (l : Nat) (ln : Line) : List NoticeBody :=
  if ln.state == .testing then [.lineTest l ln.sent ln.mismatch .stopped] else []

theorem restLine_line (l k : Nat) (s : State) : (restLine l s).line k = s.line k :=
  runOver_keep (P := fun t => t.line k = s.line k) (fun _ _ ht => ht) positions s rfl

theorem restLine_position {l : Nat} (hl : l < 4) (s : State) {k p : Nat} (hp : p < 8) :
    (restLine l s).position (podOf k p)
      = if k = l then (s.position (podOf k p)).rested else s.position (podOf k p) := by
  refine runOver_positions (l := l) (g := Position.rested) (fun q hq t => ?_) (fun q t c hc => ?_) s hp
  · rw [State.position_modPos, if_pos ⟨rfl, by simp only [podOf]; omega⟩]
  · rw [State.position_modPos, if_neg fun h => hc h.1]

theorem says_restLine (l : Nat) (s : State) : Says s (restLine l s) [] :=
  says_runOver (fun _ _ => says_modPos ..) positions s

theorem says_endTest (l : Nat) (ending : TestEnding) (s : State) :
    Says s (endTest l ending s) [.lineTest l (s.line l).sent (s.line l).mismatch ending] :=
  (says_raise _ s).then_ (says_modLine ..)

theorem endTest_line {l : Nat} (hl : l < 4) (ending : TestEnding) (s : State) (k : Nat) :
    (endTest l ending s).line k = if k = l then (s.line l).off else s.line k := by
  rw [endTest, State.line_modLine]
  simp only [hl, and_true]
  rfl

theorem modLine_line {l : Nat} (hl : l < 4) (f : Line → Line) (s : State) (k : Nat) :
    (s.modLine l f).line k = if k = l then f (s.line l) else s.line k := by
  rw [State.line_modLine]
  simp only [hl, and_true]

theorem standbyLine_line {l : Nat} (hl : l < 4) (s : State) (k : Nat) :
    (standbyLine l s).line k = if k = l then atStandby (s.line l) else s.line k := by
  have hstays (h : atStandby (s.line l) = s.line l) : s.line k = if k = l then atStandby (s.line l) else s.line k := by
    split
    · next heq => rw [h, heq]
    · rfl
  unfold standbyLine
  unfold atStandby at *
  cases hstate : (s.line l).state with
  | off => rw [hstate] at hstays; exact (restLine_line l k s).trans (hstays rfl)
  | testing => exact (restLine_line l k _).trans (endTest_line hl .stopped s k)
  | starting => exact modLine_line hl _ s k
  | running => exact modLine_line hl _ s k
  | waking => exact modLine_line hl _ s k
  | sleeping => rw [hstate] at hstays; exact hstays rfl
  | standby => rw [hstate] at hstays; exact hstays rfl

theorem standbyLine_position {l : Nat} (hl : l < 4) (s : State) {k p : Nat} (hp : p < 8) :
    (standbyLine l s).position (podOf k p)
      = if k = l then positionAtStandby (s.line l).state (s.position (podOf k p)) else s.position (podOf k p) := by
  unfold standbyLine positionAtStandby
  cases (s.line l).state with
  | off => exact restLine_position hl s hp
  | testing => exact restLine_position hl (endTest l .stopped s) hp
  | starting => exact (ite_self _).symm
  | running => exact (ite_self _).symm
  | waking => exact (ite_self _).symm
  | sleeping => exact (ite_self _).symm
  | standby => exact (ite_self _).symm

theorem says_standbyLine (l : Nat) (s : State) : Says s (standbyLine l s) (lineStandbySays l (s.line l)) := by
  unfold standbyLine lineStandbySays
  cases (s.line l).state with
  | off => exact says_restLine l s
  | testing => exact (says_endTest l .stopped s).then_ (says_restLine l _)
  | starting => exact says_modLine ..
  | running => exact says_modLine ..
  | waking => exact says_modLine ..
  | sleeping => exact .refl s
  | standby => exact .refl s

/-! ### Standby entry of all lines -/

/-- Every line takes standby entry, and its positions with it. -/
theorem standbyLines_reads (s : State) {l p : Nat} (hl : l < 4) (hp : p < 8) :
    (runOver standbyLine lineNumbers s).line l = atStandby (s.line l)
      ∧ (runOver standbyLine lineNumbers s).position (podOf l p)
        = positionAtStandby (s.line l).state (s.position (podOf l p)) := by
  have hrun := runOver_reads (rd := fun t k => (t.line k, t.position (podOf k p))) (key := id) (f := standbyLine)
    (g := fun x => (atStandby x.1, positionAtStandby x.1.state x.2)) lineNumbers (by decide)
    (fun k hk t => Prod.ext ?line ?position) (fun k hk t j hj => Prod.ext ?otherLine ?otherPosition) s l
  · rw [List.map_id, if_pos (List.mem_range.2 hl)] at hrun
    exact Prod.mk.inj hrun
  case line => exact (standbyLine_line (List.mem_range.1 hk) t k).trans (if_pos rfl)
  case position => exact (standbyLine_position (List.mem_range.1 hk) t hp).trans (if_pos rfl)
  case otherLine => exact (standbyLine_line (List.mem_range.1 hk) t j).trans (if_neg hj)
  case otherPosition => exact (standbyLine_position (List.mem_range.1 hk) t hp).trans (if_neg hj)

theorem flatMap_one_or_none {α β : Type} (b : α → Bool) (f : α → β) (l : List α) :
    l.flatMap (fun x => if b x then [f x] else []) = (l.filter b).map f := by
  induction l with
  | nil => rfl
  | cons x xs ih =>
    rw [List.flatMap_cons, ih, List.filter_cons]
    split <;> rfl

theorem says_standbyLines (s : State) : Says s (runOver standbyLine lineNumbers s)
    (((List.range 4).filter (fun l => (s.line l).state == .testing)).map
      (fun l => .lineTest l (s.line l).sent (s.line l).mismatch .stopped)) := by
  have hrun := says_runOver_reads (rd := State.line) (key := id) (what := lineStandbySays) lineNumbers (by decide)
    (fun l _ t => says_standbyLine l t)
    (fun k hk t j hj => (standbyLine_line (List.mem_range.1 hk) t j).trans (if_neg hj)) s
  have hnotices : lineNumbers.flatMap (fun l => lineStandbySays l (s.line l))
      = ((List.range 4).filter (fun l => (s.line l).state == .testing)).map
        (fun l => .lineTest l (s.line l).sent (s.line l).mismatch .stopped) := by
    simp only [lineStandbySays]
    exact flatMap_one_or_none _ _ _
  exact hnotices ▸ hrun

/-! ### Standby entry (R184) -/

/-- The part in STANDBY, its ramps at 0 and its floor empty. -/
def powerDown (autowake : Bool) (s : State) : State :=
  emptyFloor ((({ s with sys := { s.sys with autowake := autowake, power := .standby } } : State)).mapChans
    (fun _ k => { k with ramp := 0, atten := 0 }))

/-- What standby entry does before the lines take it. -/
def standbyOpening (autowake : Bool) (s : State) : State :=
  endTone .standby (endLoad .standby (raise (.power .standby .request autowake) (powerDown autowake s)))

theorem enterStandby_eq (autowake : Bool) (s : State) :
    enterStandby autowake s = runOver standbyLine lineNumbers (standbyOpening autowake s) := rfl

theorem says_standbyOpening (autowake : Bool) (s : State) : Says s (standbyOpening autowake s)
    ([.power .standby .request autowake] ++ sceneEnds .standby s ++ toneEnds .standby s) := by
  have hdown : Says s (powerDown autowake s) [] := .quiet rfl rfl rfl
  have hpower := hdown.after (says_raise (.power .standby .request autowake) (powerDown autowake s))
  generalize hr : raise (.power .standby .request autowake) (powerDown autowake s) = r at hpower
  have hload : sceneEnds .standby r = sceneEnds .standby s := by rw [← hr]; rfl
  have htone : toneEnds .standby (endLoad .standby r) = toneEnds .standby s := by
    rw [toneEnds, (endLoad_changes .standby r).1 .tone (by decide), ← hr]
    rfl
  have hends := (says_endLoad .standby r).trans (says_endTone .standby (endLoad .standby r))
  rw [hload, htone] at hends
  rw [standbyOpening, hr, List.append_assoc]
  exact hpower.trans hends

theorem standbyOpening_kept (autowake : Bool) (s : State) :
    (powerDown autowake s).changes [.load, .marks, .tone] (standbyOpening autowake s) :=
  ((raise_changes _ _).comp (rs := [.load, .marks, .tone]) (endLoad_changes ..)).comp (endTone_changes ..)

/-- Before the lines take standby entry, they and their positions stand. -/
theorem standbyOpening_lines (autowake : Bool) (s : State) :
    (∀ l, (standbyOpening autowake s).line l = s.line l) ∧ ∀ c, (standbyOpening autowake s).position c = s.position c := by
  have hkept := (standbyOpening_kept autowake s).1
  refine ⟨fun l => ?_, fun c => ?_⟩
  · have hline := hkept .lines (by decide) l
    rw [hkept .tables (by decide) l] at hline
    exact hline
  · rw [State.position, hkept .pos (by decide)]
    rfl

/-- What standby entry leaves, line by line (R184). -/
theorem enterStandby_rows (autowake : Bool) (s : State) :
    let u := enterStandby autowake s
    u.sys = { s.sys with power := .standby, autowake := autowake }
      ∧ (∀ c, c < 42 → (u.chan c).ramp = 0)
      ∧ u.floor = { s.floor with list := [], wait := [], leaving := [], guard := none, latch := false }
      ∧ u.scenes.load = none ∧ u.tone.running = false
      ∧ (∀ l p, l < 4 → p < 8 → u.line l = atStandby (s.line l)
        ∧ u.position (podOf l p) = positionAtStandby (s.line l).state (s.position (podOf l p)))
      ∧ Says s u ([.power .standby .request autowake] ++ sceneEnds .standby s ++ toneEnds .standby s
          ++ ((List.range 4).filter (fun l => (s.line l).state == .testing)).map
            (fun l => .lineTest l (s.line l).sent (s.line l).mismatch .stopped)) := by
  have hopening := standbyOpening_kept autowake s
  have hlines := runOver_changes (ps := [.pos, .tables, .lines]) standbyLine_changes (by decide) lineNumbers
    (standbyOpening autowake s)
  obtain ⟨hline, hposition⟩ := standbyOpening_lines autowake s
  have hsays := (says_standbyOpening autowake s).trans (says_standbyLines (standbyOpening autowake s))
  simp only [hline] at hsays
  have hreads (l p : Nat) (hl : l < 4) (hp : p < 8) := standbyLines_reads (standbyOpening autowake s) (l := l) (p := p) hl hp
  simp only [hline, hposition] at hreads
  dsimp only
  rw [enterStandby_eq]
  refine ⟨?_, fun c hc => ?_, ?_, ?_, ?_, hreads, hsays⟩
  · rw [sys_of_changes hlines, sys_of_changes hopening]
    rfl
  · rw [hlines.1 .ramps (by decide) c, hopening.1 .ramps (by decide) c, powerDown, emptyFloor, State.chan_modFloor,
      State.chan_mapChans, if_pos hc, State.chan_mapChans, if_pos hc]
  · rw [floor_of_changes hlines, floor_of_changes hopening]
    rfl
  · rw [hlines.1 .load (by decide), standbyOpening, (endTone_changes ..).1 .load (by decide), endLoad_load]
  · rw [show (runOver standbyLine lineNumbers (standbyOpening autowake s)).tone = _ from hlines.1 .tone (by decide),
      standbyOpening, endTone_tone]

/-! ### The part wakes (R148, R185) -/

theorem wake_running {cause : PowerCause} {s : State} (h : s.sys.power = .running) : wake cause s = s := by
  rw [wake, h]

/-- A line that the waking part wakes. -/
def lineWoken (ln : Line) : Line := if ln.state = .standby then { ln with state := .waking, remaining := 12 } else ln

/-- What waking the part leaves, line by line. -/
theorem wake_standby {cause : PowerCause} {s : State} (h : s.sys.power = .standby) :
    (wake cause s).sys = { s.sys with power := .running } ∧ (∀ l, l < 4 → (wake cause s).line l = lineWoken (s.line l))
      ∧ Says s (wake cause s) [.power .running cause s.sys.autowake] := by
  have hwake : wake cause s = raise (.power .running cause
        (runOver wakeLine lineNumbers { s with sys := { s.sys with power := .running } }).sys.autowake)
      (runOver wakeLine lineNumbers { s with sys := { s.sys with power := .running } }) := by
    rw [wake, h]
  generalize hr : ({ s with sys := { s.sys with power := .running } } : State) = r at hwake
  have hlines := runOver_changes (ps := [.tables, .lines]) wakeLine_changes (by decide) lineNumbers r
  have hquiet : Says s (runOver wakeLine lineNumbers r) [] :=
    Says.after (.quiet (by rw [← hr]) (by rw [← hr]) (by rw [← hr])) (says_runOver (fun _ _ => says_modLine ..) lineNumbers r)
  have hsys : (runOver wakeLine lineNumbers r).sys = { s.sys with power := .running } := by
    rw [sys_of_changes hlines, ← hr]
  rw [hwake]
  refine ⟨hsys, fun l hl => ?_, ?_⟩
  · have hwoken := runOver_lines (f := wakeLine) (g := lineWoken) (fun k hk t => (modLine_line hk _ t k).trans (if_pos rfl))
      (fun k t j hj => by rw [wakeLine, State.line_modLine, if_neg fun hboth => hj hboth.1]) r hl
    rw [State.line_raise, hwoken, ← hr]
    rfl
  · rw [hsys]
    exact hquiet.after (says_raise _ _)

/-- A part in STANDBY writes AUTOWAKE alone (R184). -/
theorem standby_standby {autowake : Bool} {s : State} (h : s.sys.power = .standby) :
    standby autowake s = { s with sys := { s.sys with autowake := autowake } } := by
  rw [standby, h]

/-- Settles O54. -/
theorem powerIsChanged : Obligations.PowerIsChanged := by
  refine ⟨fun tag v s hreset hv => ?standby, fun tag s hreset => ⟨fun hpower => ?running, fun hpower => ?wakes,
    fun l hl hline => ⟨fun hno => ?silent, fun hauto hpower => ?pulse⟩⟩⟩
  case standby =>
    generalize ht : settle s = t
    have hok : exec (.powerStandby .room tag v) s
        = .next (okReply .room tag 41 [] (refreshRings (standby (v == 1) t))) :=
      ht ▸ takeRequest_ok hreset (by simp [firstFail, roomOnly, okFlag, hv])
    have hrings := refreshRings_changes (standby (v == 1) t)
    refine ⟨_, hok, ?_, fun hpower => ?_, fun hpower => ?_, (standby_changes (v == 1) t).comp hrings⟩
    · rw [sys_of_changes hrings]
      cases hpower : t.sys.power with
      | standby =>
        rw [standby_standby hpower]
        show ({ t.sys with autowake := v == 1 } : Sys) = _
        rw [← hpower]
      | running =>
        rw [standby, hpower]
        exact (enterStandby_rows (v == 1) t).1
    · have hwrites := standby_standby (autowake := v == 1) hpower
      have hsays : Says t (standby (v == 1) t) [] := by
        rw [hwrites]
        exact .quiet rfl rfl rfl
      have hchanges : t.changes [.power, .tables] (standby (v == 1) t) := by
        rw [hwrites]
        exact (setPower_changes t.sys.power (v == 1) t).mono
      exact ⟨(hchanges.comp (rs := [.power, .tables]) hrings).1, (hsays.then_ (says_refreshRings _)).1⟩
    · have henters : standby (v == 1) t = enterStandby (v == 1) t := by rw [standby, hpower]
      rw [henters] at hrings ⊢
      obtain ⟨-, hramps, hfloor, hload, htone, hreads, hsays⟩ := enterStandby_rows (v == 1) t
      refine ⟨fun c hc => ?_, ?_, ?_, ?_, (hsays.then_ (says_refreshRings _)).1, fun l hl => ?_, fun l p hl hp => ?_⟩
      · rw [refreshRings_chan]
        exact hramps c hc
      · rw [refreshRings_floor]
        exact hfloor
      · rw [hrings.1 .load (by decide)]
        exact hload
      · rw [show (refreshRings (enterStandby (v == 1) t)).tone = _ from hrings.1 .tone (by decide)]
        exact htone
      · rw [hrings.1 .lines (by decide) l, (hreads l 0 hl (by decide)).1]
        exact atStandby_state (t.line l)
      · rw [State.position, hrings.1 .pos (by decide)]
        exact (hreads l p hl hp).2
  case running =>
    have hok : exec (.powerWake .room tag) s = .next (okReply .room tag 42 [] (wake .request (settle s))) :=
      takeRequest_ok hreset rfl
    rw [hok, wake_running hpower]
  case wakes =>
    obtain ⟨hsys, hlines, hsays⟩ := wake_standby (cause := .request) hpower
    exact ⟨_, takeRequest_ok hreset rfl, hsys, hlines, hsays.1, wake_changes ..⟩
  case silent =>
    have hact : act (.wakePulse l) (s.undue (.wakePulse l)) = raise (.wakeRequest l none) (s.undue (.wakePulse l)) := by
      dsimp only [act, actWakePulse]
      refine (when_of (beq_iff_eq.2 hline) _ _).trans ?_
      rcases hno with hauto | hpower
      · exact if_neg (by rw [raise_sys, show (s.undue (.wakePulse l)).sys = s.sys from rfl, hauto]; decide)
      · split
        · exact wake_running hpower
        · rfl
    exact exec_event_acts (.wakePulse l) rfl hreset rfl hact
  case pulse =>
    have hact : act (.wakePulse l) (s.undue (.wakePulse l))
        = wake (.wakePulse l) (raise (.wakeRequest l none) (s.undue (.wakePulse l))) := by
      dsimp only [act, actWakePulse]
      exact (when_of (beq_iff_eq.2 hline) _ _).trans (if_pos hauto)
    have hrequest : Says s (raise (.wakeRequest l none) (s.undue (.wakePulse l))) [.wakeRequest l none] :=
      (says_undue _ s).after (says_raise _ _)
    obtain ⟨hsys, hlines, hsays⟩ := wake_standby (cause := .wakePulse l)
      (s := raise (.wakeRequest l none) (s.undue (.wakePulse l))) hpower
    rw [show (raise (.wakeRequest l none) (s.undue (.wakePulse l))).sys.autowake = true from hauto] at hsays
    exact ⟨_, exec_event_acts (.wakePulse l) rfl hreset rfl hact, hsys, hlines, (hrequest.trans hsays).1,
      ((undue_changes _ s).comp (rs := [.due]) (raise_changes ..)).comp (wake_changes ..)⟩

end Sys2Proof.Proofs
end

