-- ==== Sys2Proof/Proofs/SceneSteps.lean ====
section
/-! PROOFS. The steps of a scene load (R173, R174, R176). -/

set_option Elab.async false

namespace Sys2Proof.Proofs

open Sys2Proof Sys2Proof.Machine

/-! ### No item ends the load -/

/-- The notices on the way from one state to another, none of them SCENE_DONE. -/
def KeepsLoad (s t : State) : Prop := ∃ bs, Says s t bs ∧ ∀ b ∈ bs, b.kind ≠ 24

theorem KeepsLoad.quiet {s t : State} (h : Says s t []) : KeepsLoad s t := ⟨[], h, by simp⟩

theorem KeepsLoad.refl (s : State) : KeepsLoad s s := .quiet (.refl s)

theorem KeepsLoad.one {s t : State} {b : NoticeBody} (h : Says s t [b]) (hb : b.kind ≠ 24) : KeepsLoad s t :=
  ⟨[b], h, by simpa using hb⟩

theorem KeepsLoad.trans {s t u : State} (h1 : KeepsLoad s t) (h2 : KeepsLoad t u) : KeepsLoad s u := by
  obtain ⟨as, hs, has⟩ := h1
  obtain ⟨bs, ht, hbs⟩ := h2
  exact ⟨as ++ bs, hs.trans ht, fun b hb => (List.mem_append.1 hb).elim (has b) (hbs b)⟩

theorem keepsLoad_raise {b : NoticeBody} (s : State) (hb : (b.kind == 24) = false := by rfl) : KeepsLoad s (raise b s) :=
  .one (says_raise b s) (beq_eq_false_iff_ne.1 hb)

theorem keepsLoad_runOver {f : Nat → State → State} (hf : ∀ n s, KeepsLoad s (f n s)) (ns : List Nat) (s : State) :
    KeepsLoad s (runOver f ns s) :=
  runOver_keep (P := KeepsLoad s) (fun n t ht => ht.trans (hf n t)) ns s (.refl s)

theorem keepsLoad_afterFloor (s : State) : KeepsLoad s (afterFloor s) := by
  obtain ⟨bs, hsays, hbs⟩ := says_afterFloor s
  refine ⟨bs, hsays, fun b hb => ?_⟩
  obtain ⟨d, -, hopens⟩ := hbs b hb
  obtain ⟨g, k, nf, nw, nl, n, -, rfl⟩ := hopens.spelled
  exact beq_eq_false_iff_ne.1 rfl

/-! ### The claim-change path -/

theorem keepsLoad_removeFromFloor (c : Nat) (cause : FloorCause) (s : State) : KeepsLoad s (removeFromFloor c cause s) := by
  have hchange (b a : Gate) (t : State) : KeepsLoad t (floorChange c b a cause t) := keepsLoad_raise t
  have hquiet : KeepsLoad s (s.modChan c (fun k => { k with attack := 0 })) := .quiet (says_modChan ..)
  unfold removeFromFloor
  dsimp only
  split
  · exact (hquiet.trans (.quiet (says_takeOff c _))).trans ((hchange _ _ _).trans (keepsLoad_afterFloor _))
  · split
    · exact (hquiet.trans (.quiet (says_modFloor _ _))).trans ((hchange _ _ _).trans (keepsLoad_afterFloor _))
    · split
      · exact (hquiet.trans (.quiet (says_modFloor _ _))).trans (keepsLoad_afterFloor _)
      · exact hquiet

theorem keepsLoad_lowerHand (c : Nat) (cause : HandCause) (s : State) : KeepsLoad s (lowerHand c cause s) := by
  unfold lowerHand
  split
  · exact (KeepsLoad.quiet (says_modChan ..)).trans (keepsLoad_raise _)
  · exact .refl s

theorem keepsLoad_changeClaims (c : Nat) (new : ClaimSet) (note : Option Origin) (s : State) :
    KeepsLoad s (changeClaims c new note s) := by
  have hnoted : KeepsLoad s (match note with
      | some o => raise (.claimChange c new (new.less (s.claims c)) ((s.claims c).less new) o)
        (s.modChan c (fun k => k.withClaims c new))
      | none => s.modChan c (fun k => k.withClaims c new)) := by
    have hquiet : KeepsLoad s (s.modChan c (fun k => k.withClaims c new)) := .quiet (says_modChan ..)
    cases note with
    | none => exact hquiet
    | some o => exact hquiet.trans (keepsLoad_raise _)
  unfold changeClaims
  dsimp only
  split
  · exact .refl s
  · split
    · split
      · exact hnoted.trans (keepsLoad_removeFromFloor ..)
      · exact hnoted
    · split
      · exact hnoted.trans (keepsLoad_lowerHand ..)
      · exact hnoted

theorem keepsLoad_writeSetup (c : Nat) (w : ChannelSetup) (o : Origin) (s : State) : KeepsLoad s (writeSetup c w o s) := by
  have hwritten : KeepsLoad s (setupWritten c w s) := .quiet (says_modChan ..)
  rw [writeSetup_eq]
  split
  · exact hwritten
  · unfold regroup
    split
    · exact hwritten.trans (keepsLoad_changeClaims ..)
    · exact hwritten

theorem keepsLoad_applyClaimsItem (set : Tab 42 Bool) (s : State) : KeepsLoad s (applyClaimsItem set s) :=
  keepsLoad_runOver (fun _ _ => keepsLoad_changeClaims ..) channels s

/-! ### The FLOOR item -/

theorem keepsLoad_changeMode (m : FloorMode) (s : State) : KeepsLoad s (changeMode m s) := by
  by_cases hsame : s.floor.mode = m
  · rw [changeMode_same hsame]
    exact .refl s
  · rw [changeMode_moves hsame]
    exact (KeepsLoad.quiet ((says_emptyFloor s).after (says_modFloor _ _))).trans (keepsLoad_raise _)

theorem keepsLoad_changeChair (new : Option Nat) (s : State) : KeepsLoad s (changeChair new s) := by
  by_cases hsame : s.floor.chair = new
  · rw [changeChair_same hsame]
    exact .refl s
  · rw [changeChair_eq hsame]
    exact (KeepsLoad.quiet (says_modFloor _ s)).trans (keepsLoad_raise _)

theorem keepsLoad_cutFloor (n : Nat) (s : State) : KeepsLoad s (cutFloor n s) := by
  induction n generalizing s with
  | zero => exact .refl s
  | succ n ih =>
    unfold cutFloor
    split
    · split
      · exact ((KeepsLoad.quiet (says_takeOff ..)).trans (keepsLoad_raise _)).trans (ih _)
      · exact .refl s
    · exact .refl s

theorem says_quantitiesWritten (new : FloorCfg) (s : State) : Says s (quantitiesWritten new s) [] := by
  have hrescaled : Says s (rescaleRamps s.floor.cfg.ramp new.ramp (s.modFloor (fun f => { f with cfg := new }))) [] := by
    unfold rescaleRamps
    split
    · exact says_modFloor _ s
    · exact .quiet rfl rfl rfl
  unfold quantitiesWritten
  dsimp only
  split
  · exact hrescaled.then_ (says_modFloor _ _)
  · exact (hrescaled.then_ (says_modFloor _ _)).then_ (says_modFloor _ _)

theorem keepsLoad_writeFloorCfg (new : FloorCfg) (s : State) : KeepsLoad s (writeFloorCfg new s) := by
  rw [writeFloorCfg_eq]
  split
  · exact .refl s
  · exact ((KeepsLoad.quiet (says_quantitiesWritten new s)).trans (keepsLoad_cutFloor ..)).trans (keepsLoad_afterFloor _)

theorem writeFloorCfg_cfg (new : FloorCfg) (s : State) : (writeFloorCfg new s).floor.cfg = new := by
  rw [writeFloorCfg_eq]
  split
  · next hsame => exact hsame
  · have hcut := (cutFloor_changes (quantitiesWritten new s).floor.list.length (quantitiesWritten new s)).1 .cfg (by decide)
    exact ((afterFloor_floor _).2.2.1.trans hcut).trans (quantitiesWritten_floor new s).1

theorem changeMode_mode (m : FloorMode) (s : State) : (changeMode m s).floor.mode = m := by
  by_cases hsame : s.floor.mode = m
  · rw [changeMode_same hsame, hsame]
  · rw [changeMode_moves hsame]
    rfl

theorem changeChair_chair (new : Option Nat) (s : State) : (changeChair new s).floor.chair = new := by
  by_cases hsame : s.floor.chair = new
  · rw [changeChair_same hsame, hsame]
  · rw [changeChair_eq hsame]
    exact (chairMoved_floor _ _ _).1

theorem applyFloorItem_rows (part : FloorPart) (s : State) :
    (applyFloorItem part s).floor.mode = part.mode ∧ (applyFloorItem part s).floor.cfg = part.cfg
      ∧ (applyFloorItem part s).floor.chair = part.chair := by
  refine ⟨?_, ?_, changeChair_chair ..⟩
  · rw [applyFloorItem, (changeChair_changes ..).1 .mode (by decide), (writeFloorCfg_changes ..).1 .mode (by decide),
      changeMode_mode]
  · rw [applyFloorItem, (changeChair_changes ..).1 .cfg (by decide), writeFloorCfg_cfg]

theorem keepsLoad_applyFloorItem (part : FloorPart) (s : State) : KeepsLoad s (applyFloorItem part s) :=
  ((keepsLoad_changeMode ..).trans (keepsLoad_writeFloorCfg ..)).trans (keepsLoad_changeChair ..)

/-! ### The other items -/

theorem says_withMix (m : Mix) (s : State) : Says s { s with mix := m } [] := .quiet rfl rfl rfl

theorem says_writeRow (o : Nat) (part : XpPart) (s : State) : Says s (writeRow o part s) [] := says_withMix _ s

theorem keepsLoad_applyItem (r : SceneRecord) (ld : LoadContext) (s : State) : KeepsLoad s (applyItem r ld s) := by
  unfold applyItem
  split <;> split
  · exact keepsLoad_writeSetup ..
  · exact .refl s
  · exact .quiet (says_writeRow ..)
  · exact .refl s
  · exact keepsLoad_applyFloorItem ..
  · exact .refl s
  · exact keepsLoad_applyClaimsItem ..
  · exact .refl s

theorem applyClaimsItem_claims (set : Tab 42 Bool) (s : State) {c : Nat} (hc : c < 42) :
    (applyClaimsItem set s).claims c = { s.claims c with room := set.get c } := by
  have hrun := (runOver_claimStep (fun d k => k.put .room (set.get d)) (some .scene) channels s List.nodup_range
    (fun d hd => List.mem_range.1 hd) c).1
  rw [if_pos (List.mem_range.2 hc)] at hrun
  exact hrun

theorem writeRow_reads (o : Nat) (part : XpPart) (s : State) {r c : Nat} (hr : r < 17) (hc : c < 42) :
    (writeRow o part s).mix.xp.get (42 * r + c) = (if r = o then part.xp.get (42 * r + c) else s.mix.xp.get (42 * r + c))
      ∧ (writeRow o part s).mix.bus.get r = (if r = o then part.bus.get r else s.mix.bus.get r) := by
  constructor
  · have hrow : (42 * r + c) / 42 = r := by omega
    rw [writeRow, Tab.get_mapIdx, if_pos (by omega), hrow]
  · rw [writeRow, Tab.get_set]
    by_cases ho : r = o
    · subst ho
      rw [if_pos ⟨rfl, hr⟩, if_pos rfl]
    · rw [if_neg fun h => ho h.1, if_neg ho]

/-- What a set-up written leaves of every channel (R11, R14). -/
theorem writeSetup_rows {i : Nat} (hi : i < 42) (w : ChannelSetup) (o : Origin) (s : State) :
    (∀ c, c ≠ i → ((writeSetup i w o s).chan c).trim = (s.chan c).trim ∧ ((writeSetup i w o s).chan c).zone = (s.chan c).zone
        ∧ ((writeSetup i w o s).chan c).groups = (s.chan c).groups ∧ (writeSetup i w o s).claims c = s.claims c)
      ∧ ((writeSetup i w o s).chan i).trim = w.trim
      ∧ ((writeSetup i w o s).chan i).zone = (if i < 32 then w.zone else (s.chan i).zone)
      ∧ ((writeSetup i w o s).chan i).groups = w.groups
      ∧ (writeSetup i w o s).claims i = { s.claims i with
          privacy := if s.privacy.state = .on ∧ w.groups ≠ (s.chan i).groups then w.groups.getLsbD s.privacy.group
            else (s.claims i).privacy } := by
  have hkept (c : Nat) := (writeSetup_kept i w o s).1 .setup (by decide) c
  have hchan (c : Nat) := setupWritten_chan hi w s c
  obtain ⟨htrim, hzone, hgroups, -⟩ := hkept i
  refine ⟨fun c hc => ?_, ?_, ?_, ?_, ?_⟩
  · obtain ⟨htrim, hzone, hgroups, -⟩ := hkept c
    rw [hchan c, if_neg hc] at htrim hzone hgroups
    refine ⟨htrim, hzone, hgroups, ?_⟩
    rw [writeSetup_claims hi, if_neg fun h => hc h.1]
  · rw [htrim, hchan i, if_pos rfl]
  · rw [hzone, hchan i, if_pos rfl]
  · rw [hgroups, hchan i, if_pos rfl]
  · rw [writeSetup_claims hi]
    by_cases hmoves : s.privacy.state = .on ∧ w.groups ≠ (s.chan i).groups
    · rw [if_pos ⟨rfl, hmoves.2.symm, hmoves.1⟩, if_pos hmoves]
    · rw [if_neg fun h => hmoves ⟨h.2.2, h.2.1.symm⟩, if_neg hmoves]

/-! ### One step (R173) -/

/-- The counts after a step. -/
def counted (ld : LoadContext) (passed : Bool) : LoadContext :=
  { ld with applied := if passed then ld.applied else ld.applied + 1, passed := if passed then ld.passed + 1 else ld.passed }

/-- Where the load goes after a step. -/
theorem advance_eq (ld : LoadContext) (r : SceneRecord) (passed : Bool) :
    ld.advance r passed = if ld.index + 1 < ld.phase.items then ({ counted ld passed with index := ld.index + 1 }, false)
      else match r.nextPart ld.phase with
        | some p => ({ counted ld passed with phase := p, index := 0 }, false)
        | none => (counted ld passed, true) := by
  cases passed <;> rfl

theorem nextPart_eq (r : SceneRecord) (q : ScenePart) : r.nextPart q = match q with
    | .channels => if r.crosspoints.isSome then some .crosspoints else if r.floor.isSome then some .floor
        else if r.claims.isSome then some .claims else none
    | .crosspoints => if r.floor.isSome then some .floor else if r.claims.isSome then some .claims else none
    | .floor => if r.claims.isSome then some .claims else none
    | .claims => none := by
  unfold SceneRecord.nextPart SceneRecord.parts sceneParts
  rw [List.find?_filter]
  rcases Bool.eq_false_or_eq_true r.crosspoints.isSome with hb | hb <;>
    rcases Bool.eq_false_or_eq_true r.floor.isSome with hf | hf <;>
    rcases Bool.eq_false_or_eq_true r.claims.isSome with hc | hc <;>
    cases q <;> simp [ScenePart.order, SceneRecord.has, hb, hf, hc]

/-- The state of a step before the load goes on. -/
def stepped (r : SceneRecord) (ld : LoadContext) (s : State) : State :=
  if s.passesOver ld then s else applyItem r ld s

/-- The state with the load's context written. -/
def withLoad (ld : LoadContext) (s : State) : State := { s with scenes := { s.scenes with load := some ld } }

theorem stepLoad_eq {ld : LoadContext} {r : SceneRecord} {s : State} (hload : s.scenes.load = some ld)
    (hslot : s.scenes.slots.get ld.slot = some r) :
    stepLoad s = if (ld.advance r (s.passesOver ld)).2
      then endLoad .completed (withLoad (ld.advance r (s.passesOver ld)).1 (stepped r ld s))
      else withLoad (ld.advance r (s.passesOver ld)).1 (stepped r ld s) := by
  unfold stepLoad
  rw [hload]
  dsimp only
  rw [hslot]
  rfl

theorem keepsLoad_stepped (r : SceneRecord) (ld : LoadContext) (s : State) : KeepsLoad s (stepped r ld s) := by
  unfold stepped
  split
  · exact .refl s
  · exact keepsLoad_applyItem ..

theorem keepsLoad_withLoad (ld : LoadContext) (s : State) : KeepsLoad s (withLoad ld s) := .quiet (.quiet rfl rfl rfl)

theorem withLoad_changes (ld : LoadContext) (s : State) : s.changes [.load] (withLoad ld s) := setLoad_changes _ s

/-- A step that is not the last goes on; the last ends the load with SCENE_DONE and clears every mark. -/
theorem stepLoad_rows {ld : LoadContext} {r : SceneRecord} {s : State} (hload : s.scenes.load = some ld)
    (hslot : s.scenes.slots.get ld.slot = some r) :
    let passed := s.passesOver ld
    let items := ld.phase.items
    (ld.index + 1 < items → (stepLoad s).scenes.load = some { counted ld passed with index := ld.index + 1 })
      ∧ (items ≤ ld.index + 1 → ∀ p, r.nextPart ld.phase = some p →
        (stepLoad s).scenes.load = some { counted ld passed with phase := p, index := 0 })
      ∧ (ld.index + 1 < items ∨ r.nextPart ld.phase ≠ none → KeepsLoad s (stepLoad s))
      ∧ (items ≤ ld.index + 1 → r.nextPart ld.phase = none → (stepLoad s).scenes.load = none
        ∧ (∀ c, c < 42 → ((stepLoad s).chan c).touched = false)
        ∧ (∀ o, o < 17 → (stepLoad s).mix.rowTouched.get o = false)
        ∧ ∃ bs, Says s (stepLoad s) (bs ++ [.sceneDone ld.slot .completed (counted ld passed).applied
            (counted ld passed).passed]) ∧ ∀ b ∈ bs, b.kind ≠ 24)
      ∧ (stepped r ld s).changes [.load, .marks] (stepLoad s) := by
  have hstep := stepLoad_eq hload hslot
  have hgoes (x : LoadContext) : KeepsLoad s (withLoad x (stepped r ld s)) :=
    (keepsLoad_stepped r ld s).trans (keepsLoad_withLoad ..)
  dsimp only
  by_cases hmore : ld.index + 1 < ld.phase.items
  · have hs : stepLoad s = withLoad { counted ld (s.passesOver ld) with index := ld.index + 1 } (stepped r ld s) := by
      rw [hstep, advance_eq, if_pos hmore]
      rfl
    rw [hs]
    exact ⟨fun _ => rfl, fun h => absurd h (Nat.not_le.2 hmore), fun _ => hgoes _,
      fun h => absurd h (Nat.not_le.2 hmore), (withLoad_changes ..).mono⟩
  · cases hnext : r.nextPart ld.phase with
    | some p =>
      have hs : stepLoad s = withLoad { counted ld (s.passesOver ld) with phase := p, index := 0 } (stepped r ld s) := by
        rw [hstep, advance_eq, if_neg hmore, hnext]
        rfl
      rw [hs]
      exact ⟨fun h => absurd h hmore, fun _ q hq => (by rw [← Option.some.inj hq]; rfl), fun _ => hgoes _,
        fun _ h => (by cases h), (withLoad_changes ..).mono⟩
    | none =>
      have hs : stepLoad s = endLoad .completed (withLoad (counted ld (s.passesOver ld)) (stepped r ld s)) := by
        rw [hstep, advance_eq, if_neg hmore, hnext]
        rfl
      have hend : endLoad .completed (withLoad (counted ld (s.passesOver ld)) (stepped r ld s))
          = raise (.sceneDone ld.slot .completed (counted ld (s.passesOver ld)).applied
              (counted ld (s.passesOver ld)).passed)
            (clearTouched { stepped r ld s with scenes := { (stepped r ld s).scenes with load := none } }) := rfl
      obtain ⟨hchans, hrows⟩ := clearTouched_marks
        { stepped r ld s with scenes := { (stepped r ld s).scenes with load := none } }
      obtain ⟨bs, hsays, hbs⟩ := hgoes (counted ld (s.passesOver ld))
      have hdone := says_endLoad .completed (withLoad (counted ld (s.passesOver ld)) (stepped r ld s))
      rw [hs]
      refine ⟨fun h => absurd h hmore, fun _ q hq => (by cases hq), fun h => absurd rfl (h.resolve_left hmore),
        fun _ _ => ⟨endLoad_load .completed _, fun c hc => ?_, fun o ho => ?_, bs, hsays.trans hdone, hbs⟩,
        (withLoad_changes ..).comp (endLoad_changes ..)⟩
      · rw [hend]
        exact hchans c hc
      · rw [hend]
        exact hrows o ho

/-- Settles O53. -/
theorem sceneLoadSteps : Obligations.SceneLoadSteps := by
  intro ld r s hreset hdue hload hslot marked applied passed items after
  have hmarked : marked = (s.undue .sceneLoadStep).passesOver ld := by
    cases hphase : ld.phase <;> simp only [marked, State.passesOver, hphase] <;> rfl
  have hitems : items = ld.phase.items := by
    cases hphase : ld.phase <;> simp only [items, hphase] <;> rfl
  have hafter : after = r.nextPart ld.phase := (nextPart_eq r ld.phase).symm
  have hact : act .sceneLoadStep (s.undue .sceneLoadStep) = refreshRings (stepLoad (s.undue .sceneLoadStep)) := by
    dsimp only [act, actSceneLoadStep]
    exact when_of (by rw [show (s.undue .sceneLoadStep).scenes.load = some ld from hload]; rfl) _ _
  obtain ⟨hnext, hpart, hkeeps, hends, hkept⟩ := stepLoad_rows (s := s.undue .sceneLoadStep) hload hslot
  have hrings := refreshRings_changes (stepLoad (s.undue .sceneLoadStep))
  have hread := hkept.comp (rs := [.load, .marks, .tables]) hrings
  have hstepped : stepped r ld (s.undue .sceneLoadStep)
      = if marked then s.undue .sceneLoadStep else applyItem r ld (s.undue .sceneLoadStep) := by
    rw [hmarked]
    rfl
  have hsame := (says_refreshRings (stepLoad (s.undue .sceneLoadStep)))
  rw [← hmarked, ← hitems] at hnext hpart hends
  rw [← hitems, ← hafter] at hkeeps
  rw [← hafter] at hpart hends
  refine ⟨_, exec_event_acts .sceneLoadStep rfl hreset hdue hact, fun h => ?_, fun h p hp => ?_, fun h => ?_, fun h hlast => ?_,
    fun x hphase hx hindex => ?_, fun x hphase hx hindex o c ho hc => ?_, fun x hphase hx => ?_, fun x hphase hx c hc => ?_,
    (undue_changes _ s).comp ((stepLoad_changes _).comp (rs := .tables :: loadParts) hrings)⟩
  · rw [hrings.1 .load (by decide)]
    exact hnext h
  · rw [hrings.1 .load (by decide)]
    exact hpart h p hp
  · obtain ⟨bs, hsays, hbs⟩ := hkeeps h
    exact ⟨bs, (hsays.then_ hsame).1, hbs⟩
  · obtain ⟨hnone, hchans, hrows, bs, hsays, hbs⟩ := hends h hlast
    obtain ⟨hrow, -⟩ := hrings.1 .marks (by decide)
    refine ⟨(hrings.1 .load (by decide)).trans hnone, fun c hc => ?_, fun o ho => ?_, bs, (hsays.then_ hsame).1, hbs⟩
    · rw [refreshRings_chan]
      exact hchans c hc
    · rw [hrow]
      exact hrows o ho
  · have hitem : applyItem r ld (s.undue .sceneLoadStep)
        = writeSetup ld.index (x.get ld.index) .scene (s.undue .sceneLoadStep) := by
      simp only [applyItem, hphase, hx]
    have hclaims (c : Nat) := claims_of_changes hread c
    have hsetup (c : Nat) := hread.1 .setup (by decide) c
    rw [hstepped, hitem] at hclaims hsetup
    obtain ⟨hothers, htrim, hzone, hgroups, hclaim⟩ :=
      writeSetup_rows hindex (x.get ld.index) .scene (s.undue .sceneLoadStep)
    refine ⟨fun c hc => ?_, fun hm => ?_, fun hm => ?_⟩
    · obtain ⟨ht, hz, hg, -⟩ := hsetup c
      rw [ht, hz, hg, hclaims]
      cases marked with
      | true => exact ⟨rfl, rfl, rfl, rfl⟩
      | false => exact hothers c hc
    · obtain ⟨ht, hz, hg, -⟩ := hsetup ld.index
      rw [ht, hz, hg, hclaims, if_pos hm]
      exact ⟨rfl, rfl, rfl, rfl⟩
    · obtain ⟨ht, hz, hg, -⟩ := hsetup ld.index
      rw [ht, hz, hg, hclaims, hm, if_neg (by decide)]
      exact ⟨htrim, hzone, hgroups, hclaim⟩
  · have hitem : applyItem r ld (s.undue .sceneLoadStep) = writeRow ld.index x (s.undue .sceneLoadStep) := by
      simp only [applyItem, hphase, hx]
    obtain ⟨hxp, hbus⟩ := hread.1 .gains (by decide)
    obtain ⟨hrow, hgain⟩ := writeRow_reads ld.index x (s.undue .sceneLoadStep) ho hc
    rw [hxp, hbus, hstepped, hitem]
    cases marked with
    | true => simp
    | false => simpa using ⟨hrow, hgain⟩
  · have hitem : stepped r ld (s.undue .sceneLoadStep) = applyFloorItem x (s.undue .sceneLoadStep) := by
      simp only [hstepped, marked, applyItem, hphase, hx]
      rfl
    have hfloor := floor_of_changes hread
    rw [hfloor, hitem]
    exact applyFloorItem_rows x _
  · have hitem : stepped r ld (s.undue .sceneLoadStep) = applyClaimsItem x (s.undue .sceneLoadStep) := by
      simp only [hstepped, marked, applyItem, hphase, hx]
      rfl
    have hclaims := claims_of_changes hread c
    rw [hclaims, hitem]
    exact applyClaimsItem_claims x _ hc

end Sys2Proof.Proofs
end

