-- ==== Sys2Proof/Proofs/LineEvents.lean ====
section
/-! PROOFS. The events of the pod lines that leave the floor alone (chapter 7): roll calls and joins, acknowledged
rings, sleeping pods. -/

set_option Elab.async false

namespace Sys2Proof.Proofs

open Sys2Proof Sys2Proof.Machine

/-! ### Pods of a line -/

theorem lineOf_podOf {l p : Nat} (hp : p < 8) : lineOf (podOf l p) = l := by
  simp only [lineOf, podOf]
  omega

theorem posOf_podOf {l p : Nat} (hp : p < 8) : posOf (podOf l p) = p := by
  simp only [posOf, podOf]
  omega

theorem podOf_lt {l p : Nat} (hl : l < 4) (hp : p < 8) : podOf l p < 32 := by
  simp only [podOf]
  omega

theorem modPos_position {c : Nat} (hc : c < 32) (f : Position → Position) (s : State) (d : Nat) :
    (s.modPos c f).position d = if d = c then f (s.position c) else s.position d := by
  rw [State.position_modPos]
  simp only [hc, and_true]

/-! ### Entries of the command tables -/

theorem place_table {l : Nat} (hl : l < 4) (dest : Addressee) (cmd : LineCmd) (s : State) :
    ((s.place l dest cmd).line l).table = placeIn (s.line l).table dest cmd := by
  rw [State.place, modLine_line hl, if_pos rfl]

theorem mem_placeIn_self (table : List Entry) (dest : Addressee) (cmd : LineCmd) :
    ⟨dest, cmd, false⟩ ∈ placeIn table dest cmd := List.mem_append_right _ (List.mem_singleton.2 rfl)

theorem mem_placeIn {table : List Entry} {dest : Addressee} {cmd : LineCmd} {e : Entry} (h : e ∈ placeIn table dest cmd) :
    e ∈ table ∨ e = ⟨dest, cmd, false⟩ := by
  rcases List.mem_append.1 h with h | h
  · exact .inl (List.mem_filter.1 h).1
  · exact .inr (List.mem_singleton.1 h)

/-! ### Roll calls (R133) -/

theorem calledBits {called : Nat → Bool} {p : Nat} (hp : p < 8) : ∀ (ns : List Nat) (m : BitVec 8), (∀ n ∈ ns, n < 8) →
    (ns.foldl (fun m n => if called n then m ||| BitVec.twoPow 8 n else m) m).getLsbD p
      = (m.getLsbD p || (ns.contains p && called p))
  | [], m, _ => by simp
  | n :: ns, m, hns => by
    rw [List.foldl_cons, calledBits hp ns _ fun k hk => hns k (List.mem_cons_of_mem _ hk)]
    by_cases hn : p = n
    · subst hn
      by_cases hcalled : called p = true
      · simp [hcalled, hp]
      · simp [hcalled]
    · have hbit : (if called n then m ||| BitVec.twoPow 8 n else m).getLsbD p = m.getLsbD p := by
        split
        · rw [BitVec.getLsbD_or, BitVec.getLsbD_twoPow]
          simp [Ne.symm hn]
        · rfl
      rw [hbit, List.contains_cons, beq_eq_false_iff_ne.2 hn, Bool.false_or]

/-- A position is in the called set where it is called (R133). -/
theorem calledSet_bit (l : Nat) (s : State) {p : Nat} (hp : p < 8) :
    (s.calledSet l).getLsbD p = (s.position (podOf l p)).called := by
  have hbits := calledBits (called := fun q => (s.position (podOf l q)).called) hp positions 0
    (fun n hn => List.mem_range.1 hn)
  rw [show (0 : BitVec 8).getLsbD p = false from BitVec.getLsbD_zero, Bool.false_or, List.contains_iff_mem.2 (List.mem_range.2 hp), Bool.true_and] at hbits
  exact hbits

theorem calledSet_modLine (l k : Nat) (f : Line → Line) (s : State) : (s.modLine k f).calledSet l = s.calledSet l := rfl

theorem placeRollCall_rows {l : Nat} (hl : l < 4) (s : State) :
    ((placeRollCall l s).line l).table = placeIn (s.line l).table .broadcast (.rollCall (s.calledSet l))
      ∧ ((placeRollCall l s).line l).rollCount = 0 ∧ ((placeRollCall l s).line l).state = (s.line l).state := by
  rw [placeRollCall, modLine_line hl, if_pos rfl]
  refine ⟨place_table hl _ _ s, rfl, ?_⟩
  show ((s.place l .broadcast (.rollCall (s.calledSet l))).line l).state = (s.line l).state
  rw [State.place, modLine_line hl, if_pos rfl]

theorem says_placeRollCall (l : Nat) (s : State) : Says s (placeRollCall l s) [] :=
  (says_modLine ..).then_ (says_modLine ..)

/-- What a roll call now leaves of its line (R133). -/
theorem rollCallNow_rows {l : Nat} (hl : l < 4) (s : State) :
    ((rollCallNow l s).line l).rollCount = 0 ∧ ((rollCallNow l s).line l).state = (s.line l).state
      ∧ (s.calledSet l = 0 → ((rollCallNow l s).line l).table = (s.line l).table)
      ∧ (s.calledSet l ≠ 0 → ⟨.broadcast, .rollCall (s.calledSet l), false⟩ ∈ ((rollCallNow l s).line l).table)
      ∧ Says s (rollCallNow l s) [] := by
  have hzeroed := modLine_line hl (fun ln => { ln with rollCount := 0 }) s l
  rw [if_pos rfl] at hzeroed
  have hquiet := says_modLine l (fun ln => { ln with rollCount := 0 }) s
  unfold rollCallNow
  dsimp only
  rw [calledSet_modLine]
  by_cases hnone : s.calledSet l = 0
  · rw [if_pos hnone, hzeroed]
    exact ⟨rfl, rfl, fun _ => rfl, fun h => absurd hnone h, hquiet⟩
  · rw [if_neg hnone]
    obtain ⟨htable, hcount, hstate⟩ := placeRollCall_rows hl (s.modLine l (fun ln => { ln with rollCount := 0 }))
    rw [hzeroed] at hstate
    refine ⟨hcount, hstate, fun h => absurd h hnone, fun _ => ?_, hquiet.then_ (says_placeRollCall ..)⟩
    rw [htable]
    exact mem_placeIn_self ..

/-! ### A position that takes another state -/

theorem leaveAsleep_position {c : Nat} (hc : c < 32) (f : Position → Position) (s : State) (d : Nat) :
    (leaveAsleep c f s).position d = if d = c then f (s.position c) else s.position d := modPos_position hc f s d

theorem leaveJoining_position {c : Nat} (hc : c < 32) (f : Position → Position) (s : State) (d : Nat) :
    (leaveJoining c f s).position d = if d = c then f (s.position c) else s.position d := modPos_position hc f s d

theorem says_leaveAsleep (c : Nat) (f : Position → Position) (s : State) : Says s (leaveAsleep c f s) [] :=
  (says_modPos ..).then_ (says_modLine ..)

theorem says_leaveJoining (c : Nat) (f : Position → Position) (s : State) : Says s (leaveJoining c f s) [] :=
  (says_modPos ..).then_ (says_modLine ..)

theorem refreshRings_position (s : State) (c : Nat) : (refreshRings s).position c = s.position c := by
  rw [State.position, (refreshRings_changes s).1 .pos (by decide)]
  rfl

theorem forgetRing_rings {c : Nat} (hc : c < 42) (s : State) :
    ((forgetRing c s).chan c).ring = none ∧ ((forgetRing c s).chan c).pulseOwed = false := by
  rw [forgetRing, State.chan_modChan_self _ _ hc]
  exact ⟨rfl, rfl⟩

/-- A position that has answered the roll call (R133). -/
def answered (rec : Identity) (q : Position) : Position :=
  { q with
    state := .joining
    fromLost := q.state == .lost
    newUnit := match q.identity with
      | some old => old.serial != rec.serial
      | none => true
    identity := some rec
    wakeTimer := none
    good := 0
    miss := 0 }

theorem answerRollCall_eq (c : Nat) (rec : Identity) (s : State) :
    answerRollCall c rec s = leaveAsleep c (answered rec) s := rfl

/-- A position that has joined (R134). -/
def joined (q : Position) : Position :=
  { q with state := .online, miss := 0, rejoins := if q.fromLost then bump q.rejoins else q.rejoins }

/-- What a join leaves (R134, R157). -/
theorem joinPod_rows {c : Nat} (hc : c < 32) (s : State) :
    (∀ d, (joinPod c s).position d = if d = c then joined (s.position c) else s.position d)
      ∧ ((joinPod c s).chan c).ring = none ∧ ((joinPod c s).chan c).pulseOwed = false
      ∧ Says s (joinPod c s) [.podJoin (lineOf c) (posOf c) (s.position c).identity (s.position c).newUnit
          (joined (s.position c)).rejoins] := by
  have hposition (d : Nat) := leaveJoining_position hc joined s d
  have hself := hposition c
  rw [if_pos rfl] at hself
  obtain ⟨hring, howed⟩ := forgetRing_rings (c := c) (by omega) (leaveJoining c joined s)
  have hjoin : joinPod c s = raise (.podJoin (lineOf c) (posOf c) (s.position c).identity (s.position c).newUnit
      (joined (s.position c)).rejoins) (forgetRing c (leaveJoining c joined s)) := by
    show raise (.podJoin (lineOf c) (posOf c) ((leaveJoining c joined s).position c).identity
      ((leaveJoining c joined s).position c).newUnit ((leaveJoining c joined s).position c).rejoins)
        (forgetRing c (leaveJoining c joined s)) = _
    rw [hself]
    rfl
  rw [hjoin]
  exact ⟨hposition, hring, howed, ((says_leaveJoining c joined s).then_ (says_modChan ..)).after (says_raise ..)⟩

/-- Settles O43. -/
theorem podsJoin : Obligations.PodsJoin := by
  intro l p s hreset hl hp c q
  have hc : c < 32 := podOf_lt hl hp
  refine ⟨fun hdue hrunning hcount => ?rollCall, fun rec called hcalled hbit hstate => ?answer, fun hdue hjoining hgood => ?join,
    fun hdue hjoining hmiss => ?fail⟩
  case rollCall =>
    have hact : act (.rollCall l) (s.undue (.rollCall l)) = rollCallNow l (s.undue (.rollCall l)) := by
      have hcond : ((s.line l).state == .running && decide (Config.rollCallPeriod ≤ (s.line l).rollCount)) = true := by
        rw [hrunning]
        exact decide_eq_true hcount
      dsimp only [act, actRollCall]
      exact when_of hcond _ _
    obtain ⟨hzero, -, hnobody, hcalls, -⟩ := rollCallNow_rows hl (s.undue (.rollCall l))
    exact ⟨_, exec_event_acts (.rollCall l) rfl hreset hdue hact, hzero, hnobody, hcalls,
      (undue_changes _ s).comp (rs := [.due, .tables, .lines]) (rollCallNow_changes ..)⟩
  case answer =>
    have hact : act (.rollCallAnswer l p rec) (s.undue (.rollCallAnswer l p rec))
        = answerRollCall c rec (s.undue (.rollCallAnswer l p rec)) := by
      have hcond : ((((s.line l).calledNow.getD 0).getLsbD p)
          && (q.state == .absent || q.state == .lost || q.state == .asleep)) = true := by
        rw [hcalled, Option.getD_some, hbit]
        rcases hstate with h | h | h <;> rw [h] <;> rfl
      dsimp only [act, actRollCallAnswer]
      exact when_of hcond _ _
    have hposition (d : Nat) := leaveAsleep_position hc (answered rec) (s.undue (.rollCallAnswer l p rec)) d
    rw [← answerRollCall_eq] at hposition
    refine ⟨_, exec_event_acts (.rollCallAnswer l p rec) rfl hreset rfl hact, ?_⟩
    rw [hposition c, if_pos rfl]
    refine ⟨rfl, rfl, ?_, rfl, rfl, rfl, rfl, fun d hd => ?_,
      (undue_changes _ s).comp (rs := [.due, .pos, .tables]) (answerRollCall_changes ..)⟩
    · exact beq_eq_decide ..
    · rw [hposition d, if_neg hd]
      rfl
  case join =>
    have hact : act (.podJoin l p) (s.undue (.podJoin l p)) = refreshRings (joinPod c (s.undue (.podJoin l p))) := by
      have hcond : (q.state == .joining && decide (Config.joinGood ≤ q.good)) = true := by
        rw [hjoining]
        exact decide_eq_true hgood
      dsimp only [act, actPodJoin]
      exact when_of hcond _ _
    obtain ⟨hposition, hring, howed, hsays⟩ := joinPod_rows hc (s.undue (.podJoin l p))
    rw [lineOf_podOf hp, posOf_podOf hp] at hsays
    have hself : (refreshRings (joinPod c (s.undue (.podJoin l p)))).position c = joined q := by
      rw [refreshRings_position, hposition, if_pos rfl]
      rfl
    refine ⟨_, exec_event_acts (.podJoin l p) rfl hreset hdue hact, ?_, hself, ?_, ?_, ?_, fun d hd => ?_,
      (undue_changes _ s).comp ((joinPod_changes ..).comp (rs := [.pos, .tables, .rings]) (refreshRings_changes _))⟩
    · rw [State.present, if_pos hc, hself]
      rfl
    · rw [refreshRings_chan]
      exact hring
    · rw [refreshRings_chan]
      exact howed
    · rw [hself]
      exact (hsays.then_ (says_refreshRings _)).1
    · rw [refreshRings_position, hposition, if_neg hd]
      rfl
  case fail =>
    have hact : act (.joinFailed l p) (s.undue (.joinFailed l p)) = failJoin c (s.undue (.joinFailed l p)) := by
      have hcond : (q.state == .joining && decide (Config.loseMiss ≤ q.miss)) = true := by
        rw [hjoining]
        exact decide_eq_true hmiss
      dsimp only [act, actJoinFailed]
      exact when_of hcond _ _
    have hposition (d : Nat) := leaveJoining_position hc (fun q => { q with state := if q.fromLost then .lost else .absent })
      (s.undue (.joinFailed l p)) d
    refine ⟨_, exec_event_acts (.joinFailed l p) rfl hreset hdue hact, (hposition c).trans (if_pos rfl), fun d hd => ?_,
      (undue_changes _ s).comp (rs := [.due, .pos, .tables]) (failJoin_changes ..)⟩
    exact (hposition d).trans (if_neg hd)

/-! ### An acknowledged RING (R139, R155, R156) -/

/-- No entry of a position and kind is the one marked sent. -/
def noneSent (p kind : Nat) (table : List Entry) : Prop :=
  ∀ e ∈ table, e.dest = .position p → e.cmd.kind = kind → e.sent = false

theorem noneSent_tableAcked (p kind : Nat) (table : List Entry) : noneSent p kind (tableAcked table p kind) := by
  intro e he hdest hkind
  have hkept := (List.mem_filter.1 he).2
  rw [hdest, hkind, beq_self_eq_true, beq_self_eq_true] at hkept
  simpa using hkept

theorem noneSent_placeIn {p kind : Nat} {table : List Entry} (h : noneSent p kind table) (dest : Addressee) (cmd : LineCmd) :
    noneSent p kind (placeIn table dest cmd) := by
  intro e he hdest hkind
  rcases mem_placeIn he with hin | rfl
  · exact h e hin hdest hkind
  · rfl

/-- What is left of a pulse that is settled (R156). -/
theorem settlePulse_rows {c l p : Nat} (hl : l < 4) (hp : p < 8) (hc : c = podOf l p) (s : State) :
    (∀ d, (settlePulse c s).chan d = if d = c then { s.chan c with pulseOwed := false } else s.chan d)
      ∧ (noneSent p 4 (s.line l).table → noneSent p 4 ((settlePulse c s).line l).table) := by
  have hlt : c < 42 := by
    have := podOf_lt hl hp
    omega
  have hchan (d : Nat) : (s.modChan c (fun k => { k with pulseOwed := false })).chan d
      = if d = c then { s.chan c with pulseOwed := false } else s.chan d := by
    rw [State.chan_modChan]
    simp only [hlt, and_true]
  unfold settlePulse
  dsimp only
  split
  · refine ⟨hchan, fun hnone => ?_⟩
    rw [hc, lineOf_podOf hp, place_table hl]
    exact noneSent_placeIn hnone _ _
  · exact ⟨hchan, fun hnone => hnone⟩

/-- What an acknowledged RING leaves (R155, R156). -/
theorem acknowledgeRing_rows {c l p : Nat} (hl : l < 4) (hp : p < 8) (hc : c = podOf l p) (v : Ring) (pulse : Bool)
    (s : State) :
    (∀ d, (acknowledgeRing c v pulse s).chan d = if d = c then
        { s.chan c with ring := some v, pulseOwed := if pulse then false else (s.chan c).pulseOwed } else s.chan d)
      ∧ (noneSent p 4 (s.line l).table → noneSent p 4 ((acknowledgeRing c v pulse s).line l).table) := by
  have hlt : c < 42 := by
    have := podOf_lt hl hp
    omega
  have hchan (d : Nat) : (s.modChan c (fun k => { k with ring := some v })).chan d
      = if d = c then { s.chan c with ring := some v } else s.chan d := by
    rw [State.chan_modChan]
    simp only [hlt, and_true]
  cases pulse with
  | false => exact ⟨hchan, fun hnone => hnone⟩
  | true =>
    obtain ⟨hsettled, htable⟩ := settlePulse_rows hl hp hc (s.modChan c (fun k => { k with ring := some v }))
    refine ⟨fun d => (hsettled d).trans ?_, htable⟩
    rw [hchan c, hchan d, if_pos rfl]
    by_cases hd : d = c
    · rw [if_pos hd, if_pos hd]
      rfl
    · rw [if_neg hd, if_neg hd, if_neg hd]

/-! ### A sleeping pod (R141, R142) -/

theorem dropKind_gone (p kind : Nat) (table : List Entry) :
    ∀ e ∈ dropKind table p kind, ¬ (e.dest = .position p ∧ e.cmd.kind = kind) := by
  rintro e he ⟨hdest, hkind⟩
  have hkept := (List.mem_filter.1 he).2
  rw [hdest, hkind, beq_self_eq_true, beq_self_eq_true] at hkept
  exact absurd hkept (by decide)

/-- The end of the 12th WAKE frame (R141). -/
theorem finishWake_rows {c l p : Nat} (hl : l < 4) (hp : p < 8) (hc : c = podOf l p) (s : State) :
    (∀ d, (finishWake c s).position d = if d = c then { s.position c with wakeTimer := some 200 } else s.position d)
      ∧ (∀ e ∈ ((finishWake c s).line l).table, ¬ (e.dest = .position p ∧ e.cmd.kind = 2))
      ∧ (∃ m, ⟨.broadcast, .rollCall m, false⟩ ∈ ((finishWake c s).line l).table
        ∧ ((s.position c).state = .asleep → m.getLsbD p = true))
      ∧ ((finishWake c s).line l).rollCount = 0 ∧ Says s (finishWake c s) [] := by
  -- The state before the roll call is placed.
  generalize hr : ((s.modLine l (fun ln => { ln with table := dropKind ln.table p 2 })).modPos c
    (fun q => { q with wakeTimer := some 200 })) = r
  have hwake : finishWake c s = placeRollCall l r := by
    rw [← hr, finishWake, hc, lineOf_podOf hp, posOf_podOf hp]
  have hposition (d : Nat) : r.position d = if d = c then { s.position c with wakeTimer := some 200 } else s.position d := by
    rw [← hr]
    exact modPos_position (hc ▸ podOf_lt hl hp) _ _ d
  have htable : (r.line l).table = dropKind (s.line l).table p 2 := by
    rw [← hr, State.line_modPos, modLine_line hl, if_pos rfl]
  have hquiet : Says s r [] := by
    rw [← hr]
    exact (says_modLine ..).then_ (says_modPos ..)
  obtain ⟨hplaced, hcount, -⟩ := placeRollCall_rows hl r
  rw [hwake, hplaced, htable]
  refine ⟨hposition, fun e he => ?_, ⟨r.calledSet l, mem_placeIn_self .., fun hasleep => ?_⟩, hcount,
    hquiet.then_ (says_placeRollCall ..)⟩
  · rcases mem_placeIn he with hin | rfl
    · exact dropKind_gone p 2 _ e hin
    · rintro ⟨hdest, -⟩
      cases hdest
  · rw [calledSet_bit l r hp, ← hc, hposition c, if_pos rfl, Position.called, hasleep]
    rfl

theorem wakeRequest_raises {l p : Nat} {s : State} (hreset : s.sys.inReset = none) (hl : l < 4) (hp : p < 8)
    (htakes : (s.line l).takesSlots = true) (hasleep : (s.position (podOf l p)).state = .asleep) :
    exec (.wakeRequest l p) s = .next (closeFrames (raise (.wakeRequest l (some p)) (s.undue (.wakeRequest l p)))) := by
  have hact : act (.wakeRequest l p) (s.undue (.wakeRequest l p))
      = raise (.wakeRequest l (some p)) (s.undue (.wakeRequest l p)) := by
    have hcond : (decide (l < 4 ∧ p < 8) && (s.line l).takesSlots && (s.position (podOf l p)).state == .asleep) = true := by
      rw [htakes, hasleep, decide_eq_true ⟨hl, hp⟩]
      rfl
    dsimp only [act, actWakeRequest]
    exact when_of hcond _ _
  exact exec_event_acts (.wakeRequest l p) rfl hreset rfl hact

theorem wakeFrames_end {l p : Nat} {s : State} (hreset : s.sys.inReset = none) (hl : l < 4) (hp : p < 8)
    (hdue : s.isDue (.wakeFramesDone l p) = true) (hentry : ⟨.position p, .wake 0, true⟩ ∈ (s.line l).table) :
    ∃ u, exec (.wakeFramesDone l p) s = .next (closeFrames u)
      ∧ u.position (podOf l p) = { s.position (podOf l p) with wakeTimer := some 200 }
      ∧ (∀ d, d ≠ podOf l p → u.position d = s.position d)
      ∧ (∀ e ∈ (u.line l).table, ¬ (e.dest = .position p ∧ e.cmd.kind = 2))
      ∧ (∃ m, ⟨.broadcast, .rollCall m, false⟩ ∈ (u.line l).table
        ∧ ((s.position (podOf l p)).state = .asleep → m.getLsbD p = true))
      ∧ (u.line l).rollCount = 0 ∧ s.raised u [] ∧ s.changes [.due, .pos, .tables, .lines] u := by
  have hact : act (.wakeFramesDone l p) (s.undue (.wakeFramesDone l p)) = finishWake (podOf l p) (s.undue (.wakeFramesDone l p)) := by
    have hcond : (s.line l).table.any (fun e => e.dest == .position p && e.cmd == .wake 0) = true :=
      List.any_eq_true.2 ⟨_, hentry, by simp⟩
    dsimp only [act, actWakeFramesDone]
    exact when_of hcond _ _
  obtain ⟨hposition, hgone, hcalls, hcount, hsays⟩ := finishWake_rows hl hp (c := podOf l p) rfl
    (s.undue (.wakeFramesDone l p))
  exact ⟨_, exec_event_acts (.wakeFramesDone l p) rfl hreset hdue hact, (hposition _).trans (if_pos rfl),
    fun d hd => (hposition d).trans (if_neg hd), hgone, hcalls, hcount, hsays.1,
    (undue_changes _ s).comp (rs := [.due, .pos, .tables, .lines]) (finishWake_changes ..)⟩

theorem wake_fails {l p : Nat} {s : State} (hreset : s.sys.inReset = none) (hl : l < 4) (hp : p < 8)
    (hdue : s.isDue (.wakeFailed l p) = true) (hasleep : (s.position (podOf l p)).state = .asleep)
    (htimer : (s.position (podOf l p)).wakeTimer = some 0) :
    ∃ u, exec (.wakeFailed l p) s = .next (closeFrames u)
      ∧ u.position (podOf l p) = { s.position (podOf l p) with state := .absent, wakeTimer := none }
      ∧ (∀ d, d ≠ podOf l p → u.position d = s.position d)
      ∧ s.raised u [.wakeFailed l p] ∧ s.changes [.due, .pos, .tables] u := by
  have hact : act (.wakeFailed l p) (s.undue (.wakeFailed l p)) = failWake (podOf l p) (s.undue (.wakeFailed l p)) := by
    have hcond : ((s.position (podOf l p)).state == .asleep && (s.position (podOf l p)).wakeTimer == some 0) = true := by
      rw [hasleep, htimer]
      rfl
    dsimp only [act, actWakeFailed]
    exact when_of hcond _ _
  have hposition (d : Nat) := leaveAsleep_position (podOf_lt hl hp) (fun q => { q with state := .absent, wakeTimer := none })
    (s.undue (.wakeFailed l p)) d
  have hsays : Says (s.undue (.wakeFailed l p)) (failWake (podOf l p) (s.undue (.wakeFailed l p)))
      [.wakeFailed (lineOf (podOf l p)) (posOf (podOf l p))] := (says_leaveAsleep ..).after (says_raise ..)
  rw [lineOf_podOf hp, posOf_podOf hp] at hsays
  exact ⟨_, exec_event_acts (.wakeFailed l p) rfl hreset hdue hact, (hposition _).trans (if_pos rfl),
    fun d hd => (hposition d).trans (if_neg hd), hsays.1,
    (undue_changes _ s).comp (rs := [.due, .pos, .tables]) (failWake_changes ..)⟩

/-- Settles O45. -/
theorem podAnswersAndWaking : Obligations.PodAnswersAndWaking := by
  refine ⟨?ring, ?others⟩
  case others =>
    intro l p s hreset hl hp c q
    exact ⟨wakeRequest_raises hreset hl hp, wakeFrames_end hreset hl hp, wake_fails hreset hl hp⟩
  case ring =>
    intro l p v pulse s hreset hl hp c hsent hpresent
    generalize hx : (s.undue (.ringAcknowledged l p)).modLine l (fun ln => { ln with table := tableAcked ln.table p 4 }) = x
    have hact : act (.ringAcknowledged l p) (s.undue (.ringAcknowledged l p)) = acknowledgeRing c v pulse x := by
      rw [← hx]
      dsimp only [act, actRingAcknowledged]
      rw [show ((s.undue (.ringAcknowledged l p)).line l).sentTo p = some (.ring v pulse) from hsent]
      exact when_of hpresent _ _
    have hchan (d : Nat) : x.chan d = s.chan d := by rw [← hx]; rfl
    have htable : (x.line l).table = tableAcked (s.line l).table p 4 := by
      rw [← hx, modLine_line hl, if_pos rfl]
      rfl
    have hchanges : s.changes [.due, .rings, .tables] (acknowledgeRing c v pulse x) := by
      rw [← hx]
      exact (undue_changes _ s).comp ((modTable_changes l (fun t => tableAcked t p 4) _).comp (rs := [.rings, .tables])
        (acknowledgeRing_changes ..))
    obtain ⟨hrings, hnone⟩ := acknowledgeRing_rows hl hp (rfl : c = podOf l p) v pulse x
    have hself := hrings c
    rw [if_pos rfl, hchan] at hself
    rw [htable] at hnone
    refine ⟨_, exec_event_acts (.ringAcknowledged l p) rfl hreset rfl hact, by rw [hself], by rw [hself], fun d hd => ?_,
      hnone (noneSent_tableAcked p 4 _), hchanges⟩
    rw [hrings d, if_neg hd, hchan]
    exact ⟨rfl, rfl⟩
/-! ### The ends of a line's states (R128, R129, R146 to R148) -/

theorem endStarting_rows {l : Nat} (hl : l < 4) (s : State) :
    ((endStarting l s).line l).state = .running ∧ ((endStarting l s).line l).rollCount = 0
      ∧ (s.calledSet l ≠ 0 → ⟨.broadcast, .rollCall (s.calledSet l), false⟩ ∈ ((endStarting l s).line l).table)
      ∧ Says s (endStarting l s) [] := by
  obtain ⟨hcount, hstate, -, hcalls, hsays⟩ := rollCallNow_rows hl (s.modLine l (fun ln => ln.enter .running 0))
  rw [modLine_line hl, if_pos rfl] at hstate
  exact ⟨hstate, hcount, hcalls, (says_modLine ..).then_ hsays⟩

/-- An ASLEEP position of a line that leaves WAKING is ABSENT (R148). -/
def awoken (q : Position) : Position := if q.state = .asleep then { q with state := .absent, wakeTimer := none } else q

theorem awoken_state (q : Position) : (awoken q).state = if q.state = .asleep then .absent else q.state := by
  unfold awoken
  split <;> rfl

/-- One position of a line that leaves WAKING. -/
def wakePosition (l p : Nat) (s : State) : State :=
  if (s.position (podOf l p)).state = .asleep then
    leaveAsleep (podOf l p) (fun q => { q with state := .absent, wakeTimer := none }) s
  else s

theorem endWaking_eq (l : Nat) (s : State) :
    endWaking l s = (runOver (wakePosition l) positions s).modLine l (fun ln => ln.enter .starting 16) := rfl

theorem wakePosition_position {l p : Nat} (hc : podOf l p < 32) (s : State) (d : Nat) :
    (wakePosition l p s).position d = if d = podOf l p then awoken (s.position (podOf l p)) else s.position d := by
  unfold wakePosition awoken
  split
  · exact leaveAsleep_position hc _ s d
  · split
    · next hd => rw [hd]
    · rfl

theorem says_wakePosition (l p : Nat) (s : State) : Says s (wakePosition l p s) [] := by
  unfold wakePosition
  split
  · exact says_leaveAsleep ..
  · exact .refl s

theorem endWaking_rows {l : Nat} (hl : l < 4) (s : State) :
    ((endWaking l s).line l).state = .starting ∧ ((endWaking l s).line l).remaining = 16
      ∧ (∀ p, p < 8 → (endWaking l s).position (podOf l p) = awoken (s.position (podOf l p)))
      ∧ Says s (endWaking l s) [] := by
  have hposition (p : Nat) (hp : p < 8) := runOver_positions (l := l) (f := wakePosition l) (g := awoken)
    (fun q hq t => (wakePosition_position (podOf_lt hl hq) t _).trans (if_pos rfl))
    (fun q t c hc => ?_) s (k := l) hp
  · simp only [if_true] at hposition
    have hsays := (says_runOver (says_wakePosition l) positions s).then_ (says_modLine l (fun ln => ln.enter .starting 16) _)
    rw [endWaking_eq]
    generalize runOver (wakePosition l) positions s = t at hposition hsays ⊢
    rw [modLine_line hl, if_pos rfl]
    exact ⟨rfl, rfl, hposition, hsays⟩
  · unfold wakePosition
    split
    · exact (State.position_modPos t (podOf l q) c _).trans (if_neg fun h => hc h.1)
    · rfl

end Sys2Proof.Proofs
end

