-- ==== Sys2Proof/Proofs/PodDepartures.lean ====
section
/-! PROOFS. Pods that leave ONLINE (R135, R139, R140), and the ends of a line's states (R128, R146 to R148). -/

set_option Elab.async false

namespace Sys2Proof.Proofs

open Sys2Proof Sys2Proof.Machine

/-! ### What a departure leaves of the Line Controllers -/

/-- A position that has left ONLINE. -/
def departed (st : PosState) (q : Position) : Position := { q with state := st, levels := none, hold := none }

/-- The state in which POD_LOST is raised. -/
def departing (c : Nat) (st : PosState) (s : State) : State :=
  (s.modPos c (departed st)).modLine (lineOf c) (fun ln => { ln with table := dropPosition ln.table (posOf c) })

theorem leaveOnline_eq (c : Nat) (st : PosState) (cause : LostCause) (s : State) :
    leaveOnline c st cause s = lowerHand c .left (removeFromFloor c .left (notePodLost c cause (departing c st s))) := rfl

theorem leaveOnline_kept (c : Nat) (st : PosState) (cause : LostCause) (s : State) :
    (departing c st s).changes [.hands, .attack, .floor, .latch] (leaveOnline c st cause s) :=
  ((raise_changes _ _).comp (rs := [.hands, .attack, .floor, .latch]) (removeFromFloor_changes ..)).comp (lowerHand_changes ..)

theorem leaveOnline_positions {c : Nat} (hc : c < 32) (st : PosState) (cause : LostCause) (s : State) (d : Nat) :
    (leaveOnline c st cause s).position d = if d = c then departed st (s.position c) else s.position d := by
  rw [State.position, (leaveOnline_kept c st cause s).1 .pos (by decide)]
  exact modPos_position hc (departed st) s d

theorem leaveOnline_line (c : Nat) (st : PosState) (cause : LostCause) (s : State) (l : Nat) :
    (leaveOnline c st cause s).line l = (departing c st s).line l := by
  have hkept := (leaveOnline_kept c st cause s).1
  rw [hkept .lines (by decide) l, hkept .tables (by decide) l]

theorem leaveOnline_hand (c : Nat) (st : PosState) (cause : LostCause) (s : State) (d : Nat) :
    ((leaveOnline c st cause s).chan d).hand = ((s.chan d).hand && !decide (d = c)) := by
  rw [leaveOnline_eq, lowerHand_hand, (removeFromFloor_changes ..).1 .hands (by decide)]
  rfl

/-! ### What it says (R135) -/

/-- POD_LOST, the floor's notices, HAND_LOWER. -/
theorem says_leaveOnline {c : Nat} {st : PosState} {cause : LostCause} {s : State} (h : s.floorLawful) (hc : c < 32) :
    ∃ bs, Says s (leaveOnline c st cause s) bs
      ∧ s.departs c (.podLost (lineOf c) (posOf c) cause (s.position c).checkFails (s.position c).missed
          (s.position c).rejoins) bs := by
  have hquiet : Says s (departing c st s) [] := (says_modPos ..).then_ (says_modLine ..)
  have hposition : (departing c st s).position c = departed st (s.position c) :=
    (modPos_position hc (departed st) s c).trans (if_pos rfl)
  have hnote : notePodLost c cause (departing c st s) = raise (.podLost (lineOf c) (posOf c) cause
      (s.position c).checkFails (s.position c).missed (s.position c).rejoins) (departing c st s) := by
    rw [notePodLost, hposition]
    rfl
  have hlost := hquiet.after (says_raise (.podLost (lineOf c) (posOf c) cause (s.position c).checkFails
    (s.position c).missed (s.position c).rejoins) (departing c st s))
  rw [← hnote] at hlost
  have hkept : (notePodLost c cause (departing c st s)).floorKept (mayStand s) (isThere s) :=
    State.floorKept.same (floorKept_of_lawful h) rfl rfl rfl rfl (fun _ => rfl)
  obtain ⟨off, hoff, hoffFloor⟩ := says_removeFromFloor (c := c) (k := .left) hkept
  have hlowers := says_lowerHand c .left (removeFromFloor c .left (notePodLost c cause (departing c st s)))
  have hmoved := removeFromFloor_changes c .left (notePodLost c cause (departing c st s))
  rw [hand_of_changes hmoved, claims_of_changes hmoved] at hlowers
  exact ⟨_, (hlost.trans hoff).trans hlowers, off, hoffFloor, rfl⟩

/-! ### The rings compared after it -/

/-- The rings of a line none of whose pods is ONLINE are left alone. -/
theorem refreshRings_table {l p : Nat} {s : State} (hgone : s.present (podOf l p) = false)
    (h : ∀ e ∈ (s.line l).table, e.dest ≠ .position p) : ∀ e ∈ ((refreshRings s).line l).table, e.dest ≠ .position p := by
  refine (runOver_keep_mem (P := fun t => (∀ d, t.present d = s.present d)
    ∧ ∀ e ∈ (t.line l).table, e.dest ≠ .position p) pods s (fun d hd t ht => ?_) ⟨fun _ => rfl, h⟩).2
  obtain ⟨hpresent, htable⟩ := ht
  unfold refreshRing
  split
  · next hd =>
    split
    · exact ⟨hpresent, htable⟩
    · refine ⟨hpresent, fun e he => ?_⟩
      have hline := State.line_modLine t (lineOf d) l (fun ln => { ln with
        table := placeIn ln.table (.position (posOf d)) (.ring (t.derivedRing d) (t.chan d).pulseOwed) })
      rw [placeRing, State.place, hline] at he
      split at he
      · next hl =>
        rcases mem_placeIn he with hin | rfl
        · exact htable e (by rw [hl.1]; exact hin)
        · rintro hdest
          injection hdest with hpos
          have hself : d = podOf l p := by
            simp only [posOf, lineOf, podOf] at hpos hl ⊢
            omega
          rw [hself, hpresent, hgone] at hd
          cases hd
      · exact htable e he
  · exact ⟨hpresent, htable⟩

theorem refreshRings_present (s : State) (c : Nat) : (refreshRings s).present c = s.present c := by
  unfold State.present
  rw [refreshRings_position, refreshRings_chan]

/-- A pod that is not present is in no floor list, and its gate is not ATTACK (R67). -/
theorem absent_off {s : State} (h : s.floorLawful) {c : Nat} (hc : c < 32) (hgone : s.present c = false) :
    s.floor.entry? c = none ∧ s.floor.waiting? c = none ∧ s.floor.isLeaving c = false ∧ (s.chan c).attack = 0 := by
  obtain ⟨-, -, -, -, habsent⟩ := h
  exact habsent c hc hgone

/-- Settles O44. -/
theorem podsLeave : Obligations.PodsLeave := by
  intro l p s hreset hlaw hl hp c q left
  have hc : c < 32 := podOf_lt hl hp
  have hleft {st : PosState} {cause : LostCause} {e : Event} (hst : st ≠ .online) :
      left st cause (refreshRings (leaveOnline c st cause (s.undue e))) := by
    have hlaw' := floorLawful_undue hlaw e
    obtain ⟨bs, hsays, hdeparts⟩ := says_leaveOnline (st := st) (cause := cause) hlaw' hc
    rw [lineOf_podOf hp, posOf_podOf hp] at hdeparts
    have hposition (d : Nat) := leaveOnline_positions hc st cause (s.undue e) d
    have hself := (hposition c).trans (if_pos rfl)
    have hgone : (leaveOnline c st cause (s.undue e)).present c = false := by
      rw [State.present, if_pos hc, hself]
      exact beq_eq_false_iff_ne.2 hst
    have hlawful := floorLawful_leaveOnline (st := st) (cause := cause) hlaw' hc
    obtain ⟨hentry, hwaiting, hleaving, hattack⟩ := absent_off hlawful hc hgone
    refine ⟨?_, fun d hd => ?_, refreshRings_table hgone ?_, ?_, ?_, ?_, ?_, ?_, fun d hd => ?_,
      ⟨bs, hdeparts, (hsays.then_ (says_refreshRings _)).1⟩,
      (undue_changes _ s).comp ((leaveOnline_changes ..).comp (rs := offlineParts) (refreshRings_changes _))⟩
    · rw [refreshRings_position, hself]
      rfl
    · rw [refreshRings_position, hposition, if_neg hd]
      rfl
    · rw [leaveOnline_line, departing, lineOf_podOf hp, posOf_podOf hp, modLine_line hl, if_pos rfl]
      exact fun e he => bne_iff_ne.1 (List.mem_filter.1 he).2
    · rw [refreshRings_floor]
      exact hentry
    · rw [refreshRings_floor]
      exact hwaiting
    · rw [refreshRings_floor]
      exact hleaving
    · rw [refreshRings_chan]
      exact hattack
    · rw [refreshRings_chan, leaveOnline_hand]
      simp
    · rw [refreshRings_chan, leaveOnline_hand]
      rw [decide_eq_false hd, Bool.not_false, Bool.and_true]
      rfl
  refine ⟨fun hdue honline hmiss => ?lost, fun hsent honline => ?asleep, fun hsent hjoining => ?joining⟩
  case lost =>
    have hact : act (.podLost l p) (s.undue (.podLost l p))
        = refreshRings (leaveOnline c .lost .missed (s.undue (.podLost l p))) := by
      have hcond : (q.state == .online && decide (Config.loseMiss ≤ q.miss)) = true := by
        rw [honline]
        exact decide_eq_true hmiss
      dsimp only [act, actPodLost]
      exact when_of hcond _ _
    exact ⟨_, exec_event_acts (.podLost l p) rfl hreset hdue hact, hleft (by decide)⟩
  all_goals
    have hact (hstate : q.state = .online ∨ q.state = .joining) :
        act (.sleepAcknowledged l p) (s.undue (.sleepAcknowledged l p))
          = refreshRings (sleepPod c (s.undue (.sleepAcknowledged l p))) := by
      have hcond : ((s.line l).sentTo p == some .sleep && (q.state == .online || q.state == .joining)) = true := by
        rw [hsent]
        rcases hstate with h | h <;> rw [h] <;> rfl
      dsimp only [act, actSleepAcknowledged]
      exact when_of hcond _ _
  case asleep =>
    have hsleeps : sleepPod c (s.undue (.sleepAcknowledged l p))
        = leaveOnline c .asleep .sleep (s.undue (.sleepAcknowledged l p)) := if_pos honline
    rw [hsleeps] at hact
    exact ⟨_, exec_event_acts (.sleepAcknowledged l p) rfl hreset rfl (hact (.inl honline)), hleft (by decide)⟩
  case joining =>
    have hnot : ¬ ((s.undue (.sleepAcknowledged l p)).position c).state = .online := by
      show ¬ q.state = .online
      rw [hjoining]
      decide
    have hsleeps : sleepPod c (s.undue (.sleepAcknowledged l p))
        = leaveJoining c (fun q => { q with state := .asleep }) (s.undue (.sleepAcknowledged l p)) := if_neg hnot
    rw [hsleeps] at hact
    have hposition (d : Nat) := leaveJoining_position hc (fun q => { q with state := .asleep })
      (s.undue (.sleepAcknowledged l p)) d
    refine ⟨_, exec_event_acts (.sleepAcknowledged l p) rfl hreset rfl (hact (.inr hjoining)), ?_, fun d hd => ?_,
      (undue_changes _ s).comp ((leaveJoining_changes ..).comp (rs := [.pos, .tables]) (refreshRings_changes _))⟩
    · rw [refreshRings_position, hposition, if_pos rfl]
      rfl
    · rw [refreshRings_position, hposition, if_neg hd]
      rfl

/-! ### A line falls asleep (R147) -/

/-- One position of a line that falls asleep. -/
def sleepPosition (l p : Nat) (s : State) : State :=
  (if (s.position (podOf l p)).state = .online then leaveOnline (podOf l p) .asleep .sleep s else s).modPos (podOf l p)
    Position.slept

/-- A line asleep, with the SLEEP broadcast to send. -/
def fallenAsleep (ln : Line) : Line := { ln with rollCount := 0, table := [⟨.broadcast, .sleep, false⟩] }

theorem sleepLine_eq (l : Nat) (s : State) :
    sleepLine l s = (quietly (fun _ => runOver (sleepPosition l) positions s) s).modLine l fallenAsleep := by
  have hquietly (f : State → State) : quietly f s = quietly (fun _ => f s) s := rfl
  rw [← hquietly]
  rfl

theorem sleepPosition_changes (l p : Nat) (s : State) : s.changes offlineParts (sleepPosition l p s) := by
  have hmod (t : State) : t.changes [.pos] (t.modPos (podOf l p) Position.slept) := modPos_changes ..
  unfold sleepPosition
  split
  · exact (leaveOnline_changes ..).comp (hmod _)
  · exact (hmod s).mono

/-- What one position's step leaves of every position and hand. -/
theorem sleepPosition_reads {l p : Nat} (hc : podOf l p < 32) (s : State) (d : Nat) :
    ((sleepPosition l p s).position d, ((sleepPosition l p s).chan d).hand)
      = if d = podOf l p then
          ((s.position d).slept, (s.chan d).hand && (s.position d).state != .online)
        else (s.position d, (s.chan d).hand) := by
  unfold sleepPosition
  by_cases honline : (s.position (podOf l p)).state = .online
  · rw [if_pos honline, State.chan_modPos, leaveOnline_hand, modPos_position hc, leaveOnline_positions hc,
      leaveOnline_positions hc, if_pos rfl]
    by_cases hd : d = podOf l p
    · rw [if_pos hd, if_pos hd, hd, honline]
      simp [departed, Position.slept, Position.rested]
    · rw [if_neg hd, if_neg hd, if_neg hd]
      simp [hd]
  · rw [if_neg honline, State.chan_modPos, modPos_position hc]
    by_cases hd : d = podOf l p
    · rw [if_pos hd, if_pos hd, hd, bne_iff_ne.2 honline, Bool.and_true]
    · rw [if_neg hd, if_neg hd]

theorem blocks_of_changes {ps : List Part} {s t : State} (h : s.changes ps t) (hps : Part.clock ∉ ps := by decide) :
    t.sys.blocks = s.sys.blocks := (h.1 .clock hps).1

theorem line_of_changes {ps : List Part} {s t : State} (h : s.changes ps t) (l : Nat)
    (hps : Part.lines ∉ ps := by decide) : t.line l = { s.line l with table := (t.line l).table } := h.1 .lines hps l

theorem says_quietly {f : State → State} {s : State} (h : (f s).sys.blocks = s.sys.blocks) : Says s (quietly f s) [] :=
  .quiet rfl rfl h

/-- What a line that falls asleep leaves (R147). -/
theorem sleepLine_rows {l : Nat} (hl : l < 4) (s : State) :
    (∀ p, p < 8 → (sleepLine l s).position (podOf l p) = (s.position (podOf l p)).slept
        ∧ ((sleepLine l s).chan (podOf l p)).hand
          = ((s.chan (podOf l p)).hand && (s.position (podOf l p)).state != .online))
      ∧ (sleepLine l s).line l = { (s.line l) with rollCount := 0, table := [⟨.broadcast, .sleep, false⟩] }
      ∧ Says s (sleepLine l s) [] := by
  have hreads (p : Nat) (hp : p < 8) := runOver_reads (rd := fun t d => (t.position d, (t.chan d).hand)) (key := podOf l)
    (f := sleepPosition l) (g := fun x => (x.1.slept, x.2 && x.1.state != .online)) positions (podOf_nodup l)
    (fun q hq t => (sleepPosition_reads (podOf_lt hl (List.mem_range.1 hq)) t _).trans (if_pos rfl))
    (fun q hq t d hd => (sleepPosition_reads (podOf_lt hl (List.mem_range.1 hq)) t d).trans (if_neg hd)) s (podOf l p)
  have hrun := runOver_changes (ps := offlineParts) (sleepPosition_changes l) (by decide) positions s
  have hblocks : (runOver (sleepPosition l) positions s).sys.blocks = s.sys.blocks := blocks_of_changes hrun
  have hquiet : Says s (quietly (fun _ => runOver (sleepPosition l) positions s) s) [] :=
    says_quietly hblocks
  have hline := line_of_changes hrun l
  rw [sleepLine_eq]
  generalize runOver (sleepPosition l) positions s = t at hreads hline hquiet ⊢
  refine ⟨fun p hp => ?_, ?_, hquiet.then_ (says_modLine ..)⟩
  · have hread := hreads p hp
    rw [if_pos ((podOf_mem hp).2 rfl)] at hread
    exact Prod.mk.inj hread
  · rw [modLine_line hl, if_pos rfl]
    show fallenAsleep (t.line l) = _
    rw [hline]
    rfl

/-- The rings of other lines' pods leave a line alone where none of its own pods is ONLINE. -/
theorem refreshRings_line {l : Nat} {s : State} (hgone : ∀ p, p < 8 → s.present (podOf l p) = false) :
    (refreshRings s).line l = s.line l := by
  refine (runOver_keep_mem (P := fun t => (∀ d, t.present d = s.present d) ∧ t.line l = s.line l) pods s
    (fun d hd t ht => ?_) ⟨fun _ => rfl, rfl⟩).2
  obtain ⟨hpresent, hline⟩ := ht
  unfold refreshRing
  split
  · next hthere =>
    split
    · exact ⟨hpresent, hline⟩
    · refine ⟨hpresent, (State.line_modLine t (lineOf d) l _).trans ((if_neg fun hown => ?_).trans hline)⟩
      have hpod : podOf l (posOf d) = d := by
        have := hown.1
        simp only [podOf, lineOf, posOf] at this ⊢
        omega
      have hno := hgone (posOf d) (Nat.mod_lt _ (by decide))
      rw [hpod, ← hpresent, hthere] at hno
      cases hno
  · exact ⟨hpresent, hline⟩

/-- Settles O46. -/
theorem lineStatesEnd : Obligations.LineStatesEnd := by
  refine ⟨?ends, ?sleeps⟩
  case ends =>
    intro l s hreset hl ln
    refine ⟨fun hdue hstate hzero => ?starting, fun hdue hstate hzero => ?waking, fun hdue hstate hzero => ?test,
      fun hdue hstate hbroadcast => ?sleeping⟩
    case starting =>
      have hact : act (.startingEnd l) (s.undue (.startingEnd l)) = endStarting l (s.undue (.startingEnd l)) := by
        have hcond : (ln.state == .starting && ln.remaining == 0) = true := by
          rw [hstate, hzero]
          rfl
        dsimp only [act, actStartingEnd]
        exact when_of hcond _ _
      obtain ⟨hruns, hcount, hcalls, hsays⟩ := endStarting_rows hl (s.undue (.startingEnd l))
      exact ⟨_, exec_event_acts (.startingEnd l) rfl hreset hdue hact, hruns, hcount, hcalls, hsays.1,
        (undue_changes _ s).comp (rs := [.due, .tables, .lines]) (endStarting_changes ..)⟩
    case waking =>
      have hact : act (.wakingEnd l) (s.undue (.wakingEnd l)) = endWaking l (s.undue (.wakingEnd l)) := by
        have hcond : (ln.state == .waking && ln.remaining == 0) = true := by
          rw [hstate, hzero]
          rfl
        dsimp only [act, actWakingEnd]
        exact when_of hcond _ _
      obtain ⟨hstarts, hframes, hpositions, hsays⟩ := endWaking_rows hl (s.undue (.wakingEnd l))
      refine ⟨_, exec_event_acts (.wakingEnd l) rfl hreset hdue hact, hstarts, hframes, fun p hp => ?_, hsays.1,
        (undue_changes _ s).comp (rs := [.due, .pos, .tables, .lines]) (endWaking_changes ..)⟩
      rw [show 8 * l + p = podOf l p from rfl, hpositions p hp, awoken_state]
      rfl
    case test =>
      have hact : act (.lineTestComplete l) (s.undue (.lineTestComplete l))
          = endTest l .complete (s.undue (.lineTestComplete l)) := by
        have hcond : (ln.state == .testing && ln.remaining == 0) = true := by
          rw [hstate, hzero]
          rfl
        dsimp only [act, actLineTestComplete]
        exact when_of hcond _ _
      have hline := (endTest_line hl .complete (s.undue (.lineTestComplete l)) l).trans (if_pos rfl)
      exact ⟨_, exec_event_acts (.lineTestComplete l) rfl hreset hdue hact, by rw [hline]; rfl, by rw [hline]; rfl,
        (says_endTest l .complete (s.undue (.lineTestComplete l))).1,
        (undue_changes _ s).comp (rs := [.due, .tables, .lines]) (endTest_changes ..)⟩
    case sleeping =>
      have hact : act (.sleepingEnd l) (s.undue (.sleepingEnd l)) = endSleeping l (s.undue (.sleepingEnd l)) := by
        have hcond : (ln.state == .sleeping && ln.sleepBroadcast) = true := by
          rw [hstate, hbroadcast]
          rfl
        dsimp only [act, actSleepingEnd]
        exact when_of hcond _ _
      have hline : (endSleeping l (s.undue (.sleepingEnd l))).line l = (match s.sys.power with
          | .standby => { ln.enter .standby 0 with frame := none, toForm := false }
          | .running => ln.enter .waking 12) := (modLine_line hl _ _ l).trans (if_pos rfl)
      refine ⟨_, exec_event_acts (.sleepingEnd l) rfl hreset hdue hact, fun hpower => ?_, fun hpower => ?_,
        (says_modLine l _ (s.undue (.sleepingEnd l))).1,
        (undue_changes _ s).comp (rs := [.due, .tables, .lines]) (endSleeping_changes ..)⟩
      · rw [hline, hpower]
        exact ⟨rfl, rfl⟩
      · rw [hline, hpower]
        exact ⟨rfl, rfl⟩
  case sleeps =>
    intro l s hreset hl hdue hlast hstate hbroadcast
    have hact : act (.standbyFrameEnd l) (s.undue (.standbyFrameEnd l))
        = refreshRings (sleepLine l (s.undue (.standbyFrameEnd l))) := by
      have hcond : ((s.line l).state == .sleeping && !(s.line l).sleepBroadcast) = true := by
        rw [hstate, hbroadcast]
        rfl
      dsimp only [act, actStandbyFrameEnd]
      exact when_of hcond _ _
    have hfirst : (Event.standbyFrameEnd l).forerunners s = [] := by
      refine List.filter_eq_nil_iff.2 fun e he hboth => ?_
      obtain ⟨hline, hother⟩ := Bool.and_eq_true_iff.1 hboth
      exact hlast e he (bne_iff_ne.1 hother) (eq_of_beq hline)
    obtain ⟨hpods, hline, hsays⟩ := sleepLine_rows hl (s.undue (.standbyFrameEnd l))
    have hgone (p : Nat) (hp : p < 8) : (sleepLine l (s.undue (.standbyFrameEnd l))).present (podOf l p) = false := by
      rw [State.present, if_pos (podOf_lt hl hp), (hpods p hp).1]
      rfl
    have hrings := refreshRings_changes (sleepLine l (s.undue (.standbyFrameEnd l)))
    have hsleeps := sleepLine_changes l (s.undue (.standbyFrameEnd l))
    refine ⟨_, exec_event_acts (.standbyFrameEnd l) rfl hreset hdue hact hfirst, fun p hp => ?_, ?_, ?_, ?_,
      (hsays.then_ (says_refreshRings _)).1,
      (undue_changes _ s).comp (hsleeps.comp (rs := .lines :: offlineParts) hrings)⟩
    · obtain ⟨hposition, hhand⟩ := hpods p hp
      rw [refreshRings_position, refreshRings_chan, show 8 * l + p = podOf l p from rfl, hposition, hhand]
      refine ⟨rfl, rfl, rfl, rfl, fun honline => ?_⟩
      rw [State.present, if_pos (podOf_lt hl hp)] at honline
      rw [show ((s.undue (.standbyFrameEnd l)).position (podOf l p)).state = .online from eq_of_beq honline]
      exact Bool.and_false _
    · rw [refreshRings_line hgone, hline]
    · rw [refreshRings_line hgone, hline]
      exact hstate
    · rw [hrings.1 .due (by decide), hsleeps.1 .due (by decide)]

end Sys2Proof.Proofs
end

