-- ==== Sys2Proof/Proofs/LineStops.lean ====
section
/-! PROOFS. LineStop (R145): the pods of a line leave one after the other, and the line is OFF. -/

set_option Elab.async false

namespace Sys2Proof.Proofs

open Sys2Proof Sys2Proof.Machine

/-! ### What the departure of one channel leaves of the others on the floor -/

/-- A channel stands in neither the Floor List nor the Wait List. -/
def offLists (d : Nat) (f : Floor) : Prop := f.entry? d = none ∧ f.waiting? d = none

theorem offLists_iff (d : Nat) (f : Floor) :
    offLists d f ↔ d ∉ f.list.map (fun e => e.ch) ++ f.wait.map (fun e => e.ch) := by
  rw [offLists, Floor.entry?_none, Floor.waiting?_none, List.mem_append, not_or]

/-- Service of the Wait List keeps every channel on the floor, and brings none there. -/
theorem afterFloor_offLists (d : Nat) (s : State) : offLists d (afterFloor s).floor ↔ offLists d s.floor := by
  refine afterFloor_keep (P := fun t => offLists d t.floor ↔ offLists d s.floor) (fun t ht => ?_) (fun t w ws ht _ hw => ?_)
    s Iff.rfl
  · obtain ⟨hwait, -, -, -, -, -, hchs⟩ := settleGuard_floor t
    rw [offLists_iff, hwait, hchs, ← offLists_iff]
    exact ht
  · have hmoved : offLists d (admitHead t).floor ↔ offLists d t.floor := by
      rw [offLists_iff, offLists_iff, admitHead_floor hw, hw]
      simp [Floor.restartHolds, Function.comp_def, apply_ite FloorEntry.ch]
    exact hmoved.trans ht

theorem removeFromFloor_offLists {c d : Nat} (hd : d ≠ c) (cause : FloorCause) (s : State) :
    offLists d (removeFromFloor c cause s).floor ↔ offLists d s.floor := by
  unfold removeFromFloor
  dsimp only
  split
  · refine (afterFloor_offLists d _).trans ?_
    show (s.floor.dropEntry c).entry? d = none ∧ s.floor.waiting? d = none ↔ _
    rw [Floor.entry?_dropEntry, if_neg hd]
    rfl
  · split
    · refine (afterFloor_offLists d _).trans ?_
      show s.floor.entry? d = none ∧ (s.floor.dropWait c).waiting? d = none ↔ _
      rw [Floor.waiting?_dropWait, if_neg hd]
      rfl
    · split
      · exact afterFloor_offLists d _
      · exact Iff.rfl

/-- A latch on a member that leaves clears, and no departure sets one (R88). -/
def latchClears (c : Nat) (f : Floor) : Prop := f.chair = some c ∧ (f.entry? c ≠ none ∨ f.latch = false)

theorem afterFloor_latch {c : Nat} {s : State} (h : s.floor.entry? c ≠ none ∨ s.floor.latch = false) :
    (afterFloor s).floor.entry? c ≠ none ∨ (afterFloor s).floor.latch = false := by
  obtain ⟨-, -, -, -, hlatch⟩ := afterFloor_floor s
  rcases h with hentry | hoff
  · exact .inl (Option.isSome_iff_ne_none.1 (afterFloor_isSome (Option.isSome_iff_ne_none.2 hentry)))
  · exact .inr (hlatch.trans hoff)

theorem removeFromFloor_latch {c d : Nat} (cause : FloorCause) {s : State} (h : latchClears c s.floor) :
    latchClears c (removeFromFloor d cause s).floor := by
  obtain ⟨hchair, hlatch⟩ := h
  refine ⟨((removeFromFloor_changes d cause s).1 .chair (by decide)).trans hchair, ?_⟩
  unfold removeFromFloor
  dsimp only
  split
  · refine afterFloor_latch ?_
    show (s.floor.dropEntry d).entry? c ≠ none ∨ (s.floor.latch && !s.floor.isChair d) = false
    by_cases hd : c = d
    · rw [Floor.isChair, hchair, hd]
      simp
    · rw [Floor.entry?_dropEntry, if_neg hd]
      exact hlatch.imp_right fun hoff => by rw [hoff, Bool.false_and]
  · split
    · exact afterFloor_latch hlatch
    · split
      · exact afterFloor_latch hlatch
      · exact hlatch

/-! ### One pod after the other -/

/-- One position of a line that is stopped. -/
def stopPosition (l p : Nat) (s : State) : State :=
  (if (s.position (podOf l p)).state = .online then leaveOnline (podOf l p) .absent .stopped s else s).modPos (podOf l p)
    (fun q => { q with state := .absent, hold := none, wakeTimer := none })

/-- A position of a line that is stopped. -/
def stopped (q : Position) : Position :=
  { q with state := .absent, hold := none, wakeTimer := none, levels := if q.state = .online then none else q.levels }

theorem stopLine_off {l : Nat} {s : State} (h : (s.line l).state = .off) : stopLine l s = s := by
  rw [stopLine, h]

theorem stopLine_testing {l : Nat} {s : State} (h : (s.line l).state = .testing) : stopLine l s = endTest l .stopped s := by
  rw [stopLine, h]

theorem stopLine_used {l : Nat} {s : State} (hoff : (s.line l).state ≠ .off) (htest : (s.line l).state ≠ .testing) :
    stopLine l s = runOver (stopPosition l) positions (s.modLine l Line.off) := by
  unfold stopLine
  cases hstate : (s.line l).state with
  | off => exact absurd hstate hoff
  | testing => exact absurd hstate htest
  | starting => rfl
  | waking => rfl
  | running => rfl
  | sleeping => rfl
  | standby => rfl

theorem stopPosition_changes (l p : Nat) (s : State) : s.changes offlineParts (stopPosition l p s) := by
  unfold stopPosition
  split
  · exact (leaveOnline_changes ..).comp (modPos_changes ..)
  · exact (modPos_changes ..).mono

theorem stopPosition_position {l p : Nat} (hc : podOf l p < 32) (s : State) (d : Nat) :
    (stopPosition l p s).position d = if d = podOf l p then stopped (s.position d) else s.position d := by
  unfold stopPosition stopped
  by_cases honline : (s.position (podOf l p)).state = .online
  · rw [if_pos honline, modPos_position hc, leaveOnline_positions hc, leaveOnline_positions hc, if_pos rfl]
    by_cases hd : d = podOf l p
    · rw [if_pos hd, if_pos hd, hd, honline]
      rfl
    · rw [if_neg hd, if_neg hd, if_neg hd]
  · rw [if_neg honline, modPos_position hc]
    by_cases hd : d = podOf l p
    · rw [if_pos hd, if_pos hd, hd, if_neg honline]
    · rw [if_neg hd, if_neg hd]

theorem stopPosition_hand (l p : Nat) (s : State) (d : Nat) :
    ((stopPosition l p s).chan d).hand
      = ((s.chan d).hand && !(decide (d = podOf l p) && (s.position (podOf l p)).state == .online)) := by
  unfold stopPosition
  rw [State.chan_modPos]
  split
  · next honline => rw [leaveOnline_hand, honline, beq_self_eq_true, Bool.and_true]
  · next hnot => rw [beq_eq_false_iff_ne.2 hnot, Bool.and_false, Bool.not_false, Bool.and_true]

theorem stopPosition_line (l p : Nat) (hp : p < 8) (s : State) (hempty : (s.line l).table = []) (k : Nat) :
    (stopPosition l p s).line k = s.line k := by
  unfold stopPosition
  rw [State.line_modPos]
  split
  · rw [leaveOnline_line, departing, lineOf_podOf hp, State.line_modLine]
    split
    · next hk =>
      rw [hk.1, State.line_modPos, hempty]
      show ({ s.line l with table := [] } : Line) = s.line l
      rw [← hempty]
    · rfl
  · rfl

theorem leaveOnline_offLists {c d : Nat} (hd : d ≠ c) (st : PosState) (cause : LostCause) (s : State) :
    offLists d (leaveOnline c st cause s).floor ↔ offLists d s.floor := by
  rw [leaveOnline_eq, floor_of_changes (lowerHand_changes ..)]
  exact removeFromFloor_offLists hd .left _

theorem stopPosition_offLists {l p d : Nat} (hd : d ≠ podOf l p) (s : State) :
    offLists d (stopPosition l p s).floor ↔ offLists d s.floor := by
  unfold stopPosition
  split
  · exact leaveOnline_offLists hd ..
  · exact Iff.rfl

theorem stopPosition_latch {l p c : Nat} {s : State} (h : latchClears c s.floor) :
    latchClears c (stopPosition l p s).floor := by
  unfold stopPosition
  split
  · show latchClears c (leaveOnline (podOf l p) .absent .stopped s).floor
    rw [leaveOnline_eq, floor_of_changes (lowerHand_changes ..)]
    exact removeFromFloor_latch .left h
  · exact h

theorem stopPositions_latch {l c : Nat} (ns : List Nat) {s : State} (h : latchClears c s.floor) :
    latchClears c (runOver (stopPosition l) ns s).floor :=
  runOver_keep (P := fun t => latchClears c t.floor) (fun _ _ ht => stopPosition_latch ht) ns s h

/-! ### What the run says (R135) -/

/-- What a departure says turns on the pod's own hand and claims, and on whether it stands on the floor. -/
theorem departs_congr {c : Nat} {lost : NoticeBody} {bs : List NoticeBody} {s t : State}
    (hoff : offLists c t.floor ↔ offLists c s.floor) (hhand : (t.chan c).hand = (s.chan c).hand)
    (hclaims : t.claims c = s.claims c) (h : t.departs c lost bs) : s.departs c lost bs := by
  obtain ⟨off, ⟨own, served, hown, hwhich, hserved⟩, hbs⟩ := h
  rw [hhand, hclaims] at hbs
  unfold offLists at hoff
  refine ⟨off, ⟨own, served, hown, ?_, hserved⟩, hbs⟩
  by_cases hlists : s.floor.entry? c = none ∧ s.floor.waiting? c = none
  · rw [if_pos (hoff.2 hlists)] at hwhich
    rw [if_pos hlists]
    exact hwhich
  · rw [if_neg (mt hoff.1 hlists)] at hwhich
    rw [if_neg hlists]
    exact hwhich

/-- POD_LOST of a pod whose line is stopped. -/
def stopLost (l p : Nat) (q : Position) : NoticeBody := .podLost l p .stopped q.checkFails q.missed q.rejoins

theorem says_stopPosition {l p : Nat} (hl : l < 4) (hp : p < 8) {s : State} (h : s.floorLawful) :
    ∃ bs, Says s (stopPosition l p s) (if (s.position (podOf l p)).state == .online then bs else [])
      ∧ ((s.position (podOf l p)).state = .online → s.departs (podOf l p) (stopLost l p (s.position (podOf l p))) bs) := by
  unfold stopPosition
  by_cases honline : (s.position (podOf l p)).state = .online
  · obtain ⟨bs, hsays, hdeparts⟩ := says_leaveOnline (st := .absent) (cause := .stopped) h (podOf_lt hl hp)
    rw [lineOf_podOf hp, posOf_podOf hp] at hdeparts
    refine ⟨bs, ?_, fun _ => hdeparts⟩
    rw [if_pos honline, honline]
    exact hsays.then_ (says_modPos ..)
  · refine ⟨[], ?_, fun h => absurd h honline⟩
    rw [if_neg honline, ite_self]
    exact says_modPos ..

theorem floorLawful_stopPosition {l p : Nat} {s : State} (h : s.floorLawful) : (stopPosition l p s).floorLawful :=
  floorLawful_departAndRest h (by decide)

theorem flatMap_update {α : Type} {parts : Nat → List α} {bs : List α} {p : Nat} {qs : List Nat} (h : p ∉ qs) :
    qs.flatMap (Function.update parts p bs) = qs.flatMap parts := by
  rw [List.flatMap_def, List.flatMap_def]
  refine congrArg List.flatten (List.map_congr_left fun q hq => Function.update_of_ne (fun heq => h ?_) ..)
  rwa [heq] at hq

/-- The pods of a line leave in increasing position, each with its own notices. -/
theorem says_stopPositions {l : Nat} (hl : l < 4) : ∀ (ns : List Nat) (s : State), s.floorLawful → ns.Nodup →
    (∀ p ∈ ns, p < 8) → ∃ parts : Nat → List NoticeBody,
      Says s (runOver (stopPosition l) ns s)
          ((ns.filter (fun p => (s.position (podOf l p)).state == .online)).flatMap parts)
        ∧ ∀ p ∈ ns, (s.position (podOf l p)).state = .online →
          s.departs (podOf l p) (stopLost l p (s.position (podOf l p))) (parts p)
  | [], s, _, _, _ => ⟨fun _ => [], .refl s, by simp⟩
  | p :: ns, s, h, hnodup, hns => by
    rw [List.nodup_cons] at hnodup
    have hp : p < 8 := hns p List.mem_cons_self
    obtain ⟨bs, hsays, hdeparts⟩ := says_stopPosition hl hp h
    obtain ⟨parts, hrest, hparts⟩ := says_stopPositions hl ns (stopPosition l p s) (floorLawful_stopPosition h) hnodup.2
      (fun q hq => hns q (List.mem_cons_of_mem _ hq))
    have hother (q : Nat) (hq : q ∈ ns) : podOf l q ≠ podOf l p := by
      have hne : q ≠ p := fun heq => hnodup.1 (heq ▸ hq)
      simp only [podOf]
      omega
    have hposition (q : Nat) (hq : q ∈ ns) : (stopPosition l p s).position (podOf l q) = s.position (podOf l q) :=
      (stopPosition_position (podOf_lt hl hp) s _).trans (if_neg (hother q hq))
    have hfilter : ns.filter (fun q => ((stopPosition l p s).position (podOf l q)).state == .online)
        = ns.filter (fun q => (s.position (podOf l q)).state == .online) :=
      List.filter_congr fun q hq => by rw [hposition q hq]
    rw [hfilter] at hrest
    refine ⟨Function.update parts p bs, ?_, fun q hq honline => ?_⟩
    · have htail := flatMap_update (bs := bs) (parts := parts) (p := p)
        (qs := ns.filter (fun q => (s.position (podOf l q)).state == .online))
        (fun hin => hnodup.1 (List.mem_filter.1 hin).1)
      rw [List.filter_cons]
      split
      · next honline =>
        rw [List.flatMap_cons, Function.update_self, htail]
        rw [honline, if_pos rfl] at hsays
        exact hsays.trans hrest
      · next hnot =>
        rw [htail]
        rw [if_neg hnot] at hsays
        exact hsays.after hrest
    · rcases List.mem_cons.1 hq with rfl | hin
      · rw [Function.update_self]
        exact hdeparts honline
      · have hne : q ≠ p := fun heq => hnodup.1 (heq ▸ hin)
        have hclaims := claims_of_changes (stopPosition_changes l p s) (podOf l q)
        have hhand := stopPosition_hand l p s (podOf l q)
        rw [decide_eq_false (hother q hin), Bool.false_and, Bool.not_false, Bool.and_true] at hhand
        have hdeparts' := hparts q hin (by rw [hposition q hin]; exact honline)
        rw [hposition q hin] at hdeparts'
        rw [Function.update_of_ne hne]
        exact departs_congr (stopPosition_offLists (hother q hin) s) hhand hclaims hdeparts'

/-! ### The line stopped (R145, R146) -/

theorem stopPosition_reads {l p : Nat} (hc : podOf l p < 32) (s : State) (d : Nat) :
    ((stopPosition l p s).position d, ((stopPosition l p s).chan d).hand)
      = if d = podOf l p then (stopped (s.position d), (s.chan d).hand && (s.position d).state != .online)
        else (s.position d, (s.chan d).hand) := by
  rw [stopPosition_position hc, stopPosition_hand]
  by_cases hd : d = podOf l p
  · rw [if_pos hd, if_pos hd, decide_eq_true hd, Bool.true_and, hd]
    rfl
  · rw [if_neg hd, if_neg hd, decide_eq_false hd, Bool.false_and, Bool.not_false, Bool.and_true]

theorem mem_podOf (l d : Nat) : d ∈ positions.map (podOf l) ↔ d / 8 = l := by
  have hmem := podOf_mem (l := l) (k := d / 8) (p := d % 8) (Nat.mod_lt _ (by decide))
  rwa [show podOf (d / 8) (d % 8) = d by simp only [podOf]; omega] at hmem

/-- The stopped line, its pods and their hands; no other line, position or hand moves. -/
theorem stopLine_rows {l : Nat} (hl : l < 4) {s : State} (hoff : (s.line l).state ≠ .off)
    (htest : (s.line l).state ≠ .testing) :
    (∀ k, (stopLine l s).line k = if k = l then (s.line l).off else s.line k)
      ∧ (∀ c, (stopLine l s).position c = if c / 8 = l then stopped (s.position c) else s.position c)
      ∧ ∀ c, ((stopLine l s).chan c).hand
          = if c / 8 = l then (s.chan c).hand && (s.position c).state != .online else (s.chan c).hand := by
  have hreads (d : Nat) := runOver_reads (rd := fun t d => (t.position d, (t.chan d).hand)) (key := podOf l)
    (f := stopPosition l) (g := fun x => (stopped x.1, x.2 && x.1.state != .online)) positions (podOf_nodup l)
    (fun q hq t => (stopPosition_reads (podOf_lt hl (List.mem_range.1 hq)) t _).trans (if_pos rfl))
    (fun q hq t d hd => (stopPosition_reads (podOf_lt hl (List.mem_range.1 hq)) t d).trans (if_neg hd))
    (s.modLine l Line.off) d
  have hlines := runOver_keep_mem (P := fun t => ∀ k, t.line k = (s.modLine l Line.off).line k) (f := stopPosition l)
    positions (s.modLine l Line.off) (fun p hp t ht k => by
      have hempty : (t.line l).table = [] := by
        rw [ht, modLine_line hl, if_pos rfl]
        rfl
      rw [stopPosition_line l p (List.mem_range.1 hp) t hempty, ht]) (fun _ => rfl)
  rw [stopLine_used hoff htest]
  generalize runOver (stopPosition l) positions (s.modLine l Line.off) = u at hreads hlines ⊢
  refine ⟨fun k => (hlines k).trans (modLine_line hl _ s k), fun c => ?_, fun c => ?_⟩
  · have hread := congrArg Prod.fst (hreads c)
    simp only [mem_podOf] at hread
    rw [show u.position c = _ from hread]
    split <;> rfl
  · have hread := congrArg Prod.snd (hreads c)
    simp only [mem_podOf] at hread
    rw [show (u.chan c).hand = _ from hread]
    split <;> rfl

theorem stopLine_line {l : Nat} (hl : l < 4) (s : State) (k : Nat) :
    (stopLine l s).line k = if k = l ∧ (s.line l).state ≠ .off then (s.line l).off else s.line k := by
  by_cases hoff : (s.line l).state = .off
  · rw [stopLine_off hoff, if_neg fun h => h.2 hoff]
  · simp only [ne_eq, hoff, not_false_eq_true, and_true]
    by_cases htest : (s.line l).state = .testing
    · rw [stopLine_testing htest, endTest_line hl]
    · exact (stopLine_rows hl hoff htest).1 k

theorem stopLine_position {l : Nat} (hl : l < 4) (s : State) {c : Nat} (hc : c / 8 ≠ l) :
    (stopLine l s).position c = s.position c := by
  by_cases hoff : (s.line l).state = .off
  · rw [stopLine_off hoff]
  · by_cases htest : (s.line l).state = .testing
    · rw [stopLine_testing htest]
      rfl
    · obtain ⟨-, hposition, -⟩ := stopLine_rows hl hoff htest
      rw [hposition, if_neg hc]

/-- A pod of a line that has been stopped is not present. -/
theorem stopLine_gone {l p : Nat} (hl : l < 4) (hp : p < 8) {s : State} (hoff : (s.line l).state ≠ .off)
    (htest : (s.line l).state ≠ .testing) : (stopLine l s).present (podOf l p) = false := by
  obtain ⟨-, hposition, -⟩ := stopLine_rows hl hoff htest
  rw [State.present, if_pos (podOf_lt hl hp), hposition, if_pos (lineOf_podOf hp)]
  rfl

/-- The latch of a chair that was a member clears. -/
theorem stopLine_latch {l p : Nat} (hl : l < 4) (hp : p < 8) {s : State} (h : s.floorLawful)
    (hoff : (s.line l).state ≠ .off) (htest : (s.line l).state ≠ .testing)
    (hmember : s.floor.entry? (podOf l p) ≠ none) (hchair : s.floor.chair = some (podOf l p)) :
    (stopLine l s).floor.latch = false := by
  have hclears : latchClears (podOf l p) (stopLine l s).floor := by
    rw [stopLine_used hoff htest]
    have hstart : latchClears (podOf l p) (s.modLine l Line.off).floor := ⟨hchair, .inl hmember⟩
    exact stopPositions_latch positions hstart
  obtain ⟨hentry, -⟩ := absent_off (floorLawful_stopLine h) (podOf_lt hl hp) (stopLine_gone hl hp hoff htest)
  exact hclears.2.resolve_left (not_not_intro hentry)

theorem says_stopLine {l : Nat} (hl : l < 4) {s : State} (h : s.floorLawful) (hoff : (s.line l).state ≠ .off)
    (htest : (s.line l).state ≠ .testing) : ∃ parts : Nat → List NoticeBody,
      Says s (stopLine l s) (((List.range 8).filter (fun p => s.present (podOf l p))).flatMap parts)
        ∧ ∀ p, p < 8 → s.present (podOf l p) = true →
          s.departs (podOf l p) (stopLost l p (s.position (podOf l p))) (parts p) := by
  have hpresent (p : Nat) (hp : p < 8) : s.present (podOf l p) = ((s.position (podOf l p)).state == .online) := by
    rw [State.present, if_pos (podOf_lt hl hp)]
  obtain ⟨parts, hsays, hparts⟩ := says_stopPositions hl positions (s.modLine l Line.off) (floorLawful_modLine h)
    List.nodup_range (fun p hp => List.mem_range.1 hp)
  refine ⟨parts, ?_, fun p hp honline => hparts p (List.mem_range.2 hp) ?_⟩
  · have hfilter : (List.range 8).filter (fun p => s.present (podOf l p))
        = positions.filter (fun p => ((s.modLine l Line.off).position (podOf l p)).state == .online) :=
      List.filter_congr fun p hp => hpresent p (List.mem_range.1 hp)
    rw [hfilter, stopLine_used hoff htest]
    exact (says_modLine l Line.off s).after hsays
  · rw [hpresent p hp] at honline
    exact eq_of_beq honline

/-- Settles O41. -/
theorem lineStopTakesTheLineOff : Obligations.LineStopTakesTheLineOff := by
  intro tag l s hreset hl t
  have hok : exec (.lineStop .room tag l) s = .next (okReply .room tag 35 [] (refreshRings (stopLine l t))) :=
    takeRequest_ok hreset (by simp [firstFail, roomOnly, hl])
  have hrings := refreshRings_changes (stopLine l t)
  have hlines (k : Nat) := line_of_changes hrings k
  have hstop (k : Nat) := stopLine_line hl t k
  refine ⟨_, hok, ?_, fun hoff => ?_, fun htest => ?_, fun hused => ?_, fun hoff htest => ?_, fun hoff htest hlaw => ?_,
    fun c hc => ?_, fun k hk => ?_, (stopLine_changes l t).comp (rs := .lines :: offlineParts) hrings⟩
  · rw [hlines, hstop]
    by_cases hoff : (t.line l).state = .off
    · rw [if_neg fun h => h.2 hoff]
      exact hoff
    · rw [if_pos ⟨rfl, hoff⟩]
      rfl
  · rw [stopLine_off hoff]
    exact ⟨(refreshRings_changes t).1, (says_refreshRings t).1, refreshRings_of_match⟩
  · rw [stopLine_testing htest]
    exact ((says_endTest l .stopped t).then_ (says_refreshRings _)).1
  · rw [hlines, hstop, if_pos ⟨rfl, hused⟩]
    exact ⟨rfl, rfl⟩
  · obtain ⟨-, hposition, -⟩ := stopLine_rows hl hoff htest
    rw [refreshRings_line fun p hp => stopLine_gone hl hp hoff htest, hstop, if_pos ⟨rfl, hoff⟩]
    refine ⟨rfl, fun p hp => ?_⟩
    rw [refreshRings_position, show 8 * l + p = podOf l p from rfl, hposition, if_pos (lineOf_podOf hp)]
    exact ⟨rfl, rfl, rfl, rfl, rfl, rfl, rfl⟩
  · intro online
    obtain ⟨-, hposition, hhand⟩ := stopLine_rows hl hoff htest
    have honline (p : Nat) (hp : p < 8) (h : online p = true) : (t.position (podOf l p)).state = .online := by
      have hpresent : t.present (podOf l p) = true := h
      rw [State.present, if_pos (podOf_lt hl hp)] at hpresent
      exact eq_of_beq hpresent
    refine ⟨fun p hp hthere => ?_, fun d hd => ?_, ?_⟩
    · intro c
      obtain ⟨hentry, hwaiting, hleaving, hattack⟩ := absent_off (floorLawful_stopLine hlaw) (podOf_lt hl hp)
        (stopLine_gone hl hp hoff htest)
      rw [refreshRings_floor, refreshRings_chan, refreshRings_position]
      refine ⟨hentry, hwaiting, hleaving, hattack, ?_, ?_, fun hmember hchair => ?_⟩
      · rw [hhand, if_pos (lineOf_podOf hp), honline p hp hthere]
        exact Bool.and_false _
      · rw [hposition, if_pos (lineOf_podOf hp)]
        exact if_pos (honline p hp hthere)
      · exact stopLine_latch hl hp hlaw hoff htest hmember hchair
    · rw [refreshRings_chan, hhand]
      split
      · next hline =>
        have hpod : d = 8 * l + d % 8 := by omega
        have hno : t.present d = false := by
          have hmod := hd (d % 8) (Nat.mod_lt _ (by decide)) hpod
          rwa [show online (d % 8) = t.present (8 * l + d % 8) from rfl, ← hpod] at hmod
        rw [State.present, if_pos (by omega)] at hno
        rw [bne, hno]
        exact Bool.and_true _
      · rfl
    · obtain ⟨parts, hsays, hparts⟩ := says_stopLine hl hlaw hoff htest
      exact ⟨parts, (hsays.then_ (says_refreshRings _)).1, hparts⟩
  · rw [refreshRings_position, stopLine_position hl t hc]
  · rw [hlines, hstop, if_neg fun h => hk h.1]
    exact ⟨rfl, rfl⟩

end Sys2Proof.Proofs
end

