-- ==== Sys2Proof/Proofs/BoundaryChannels.lean ====
section
/-! PROOFS. Obligation O32: what a block boundary does to every channel, read from the state after the steps of the
units, which the gates and the frames leave alone in every field but the attack count. -/

set_option Elab.async false

namespace Sys2Proof.Proofs

open Sys2Proof Sys2Proof.Machine

/-! ### The whole boundary -/

theorem exec_blockBoundary (inp : BoundaryIn) {s : State} (hreset : s.sys.inReset = none) :
    exec (.blockBoundary inp) s = .next (closeFrames (boundary inp (settle s))) :=
  if_neg (by rw [hreset]; exact Bool.false_ne_true)

/-- After the steps of the units a boundary changes attack counts, lists, due events and lines alone. -/
theorem boundary_changes (inp : BoundaryIn) (t : State) :
    (unitsStepped inp t).changes [.attack, .floor, .due, .tables, .lines] (closeFrames (boundary inp t)) :=
  ((stepGates_changes (unitsStepped inp t)).comp (rs := [.attack, .floor, .due]) (setDue_changes _ _)).comp
    (closeFrames_changes _)

theorem boundary_sys (inp : BoundaryIn) (t : State) :
    (closeFrames (boundary inp t)).sys = { t.sys with blocks := t.sys.blocks + 1, free := t.sys.free + 1 } :=
  sys_of_changes (boundary_changes inp t)

/-! ### Fields of a channel -/

/-- The fields of a channel that the units write; the others stay. -/
theorem unitsStepped_writes (inp : BoundaryIn) (t : State) (c : Nat) :
    ∃ ramp atten maskZone peak noise rise openThr closeThr talkCount, (unitsStepped inp t).chan c = { t.chan c with
      ramp := ramp, atten := atten, maskZone := maskZone, peak := peak, noise := noise, rise := rise
      openThr := openThr, closeThr := closeThr, talkCount := talkCount } := by
  by_cases hc : c < 42
  · rw [unitsStepped_chan_eq inp t hc, measuredChans_get inp t hc, measure_eq]
    exact ⟨_, _, _, _, _, _, _, _, _, rfl⟩
  · rw [State.chan, Tab.get_of_ge _ (by omega), State.chan, Tab.get_of_ge _ (by omega)]
    exact ⟨_, _, _, _, _, _, _, _, _, rfl⟩

/-- The parts that no unit touches. -/
theorem unitsStepped_same (inp : BoundaryIn) (t : State) :
    ∀ p ∈ [Part.setup, .claims, .hands, .mode, .cfg, .chair, .latch, .gains, .privacy, .rings, .slots, .load, .marks],
      p.same t (unitsStepped inp t) := by
  simp only [List.forall_mem_cons]
  refine ⟨fun c => ?setup, fun c => ?claims, fun c => ?hands, rfl, rfl, rfl, rfl, ⟨rfl, rfl⟩, rfl, fun c => ?rings, rfl, rfl,
    ⟨rfl, fun c => ?marks⟩, fun _ hp => (List.not_mem_nil hp).elim⟩
  all_goals obtain ⟨_, _, _, _, _, _, _, _, _, h⟩ := unitsStepped_writes inp t c
  case setup => simp [h]
  case claims => simp [h]
  case hands => simp [h]
  case rings => simp [h]
  case marks => simp [h]

/-- The parts that a boundary leaves as they are. -/
theorem boundary_keeps (inp : BoundaryIn) (t : State) :
    ∀ p ∈ [Part.setup, .claims, .hands, .mode, .cfg, .chair, .latch, .gains, .privacy, .rings, .slots, .load, .marks],
      p.same t (closeFrames (boundary inp t)) := fun p hp =>
  p.same_trans (unitsStepped_same inp t p hp)
    ((boundary_changes inp t).1 p (by revert p; decide))

/-! ### What the units write -/

/-- The measures of a channel after a boundary are those taken from its input. -/
theorem boundary_measured (inp : BoundaryIn) (t : State) {c : Nat} (hc : c < 42) :
    let u := closeFrames (boundary inp t)
    let k := (t.mixStep c (t.chan c)).measure t.floor.cfg (decide (c < 32)) (t.present c) (t.inputOf inp c)
    (u.chan c).peak = k.peak ∧ (u.chan c).noise = k.noise ∧ (u.chan c).rise = k.rise
      ∧ (u.chan c).openThr = k.openThr ∧ (u.chan c).closeThr = k.closeThr := by
  intro u k
  obtain ⟨hpeak, hnoise, hrise, hopen, hclose⟩ := (boundary_changes inp t).1 .measures (by decide) c
  rw [unitsStepped_chan_eq inp t hc, measuredChans_get inp t hc] at hpeak hnoise hrise hopen hclose
  exact ⟨hpeak, hnoise, hrise, hopen, hclose⟩

theorem boundary_peak (inp : BoundaryIn) (t : State) {c : Nat} (hc : c < 42) :
    ((closeFrames (boundary inp t)).chan c).peak = peakOf (t.inputOf inp c) := by
  rw [(boundary_measured inp t hc).1, measure_eq]

/-- What the Mix Engine applies from a boundary on. -/
theorem boundary_applied (inp : BoundaryIn) (t : State) {c : Nat} (hc : c < 42) :
    let u := closeFrames (boundary inp t)
    (u.chan c).ramp = (t.mixStep c (t.chan c)).ramp ∧ (u.chan c).atten = t.floor.attenHalf c
      ∧ (u.chan c).maskZone = (t.chan c).zone := by
  intro u
  have hramp := (boundary_changes inp t).1 .ramps (by decide) c
  obtain ⟨hatten, hzone⟩ := (boundary_changes inp t).1 .applied (by decide) c
  rw [unitsStepped_chan_eq inp t hc, measuredChans_get inp t hc, measure_eq] at hramp hatten hzone
  exact ⟨hramp, hatten, hzone⟩

theorem mixStep_ramp (t : State) (c : Nat) (k : Channel) :
    (t.mixStep c k).ramp = if t.sys.power = .standby then k.ramp
      else if t.target c then (if k.ramp < t.floor.cfg.ramp then k.ramp + 1 else k.ramp) else k.ramp - 1 := by
  unfold State.mixStep stepRamp
  cases t.sys.power <;> rfl

/-- A channel that is not present hears nothing. -/
theorem peakOf_absent (inp : BoundaryIn) (t : State) {c : Nat} (hp : t.present c = false) :
    peakOf (t.inputOf inp c) = -96 := by
  rw [State.inputOf, if_neg (by rw [hp]; exact Bool.false_ne_true)]
  decide

/-! ### The noise floor of a pod (R7, R51) -/

theorem track_quieter {k : Channel} {peak : Int} (h : peak < k.noise) : k.track peak = { k with noise := peak, rise := 0 } :=
  if_pos h

theorem track_equal {k : Channel} {peak : Int} (h : peak = k.noise) : k.track peak = k := by
  unfold Channel.track
  rw [if_neg (by omega), if_neg (by omega)]

theorem track_louder {k : Channel} {peak : Int} (h : k.noise < peak) (hcap : k.noise < -20) :
    k.track peak = { k with rise := k.rise + 1 } := by
  unfold Channel.track
  rw [if_neg (by omega), if_pos ⟨h, hcap⟩]

theorem track_capped {k : Channel} {peak : Int} (h : k.noise < peak) (hcap : -20 ≤ k.noise) : k.track peak = k := by
  unfold Channel.track
  rw [if_neg (by omega), if_neg (by omega)]

/-- A pod's measures: its noise floor follows the block peak where the pod is present, and the thresholds follow. -/
theorem measure_pod (k : Channel) (g : FloorCfg) (present : Bool) (x : List Int) :
    k.measure g true present x
      = (if present then { k with peak := peakOf x }.track (peakOf x) else { k with peak := peakOf x }).withThresholds g :=
  rfl

/-- The channel with its block peak taken, before its noise floor follows. -/
def heard (t : State) (c : Nat) (peak : Int) : Channel := { t.mixStep c (t.chan c) with peak := peak }

/-- The noise floor and the thresholds of a pod after a boundary. -/
theorem boundary_noise (inp : BoundaryIn) (t : State) {c : Nat} (hc : c < 32) :
    let u := closeFrames (boundary inp t)
    let k := heard t c (u.chan c).peak
    let moved := if t.present c then k.track (u.chan c).peak else k
    (u.chan c).noise = moved.noise ∧ (u.chan c).rise = moved.rise
      ∧ (u.chan c).openThr = max (moved.floorNow + t.floor.cfg.openMargin) (-60)
      ∧ (u.chan c).closeThr = (u.chan c).openThr - t.floor.cfg.closeMargin := by
  intro u k moved
  obtain ⟨-, hnoise, hrise, hopen, hclose⟩ := boundary_measured inp t (show c < 42 by omega)
  rw [decide_eq_true hc, measure_pod, ← boundary_peak inp t (by omega)] at hnoise hrise hopen hclose
  refine ⟨hnoise, hrise, hopen, hclose.trans ?_⟩
  rw [hopen]
  rfl

/-- Settles O32. -/
theorem boundaryStepsChannels : Obligations.BoundaryStepsChannels := by
  intro inp s hreset t
  have hexec : exec (.blockBoundary inp) s = .next (closeFrames (boundary inp t)) := exec_blockBoundary inp hreset
  clear_value t
  refine ⟨_, hexec, boundary_sys inp t, fun c hc => ?_, fun c hc => ⟨fun habsent => ?_,
    fun hpresent => ?_, ?_⟩, boundary_keeps inp t⟩
  · obtain ⟨hramp, hatten, hzone⟩ := boundary_applied inp t hc
    exact ⟨hramp.trans (mixStep_ramp ..), hatten, hzone,
      fun habsent => (boundary_peak inp t hc).trans (peakOf_absent inp t habsent)⟩
  · obtain ⟨hnoise, hrise, -, -⟩ := boundary_noise inp t hc
    rw [habsent] at hnoise hrise
    exact ⟨hnoise, hrise⟩
  · obtain ⟨hnoise, hrise, -, -⟩ := boundary_noise inp t hc
    rw [hpresent, if_pos rfl] at hnoise hrise
    generalize (closeFrames (boundary inp t)).chan c = k at hnoise hrise ⊢
    refine ⟨fun hquieter => ?_, fun hequal => ?_, fun hlouder hlow => ?_, fun hlouder hhigh => ?_⟩
    · rw [track_quieter (k := heard t c k.peak) hquieter] at hnoise hrise
      exact ⟨hnoise, hrise⟩
    · rw [track_equal (k := heard t c k.peak) hequal] at hnoise hrise
      exact ⟨hnoise, hrise⟩
    · rw [track_louder (k := heard t c k.peak) hlouder hlow] at hnoise hrise
      exact ⟨hnoise, hrise⟩
    · rw [track_capped (k := heard t c k.peak) hlouder hhigh] at hnoise hrise
      exact ⟨hnoise, hrise⟩
  · obtain ⟨hnoise, hrise, hopen, hclose⟩ := boundary_noise inp t hc
    refine ⟨hopen.trans ?_, hclose⟩
    rw [hnoise, hrise]
    rfl

end Sys2Proof.Proofs
end

