-- ==== Sys2Proof/Proofs/BoundaryFloor.lean ====
section
/-! PROOFS. Obligation O33: the floor at a block boundary. The gates step pod by pod; each step reads its own channel and
entry and the frame of the floor, which no step moves. -/

set_option Elab.async false

namespace Sys2Proof.Proofs

open Sys2Proof Sys2Proof.Machine

/-! ### Runs whose steps keep a frame -/

/-- A run over distinct items whose steps keep a frame: each step, from an item that still reads as at the start, brings
the reading of that item to its target, says its notices and leaves the other readings. -/
theorem runOver_targets {α : Type} {rd : State → Nat → α} {f : Nat → State → State} {P : State → Prop} {start target : Nat → α}
    {what : Nat → List NoticeBody} (ns : List Nat) (hnodup : ns.Nodup)
    (hself : ∀ n ∈ ns, ∀ s, P s → rd s n = start n → P (f n s) ∧ rd (f n s) n = target n ∧ Says s (f n s) (what n))
    (hother : ∀ n ∈ ns, ∀ s i, i ≠ n → rd (f n s) i = rd s i) (s : State) (hs : P s) (hstart : ∀ n ∈ ns, rd s n = start n) :
    P (runOver f ns s) ∧ (∀ i, rd (runOver f ns s) i = if i ∈ ns then target i else rd s i)
      ∧ Says s (runOver f ns s) (ns.flatMap what) := by
  induction ns generalizing s with
  | nil => exact ⟨hs, fun _ => rfl, .refl s⟩
  | cons n ns ih =>
    obtain ⟨hn, hrest⟩ := List.nodup_cons.1 hnodup
    obtain ⟨hP, htarget, hsays⟩ := hself n List.mem_cons_self s hs (hstart n List.mem_cons_self)
    have hmoved (i : Nat) (hi : i ≠ n) := hother n List.mem_cons_self s i hi
    obtain ⟨hPend, hread, hsaysEnd⟩ := ih hrest (fun m hm => hself m (List.mem_cons_of_mem _ hm))
      (fun m hm => hother m (List.mem_cons_of_mem _ hm)) (f n s) hP
      (fun m hm => (hmoved m (fun heq => hn (heq ▸ hm))).trans (hstart m (List.mem_cons_of_mem _ hm)))
    refine ⟨hPend, fun i => (hread i).trans ?_, hsays.trans hsaysEnd⟩
    by_cases hi : i = n
    · rw [hi, if_neg hn, if_pos List.mem_cons_self, htarget]
    · rw [hmoved i hi]
      simp [hi]

/-! ### What a gate reads -/

/-- A state with the floor of another but for the entries' gates and holds, and with its positions. -/
def SameFrame (v s : State) : Prop :=
  s.floor = { v.floor with list := s.floor.list } ∧ s.pos = v.pos
    ∧ s.floor.list.map (fun e => (e.ch, e.stamp)) = v.floor.list.map (fun e => (e.ch, e.stamp))
    ∧ s.floor.openCount = v.floor.openCount

/-- What a gate reads of its own channel. -/
def gateReading (s : State) (c : Nat) : Channel × Option FloorEntry := (s.chan c, s.floor.entry? c)

/-- The entry of a channel after its gate's step. -/
def entryStepped (v : State) (c : Nat) : Option FloorEntry :=
  (v.floor.entry? c).map (fun e => e.gateStep v.floor (v.chan c))

/-- The reading after a gate's step. -/
def gateTarget (v : State) (c : Nat) : Channel × Option FloorEntry :=
  ({ v.chan c with attack := v.attackStep c }, entryStepped v c)

/-- The notice of a gate's step. -/
def gateSays (v : State) (c : Nat) : List NoticeBody :=
  match v.floor.entry? c with
  | some e =>
    if (e.gateStep v.floor (v.chan c)).st.gate = e.st.gate then []
    else [.floorChange c e.st.gate (e.gateStep v.floor (v.chan c)).st.gate .level v.floor.list.length v.floor.wait.length
      v.floor.leaving.length v.floor.openCount]
  | none => []

theorem length_of_chs {l m : List FloorEntry}
    (h : l.map (fun e => (e.ch, e.stamp)) = m.map (fun e => (e.ch, e.stamp))) : l.length = m.length := by
  simpa using congrArg List.length h

/-- An entry's step reads the settings, the latch and the number of entries of the floor, and the measures of the
channel. -/
theorem gateStep_congr (e : FloorEntry) {f g : Floor} {k j : Channel} (hcfg : f.cfg = g.cfg)
    (hlatch : f.latch = g.latch) (hchair : f.chair = g.chair) (hlen : f.list.length = g.list.length)
    (hpeak : k.peak = j.peak) (hopen : k.openThr = j.openThr) (hclose : k.closeThr = j.closeThr) :
    e.gateStep f k = e.gateStep g j := by
  unfold FloorEntry.gateStep Floor.latched Floor.isChair
  rw [hcfg, hlatch, hchair, hlen, hpeak, hopen, hclose]

/-- A gate is what the lists and the attack count make it. -/
theorem gate_congr {s v : State} {c : Nat} (hentry : s.floor.entry? c = v.floor.entry? c)
    (hwait : s.floor.wait = v.floor.wait) (hattack : (s.chan c).attack = (v.chan c).attack) : s.gate c = v.gate c := by
  unfold State.gate Floor.waiting?
  rw [hentry, hwait, hattack]

theorem present_congr {s v : State} {c : Nat} (hc : c < 32) (hpos : s.pos = v.pos) : s.present c = v.present c := by
  rw [State.present, if_pos hc, State.present, if_pos hc, State.position, hpos, State.position]

theorem attackStep_congr {s v : State} {c : Nat} (hc : c < 32) (hframe : SameFrame v s)
    (hread : gateReading s c = gateReading v c) : s.attackStep c = v.attackStep c := by
  obtain ⟨hfloor, hpos, -, -⟩ := hframe
  obtain ⟨hchan, hentry⟩ := Prod.mk.inj hread
  have hgate : s.gate c = v.gate c := gate_congr hentry (by rw [hfloor]) (by rw [hchan])
  unfold State.attackStep State.qualifies State.muted State.claims
  rw [hgate, hchan, present_congr hc hpos]

/-! ### One gate's step -/

/-- The state after a gate's step, before its notice. -/
def gateMoved (c : Nat) (s : State) : State :=
  (s.modChan c (fun k => { k with attack := s.attackStep c })).modFloor (fun f => f.modEntry c (fun e =>
    e.gateStep f ((s.modChan c (fun k => { k with attack := s.attackStep c })).chan c)))

/-- The gate of a channel with its attack count stepped. -/
def gateBefore (c : Nat) (s : State) : Gate := (s.modChan c (fun k => { k with attack := s.attackStep c })).gate c

theorem gateStep_eq (c : Nat) (s : State) : gateStep c s = if (gateMoved c s).gate c = gateBefore c s then gateMoved c s
    else floorChange c (gateBefore c s) ((gateMoved c s).gate c) .level (gateMoved c s) := rfl

theorem gateStep_floor (c : Nat) (s : State) : (gateStep c s).floor = (gateMoved c s).floor := by
  rw [gateStep_eq]
  split <;> rfl

theorem gateStep_chan (c d : Nat) (s : State) : (gateStep c s).chan d = (gateMoved c s).chan d := by
  rw [gateStep_eq]
  split <;> rfl

theorem gateStep_pos (c : Nat) (s : State) : (gateStep c s).pos = s.pos := by
  rw [gateStep_eq]
  split <;> rfl

theorem gateMoved_chan (c d : Nat) (s : State) :
    (gateMoved c s).chan d = if d = c ∧ c < 42 then { s.chan c with attack := s.attackStep c } else s.chan d :=
  State.chan_modChan ..

theorem gateMoved_floor {c : Nat} (hc : c < 42) (s : State) :
    (gateMoved c s).floor = s.floor.modEntry c (fun e => e.gateStep s.floor (s.chan c)) := by
  refine congrArg (s.floor.modEntry c) (funext fun e => ?_)
  rw [State.chan_modChan_self s _ hc]
  exact gateStep_congr e rfl rfl rfl rfl rfl rfl rfl

theorem gateMoved_entry? {c : Nat} (hc : c < 42) (d : Nat) (s : State) : (gateMoved c s).floor.entry? d
    = if d = c then (s.floor.entry? d).map (fun e => e.gateStep s.floor (s.chan c)) else s.floor.entry? d := by
  rw [gateMoved_floor hc, Floor.entry?_modEntry _ _ _ (fun e => (gateStep_st e _ _).1)]

/-- A gate's step moves the reading of its own channel alone. -/
theorem gateStep_other {c d : Nat} (hc : c < 42) (hd : d ≠ c) (s : State) :
    gateReading (gateStep c s) d = gateReading s d := by
  rw [gateReading, gateStep_chan, gateStep_floor, gateMoved_chan, gateMoved_entry? hc, if_neg (fun h => hd h.1), if_neg hd,
    gateReading]

theorem gateStep_stamp (e : FloorEntry) (f : Floor) (k : Channel) : (e.gateStep f k).stamp = e.stamp := by
  unfold FloorEntry.gateStep
  split
  · rfl
  · split <;> rfl
  · split
    · rfl
    · split
      · rfl
      · split <;> rfl

/-- No step of a gate gains or loses a member, or opens one that is PENDING. -/
theorem sameFrame_gateStep {v s : State} {c : Nat} (hc : c < 42) (h : SameFrame v s) : SameFrame v (gateStep c s) := by
  obtain ⟨hfloor, hpos, hchs, hcount⟩ := h
  rw [SameFrame, gateStep_floor, gateStep_pos, gateMoved_floor hc]
  refine ⟨?_, hpos, ?_, ?_⟩
  · rw [Floor.modEntry, hfloor]
  · rw [← hchs, Floor.modEntry, List.map_map]
    refine List.map_congr_left fun e _ => ?_
    simp only [Function.comp]
    split
    · rw [(gateStep_st e _ _).1, gateStep_stamp]
    · rfl
  · rw [← hcount, Floor.openCount, Floor.openCount, Floor.modEntry, List.countP_map]
    refine List.countP_congr fun e _ => ?_
    simp only [Function.comp]
    split
    · rw [bne, bne, (gateStep_st e _ _).2]
    · rfl

/-- A gate's step brings its channel to the target. -/
theorem gateStep_target {v s : State} {c : Nat} (hc : c < 32) (h : SameFrame v s)
    (hread : gateReading s c = gateReading v c) : gateReading (gateStep c s) c = gateTarget v c := by
  obtain ⟨hchan, hentry⟩ := Prod.mk.inj hread
  have hattack := attackStep_congr hc h hread
  obtain ⟨hfloor, -, hchs, -⟩ := h
  rw [gateReading, gateStep_chan, gateStep_floor, gateMoved_chan, gateMoved_entry? (by omega), if_pos ⟨rfl, by omega⟩,
    if_pos rfl, gateTarget, entryStepped, hattack, hchan, hentry]
  refine congrArg (Prod.mk _) (congrArg (Option.map · _) (funext fun e => ?_))
  have hcfg : s.floor.cfg = v.floor.cfg := by rw [hfloor]
  have hlatch : s.floor.latch = v.floor.latch := by rw [hfloor]
  have hchair : s.floor.chair = v.floor.chair := by rw [hfloor]
  exact gateStep_congr e hcfg hlatch hchair (length_of_chs hchs) rfl rfl rfl

/-- A gate's step says the change of an entry between OPEN and HOLD. -/
theorem says_gateStep {v s : State} {c : Nat} (hc : c < 32) (h : SameFrame v s)
    (hread : gateReading s c = gateReading v c) : Says s (gateStep c s) (gateSays v c) := by
  have hquiet : Says s (gateMoved c s) [] := (says_modChan c _ s).then_ (says_modFloor _ _)
  have hframe := sameFrame_gateStep (show c < 42 by omega) h
  obtain ⟨hchan, hentryAfter⟩ := Prod.mk.inj (gateStep_target hc h hread)
  obtain ⟨-, hentry⟩ := Prod.mk.inj hread
  rw [SameFrame, gateStep_floor] at hframe
  rw [gateStep_floor] at hentryAfter
  rw [gateStep_chan] at hchan
  obtain ⟨hfloor, -, hchs, hcount⟩ := hframe
  rw [gateStep_eq, gateSays]
  cases he : v.floor.entry? c with
  | none =>
    rw [entryStepped, he, Option.map_none] at hentryAfter
    have hgate : (gateMoved c s).gate c = gateBefore c s := by
      refine gate_congr (hentryAfter.trans ?_) rfl rfl
      exact (hentry.trans he).symm
    rw [if_pos hgate]
    exact hquiet
  | some e =>
    rw [entryStepped, he, Option.map_some] at hentryAfter
    have hafter := gate_of_entry? hc hentryAfter
    have hbefore : gateBefore c s = e.st.gate := gate_of_entry? hc (hentry.trans he)
    rw [hafter, hbefore]
    dsimp only
    split
    · exact hquiet
    · have hnotice := hquiet.after (says_floorChange c e.st.gate (e.gateStep v.floor (v.chan c)).st.gate .level
        (gateMoved c s))
      have hwait : (gateMoved c s).floor.wait = v.floor.wait := by rw [hfloor]
      have hleaving : (gateMoved c s).floor.leaving = v.floor.leaving := by rw [hfloor]
      rw [length_of_chs hchs, hwait, hleaving, hcount] at hnotice
      exact hnotice

/-- The gates after all steps. -/
theorem gates_stepped (v : State) :
    let r := runOver gateStep pods v
    SameFrame v r ∧ (∀ c, c < 32 → gateReading r c = gateTarget v c)
      ∧ Says v r ((List.range 32).flatMap (gateSays v)) := by
  obtain ⟨hframe, hread, hsays⟩ := runOver_targets (rd := gateReading) (P := SameFrame v) (start := gateReading v)
    (target := gateTarget v) (what := gateSays v) (f := gateStep) pods List.nodup_range
    (fun c hc s hs hread => ⟨sameFrame_gateStep (Nat.lt_trans (List.mem_range.1 hc) (by decide)) hs,
      gateStep_target (List.mem_range.1 hc) hs hread, says_gateStep (List.mem_range.1 hc) hs hread⟩)
    (fun c hc s d hd => gateStep_other (Nat.lt_trans (List.mem_range.1 hc) (by decide)) hd s) v ⟨rfl, rfl, rfl, rfl⟩
    (fun _ _ => rfl)
  exact ⟨hframe, fun c hc => (hread c).trans (if_pos (List.mem_range.2 hc)), hsays⟩

/-! ### The floor after the boundary -/

theorem boundary_floor (inp : BoundaryIn) (t : State) :
    (closeFrames (boundary inp t)).floor = (stepGates (unitsStepped inp t)).floor := by
  have h : (closeFrames (boundary inp t)).floor = (boundary inp t).floor :=
    floor_of_changes (closeFrames_changes (boundary inp t))
  exact h

theorem says_closeFrames (s : State) : Says s (closeFrames s) [] :=
  closeFrames_keep (P := fun t => Says s t []) (fun _ _ ht => ht.then_ (says_modLine ..)) s (.refl s)

/-- What the gates say is all that a boundary says. -/
theorem says_boundary {inp : BoundaryIn} {t : State} {bs : List NoticeBody}
    (h : Says (unitsStepped inp t) (stepGates (unitsStepped inp t)) bs) :
    { t with sys := (closeFrames (boundary inp t)).sys }.raised (closeFrames (boundary inp t)) bs := by
  have hdue : Says (stepGates (unitsStepped inp t)) (boundary inp t) [] := .quiet rfl rfl rfl
  have hall : Says (unitsStepped inp t) (closeFrames (boundary inp t)) bs :=
    (h.then_ hdue).then_ (says_closeFrames (boundary inp t))
  rw [boundary_sys]
  exact fun p => by
    cases p
    · exact hall.1 .room
    · exact hall.1 .codec

/-- A talk timer counts a boundary. -/
def talkTicked (e : FloorEntry) : FloorEntry := { e with talk := e.talk.map (fun k => { k with blocks := k.blocks + 1 }) }

theorem unitsStepped_entry? (inp : BoundaryIn) (t : State) (c : Nat) :
    (unitsStepped inp t).floor.entry? c = (t.floor.entry? c).map talkTicked :=
  find?_map_ch (g := talkTicked) (fun _ => rfl) _

theorem unitsStepped_gate (inp : BoundaryIn) (t : State) {c : Nat} (hc : c < 32) :
    (unitsStepped inp t).gate c = t.gate c := by
  unfold State.gate
  rw [unitsStepped_entry?, (unitsStepped_kept inp t (show c < 42 by omega)).2.2.1]
  cases t.floor.entry? c <;> rfl

/-! ### Stepping by mode -/

/-- A waiting channel's timers run. -/
def waitsStepped (r : State) (f : Floor) : Floor := { f with wait := f.wait.map (fun w => w.step (r.chan w.ch)) }

theorem stepGates_voice {v : State} (h : v.floor.mode = .voice) :
    stepGates v = (runOver gateStep pods v).modFloor (waitsStepped v) := by
  unfold stepGates
  split
  · rfl
  · next hqueue => exact absurd (h.symm.trans hqueue) (by decide)

theorem stepGates_queue {v : State} (h : v.floor.mode = .queue) : stepGates v = v := by
  unfold stepGates
  rw [h]

/-- In neither mode does a gate's step gain or lose a member, or touch the Leaving List or the guard timer. -/
theorem stepGates_frame (v : State) : (stepGates v).floor.leaving = v.floor.leaving
    ∧ (stepGates v).floor.guard = v.floor.guard
    ∧ (stepGates v).floor.list.map (fun e => (e.ch, e.stamp)) = v.floor.list.map (fun e => (e.ch, e.stamp)) := by
  cases hmode : v.floor.mode with
  | queue =>
    rw [stepGates_queue hmode]
    exact ⟨rfl, rfl, rfl⟩
  | voice =>
    obtain ⟨⟨hfloor, -, hchs, -⟩, -, -⟩ := gates_stepped v
    rw [stepGates_voice hmode, State.modFloor_floor]
    generalize runOver gateStep pods v = r at hfloor hchs ⊢
    refine ⟨?_, ?_, hchs⟩
    · exact (congrArg Floor.leaving hfloor).trans rfl
    · exact (congrArg Floor.guard hfloor).trans rfl

theorem unitsStepped_chs (inp : BoundaryIn) (t : State) :
    (unitsStepped inp t).floor.list.map (fun e => (e.ch, e.stamp)) = t.floor.list.map (fun e => (e.ch, e.stamp)) := by
  show (t.floor.list.map talkTicked).map _ = _
  rw [List.map_map]
  rfl

theorem unitsStepped_openCount (inp : BoundaryIn) (t : State) :
    (unitsStepped inp t).floor.openCount = t.floor.openCount := by
  show (t.floor.list.map talkTicked).countP _ = _
  rw [List.countP_map]
  rfl

/-! ### The notices -/

/-- A gate moved between OPEN and HOLD. -/
def levelMoved (b a : Gate) : Bool := (b, a) == (Gate.opened, Gate.held) || (b, a) == (Gate.held, Gate.opened)

theorem levelMoved_self (g : Gate) : levelMoved g g = false := by cases g <;> rfl

/-- An entry's gate changes between OPEN and HOLD alone. -/
theorem gateStep_levelMoved (e : FloorEntry) (f : Floor) (k : Channel) :
    levelMoved e.st.gate (e.gateStep f k).st.gate = decide ((e.gateStep f k).st.gate ≠ e.st.gate) := by
  have hpending := (gateStep_st e f k).2
  cases hb : e.st <;> cases ha : (e.gateStep f k).st <;> rw [hb, ha] at hpending
  case pending.opened | pending.held | opened.pending | held.pending => exact absurd hpending (by decide)
  all_goals rfl

/-- The gate of a channel that is in no list of the floor is neither OPEN nor HOLD. -/
theorem levelMoved_of_no_entry {s : State} {c : Nat} (h : s.floor.entry? c = none) (a : Gate) :
    levelMoved (s.gate c) a = false := by
  have hgate : s.gate c ≠ .opened ∧ s.gate c ≠ .held := by
    unfold State.gate
    rw [h]
    split
    · dsimp only
      split
      · exact ⟨by decide, by decide⟩
      · split
        · exact ⟨by decide, by decide⟩
        · exact ⟨by decide, by decide⟩
    · exact ⟨by decide, by decide⟩
  obtain ⟨hopen, hheld⟩ := hgate
  cases hg : s.gate c <;> simp_all [levelMoved]

theorem flatMap_filter_map {β : Type} {l : List Nat} {b : Nat → Bool} {f : Nat → β} {what : Nat → List β}
    (h : ∀ c ∈ l, what c = if b c then [f c] else []) : l.flatMap what = (l.filter b).map f := by
  rw [← flatMap_one_or_none, List.flatMap_def, List.flatMap_def]
  exact congrArg List.flatten (List.map_congr_left h)

/-- In VOICE mode every pod's gate and entry are stepped. -/
theorem stepGates_reading {v : State} (h : v.floor.mode = .voice) {c : Nat} (hc : c < 32) :
    gateReading (stepGates v) c = gateTarget v c := by
  obtain ⟨-, hread, -⟩ := gates_stepped v
  rw [stepGates_voice h]
  generalize runOver gateStep pods v = r at hread
  exact hread c hc

/-- The notices of the gates that moved between OPEN and HOLD, with the counts of a floor. -/
def levelNotices (b a : Nat → Gate) (f : Floor) : List NoticeBody :=
  ((List.range 32).filter (fun c => levelMoved (b c) (a c))).map (fun c =>
    .floorChange c (b c) (a c) .level f.list.length f.wait.length f.leaving.length f.openCount)

theorem levelNotices_congr {b b' a a' : Nat → Gate} {f f' : Floor} (hb : ∀ c, c < 32 → b c = b' c)
    (ha : ∀ c, c < 32 → a c = a' c) (hlist : f.list.length = f'.list.length) (hwait : f.wait = f'.wait)
    (hleaving : f.leaving = f'.leaving) (hcount : f.openCount = f'.openCount) :
    levelNotices b a f = levelNotices b' a' f' := by
  unfold levelNotices
  rw [hlist, hwait, hleaving, hcount, List.filter_congr (q := fun c => levelMoved (b' c) (a' c))
    (fun c hc => by rw [hb c (List.mem_range.1 hc), ha c (List.mem_range.1 hc)])]
  refine List.map_congr_left fun c hc => ?_
  have hlt := List.mem_range.1 (List.mem_filter.1 hc).1
  rw [hb c hlt, ha c hlt]

/-- What the gates say at a boundary. -/
theorem says_stepGates (v : State) : Says v (stepGates v) (levelNotices v.gate (stepGates v).gate v.floor) := by
  unfold levelNotices
  cases hmode : v.floor.mode with
  | queue =>
    rw [stepGates_queue hmode]
    simp only [levelMoved_self, List.filter_false, List.map_nil]
    exact .refl v
  | voice =>
    have hsays : Says v (stepGates v) ((List.range 32).flatMap (gateSays v)) := by
      obtain ⟨-, -, hrun⟩ := gates_stepped v
      rw [stepGates_voice hmode]
      exact hrun.then_ (says_modFloor _ _)
    refine flatMap_filter_map (what := gateSays v) (fun c hc => ?_) ▸ hsays
    have hc := List.mem_range.1 hc
    obtain ⟨-, hentry⟩ := Prod.mk.inj (stepGates_reading hmode hc)
    rw [entryStepped] at hentry
    unfold gateSays
    cases he : v.floor.entry? c with
    | none => rw [levelMoved_of_no_entry he, if_neg Bool.false_ne_true]
    | some e =>
      rw [he, Option.map_some] at hentry
      rw [gate_of_entry? hc he, gate_of_entry? hc hentry, gateStep_levelMoved]
      dsimp only
      by_cases hsame : (e.gateStep v.floor (v.chan c)).st.gate = e.st.gate
      · rw [if_pos hsame, if_neg (by simp [hsame])]
      · rw [if_neg hsame, if_pos (by simp [hsame])]

/-! ### One entry (R56 to R58, R88) -/

section
variable {e : FloorEntry} {f : Floor} {k : Channel}

theorem gateStep_of_pending (h : e.st = .pending) : e.gateStep f k = e := by
  unfold FloorEntry.gateStep
  rw [h]

theorem gateStep_of_opened (h : e.st = .opened) : e.gateStep f k
    = if k.peak < k.closeThr ∧ ¬ f.latched e.ch then { e with st := .held, hold := .running f.cfg.holdTime } else e := by
  unfold FloorEntry.gateStep
  rw [h]

theorem gateStep_rises (h : e.st = .held) (hk : k.openThr ≤ k.peak) :
    e.gateStep f k = { e with st := .opened, hold := .none } := by
  unfold FloorEntry.gateStep
  rw [h]
  exact if_pos hk

theorem gateStep_stops (h : e.st = .held) (hk : k.peak < k.openThr) (hlast : f.cfg.lastMic = true)
    (hsole : f.list.length = 1) : e.gateStep f k = { e with hold := .stopped } := by
  unfold FloorEntry.gateStep
  split
  · next hst => exact absurd (h.symm.trans hst) (by decide)
  · next hst => exact absurd (h.symm.trans hst) (by decide)
  · exact (if_neg (not_le.2 hk)).trans (if_pos ⟨hlast, hsole⟩)

theorem gateStep_counts {n : Nat} (h : e.st = .held) (hk : k.peak < k.openThr)
    (hrun : f.cfg.lastMic = false ∨ f.list.length ≠ 1) (hhold : e.hold = .running n) :
    e.gateStep f k = { e with hold := .running (n - 1) } := by
  have hmore : ¬ (f.cfg.lastMic = true ∧ f.list.length = 1) := by
    rintro ⟨hlast, hsole⟩
    exact hrun.elim (fun hnot => absurd (hlast.symm.trans hnot) (by decide)) (fun hnot => hnot hsole)
  unfold FloorEntry.gateStep
  split
  · next hst => exact absurd (h.symm.trans hst) (by decide)
  · next hst => exact absurd (h.symm.trans hst) (by decide)
  · rw [if_neg (not_le.2 hk), if_neg hmore, hhold]

end

theorem latched_iff (f : Floor) (c : Nat) : f.latched c = true ↔ f.latch = true ∧ f.chair = some c := by
  simp [Floor.latched, Floor.isChair]

/-- An entry's step at a boundary, case by case. -/
theorem entry_stepped {e e' : FloorEntry} {f : Floor} {k : Channel} {c : Nat} (hch : e.ch = c)
    (h : e' = (talkTicked e).gateStep f k) :
    (e.st = .pending → e'.st = .pending)
      ∧ (e.st = .opened → (f.latch = true ∧ f.chair = some c ∨ k.closeThr ≤ k.peak) → e'.st = .opened)
      ∧ (e.st = .opened → ¬ (f.latch = true ∧ f.chair = some c) → k.peak < k.closeThr →
          e'.st = .held ∧ e'.hold = .running f.cfg.holdTime)
      ∧ (e.st = .held → k.openThr ≤ k.peak → e'.st = .opened ∧ e'.hold = .none)
      ∧ (e.st = .held → k.peak < k.openThr → f.cfg.lastMic = true → f.list.length = 1 →
          e'.st = .held ∧ e'.hold = .stopped)
      ∧ (∀ n, e.st = .held → k.peak < k.openThr → (f.cfg.lastMic = false ∨ f.list.length ≠ 1) → e.hold = .running n →
          e'.st = .held ∧ e'.hold = .running (n - 1)) := by
  subst h hch
  have hlatched : f.latched (talkTicked e).ch = true ↔ f.latch = true ∧ f.chair = some e.ch := latched_iff f e.ch
  refine ⟨fun hst => ?_, fun hst hstays => ?_, fun hst hfree hk => ?_, fun hst hk => ?_, fun hst hk hlast hsole => ?_,
    fun n hst hk hrun hhold => ?_⟩
  · rw [gateStep_of_pending (e := talkTicked e) hst]
    exact hst
  · rw [gateStep_of_opened (e := talkTicked e) hst, if_neg]
    · exact hst
    · rintro ⟨hk, hnot⟩
      exact hstays.elim (fun hl => hnot (hlatched.2 hl)) (fun hle => absurd hk (not_lt.2 hle))
  · rw [gateStep_of_opened (e := talkTicked e) hst, if_pos ⟨hk, fun hl => hfree (hlatched.1 hl)⟩]
    exact ⟨rfl, rfl⟩
  · rw [gateStep_rises (e := talkTicked e) hst hk]
    exact ⟨rfl, rfl⟩
  · rw [gateStep_stops (e := talkTicked e) hst hk hlast hsole]
    exact ⟨hst, rfl⟩
  · rw [gateStep_counts (e := talkTicked e) hst hk hrun hhold]
    exact ⟨hst, rfl⟩

/-! ### The obligation -/

theorem boundary_gate (inp : BoundaryIn) (t : State) (c : Nat) :
    (closeFrames (boundary inp t)).gate c = (stepGates (unitsStepped inp t)).gate c := by
  have hfloor := boundary_floor inp t
  have hattack : ((closeFrames (boundary inp t)).chan c).attack = ((boundary inp t).chan c).attack :=
    (closeFrames_changes (boundary inp t)).1 .attack (by decide) c
  exact gate_congr (by rw [hfloor]) (by rw [hfloor]) hattack

/-- The measures that the gates read are those after the boundary. -/
theorem boundary_measures (inp : BoundaryIn) (t : State) (c : Nat) :
    let k := (unitsStepped inp t).chan c
    let j := (closeFrames (boundary inp t)).chan c
    j.peak = k.peak ∧ j.openThr = k.openThr ∧ j.closeThr = k.closeThr := by
  intro k j
  obtain ⟨hpeak, -, -, hopen, hclose⟩ := (boundary_changes inp t).1 .measures (by decide) c
  exact ⟨hpeak, hopen, hclose⟩

/-- The attack count of a pod at a boundary in VOICE mode (R52). -/
theorem boundary_attack (inp : BoundaryIn) {t : State} (hmode : t.floor.mode = .voice) {c : Nat} (hc : c < 32) :
    let k := (closeFrames (boundary inp t)).chan c
    k.attack = if (t.gate c = .closed ∨ t.gate c = .attack) ∧ k.openThr ≤ k.peak ∧ t.present c = true ∧ t.muted c = false
      then (t.chan c).attack + 1 else 0 := by
  intro k
  obtain ⟨hpeak, hopen, -⟩ := boundary_measures inp t c
  obtain ⟨hclaims, -, hattack, -⟩ := unitsStepped_kept inp t (show c < 42 by omega)
  have hmuted : (unitsStepped inp t).muted c = t.muted c :=
    decide_eq_decide.mpr (by rw [State.claims, hclaims, State.claims])
  have hstep : k.attack = (unitsStepped inp t).attackStep c := by
    have hend : k.attack = ((stepGates (unitsStepped inp t)).chan c).attack :=
      (closeFrames_changes (boundary inp t)).1 .attack (by decide) c
    obtain ⟨hchan, -⟩ := Prod.mk.inj (stepGates_reading (v := unitsStepped inp t) hmode hc)
    rw [hend, hchan]
  rw [hstep]
  unfold State.attackStep State.qualifies
  rw [unitsStepped_gate inp t hc, unitsStepped_present inp t hc, hmuted, hattack, ← hpeak, ← hopen]
  refine if_congr ?_ rfl rfl
  simp [and_assoc, k]

/-- The entry of a pod at a boundary in VOICE mode. -/
theorem boundary_entry (inp : BoundaryIn) {t : State} (hmode : t.floor.mode = .voice) {c : Nat} (hc : c < 32)
    {e : FloorEntry} (he : t.floor.entry? c = some e) :
    (closeFrames (boundary inp t)).floor.entry? c
      = some ((talkTicked e).gateStep t.floor ((closeFrames (boundary inp t)).chan c)) := by
  obtain ⟨-, hentry⟩ := Prod.mk.inj (stepGates_reading (v := unitsStepped inp t) hmode hc)
  rw [boundary_floor, hentry, entryStepped, unitsStepped_entry?, he, Option.map_some, Option.map_some]
  obtain ⟨hpeak, hopen, hclose⟩ := boundary_measures inp t c
  exact congrArg some (gateStep_congr _ rfl rfl rfl (length_of_chs (unitsStepped_chs inp t)) hpeak.symm hopen.symm
    hclose.symm)

/-- The Wait List at a boundary in VOICE mode (R59). -/
theorem boundary_wait (inp : BoundaryIn) {t : State} (hmode : t.floor.mode = .voice) :
    (closeFrames (boundary inp t)).floor.wait = t.floor.wait.map (fun w => { w with
      timer := w.timer + 1
      quiet := if ((closeFrames (boundary inp t)).chan w.ch).peak < ((closeFrames (boundary inp t)).chan w.ch).closeThr
        then w.quiet + 1 else 0 }) := by
  obtain ⟨⟨hfloor, -⟩, -⟩ := gates_stepped (unitsStepped inp t)
  have hwait : (runOver gateStep pods (unitsStepped inp t)).floor.wait = t.floor.wait := by
    generalize runOver gateStep pods (unitsStepped inp t) = r at hfloor ⊢
    rw [hfloor]
    rfl
  rw [boundary_floor, stepGates_voice (v := unitsStepped inp t) hmode, State.modFloor_floor]
  rw [waitsStepped, hwait]
  refine List.map_congr_left fun w _ => ?_
  obtain ⟨hpeak, -, hclose⟩ := boundary_measures inp t w.ch
  rw [WaitEntry.step, hpeak, hclose]

/-- Settles O33. -/
theorem boundaryStepsTheFloor : Obligations.BoundaryStepsTheFloor := by
  intro inp s hreset t hlawful
  have hexec : exec (.blockBoundary inp) s = .next (closeFrames (boundary inp t)) := exec_blockBoundary inp hreset
  clear_value t
  obtain ⟨hleaving, hguard, hchs⟩ := stepGates_frame (unitsStepped inp t)
  refine ⟨_, hexec, ?leaving, ?guard, ?chs, ?notices, fun hmode => ⟨?waitQueue, ?listQueue⟩,
    fun hmode => ⟨boundary_wait inp hmode, fun c hc => boundary_attack inp hmode hc, fun c e he => ?entries⟩⟩
  case leaving => exact (congrArg Floor.leaving (boundary_floor inp t)).trans hleaving
  case guard => exact (congrArg Floor.guard (boundary_floor inp t)).trans hguard
  case chs =>
    rw [boundary_floor]
    exact hchs.trans (unitsStepped_chs inp t)
  case notices =>
    have hsays := says_boundary (says_stepGates (unitsStepped inp t))
    have hsame : levelNotices (unitsStepped inp t).gate (stepGates (unitsStepped inp t)).gate (unitsStepped inp t).floor
        = levelNotices t.gate (closeFrames (boundary inp t)).gate t.floor :=
      levelNotices_congr (fun c hc => unitsStepped_gate inp t hc) (fun c _ => (boundary_gate inp t c).symm)
        (length_of_chs (unitsStepped_chs inp t)) rfl rfl (unitsStepped_openCount inp t)
    rw [hsame] at hsays
    exact hsays
  case waitQueue =>
    rw [boundary_floor, stepGates_queue (v := unitsStepped inp t) hmode]
    rfl
  case listQueue =>
    rw [boundary_floor, stepGates_queue (v := unitsStepped inp t) hmode]
    rfl
  case entries =>
    have hc : c < 32 := (State.floorKept.ok_of_entry (floorKept_of_lawful hlawful) (by rw [he]; exact Option.some_ne_none e)).1
    exact ⟨_, boundary_entry inp hmode hc he, entry_stepped (Floor.entry?_ch he) rfl⟩

end Sys2Proof.Proofs
end

