-- ==== Sys2Proof/Proofs/BoundaryEvents.lean ====
section
/-! PROOFS. The events that a boundary makes due, sorted by the unit that they come from: each event comes from one
unit, and of a channel, a position or a line from its own alone. -/

set_option Elab.async false

namespace Sys2Proof.Proofs

open Sys2Proof Sys2Proof.Machine

/-! ### Where an event comes from -/

/-- The units that make events due at a boundary. -/
inductive Origin
  | levelInput | slot | wake | lineEnd | channel | guard | unit | none

/-- The unit that makes an event due at a boundary. -/
def eventOrigin : Event → Origin
  | .privacyActiveEdge | .privacyInactiveEdge | .alarmActiveEdge | .alarmInactiveEdge => .levelInput
  | .muteShortPress _ | .longPress _ | .talkPress _ | .rollCallAnswer .. | .podJoin .. | .joinFailed .. | .podLost ..
  | .ringAcknowledged .. | .sleepAcknowledged .. | .wakeRequest .. => .slot
  | .wakeFramesDone .. | .wakeFailed .. => .wake
  | .wakePulse _ | .rollCall _ | .startingEnd _ | .wakingEnd _ | .standbyFrameEnd _ | .sleepingEnd _
  | .lineTestComplete _ => .lineEnd
  | .noiseFloorRise _ | .mutedTalk _ | .mutedTalkRearm _ | .floorRequest _ | .holdExpired _ | .waitTimeout _
  | .waitQuietDrop _ | .leavingRemoval _ | .talkTimerTick _ => .channel
  | .guardExpiry => .guard
  | .howlLatch _ | .restoringEnd | .capture | .toneCountEnd | .sceneLoadStep => .unit
  | .talkWarn _ | .talkEnd _ | .levelWatch _ => .none

/-- The pod channel of an event of a slot or a position. -/
def eventPod : Event → Option Nat
  | .muteShortPress c | .longPress c | .talkPress c => some c
  | .rollCallAnswer l p _ | .podJoin l p | .joinFailed l p | .podLost l p | .ringAcknowledged l p
  | .sleepAcknowledged l p | .wakeRequest l p | .wakeFramesDone l p | .wakeFailed l p => some (podOf l p)
  | _ => none

/-! ### The sources one by one -/

theorem mem_pinEvents {s : State} {inp : BoundaryIn} {x : Event} : x ∈ s.pinEvents inp
    ↔ (x = .privacyActiveEdge ∧ s.privacy.level = false ∧ inp.privacyActive = true)
      ∨ (x = .privacyInactiveEdge ∧ s.privacy.level = true ∧ inp.privacyActive = false)
      ∨ (x = .alarmActiveEdge ∧ s.silence.alarmLevel = false ∧ inp.alarmActive = true)
      ∨ (x = .alarmInactiveEdge ∧ s.silence.alarmLevel = true ∧ inp.alarmActive = false) := by
  unfold State.pinEvents
  cases s.privacy.level <;> cases inp.privacyActive <;> cases s.silence.alarmLevel <;> cases inp.alarmActive <;> simp

theorem mem_ackEvent {l p : Nat} {cmd : Option LineCmd} {x : Event} : x ∈ ackEvent l p cmd
    ↔ (x = .sleepAcknowledged l p ∧ cmd = some .sleep)
      ∨ (x = .ringAcknowledged l p ∧ ∃ v b, cmd = some (.ring v b)) := by
  unfold ackEvent
  split <;> simp_all

/-- The waiting channel of an event of the Wait List has waited long enough. -/
def waitEvent (s : State) (c : Nat) (x : Event) : Prop :=
  s.floor.mode = .voice ∧ ∃ w, s.floor.waiting? c = some w
    ∧ ((x = .waitTimeout c ∧ s.floor.cfg.waitMax ≤ w.timer)
      ∨ (x = .waitQuietDrop c ∧ w.timer < s.floor.cfg.waitMax ∧ s.floor.cfg.holdTime ≤ w.quiet))

theorem mem_channelEvents {s : State} {c : Nat} {x : Event} : x ∈ s.channelEvents c
    ↔ (x = .noiseFloorRise c ∧ 200 ≤ (s.chan c).rise)
      ∨ (x = .mutedTalk c ∧ (s.chan c).armed = true ∧ 1500 ≤ (s.chan c).talkCount)
      ∨ (x = .mutedTalkRearm c ∧ (s.chan c).armed = false ∧ 500 ≤ (s.chan c).talkCount)
      ∨ (x = .leavingRemoval c ∧ s.floor.isLeaving c = true ∧ (s.chan c).ramp = 0)
      ∨ (x = .holdExpired c ∧ ∃ e ∈ s.floor.list, e.ch = c ∧ e.hold = .running 0)
      ∨ waitEvent s c x
      ∨ (x = .floorRequest c ∧ s.floor.mode = .voice ∧ 0 < (s.chan c).attack ∧ s.floor.cfg.attack ≤ (s.chan c).attack)
      ∨ (x = .talkTimerTick c ∧ ∃ e ∈ s.floor.list, e.ch = c ∧ ∃ k, e.talk = some k ∧ 1000 ≤ k.blocks) := by
  have htalk (e : FloorEntry) : e.talk.any (fun t => decide (1000 ≤ t.blocks)) = true
      ↔ ∃ k, e.talk = some k ∧ 1000 ≤ k.blocks := by
    cases e.talk <;> simp
  unfold State.channelEvents waitEvent
  dsimp only
  simp only [List.mem_append, List.mem_ite_nil_right, List.mem_singleton, Config.riseBlocks, Config.mutedTalkBlocks,
    Config.rearmBlocks, Config.secondBlocks, or_assoc, and_comm (a := x = _), List.any_eq_true, Bool.and_eq_true,
    decide_eq_true_eq, beq_iff_eq, Bool.not_eq_true', htalk]
  refine or_congr_right <| or_congr_right <| or_congr_right <| or_congr_right <| or_congr_right <| or_congr_left ?_
  cases s.floor.waiting? c with
  | none => simp
  | some w =>
    cases s.floor.mode with
    | queue => simp
    | voice =>
      by_cases hmax : s.floor.cfg.waitMax ≤ w.timer
      · simp [hmax, not_lt.2 hmax]
      · by_cases hquiet : s.floor.cfg.holdTime ≤ w.quiet <;> simp [hmax, not_le.1 hmax, hquiet]

theorem mem_unitEvents {s was : State} {x : Event} : x ∈ s.unitEvents was
    ↔ (∃ z, z < 8 ∧ x = .howlLatch z ∧ was.silence.howlCount.get z < s.silence.howlCount.get z
        ∧ s.silence.cfg.howlBlocks ≤ s.silence.howlCount.get z)
      ∨ (x = .restoringEnd ∧ was.silence.state = .restoring)
      ∨ (x = .capture ∧ s.meters.window ≤ s.meters.counter)
      ∨ (x = .toneCountEnd ∧ s.tone.running = true ∧ s.tone.remaining = some 0)
      ∨ (x = .sceneLoadStep ∧ s.scenes.load ≠ none) := by
  unfold State.unitEvents
  simp only [List.mem_append, List.mem_map, List.mem_filter, List.mem_range, decide_eq_true_eq, List.mem_ite_nil_right,
    List.mem_singleton, Bool.and_eq_true, beq_iff_eq, Option.isSome_iff_ne_none, or_assoc]
  refine or_congr (exists_congr fun z => ?_) ?_
  · rw [eq_comm (a := x)]
    tauto
  · simp only [and_comm (a := x = _)]

theorem mem_wakeEvents {s : State} {l p : Nat} {x : Event} : x ∈ s.wakeEvents l p
    ↔ (x = .wakeFramesDone l p ∧ ∃ e ∈ (s.line l).table, e.dest = .position p ∧ e.cmd = .wake 0)
      ∨ (x = .wakeFailed l p ∧ (s.position (podOf l p)).wakeTimer = some 0) := by
  unfold State.wakeEvents
  simp only [List.mem_append, List.mem_ite_nil_right, List.mem_singleton, List.any_eq_true, Bool.and_eq_true, beq_iff_eq,
    and_comm (a := x = _)]

theorem mem_endEvents {ln : Line} {l : Nat} {pulse : Bool} {x : Event} : x ∈ ln.endEvents l pulse
    ↔ (x = .startingEnd l ∧ ln.state = .starting ∧ ln.remaining = 0)
      ∨ (x = .wakingEnd l ∧ ln.state = .waking ∧ ln.remaining = 0)
      ∨ (x = .lineTestComplete l ∧ ln.state = .testing ∧ ln.remaining = 0)
      ∨ (x = .sleepingEnd l ∧ ln.state = .sleeping ∧ ln.sleepBroadcast = true)
      ∨ (x = .standbyFrameEnd l ∧ ln.state = .sleeping ∧ ln.sleepBroadcast = false)
      ∨ (x = .rollCall l ∧ ln.state = .running ∧ 64 ≤ ln.rollCount)
      ∨ (x = .wakePulse l ∧ ln.state = .standby ∧ pulse = true) := by
  unfold Line.endEvents
  cases ln.state with
  | starting | waking | testing => by_cases h : ln.remaining = 0 <;> simp [h]
  | sleeping => cases ln.sleepBroadcast <;> simp
  | running => simp [Config.rollCallPeriod, and_comm]
  | standby => simp [and_comm]
  | off => simp

/-! ### Each event from its own source -/

theorem origin_of_pin {s : State} {inp : BoundaryIn} {x : Event} (h : x ∈ s.pinEvents inp) :
    eventOrigin x = .levelInput := by
  rcases mem_pinEvents.1 h with ⟨rfl, -⟩ | ⟨rfl, -⟩ | ⟨rfl, -⟩ | ⟨rfl, -⟩ <;> rfl

theorem origin_of_ack {l p : Nat} {cmd : Option LineCmd} {x : Event} (h : x ∈ ackEvent l p cmd) :
    eventOrigin x = .slot ∧ eventPod x = some (podOf l p) := by
  rcases mem_ackEvent.1 h with ⟨rfl, -⟩ | ⟨rfl, -⟩ <;> exact ⟨rfl, rfl⟩

theorem origin_of_press {q : Position} {c : Nat} {st : StatusSlot} {x : Event} (h : x ∈ q.presses c st) :
    eventOrigin x = .slot ∧ eventPod x = some c := by
  unfold Position.presses at h
  simp only [List.mem_append, List.mem_ite_nil_right, List.mem_singleton] at h
  rcases h with ⟨-, rfl⟩ | ⟨-, rfl⟩ <;> exact ⟨rfl, rfl⟩

theorem origin_of_slot {q : Position} {ln : Line} {l p : Nat} {slot : UpSlot} {x : Event}
    (h : x ∈ q.slotEvents ln l p slot) : eventOrigin x = .slot ∧ eventPod x = some (podOf l p) := by
  have hack (b : Bool) (h : x ∈ if b then ackEvent l p (ln.sentTo p) else []) :
      eventOrigin x = .slot ∧ eventPod x = some (podOf l p) := by
    cases b with
    | false => exact absurd h (List.not_mem_nil)
    | true => exact origin_of_ack h
  have hone {P : Prop} [Decidable P] {e : Event} (he : eventOrigin e = .slot ∧ eventPod e = some (podOf l p))
      (h : x ∈ if P then [e] else []) : eventOrigin x = .slot ∧ eventPod x = some (podOf l p) := by
    rw [List.mem_ite_nil_right, List.mem_singleton] at h
    exact h.2 ▸ he
  have hanswer (rec : Identity) := hone (P := (ln.calledNow.getD 0).getLsbD p = true) (e := .rollCallAnswer l p rec)
    ⟨rfl, rfl⟩
  unfold Position.slotEvents at h
  dsimp only at h
  split at h
  · rw [List.mem_append, List.mem_append] at h
    obtain (h | h) | h := h
    · split at h
      · exact hack _ h
      · exact absurd h List.not_mem_nil
    · exact hone ⟨rfl, rfl⟩ h
    · exact hone ⟨rfl, rfl⟩ h
  · rw [List.mem_append, List.mem_append] at h
    obtain (h | h) | h := h
    · split at h
      · rcases List.mem_append.1 h with h | h
        · exact hack _ h
        · exact origin_of_press h
      · exact absurd h List.not_mem_nil
    · exact hone ⟨rfl, rfl⟩ h
    · exact hone ⟨rfl, rfl⟩ h
  · split at h
    · exact hone ⟨rfl, rfl⟩ h
    · exact hanswer _ h
    · exact absurd h List.not_mem_nil
  · split at h
    · exact hanswer _ h
    · exact absurd h List.not_mem_nil

theorem origin_of_wake {s : State} {l p : Nat} {x : Event} (h : x ∈ s.wakeEvents l p) :
    eventOrigin x = .wake ∧ eventPod x = some (podOf l p) := by
  rcases mem_wakeEvents.1 h with ⟨rfl, -⟩ | ⟨rfl, -⟩ <;> exact ⟨rfl, rfl⟩

theorem origin_of_end {ln : Line} {l : Nat} {pulse : Bool} {x : Event} (h : x ∈ ln.endEvents l pulse) :
    eventOrigin x = .lineEnd ∧ x.lineOf? = some l := by
  rcases mem_endEvents.1 h with ⟨rfl, -⟩ | ⟨rfl, -⟩ | ⟨rfl, -⟩ | ⟨rfl, -⟩ | ⟨rfl, -⟩ | ⟨rfl, -⟩ | ⟨rfl, -⟩ <;>
    exact ⟨rfl, rfl⟩

theorem origin_of_channel {s : State} {c : Nat} {x : Event} (h : x ∈ s.channelEvents c) : eventOrigin x = .channel := by
  rcases mem_channelEvents.1 h with ⟨rfl, -⟩ | ⟨rfl, -⟩ | ⟨rfl, -⟩ | ⟨rfl, -⟩ | ⟨rfl, -⟩
    | ⟨-, _, -, ⟨rfl, -⟩ | ⟨rfl, -⟩⟩ | ⟨rfl, -⟩ | ⟨rfl, -⟩ <;> rfl

theorem origin_of_unit {s was : State} {x : Event} (h : x ∈ s.unitEvents was) : eventOrigin x = .unit := by
  rcases mem_unitEvents.1 h with ⟨_, -, rfl, -⟩ | ⟨rfl, -⟩ | ⟨rfl, -⟩ | ⟨rfl, -⟩ | ⟨rfl, -⟩ <;> rfl

/-! ### The due events -/

section
variable {s was : State} {inp : BoundaryIn} {x : Event}

theorem mem_dueNow : x ∈ s.dueNow was inp ↔ x ∈ s.pinEvents inp ∨ (∃ l < 4, x ∈ was.lineSlotEvents inp l)
    ∨ (∃ l < 4, ∃ p < 8, x ∈ s.wakeEvents l p) ∨ (∃ l < 4, x ∈ (s.line l).endEvents l (inp.wakePulse.getD l false))
    ∨ (∃ c < 32, x ∈ s.channelEvents c) ∨ (s.floor.guard = some 0 ∧ x = .guardExpiry) ∨ x ∈ s.unitEvents was := by
  unfold State.dueNow
  simp only [List.mem_append, List.mem_flatMap, List.mem_range, List.mem_ite_nil_right, List.mem_singleton, or_assoc]

theorem mem_lineSlotEvents {l : Nat} : x ∈ was.lineSlotEvents inp l ↔ (was.line l).takesSlots = true
    ∧ ∃ p < 8, x ∈ (was.position (podOf l p)).slotEvents (was.line l) l p (was.slotIn inp (podOf l p)) := by
  unfold State.lineSlotEvents
  dsimp only
  rw [List.mem_ite_nil_right, List.mem_flatMap]
  simp only [List.mem_range]

theorem origin_of_due (h : x ∈ s.dueNow was inp) :
    (eventOrigin x = .levelInput ∧ x ∈ s.pinEvents inp) ∨ (eventOrigin x = .slot ∧ ∃ l < 4, x ∈ was.lineSlotEvents inp l)
      ∨ (eventOrigin x = .wake ∧ ∃ l < 4, ∃ p < 8, x ∈ s.wakeEvents l p)
      ∨ (eventOrigin x = .lineEnd ∧ ∃ l < 4, x ∈ (s.line l).endEvents l (inp.wakePulse.getD l false))
      ∨ (eventOrigin x = .channel ∧ ∃ c < 32, x ∈ s.channelEvents c)
      ∨ (eventOrigin x = .guard ∧ s.floor.guard = some 0) ∨ (eventOrigin x = .unit ∧ x ∈ s.unitEvents was) := by
  rcases mem_dueNow.1 h with h | ⟨l, hl, h⟩ | ⟨l, hl, p, hp, h⟩ | ⟨l, hl, h⟩ | ⟨c, hc, h⟩ | ⟨hguard, rfl⟩ | h
  · exact .inl ⟨origin_of_pin h, h⟩
  · obtain ⟨-, p, hp, hslot⟩ := mem_lineSlotEvents.1 h
    exact .inr <| .inl ⟨(origin_of_slot hslot).1, l, hl, h⟩
  · exact .inr <| .inr <| .inl ⟨(origin_of_wake h).1, l, hl, p, hp, h⟩
  · exact .inr <| .inr <| .inr <| .inl ⟨(origin_of_end h).1, l, hl, h⟩
  · exact .inr <| .inr <| .inr <| .inr <| .inl ⟨origin_of_channel h, c, hc, h⟩
  · exact .inr <| .inr <| .inr <| .inr <| .inr <| .inl ⟨rfl, hguard⟩
  · exact .inr <| .inr <| .inr <| .inr <| .inr <| .inr ⟨origin_of_unit h, h⟩

/-- No boundary makes an event due that comes from no unit. -/
theorem not_due_of_origin (hx : eventOrigin x = .none) : x ∉ s.dueNow was inp := fun h => by
  have hsource := origin_of_due h
  simp [hx] at hsource

theorem due_of_pin (hx : eventOrigin x = .levelInput) : x ∈ s.dueNow was inp ↔ x ∈ s.pinEvents inp := by
  refine ⟨fun h => ?_, fun h => mem_dueNow.2 (.inl h)⟩
  simpa [hx] using origin_of_due h

theorem due_of_slot (hx : eventOrigin x = .slot) :
    x ∈ s.dueNow was inp ↔ ∃ l < 4, x ∈ was.lineSlotEvents inp l := by
  refine ⟨fun h => ?_, fun h => mem_dueNow.2 (.inr <| .inl h)⟩
  simpa [hx] using origin_of_due h

theorem due_of_wake (hx : eventOrigin x = .wake) :
    x ∈ s.dueNow was inp ↔ ∃ l < 4, ∃ p < 8, x ∈ s.wakeEvents l p := by
  refine ⟨fun h => ?_, fun h => mem_dueNow.2 (.inr <| .inr <| .inl h)⟩
  simpa [hx] using origin_of_due h

theorem due_of_end (hx : eventOrigin x = .lineEnd) :
    x ∈ s.dueNow was inp ↔ ∃ l < 4, x ∈ (s.line l).endEvents l (inp.wakePulse.getD l false) := by
  refine ⟨fun h => ?_, fun h => mem_dueNow.2 (.inr <| .inr <| .inr <| .inl h)⟩
  simpa [hx] using origin_of_due h

theorem due_of_channel (hx : eventOrigin x = .channel) : x ∈ s.dueNow was inp ↔ ∃ c < 32, x ∈ s.channelEvents c := by
  refine ⟨fun h => ?_, fun h => mem_dueNow.2 (.inr <| .inr <| .inr <| .inr <| .inl h)⟩
  simpa [hx] using origin_of_due h

theorem due_of_guard : .guardExpiry ∈ s.dueNow was inp ↔ s.floor.guard = some 0 := by
  refine ⟨fun h => ?_, fun h => mem_dueNow.2 (.inr <| .inr <| .inr <| .inr <| .inr <| .inl ⟨h, rfl⟩)⟩
  simpa [eventOrigin] using origin_of_due h

theorem due_of_unit (hx : eventOrigin x = .unit) : x ∈ s.dueNow was inp ↔ x ∈ s.unitEvents was := by
  refine ⟨fun h => ?_, fun h => mem_dueNow.2 (.inr <| .inr <| .inr <| .inr <| .inr <| .inr h)⟩
  simpa [hx] using origin_of_due h

end

end Sys2Proof.Proofs
end

