-- ==== Sys2Proof/Proofs/BoundaryUnits.lean ====
section
/-! PROOFS. Obligation O34: the counters of the other units at a block boundary, and the events that it makes due. -/

set_option Elab.async false

namespace Sys2Proof.Proofs

open Sys2Proof Sys2Proof.Machine

/-! ### The state after the boundary, its lines apart -/

/-- Frames move the lines alone. -/
theorem closeFrames_eq (s : State) : closeFrames s = { s with lines := (closeFrames s).lines } := by
  refine closeFrames_keep (P := fun u => u = { s with lines := u.lines }) (fun l u hu => ?_) s rfl
  rw [hu]
  rfl

theorem boundary_eq (inp : BoundaryIn) (t : State) : closeFrames (boundary inp t) =
    { boundarySteps inp t with
      due := (boundarySteps inp t).dueNow t inp, lines := (closeFrames (boundary inp t)).lines } :=
  closeFrames_eq (boundary inp t)

theorem boundarySteps_same (inp : BoundaryIn) (t : State) {q : Part} (hq : q ∉ [Part.attack, .floor]) :
    q.same (unitsStepped inp t) (boundarySteps inp t) := (stepGates_changes (unitsStepped inp t)).1 q hq

theorem boundarySteps_meters (inp : BoundaryIn) (t : State) : (boundarySteps inp t).meters
    = t.meters.tick (meterLevel (measuredChans inp t) (deliveredOutputs inp t)) :=
  boundarySteps_same inp t (q := .meters) (by decide)

theorem boundarySteps_outputs (inp : BoundaryIn) (t : State) :
    (boundarySteps inp t).mix.outputs = deliveredOutputs inp t := boundarySteps_same inp t (q := .outputs) (by decide)

theorem boundarySteps_silence (inp : BoundaryIn) (t : State) :
    (boundarySteps inp t).silence = t.silence.tick (formedOutputs inp t) :=
  boundarySteps_same inp t (q := .silence) (by decide)

theorem boundarySteps_tone (inp : BoundaryIn) (t : State) : (boundarySteps inp t).tone = t.tone.tick t.sys.free :=
  boundarySteps_same inp t (q := .tone) (by decide)

theorem boundarySteps_privacy (inp : BoundaryIn) (t : State) : (boundarySteps inp t).privacy = t.privacy :=
  boundarySteps_same inp t (q := .privacy) (by decide)

theorem boundarySteps_load (inp : BoundaryIn) (t : State) : (boundarySteps inp t).scenes.load = t.scenes.load :=
  boundarySteps_same inp t (q := .load) (by decide)

theorem boundarySteps_mode (inp : BoundaryIn) (t : State) : (boundarySteps inp t).floor.mode = t.floor.mode :=
  boundarySteps_same inp t (q := .mode) (by decide)

theorem boundarySteps_cfg (inp : BoundaryIn) (t : State) : (boundarySteps inp t).floor.cfg = t.floor.cfg :=
  boundarySteps_same inp t (q := .cfg) (by decide)

theorem boundarySteps_peak (inp : BoundaryIn) (t : State) {c : Nat} (hc : c < 42) :
    ((boundarySteps inp t).chan c).peak = ((measuredChans inp t).get c).peak := by
  obtain ⟨hpeak, -⟩ := boundarySteps_same inp t (q := .measures) (by decide) c
  rw [hpeak, unitsStepped_chan_eq inp t hc]

/-! ### Meters (R160) -/

theorem points_of_tick (m : Meters) (level : Nat → Int) {i : Nat} (hi : i < 59) : (m.tick level).points.get i
    = { m.points.get i with running := max (m.points.get i).running (level i) } := by
  rw [Meters.tick, Tab.get_mapIdx, if_pos hi]

theorem boundarySteps_channel_point (inp : BoundaryIn) (t : State) {c : Nat} (hc : c < 42) :
    (boundarySteps inp t).meters.points.get c = { t.meters.points.get c with
      running := max (t.meters.points.get c).running ((boundarySteps inp t).chan c).peak } := by
  rw [boundarySteps_meters, points_of_tick _ _ (by omega), meterLevel, if_pos hc, boundarySteps_peak inp t hc]

theorem boundarySteps_output_point (inp : BoundaryIn) (t : State) {o : Nat} (ho : o < 17) :
    (boundarySteps inp t).meters.points.get (42 + o) = { t.meters.points.get (42 + o) with
      running := max (t.meters.points.get (42 + o)).running (peakOf ((boundarySteps inp t).mix.outputs.get o)) } := by
  rw [boundarySteps_meters, points_of_tick _ _ (by omega), meterLevel, if_neg (by omega), boundarySteps_outputs,
    Nat.add_sub_cancel_left]

/-! ### Outputs, silence and tone -/

/-- An output that MUTE of set A covers carries no samples. -/
theorem boundarySteps_mute (inp : BoundaryIn) (t : State) {o : Nat} (ho : o < 17) (hstate : t.silence.state ≠ .quiet)
    (hcovered : t.silence.covered ≠ .none) (hmask : t.silence.cfg.maskA.getLsbD o = true)
    (hmute : t.silence.cfg.contentA = .mute) : (boundarySteps inp t).mix.outputs.get o = [] := by
  have hcontent : t.silence.contentFor o = some .mute := by
    unfold Silence.contentFor Silence.inForce
    simp [hstate, hcovered, hmask, hmute]
  rw [boundarySteps_outputs, deliveredOutputs, Tab.get_tabulate, if_pos ho, State.deliver, hcontent]

theorem tick_of_stopped {n : Tone} (free : Nat) (h : n.running = false) : n.tick free = n := by
  rw [Tone.tick, if_neg (by rw [h]; exact Bool.false_ne_true)]

theorem tick_of_running {n : Tone} (free : Nat) (h : n.running = true) : n.tick free = { n with
    generated := countGenerated free n.generated
    remaining := n.remaining.map (fun n => n - 1)
    phase := (n.phase + Config.blockLen) % toneCycle n.freq } := by
  rw [Tone.tick, if_pos h]

theorem countGenerated_below (free : Nat) {n : BitVec 32} (h : n ≠ 0xFFFFFFFF#32) : countGenerated free n = n + 1 :=
  if_neg h

/-- An output depends on a channel through its ramp, its attenuation and its mask zone alone. -/
theorem formOutput_congr_chans {t : State} {a b : Tab 42 Channel} (x : Tab 42 (List Int)) (o : Nat)
    (h : ∀ c, c < 42 → (a.get c).ramp = (b.get c).ramp ∧ (a.get c).atten = (b.get c).atten
      ∧ (a.get c).maskZone = (b.get c).maskZone) : t.formOutput a x o = t.formOutput b x o := by
  unfold State.formOutput
  rw [List.filterMap_congr (g := fun c => contribution o c (t.mix.xp.get (42 * o + c)) (b.get c) (x.get c))]
  intro c hc
  obtain ⟨hramp, hatten, hzone⟩ := h c (List.mem_range.1 hc)
  unfold contribution
  rw [hramp, hatten, hzone]

/-- The outputs as formed are those of the channels after the boundary. -/
theorem formOutput_boundarySteps (inp : BoundaryIn) (t : State) (x : Tab 42 (List Int)) (o : Nat) :
    t.formOutput (boundarySteps inp t).chans x o = t.formOutput (measuredChans inp t) x o := by
  refine formOutput_congr_chans x o fun c hc => ?_
  have hramp := boundarySteps_same inp t (q := .ramps) (by decide) c
  obtain ⟨hatten, hzone⟩ := boundarySteps_same inp t (q := .applied) (by decide) c
  rw [unitsStepped_chan_eq inp t hc] at hramp hatten hzone
  exact ⟨hramp, hatten, hzone⟩

/-- A howl counter after a boundary (R114). -/
theorem boundarySteps_howl (inp : BoundaryIn) (t : State) {z : Nat} (hz : z < 8) :
    (boundarySteps inp t).silence.howlCount.get z
      = if t.silence.cfg.howlEnable = true ∧ t.silence.howl.getLsbD z = false
          ∧ t.silence.cfg.howlLevel ≤ peakOf (t.formOutput (boundarySteps inp t).chans (t.inputs inp) (9 + z))
        then t.silence.howlCount.get z + 1 else 0 := by
  rw [formOutput_boundarySteps, boundarySteps_silence, Silence.tick]
  dsimp only
  rw [Tab.get_mapIdx, if_pos hz, formedOutputs, Tab.get_tabulate, if_pos (by omega), Silence.howlStep]
  cases t.silence.cfg.howlEnable <;> cases t.silence.howl.getLsbD z <;> simp

theorem boundarySteps_chime (inp : BoundaryIn) (t : State) : (boundarySteps inp t).silence.chime
    = if t.silence.state = .quiet then t.silence.chime else (t.silence.chime + 1) % 1000 := by
  rw [boundarySteps_silence, Silence.tick, Silence.inForce]
  cases t.silence.state <;> rfl

/-! ### What the channels make due -/

/-- The channel of an event of a channel's own timers and counters. -/
def eventChannel : Event → Option Nat
  | .noiseFloorRise c | .mutedTalk c | .mutedTalkRearm c | .floorRequest c | .holdExpired c | .waitTimeout c
  | .waitQuietDrop c | .leavingRemoval c | .talkTimerTick c => some c
  | _ => none

theorem eventChannel_of_mem {s : State} {c : Nat} {x : Event} (h : x ∈ s.channelEvents c) : eventChannel x = some c := by
  rcases mem_channelEvents.1 h with ⟨rfl, -⟩ | ⟨rfl, -⟩ | ⟨rfl, -⟩ | ⟨rfl, -⟩ | ⟨rfl, -⟩
    | ⟨-, _, -, ⟨rfl, -⟩ | ⟨rfl, -⟩⟩ | ⟨rfl, -⟩ | ⟨rfl, -⟩ <;> rfl

/-- An event of a channel is due where that channel's own timers and counters make it due. -/
theorem due_of_own_channel {w t : State} {inp : BoundaryIn} {c : Nat} {x : Event} (hc : c < 32)
    (hx : eventOrigin x = .channel) (hown : eventChannel x = some c) :
    x ∈ w.dueNow t inp ↔ x ∈ w.channelEvents c := by
  rw [due_of_channel hx]
  constructor
  · rintro ⟨d, -, h⟩
    have hd : some d = some c := (eventChannel_of_mem h).symm.trans hown
    exact Option.some.inj hd ▸ h
  · exact fun h => ⟨c, hc, h⟩

/-- The events of a pod channel that a boundary makes due, each for its cause. -/
theorem channel_due (w t : State) (inp : BoundaryIn) {c : Nat} (hc : c < 32) :
    (.noiseFloorRise c ∈ w.dueNow t inp ↔ 200 ≤ (w.chan c).rise)
      ∧ (.mutedTalk c ∈ w.dueNow t inp ↔ (w.chan c).armed = true ∧ 1500 ≤ (w.chan c).talkCount)
      ∧ (.mutedTalkRearm c ∈ w.dueNow t inp ↔ (w.chan c).armed = false ∧ 500 ≤ (w.chan c).talkCount)
      ∧ (.floorRequest c ∈ w.dueNow t inp ↔ w.floor.mode = .voice ∧ 0 < (w.chan c).attack
          ∧ w.floor.cfg.attack ≤ (w.chan c).attack)
      ∧ (.holdExpired c ∈ w.dueNow t inp ↔ ∃ e ∈ w.floor.list, e.ch = c ∧ e.hold = .running 0)
      ∧ (.waitTimeout c ∈ w.dueNow t inp ↔ w.floor.mode = .voice
          ∧ ∃ e, w.floor.waiting? c = some e ∧ w.floor.cfg.waitMax ≤ e.timer)
      ∧ (.waitQuietDrop c ∈ w.dueNow t inp ↔ w.floor.mode = .voice
          ∧ ∃ e, w.floor.waiting? c = some e ∧ e.timer < w.floor.cfg.waitMax ∧ w.floor.cfg.holdTime ≤ e.quiet)
      ∧ (.leavingRemoval c ∈ w.dueNow t inp ↔ w.floor.isLeaving c = true ∧ (w.chan c).ramp = 0)
      ∧ (.talkTimerTick c ∈ w.dueNow t inp ↔ ∃ e ∈ w.floor.list, e.ch = c ∧ ∃ k, e.talk = some k ∧ 1000 ≤ k.blocks)
      ∧ .talkWarn c ∉ w.dueNow t inp ∧ .talkEnd c ∉ w.dueNow t inp := by
  refine ⟨?_, ?_, ?_, ?_, ?_, ?_, ?_, ?_, ?_, not_due_of_origin rfl, not_due_of_origin rfl⟩
  all_goals
    rw [due_of_own_channel hc rfl rfl, mem_channelEvents]
    simp [waitEvent]

/-! ### What the level inputs and the other units make due -/

/-- The events of the level inputs that a boundary makes due, each for its edge. -/
theorem pin_due (w t : State) (inp : BoundaryIn) :
    (.privacyActiveEdge ∈ w.dueNow t inp ↔ w.privacy.level = false ∧ inp.privacyActive = true)
      ∧ (.privacyInactiveEdge ∈ w.dueNow t inp ↔ w.privacy.level = true ∧ inp.privacyActive = false)
      ∧ (.alarmActiveEdge ∈ w.dueNow t inp ↔ w.silence.alarmLevel = false ∧ inp.alarmActive = true)
      ∧ (.alarmInactiveEdge ∈ w.dueNow t inp ↔ w.silence.alarmLevel = true ∧ inp.alarmActive = false) := by
  refine ⟨?_, ?_, ?_, ?_⟩
  all_goals
    rw [due_of_pin rfl, mem_pinEvents]
    simp

/-- The events of the Silence Controller, the Meter Unit, the Tone Generator and the Scene Unit. -/
theorem unit_due (w t : State) (inp : BoundaryIn) :
    (∀ z, z < 8 → (.howlLatch z ∈ w.dueNow t inp ↔ t.silence.howlCount.get z < w.silence.howlCount.get z
        ∧ w.silence.cfg.howlBlocks ≤ w.silence.howlCount.get z))
      ∧ (.restoringEnd ∈ w.dueNow t inp ↔ t.silence.state = .restoring)
      ∧ (.capture ∈ w.dueNow t inp ↔ w.meters.window ≤ w.meters.counter)
      ∧ (∀ e, .levelWatch e ∉ w.dueNow t inp)
      ∧ (.toneCountEnd ∈ w.dueNow t inp ↔ w.tone.running = true ∧ w.tone.remaining = some 0)
      ∧ (.sceneLoadStep ∈ w.dueNow t inp ↔ w.scenes.load ≠ none) := by
  refine ⟨fun z hz => ?_, ?_, ?_, fun _ => not_due_of_origin rfl, ?_, ?_⟩
  case refine_1 =>
    rw [due_of_unit rfl, mem_unitEvents]
    simp [hz]
  all_goals
    rw [due_of_unit rfl, mem_unitEvents]
    simp

/-! ### The obligation -/

/-- Settles O34. -/
theorem boundaryStepsUnits : Obligations.BoundaryStepsUnits := by
  intro inp s hreset t
  have hexec : exec (.blockBoundary inp) s = .next (closeFrames (boundary inp t)) := exec_blockBoundary inp hreset
  clear_value t
  rw [boundary_eq] at hexec
  have hmeters := boundarySteps_meters inp t
  have hsilence := boundarySteps_silence inp t
  have htone := boundarySteps_tone inp t
  have hprivacy := boundarySteps_privacy inp t
  have hload := boundarySteps_load inp t
  have hmode := boundarySteps_mode inp t
  have hcfg := boundarySteps_cfg inp t
  have hpoint (c : Nat) (hc : c < 42) := boundarySteps_channel_point inp t hc
  have hout (o : Nat) (ho : o < 17) := boundarySteps_output_point inp t ho
  have hmute (o : Nat) (ho : o < 17) := boundarySteps_mute inp t ho
  have hhowl (z : Nat) (hz : z < 8) := boundarySteps_howl inp t hz
  have hchime := boundarySteps_chime inp t
  obtain ⟨hpriv1, hpriv2, halarm1, halarm2⟩ := pin_due (boundarySteps inp t) t inp
  obtain ⟨hlatch, hrestore, hcapture, hwatch, hcount, hstep⟩ := unit_due (boundarySteps inp t) t inp
  have hchannel (c : Nat) (hc : c < 32) := channel_due (boundarySteps inp t) t inp hc
  have hguard := due_of_guard (s := boundarySteps inp t) (was := t) (inp := inp)
  generalize boundarySteps inp t = w at *
  rw [hprivacy] at hpriv1 hpriv2
  have halarm : w.silence.alarmLevel = t.silence.alarmLevel := by rw [hsilence]; rfl
  rw [halarm] at halarm1 halarm2
  have hsilenceCfg : w.silence.cfg = t.silence.cfg := by rw [hsilence]; rfl
  rw [hsilenceCfg] at hlatch
  have hwindow : w.meters.window = t.meters.window := by rw [hmeters]; rfl
  rw [hwindow] at hcapture
  rw [hload] at hstep
  rw [hmode, hcfg] at hchannel
  refine ⟨_, hexec, ?_, hwindow, ?_, ?_, hpoint, hout, hmute, fun h => ?_, fun h => ⟨?_, fun hbelow => ?_⟩, hchime, hhowl,
    ?_, hpriv1, hpriv2, halarm1, halarm2, hchannel, hguard, hlatch, hrestore, hcapture, hwatch, hcount, hstep⟩
  · exact (congrArg Meters.counter hmeters).trans rfl
  · exact (congrArg Meters.stamp hmeters).trans rfl
  · exact (congrArg Meters.watches hmeters).trans rfl
  · exact htone.trans (tick_of_stopped _ h)
  · exact (congrArg Tone.remaining (htone.trans (tick_of_running _ h))).trans rfl
  · exact (congrArg Tone.generated (htone.trans (tick_of_running _ h))).trans (countGenerated_below _ hbelow)
  · show { w.silence with chime := t.silence.chime, howlCount := t.silence.howlCount } = t.silence
    rw [hsilence]
    rfl

end Sys2Proof.Proofs
end

