-- ==== Sys2Proof/Proofs/BoundaryLines.lean ====
section
/-! PROOFS. Obligation O36: the lines at a block boundary: what a slot does to its position, what slots and timers make
due, the counts of a line, and how a slot is sorted. -/

set_option Elab.async false

namespace Sys2Proof.Proofs

open Sys2Proof Sys2Proof.Machine

/-! ### A slot taken (R133 to R136, R143) -/

/-- A JOINING position after a slot. -/
def joiningAfter (q : Position) : UpSlot → Position
  | .status st => { q with good := q.good + 1, miss := 0, levels := some ⟨st.mute, st.talk⟩ }
  | .missed => q.lose false
  | _ => q.lose true

/-- An ONLINE position after a slot. -/
def onlineAfter (q : Position) : UpSlot → Position
  | .status st => { q.holdStep with miss := 0 }.edges st
  | .missed => { q.holdStep.lose false with good := q.good }
  | _ => { q.holdStep.lose true with good := q.good }

section
variable {q : Position} {called : Bool} {slot : UpSlot}

theorem takeSlot_of_joining (h : q.state = .joining) : q.takeSlot called slot = joiningAfter q slot := by
  unfold Position.takeSlot
  split
  · cases slot with
    | missed | bad | status | identity | bytes => rfl
  · next hst => exact absurd (h.symm.trans hst) (by decide)
  · next hnot _ => exact absurd h hnot

theorem takeSlot_of_online (h : q.state = .online) : q.takeSlot called slot = onlineAfter q slot := by
  unfold Position.takeSlot
  split
  · next hst => exact absurd (h.symm.trans hst) (by decide)
  · cases slot with
    | missed | bad | status | identity | bytes => rfl
  · next hnot => exact absurd h hnot

theorem takeSlot_of_other (hjoining : q.state ≠ .joining) (honline : q.state ≠ .online) : q.takeSlot called slot
    = { q with checkFails := if slot = .bad ∧ called = true then bump q.checkFails else q.checkFails } := by
  unfold Position.takeSlot
  split
  · next hst => exact absurd hst hjoining
  · next hst => exact absurd hst honline
  · cases called with
    | false => simp
    | true => cases slot <;> simp

end

/-- The wake timer counts a boundary (R141). -/
def wakeTimed (q : Position) : Position := { q with wakeTimer := q.wakeTimer.map (fun n => n - 1) }

theorem boundarySteps_position (inp : BoundaryIn) (t : State) {l p : Nat} (hl : l < 4) (hp : p < 8) :
    (boundarySteps inp t).position (podOf l p) = wakeTimed (if (t.line l).takesSlots then
        (t.position (podOf l p)).takeSlot (((t.line l).calledNow.getD 0).getLsbD p) (t.slotIn inp (podOf l p))
      else (t.position (podOf l p)).holdStep) := by
  have hpos : (boundarySteps inp t).pos = (unitsStepped inp t).pos := boundarySteps_same inp t (q := .pos) (by decide)
  have hstep := unitsStepped_position inp t (podOf_lt hl hp)
  rw [State.stepPosition, lineOf_podOf hp, posOf_podOf hp] at hstep
  rw [State.position, hpos]
  exact hstep

theorem boundarySteps_line (inp : BoundaryIn) (t : State) {l : Nat} (hl : l < 4) :
    (boundarySteps inp t).line l = (t.line l).tick (inp.readBackDiffers.getD l false) (inp.frameEarly.getD l false) := by
  have hunits : (unitsStepped inp t).line l
      = (t.line l).tick (inp.readBackDiffers.getD l false) (inp.frameEarly.getD l false) := by
    rw [State.line, unitsStepped]
    dsimp only
    rw [Tab.get_mapIdx, if_pos hl, State.line]
  have hline := boundarySteps_same inp t (q := .lines) (by decide) l
  rw [boundarySteps_same inp t (q := .tables) (by decide) l] at hline
  exact hline.trans hunits

/-! ### What a slot makes due -/

theorem due_of_own_slot {w t : State} {inp : BoundaryIn} {l p : Nat} {x : Event} (hl : l < 4) (hp : p < 8)
    (hx : eventOrigin x = .slot) (hown : eventPod x = some (podOf l p)) :
    x ∈ w.dueNow t inp ↔ (t.line l).takesSlots = true
      ∧ x ∈ (t.position (podOf l p)).slotEvents (t.line l) l p (t.slotIn inp (podOf l p)) := by
  rw [due_of_slot hx]
  constructor
  · rintro ⟨k, hk, h⟩
    obtain ⟨htakes, j, hj, hmem⟩ := mem_lineSlotEvents.1 h
    have hpod : podOf k j = podOf l p := Option.some.inj ((origin_of_slot hmem).2.symm.trans hown)
    obtain rfl : k = l := by simpa only [lineOf_podOf hj, lineOf_podOf hp] using congrArg lineOf hpod
    obtain rfl : j = p := by simpa only [posOf_podOf hj, posOf_podOf hp] using congrArg posOf hpod
    exact ⟨htakes, hmem⟩
  · rintro ⟨htakes, hmem⟩
    exact ⟨l, hl, mem_lineSlotEvents.2 ⟨htakes, p, hp, hmem⟩⟩

/-- The slot acknowledges the command sent to its position. -/
def Acknowledges (ln : Line) (l p : Nat) (slot : UpSlot) (x : Event) : Prop :=
  ∃ st, slot = .status st ∧ st.ack = true ∧ x ∈ ackEvent l p (ln.sentTo p)

/-- The slot answers the roll call that called its position. -/
def Answers (ln : Line) (l p : Nat) (slot : UpSlot) (x : Event) : Prop :=
  ∃ rec, x = .rollCallAnswer l p rec ∧ slot = .identity rec ∧ (ln.calledNow.getD 0).getLsbD p = true

/-- A short press of MUTE (R136): the MUTE level falls before the hold is long. -/
def ReleasesMute (q : Position) (slot : UpSlot) : Prop :=
  ∃ st was n, slot = .status st ∧ q.levels = some was ∧ was.mute = true ∧ st.mute = false ∧ q.hold = some n ∧ n + 1 < 2000

/-- A press of TALK (R136): its level rises at a pod that has the button. -/
def PressesTalk (q : Position) (slot : UpSlot) : Prop :=
  ∃ st was, slot = .status st ∧ q.levels = some was ∧ was.talk = false ∧ st.talk = true
    ∧ ∀ rec, q.identity = some rec → rec.talkButton = true

theorem talkButton_iff (q : Position) : q.talkButton = true ↔ ∀ rec, q.identity = some rec → rec.talkButton = true := by
  unfold Position.talkButton
  cases q.identity <;> simp

theorem holdStep_short (q : Position) :
    q.holdStep.hold.any (fun n => decide (n < Config.longHold)) = true ↔ ∃ n, q.hold = some n ∧ n + 1 < 2000 := by
  unfold Position.holdStep Config.longHold
  cases q.hold with
  | none => simp
  | some n =>
    by_cases hn : n < 2000
    · simp [hn]
    · simp [hn]
      omega

/-- The hold becomes long at the boundary that completes 2000 of them. -/
theorem holdStep_long (q : Position) :
    (q.holdStep.hold = some Config.longHold ∧ q.hold ≠ some Config.longHold) ↔ q.hold = some 1999 := by
  unfold Position.holdStep Config.longHold
  cases q.hold with
  | none => simp
  | some n =>
    by_cases hn : n < 2000
    · simp [hn]
      omega
    · simp [hn]
      omega

theorem mem_presses {q : Position} {c : Nat} {slot : UpSlot} {st : StatusSlot} (hslot : slot = .status st) {x : Event} :
    x ∈ q.presses c st ↔ (x = .muteShortPress c ∧ ReleasesMute q slot) ∨ (x = .talkPress c ∧ PressesTalk q slot) := by
  subst hslot
  unfold Position.presses ReleasesMute PressesTalk
  dsimp only
  rw [List.mem_append, List.mem_ite_nil_right, List.mem_ite_nil_right, List.mem_singleton, List.mem_singleton,
    Bool.and_eq_true, holdStep_short, Bool.and_eq_true _ q.talkButton, talkButton_iff]
  cases q.levels with
  | none => simp
  | some was => simp [and_assoc, and_comm, and_left_comm]

theorem mem_ite_ack {ln : Line} {l p : Nat} {st : StatusSlot} {x : Event} :
    x ∈ (if st.ack then ackEvent l p (ln.sentTo p) else []) ↔ Acknowledges ln l p (.status st) x := by
  rw [List.mem_ite_nil_right, Acknowledges]
  simp

theorem mem_slotEvents_joining {q : Position} {ln : Line} {l p : Nat} {slot : UpSlot} {x : Event}
    (h : q.state = .joining) : x ∈ q.slotEvents ln l p slot ↔ Acknowledges ln l p slot x
      ∨ (x = .podJoin l p ∧ 4 ≤ (joiningAfter q slot).good) ∨ (x = .joinFailed l p ∧ 3 ≤ (joiningAfter q slot).miss) := by
  unfold Position.slotEvents
  rw [takeSlot_of_joining h]
  split
  · rw [List.mem_append, List.mem_append, or_assoc, List.mem_ite_nil_right, List.mem_singleton, List.mem_ite_nil_right,
      List.mem_singleton, and_comm (b := x = _), and_comm (b := x = Event.joinFailed l p)]
    refine or_congr_left ?_
    cases slot with
    | status st => exact mem_ite_ack
    | missed | bad | identity | bytes => simp [Acknowledges]
  · next hst => exact absurd (h.symm.trans hst) (by decide)
  · next hst => exact absurd (h.symm.trans hst) (by decide)
  · next hnot _ _ => exact absurd h hnot

theorem mem_slotEvents_online {q : Position} {ln : Line} {l p : Nat} {slot : UpSlot} {x : Event}
    (h : q.state = .online) : x ∈ q.slotEvents ln l p slot ↔ Acknowledges ln l p slot x
      ∨ (x = .muteShortPress (podOf l p) ∧ ReleasesMute q slot) ∨ (x = .talkPress (podOf l p) ∧ PressesTalk q slot)
      ∨ (x = .longPress (podOf l p) ∧ q.hold = some 1999) ∨ (x = .podLost l p ∧ 3 ≤ (onlineAfter q slot).miss) := by
  unfold Position.slotEvents
  rw [takeSlot_of_online h]
  split
  · next hst => exact absurd (h.symm.trans hst) (by decide)
  · rw [List.mem_append, List.mem_append, List.mem_ite_nil_right, List.mem_singleton, List.mem_ite_nil_right,
      List.mem_singleton, holdStep_long, and_comm (b := x = Event.longPress _), and_comm (b := x = Event.podLost l p),
      or_assoc, ← or_assoc (b := _ ∧ ReleasesMute q slot), ← or_assoc (b := _ ∧ PressesTalk q slot)]
    refine or_congr_left ?_
    rw [or_assoc]
    cases slot with
    | status st =>
      dsimp only
      rw [List.mem_append, mem_ite_ack, mem_presses rfl]
    | missed | bad | identity | bytes => simp [Acknowledges, ReleasesMute, PressesTalk]
  · next hst => exact absurd (h.symm.trans hst) (by decide)
  · next hnot _ => exact absurd h hnot

theorem mem_slotEvents_other {q : Position} {ln : Line} {l p : Nat} {slot : UpSlot} {x : Event}
    (hjoining : q.state ≠ .joining) (honline : q.state ≠ .online) : x ∈ q.slotEvents ln l p slot
      ↔ (x = .wakeRequest l p ∧ q.state = .asleep ∧ ∃ st, slot = .status st ∧ st.wakePulse = true)
        ∨ Answers ln l p slot x := by
  unfold Position.slotEvents Answers
  dsimp only
  split
  · next hst => exact absurd hst hjoining
  · next hst => exact absurd hst honline
  · next hst => cases slot <;> simp [hst, and_comm]
  · next hst =>
    have hawake : q.state ≠ .asleep := hst
    cases slot <;> simp [hawake, and_comm]

theorem mem_slotEvents {q : Position} {ln : Line} {l p : Nat} {slot : UpSlot} {x : Event} : x ∈ q.slotEvents ln l p slot
    ↔ ((q.state = .joining ∨ q.state = .online) ∧ Acknowledges ln l p slot x)
      ∨ (q.state = .joining ∧ ((x = .podJoin l p ∧ 4 ≤ (joiningAfter q slot).good)
        ∨ (x = .joinFailed l p ∧ 3 ≤ (joiningAfter q slot).miss)))
      ∨ (q.state = .online ∧ ((x = .muteShortPress (podOf l p) ∧ ReleasesMute q slot)
        ∨ (x = .talkPress (podOf l p) ∧ PressesTalk q slot) ∨ (x = .longPress (podOf l p) ∧ q.hold = some 1999)
        ∨ (x = .podLost l p ∧ 3 ≤ (onlineAfter q slot).miss)))
      ∨ (x = .wakeRequest l p ∧ q.state = .asleep ∧ ∃ st, slot = .status st ∧ st.wakePulse = true)
      ∨ ((q.state = .absent ∨ q.state = .lost ∨ q.state = .asleep) ∧ Answers ln l p slot x) := by
  cases hst : q.state with
  | joining => simp [mem_slotEvents_joining hst]
  | online => simp [mem_slotEvents_online hst]
  | absent | lost | asleep =>
    rw [mem_slotEvents_other (by rw [hst]; decide) (by rw [hst]; decide)]
    simp [hst]

theorem ring_acknowledged {ln : Line} {l p : Nat} {slot : UpSlot} : Acknowledges ln l p slot (.ringAcknowledged l p)
    ↔ ∃ st v b, slot = .status st ∧ st.ack = true ∧ ln.sentTo p = some (.ring v b) := by
  simp [Acknowledges, mem_ackEvent]

theorem sleep_acknowledged {ln : Line} {l p : Nat} {slot : UpSlot} : Acknowledges ln l p slot (.sleepAcknowledged l p)
    ↔ ∃ st, slot = .status st ∧ st.ack = true ∧ ln.sentTo p = some .sleep := by
  simp [Acknowledges, mem_ackEvent]

/-- Of the slot's events, the acknowledgements alone acknowledge and the roll-call answer alone answers. -/
theorem acknowledges_origin {ln : Line} {l p : Nat} {slot : UpSlot} {x : Event} (h : Acknowledges ln l p slot x) :
    x = .sleepAcknowledged l p ∨ x = .ringAcknowledged l p := by
  obtain ⟨st, -, -, hx⟩ := h
  exact (mem_ackEvent.1 hx).imp And.left And.left

/-- The events that the slot of a position makes due, each for its cause (R133 to R137, R139, R142). -/
theorem slot_due (w t : State) (inp : BoundaryIn) {l p : Nat} (hl : l < 4) (hp : p < 8) :
    let ln := t.line l
    let q := t.position (podOf l p)
    let slot := t.slotIn inp (podOf l p)
    let due := w.dueNow t inp
    (.podJoin l p ∈ due ↔ ln.takesSlots = true ∧ q.state = .joining ∧ 4 ≤ (joiningAfter q slot).good)
      ∧ (.joinFailed l p ∈ due ↔ ln.takesSlots = true ∧ q.state = .joining ∧ 3 ≤ (joiningAfter q slot).miss)
      ∧ (.podLost l p ∈ due ↔ ln.takesSlots = true ∧ q.state = .online ∧ 3 ≤ (onlineAfter q slot).miss)
      ∧ (.muteShortPress (podOf l p) ∈ due ↔ ln.takesSlots = true ∧ q.state = .online ∧ ReleasesMute q slot)
      ∧ (.longPress (podOf l p) ∈ due ↔ ln.takesSlots = true ∧ q.state = .online ∧ q.hold = some 1999)
      ∧ (.talkPress (podOf l p) ∈ due ↔ ln.takesSlots = true ∧ q.state = .online ∧ PressesTalk q slot)
      ∧ (.ringAcknowledged l p ∈ due ↔ ln.takesSlots = true ∧ (q.state = .joining ∨ q.state = .online)
          ∧ ∃ st v b, slot = .status st ∧ st.ack = true ∧ ln.sentTo p = some (.ring v b))
      ∧ (.sleepAcknowledged l p ∈ due ↔ ln.takesSlots = true ∧ (q.state = .joining ∨ q.state = .online)
          ∧ ∃ st, slot = .status st ∧ st.ack = true ∧ ln.sentTo p = some .sleep)
      ∧ (.wakeRequest l p ∈ due ↔ ln.takesSlots = true ∧ q.state = .asleep ∧ ∃ st, slot = .status st ∧ st.wakePulse = true)
      ∧ (∀ rec, .rollCallAnswer l p rec ∈ due ↔ ln.takesSlots = true
          ∧ (q.state = .absent ∨ q.state = .lost ∨ q.state = .asleep) ∧ slot = .identity rec
          ∧ (ln.calledNow.getD 0).getLsbD p = true) := by
  intro ln q slot due
  have hother {x : Event} (hx : x ≠ .sleepAcknowledged l p ∧ x ≠ .ringAcknowledged l p) : ¬ Acknowledges ln l p slot x :=
    fun h => (acknowledges_origin h).elim hx.1 hx.2
  refine ⟨?_, ?_, ?_, ?_, ?_, ?_, ?_, ?_, ?_, fun rec => ?_⟩
  case refine_7 =>
    rw [due_of_own_slot hl hp rfl rfl, mem_slotEvents, ring_acknowledged]
    simp [Answers, ln, q, slot]
  case refine_8 =>
    rw [due_of_own_slot hl hp rfl rfl, mem_slotEvents, sleep_acknowledged]
    simp [Answers, ln, q, slot]
  all_goals
    rw [due_of_own_slot hl hp rfl rfl, mem_slotEvents]
    simp [hother, Answers, ln, q, slot]

/-- The wake events of a position (R141). -/
theorem wake_due (w t : State) (inp : BoundaryIn) {l p : Nat} (hl : l < 4) (hp : p < 8) :
    (.wakeFramesDone l p ∈ w.dueNow t inp ↔ ∃ e ∈ (w.line l).table, e.dest = .position p ∧ e.cmd = .wake 0)
      ∧ (.wakeFailed l p ∈ w.dueNow t inp ↔ (w.position (podOf l p)).wakeTimer = some 0) := by
  have hown {x : Event} (hx : eventOrigin x = .wake) (hpod : eventPod x = some (podOf l p)) :
      x ∈ w.dueNow t inp ↔ x ∈ w.wakeEvents l p := by
    rw [due_of_wake hx]
    constructor
    · rintro ⟨k, hk, j, hj, hmem⟩
      have hsame : podOf k j = podOf l p := Option.some.inj ((origin_of_wake hmem).2.symm.trans hpod)
      obtain rfl : k = l := by simpa only [lineOf_podOf hj, lineOf_podOf hp] using congrArg lineOf hsame
      obtain rfl : j = p := by simpa only [posOf_podOf hj, posOf_podOf hp] using congrArg posOf hsame
      exact hmem
    · exact fun hmem => ⟨l, hl, p, hp, hmem⟩
  constructor
  · rw [hown rfl rfl, mem_wakeEvents]
    simp
  · rw [hown rfl rfl, mem_wakeEvents]
    simp

/-- The ends of a line's state or frame, its roll call and its wake pulse (R128, R129, R133, R147, R148). -/
theorem end_due (w t : State) (inp : BoundaryIn) {l : Nat} (hl : l < 4) :
    let ln := w.line l
    let due := w.dueNow t inp
    (.startingEnd l ∈ due ↔ ln.state = .starting ∧ ln.remaining = 0)
      ∧ (.wakingEnd l ∈ due ↔ ln.state = .waking ∧ ln.remaining = 0)
      ∧ (.lineTestComplete l ∈ due ↔ ln.state = .testing ∧ ln.remaining = 0)
      ∧ (.sleepingEnd l ∈ due ↔ ln.state = .sleeping ∧ ln.sleepBroadcast = true)
      ∧ (.standbyFrameEnd l ∈ due ↔ ln.state = .sleeping ∧ ln.sleepBroadcast = false)
      ∧ (.rollCall l ∈ due ↔ ln.state = .running ∧ 64 ≤ ln.rollCount)
      ∧ (.wakePulse l ∈ due ↔ ln.state = .standby ∧ inp.wakePulse.getD l false = true) := by
  intro ln due
  have hown {x : Event} (hx : eventOrigin x = .lineEnd) (hline : x.lineOf? = some l) :
      x ∈ w.dueNow t inp ↔ x ∈ ln.endEvents l (inp.wakePulse.getD l false) := by
    rw [due_of_end hx]
    constructor
    · rintro ⟨k, hk, hmem⟩
      obtain rfl : k = l := Option.some.inj ((origin_of_end hmem).2.symm.trans hline)
      exact hmem
    · exact fun hmem => ⟨l, hl, hmem⟩
  refine ⟨?_, ?_, ?_, ?_, ?_, ?_, ?_⟩
  all_goals
    rw [hown rfl rfl, mem_endEvents]
    simp [ln]

/-! ### The counts of a line (R133, R146) -/

/-- A line with the counts of a boundary. -/
def lineCounted (ln : Line) (differs : Bool) : Line :=
  { ln with
    rollCount := if ln.state = .running then ln.rollCount + 1 else ln.rollCount
    sent := if ln.state = .testing ∧ ln.drivesTest = true then ln.sent + 1 else ln.sent
    mismatch := if ln.state = .testing ∧ ln.drivesTest = true ∧ differs = true then ln.mismatch + 1 else ln.mismatch }

theorem tick_eq (ln : Line) (differs early : Bool) : ln.tick differs early
    = if ln.state = .off ∨ ln.state = .standby then { lineCounted ln differs with early := false }
      else { lineCounted ln differs with toForm := true, early := early } := by
  unfold Line.tick lineCounted
  cases hst : ln.state with
  | testing =>
    have hdrives : Line.drivesTest { ln with state := .testing, early := early } = ln.drivesTest := rfl
    dsimp only
    rw [hdrives]
    cases ln.drivesTest <;> cases differs <;> simp
  | off | starting | running | sleeping | standby | waking => simp

/-- A line's tick leaves its state, its remaining count, its table and its frame. -/
theorem tick_keeps (ln : Line) (differs early : Bool) : (ln.tick differs early).state = ln.state
    ∧ (ln.tick differs early).remaining = ln.remaining ∧ (ln.tick differs early).table = ln.table
    ∧ (ln.tick differs early).frame = ln.frame
    ∧ (ln.state = .running → (ln.tick differs early).rollCount = ln.rollCount + 1) := by
  rw [tick_eq]
  split
  · exact ⟨rfl, rfl, rfl, rfl, fun h => if_pos h⟩
  · exact ⟨rfl, rfl, rfl, rfl, fun h => if_pos h⟩

theorem formed_tick (ln : Line) (differs early : Bool) (audio : List (List Int)) (number : Nat) :
    Line.formed { lineCounted ln differs with toForm := true, early := early } audio number
      = (lineCounted ln differs).formed audio number := rfl

/-- The frame of a line that has one to form: formed at once where nothing due holds it back, else to be formed. -/
theorem closeFrames_of_toForm {s : State} {l : Nat} (hl : l < 4) (hform : (s.line l).toForm = true) :
    ((∀ e ∈ s.due, e.lineOf? ≠ some l) → (s.line l).early = true ∨ s.due = [] →
        (closeFrames s).line l = (s.line l).formed (s.audioSlots l) s.sys.free)
      ∧ ((∃ e ∈ s.due, e.lineOf? = some l) ∨ ((s.line l).early = false ∧ s.due ≠ []) →
        (closeFrames s).line l = s.line l) := by
  have hready : s.frameReady l = true ↔ (∀ e ∈ s.due, e.lineOf? ≠ some l) ∧ ((s.line l).early = true ∨ s.due = []) := by
    unfold State.frameReady
    simp [hform]
  rw [closeFrames_line s hl]
  refine ⟨fun hown hearly => if_pos (hready.2 ⟨hown, hearly⟩), fun hheld => if_neg fun hr => ?_⟩
  obtain ⟨hown, hearly⟩ := hready.1 hr
  rcases hheld with ⟨e, he, hline⟩ | ⟨hlate, hdue⟩
  · exact hown e he hline
  · exact hearly.elim (fun h => absurd (hlate.symm.trans h) (by decide)) hdue

/-! ### A slot as received (R131, R189) -/

theorem checkMatches_iff (bs : List Byte) : checkMatches bs = true
    ↔ ofBytes (bs.drop (bs.length - 2)) = (crc16 (bs.take (bs.length - 2))).toNat := beq_iff_eq

theorem sortSlot_bad {bs : List Byte} (hbytes : bs ≠ []) (h : checkMatches bs = false) : sortSlot (.bytes bs) = .bad := by
  unfold sortSlot
  simp [hbytes, h]

theorem sortSlot_status {bs : List Byte} (h : checkMatches bs = true) (hlen : bs.length = 147) :
    sortSlot (.bytes bs) = .status ⟨(bs.getD 0 0).getLsbD 0, (bs.getD 0 0).getLsbD 1, (bs.getD 0 0).getLsbD 2,
      (bs.getD 0 0).getLsbD 3, block (fun i => sampleOf bs (1 + 3 * i))⟩ := by
  have hbytes : bs ≠ [] := by
    rintro rfl
    exact absurd hlen (by decide)
  unfold sortSlot
  simp only [List.isEmpty_iff, hbytes, h, hlen, Bool.not_true, Bool.false_eq_true, if_true, if_false]

theorem sortSlot_identity {bs : List Byte} (h : checkMatches bs = true) (hlen : bs.length = 12)
    (hmark : bs.getD 0 0 = 0x80#8) : sortSlot (.bytes bs) = .identity
      ⟨ofBytes ((bs.drop 1).take 2), (bs.getD 3 0).toNat, (bs.getD 4 0).toNat, ofBytes ((bs.drop 5).take 4),
        decide (bs.getD 9 0 = 1#8)⟩ := by
  have hbytes : bs ≠ [] := by
    rintro rfl
    exact absurd hlen (by decide)
  unfold sortSlot
  simp only [List.isEmpty_iff, hbytes, h, hlen, hmark, Bool.not_true, Bool.false_eq_true, if_true, if_false, decide_true,
    beq_self_eq_true, Bool.and_self, Nat.reduceEqDiff]
  rfl

theorem sortSlot_neither {bs : List Byte} (hbytes : bs ≠ []) (h : checkMatches bs = true) (hstatus : bs.length ≠ 147)
    (hidentity : bs.length ≠ 12 ∨ bs.getD 0 0 ≠ 0x80#8) : sortSlot (.bytes bs) = .bad := by
  have hnot : (decide (bs.length = 12) && bs.getD 0 0 == 0x80#8) = false := by
    rw [Bool.and_eq_false_iff, decide_eq_false_iff_not, beq_eq_false_iff_ne]
    exact hidentity
  unfold sortSlot
  simp only [List.isEmpty_iff, hbytes, h, hstatus, hnot, Bool.not_true, Bool.false_eq_true, if_false]

/-! ### The obligation -/

theorem boundary_due (inp : BoundaryIn) (t : State) :
    (closeFrames (boundary inp t)).due = (boundarySteps inp t).dueNow t inp := closeFrames_due (boundary inp t)

theorem boundary_position (inp : BoundaryIn) (t : State) (c : Nat) :
    (closeFrames (boundary inp t)).position c = (boundarySteps inp t).position c := by
  rw [closeFrames_eq]
  rfl

theorem closeFrames_audioSlots (s : State) (l : Nat) : (closeFrames s).audioSlots l = s.audioSlots l := by
  rw [closeFrames_eq]
  rfl

theorem closeFrames_free (s : State) : (closeFrames s).sys.free = s.sys.free := by
  rw [closeFrames_eq]

/-- The line of the state whose frames are then formed. -/
theorem boundary_line (inp : BoundaryIn) (t : State) {l : Nat} (hl : l < 4) : (boundary inp t).line l
    = (t.line l).tick (inp.readBackDiffers.getD l false) (inp.frameEarly.getD l false) := boundarySteps_line inp t hl

/-- The frame of a line after a boundary. -/
theorem boundary_frame (inp : BoundaryIn) {t : State} {l : Nat} (hl : l < 4) (hformed : (t.line l).toForm = false) :
    let u := closeFrames (boundary inp t)
    let ln := t.line l
    let early := inp.frameEarly.getD l false
    let counted := lineCounted ln (inp.readBackDiffers.getD l false)
    let idle := ln.state = .off ∨ ln.state = .standby
    (idle → u.line l = { counted with early := false })
      ∧ (¬ idle → (∀ e ∈ u.due, e.lineOf? ≠ some l) → early = true ∨ u.due = [] →
        u.line l = counted.formed (u.audioSlots l) u.sys.free)
      ∧ (¬ idle → (∃ e ∈ u.due, e.lineOf? = some l) ∨ (early = false ∧ u.due ≠ []) →
        u.line l = { counted with toForm := true, early := early }) := by
  intro u ln early counted idle
  have hline := (boundary_line inp t hl).trans (tick_eq ..)
  have hdue : u.due = (boundary inp t).due := closeFrames_due _
  refine ⟨fun hidle => ?_, fun hbusy => ?_, fun hbusy => ?_⟩
  · rw [if_pos hidle] at hline
    have hready : (boundary inp t).frameReady l = false := by
      unfold State.frameReady
      rw [hline]
      simp [lineCounted, hformed]
    rw [← hline]
    exact (closeFrames_line (boundary inp t) hl).trans (if_neg (by rw [hready]; exact Bool.false_ne_true))
  · rw [if_neg hbusy] at hline
    have hclose := (closeFrames_of_toForm (s := boundary inp t) hl (by rw [hline])).1
    rw [hline, formed_tick, ← closeFrames_audioSlots, ← closeFrames_free, ← hdue] at hclose
    exact hclose
  · rw [if_neg hbusy] at hline
    have hclose := (closeFrames_of_toForm (s := boundary inp t) hl (by rw [hline])).2
    rw [hline, ← hdue] at hclose
    exact hclose

/-- The ends of a line's state or frame, by the line before the boundary. -/
theorem boundary_end_due (inp : BoundaryIn) (t : State) {l : Nat} (hl : l < 4) :
    let ln := t.line l
    let due := (closeFrames (boundary inp t)).due
    (.startingEnd l ∈ due ↔ ln.state = .starting ∧ ln.remaining = 0)
      ∧ (.wakingEnd l ∈ due ↔ ln.state = .waking ∧ ln.remaining = 0)
      ∧ (.lineTestComplete l ∈ due ↔ ln.state = .testing ∧ ln.remaining = 0)
      ∧ (.sleepingEnd l ∈ due ↔ ln.state = .sleeping ∧ ln.sleepBroadcast = true)
      ∧ (.standbyFrameEnd l ∈ due ↔ ln.state = .sleeping ∧ ln.sleepBroadcast = false)
      ∧ (.rollCall l ∈ due ↔ ln.state = .running ∧ 64 ≤ ln.rollCount + 1)
      ∧ (.wakePulse l ∈ due ↔ ln.state = .standby ∧ inp.wakePulse.getD l false = true) := by
  intro ln due
  obtain ⟨hstate, hremaining, -, hframe, hcount⟩ :=
    tick_keeps ln (inp.readBackDiffers.getD l false) (inp.frameEarly.getD l false)
  have hends := end_due (boundarySteps inp t) t inp hl
  rw [boundarySteps_line inp t hl, ← boundary_due] at hends
  have hbroadcast : (ln.tick (inp.readBackDiffers.getD l false) (inp.frameEarly.getD l false)).sleepBroadcast
      = ln.sleepBroadcast := by
    unfold Line.sleepBroadcast
    rw [hframe]
  obtain ⟨hstarting, hwaking, htest, hsleeping, hstandby, hroll, hpulse⟩ := hends
  rw [hstate] at hstarting hwaking htest hsleeping hstandby hroll hpulse
  rw [hremaining] at hstarting hwaking htest
  rw [hbroadcast] at hsleeping hstandby
  exact ⟨hstarting, hwaking, htest, hsleeping, hstandby,
    hroll.trans (and_congr_right fun hrunning => by rw [hcount hrunning]), hpulse⟩

/-- A position after a boundary, by what its line's frame in flight brings it. -/
theorem boundary_position_eq (inp : BoundaryIn) (t : State) {l p : Nat} (hl : l < 4) (hp : p < 8) :
    let q := t.position (podOf l p)
    let q' := (closeFrames (boundary inp t)).position (podOf l p)
    let slot := t.slotIn inp (podOf l p)
    (¬ (t.line l).takesSlots = true → q' = wakeTimed q.holdStep)
      ∧ ((t.line l).takesSlots = true → q.state = .joining → q' = wakeTimed (joiningAfter q slot))
      ∧ ((t.line l).takesSlots = true → q.state = .online → q' = wakeTimed (onlineAfter q slot))
      ∧ ((t.line l).takesSlots = true → q.state ≠ .joining → q.state ≠ .online → q' = wakeTimed { q with
          checkFails := if slot = .bad ∧ ((t.line l).calledNow.getD 0).getLsbD p = true then bump q.checkFails
            else q.checkFails }) := by
  intro q q' slot
  have hpos := (boundary_position inp t (podOf l p)).trans (boundarySteps_position inp t hl hp)
  refine ⟨fun hnot => ?_, fun htakes hst => ?_, fun htakes hst => ?_, fun htakes hjoining honline => ?_⟩
  · rw [if_neg hnot] at hpos
    exact hpos
  · rw [if_pos htakes, takeSlot_of_joining hst] at hpos
    exact hpos
  · rw [if_pos htakes, takeSlot_of_online hst] at hpos
    exact hpos
  · rw [if_pos htakes, takeSlot_of_other hjoining honline] at hpos
    exact hpos

/-- Where no levels are known, a good slot brings no edge of MUTE (R136). -/
theorem edges_hold_of_none {q : Position} (st : StatusSlot) (h : q.levels = none) : (q.edges st).hold = q.hold := by
  unfold Position.edges
  rw [h]
  cases st.mute <;> simp

/-- The MUTE hold after a good slot of an ONLINE position (R136). -/
theorem edges_hold_of_some {q : Position} {was : Levels} (st : StatusSlot) (h : q.levels = some was) :
    (q.edges st).hold = if st.mute = true ∧ ¬ was.mute = true then some 0
      else if was.mute = true ∧ ¬ st.mute = true then none else q.hold := by
  unfold Position.edges
  rw [h]
  cases st.mute <;> cases hw : was.mute <;> simp [hw]

theorem edges_eq (q : Position) (st : StatusSlot) :
    q.edges st = { q with levels := some ⟨st.mute, st.talk⟩, hold := (q.edges st).hold } := rfl

/-- The hold of a position after one more boundary. -/
def holdCounted (q : Position) : Option Nat := q.hold.map (fun n => if n < 2000 then n + 1 else n)

theorem onlineAfter_status_of_none {q : Position} (st : StatusSlot) (h : q.levels = none) :
    onlineAfter q (.status st) = { q with miss := 0, levels := some ⟨st.mute, st.talk⟩, hold := holdCounted q } := by
  have hlevels : ({ q.holdStep with miss := 0 } : Position).levels = none := h
  rw [onlineAfter, edges_eq, edges_hold_of_none st hlevels]
  rfl

theorem onlineAfter_status_of_some {q : Position} {was : Levels} (st : StatusSlot) (h : q.levels = some was) :
    onlineAfter q (.status st) = { q with
      miss := 0, levels := some ⟨st.mute, st.talk⟩
      hold := if st.mute = true ∧ ¬ was.mute = true then some 0
        else if was.mute = true ∧ ¬ st.mute = true then none else holdCounted q } := by
  have hlevels : ({ q.holdStep with miss := 0 } : Position).levels = some was := h
  rw [onlineAfter, edges_eq, edges_hold_of_some st hlevels]
  rfl

theorem onlineAfter_missed (q : Position) : onlineAfter q .missed
    = { q with missed := bump q.missed, miss := q.miss + 1, hold := holdCounted q } := rfl

theorem onlineAfter_lost {q : Position} {slot : UpSlot} (hmissed : slot ≠ .missed) (hstatus : ∀ st, slot ≠ .status st) :
    onlineAfter q slot = { q with checkFails := bump q.checkFails, miss := q.miss + 1, hold := holdCounted q } := by
  cases slot with
  | missed => exact absurd rfl hmissed
  | status st => exact absurd rfl (hstatus st)
  | bad | identity | bytes => rfl

/-- Settles O36. -/
theorem boundaryServesTheLines : Obligations.BoundaryServesTheLines := by
  refine ⟨fun inp s hreset => ?boundary, fun bs => ?sorting⟩
  case sorting =>
    intro n good
    have hgood : checkMatches bs = true ↔ good := checkMatches_iff bs
    refine ⟨rfl, fun hbytes hbad => sortSlot_bad hbytes ?_, fun hok hlen => ?_, fun hok hlen hmark => ?_,
      fun hbytes hok hstatus hidentity => sortSlot_neither hbytes (hgood.2 hok) hstatus hidentity⟩
    · exact Bool.eq_false_iff.2 (fun h => hbad (hgood.1 h))
    · exact ⟨_, fun i hi => sampleAt_block _ hi, sortSlot_status (hgood.2 hok) hlen⟩
    · exact sortSlot_identity (hgood.2 hok) hlen hmark
  case boundary =>
    intro t
    have hexec : exec (.blockBoundary inp) s = .next (closeFrames (boundary inp t)) := exec_blockBoundary inp hreset
    have hsettled : t.settled := settle_settled s
    clear_value t
    have hdue := boundary_due inp t
    refine ⟨_, hexec, fun l p hl hp => ?positions, fun l hl => ?lines⟩
    case lines =>
      intro ln idle counted
      obtain ⟨hidle, hformed, hheld⟩ := boundary_frame inp hl (hsettled.2 l hl)
      obtain ⟨hstarting, hwaking, htest, hsleeping, hstandby, hroll, hpulse⟩ := boundary_end_due inp t hl
      exact ⟨hidle, hformed, hheld, hstarting, hwaking, htest, hsleeping, hstandby, hroll, hpulse⟩
    case positions =>
      intro c q q' ln slot takes called bump' held w
      obtain ⟨hnone, hjoining, honline, hother⟩ := boundary_position_eq inp t hl hp
      obtain ⟨hjoin, hfail, hlost, hmute, hlong, htalk, hring, hsleep, hwake, hanswer⟩ :=
        slot_due (boundarySteps inp t) t inp hl hp
      obtain ⟨hdone, hfailed⟩ := wake_due (boundarySteps inp t) t inp hl hp
      rw [← hdue] at hjoin hfail hlost hmute hlong htalk hring hsleep hwake hdone hfailed
      rw [boundarySteps_line inp t hl, (tick_keeps _ _ _).2.2.1] at hdone
      rw [← boundary_position] at hfailed
      refine ⟨hnone, fun htakes hst => ?_, fun htakes hst => ?_, hother, ?_, ?_, ?_, hmute, hlong, htalk, hring, hsleep, hwake,
        fun rec => ?_, hdone, hfailed⟩
      · refine (hjoining htakes hst).trans ?_
        dsimp only [slot, c]
        cases t.slotIn inp (podOf l p) with
        | missed | bad | status | identity | bytes => rfl
      · refine (honline htakes hst).trans ?_
        dsimp only [slot, c]
        cases t.slotIn inp (podOf l p) with
        | missed =>
          rw [onlineAfter_missed]
          rfl
        | bad | identity | bytes =>
          rw [onlineAfter_lost (by simp) (by simp)]
          rfl
        | status st =>
          cases hlevels : q.levels with
          | none =>
            rw [onlineAfter_status_of_none st hlevels]
            rfl
          | some was =>
            rw [onlineAfter_status_of_some st hlevels]
            rfl
      · exact hjoin.trans (and_congr_right fun htakes => and_congr_right fun hst =>
          .of_eq (congrArg (4 ≤ ·) (congrArg Position.good (hjoining htakes hst)).symm))
      · exact hfail.trans (and_congr_right fun htakes => and_congr_right fun hst =>
          .of_eq (congrArg (3 ≤ ·) (congrArg Position.miss (hjoining htakes hst)).symm))
      · exact hlost.trans (and_congr_right fun htakes => and_congr_right fun hst =>
          .of_eq (congrArg (3 ≤ ·) (congrArg Position.miss (honline htakes hst)).symm))
      · rw [hdue]
        exact hanswer rec

end Sys2Proof.Proofs
end

