-- ==== Sys2Proof/Proofs/SineSeries.lean ====
section
/-! PROOFS. How near the model's sine comes to the sine: the error of its whole-number steps, the tail of the series, the
error of its angle, and the quarters of the circle. -/

set_option Elab.async false

namespace Sys2Proof.Proofs

open Sys2Proof Sys2Proof.Machine

/-! ### Whole-number division -/

/-- A whole-number quotient is at most 1 below the quotient. -/
theorem ediv_error (a : Int) {d : Int} (hd : 0 < d) : |((a / d : Int) : ℝ) - (a : ℝ) / d| ≤ 1 := by
  have hpos : (0 : ℝ) < d := by exact_mod_cast hd
  have hsplit : (d : ℝ) * ((a / d : Int) : ℝ) + ((a % d : Int) : ℝ) = a := by exact_mod_cast Int.mul_ediv_add_emod a d
  have hlow : (0 : ℝ) ≤ ((a % d : Int) : ℝ) := by exact_mod_cast Int.emod_nonneg a hd.ne'
  have hhigh : ((a % d : Int) : ℝ) < d := by exact_mod_cast Int.emod_lt_of_pos a hd
  have hquot : ((a / d : Int) : ℝ) - (a : ℝ) / d = -(((a % d : Int) : ℝ) / d) := by
    field_simp
    linarith
  rw [hquot, abs_neg, abs_of_nonneg (div_nonneg hlow hpos.le), div_le_one hpos]
  exact hhigh.le

/-! ### The series -/

/-- A term of the sine's series. -/
noncomputable def sineTerm (y : ℝ) (i : Nat) : ℝ := (-1) ^ i * y ^ (2 * i + 1) / (2 * i + 1).factorial

theorem sineTerm_succ (y : ℝ) (i : Nat) :
    sineTerm y (i + 1) = -(sineTerm y i * y ^ 2) / (2 * (i + 1) * (2 * (i + 1) + 1) : Nat) := by
  have hfactorial : (2 * (i + 1) + 1).factorial = (2 * (i + 1) * (2 * (i + 1) + 1)) * (2 * i + 1).factorial := by
    rw [show 2 * (i + 1) + 1 = (2 * i + 1) + 1 + 1 by ring, Nat.factorial_succ, Nat.factorial_succ]
    ring
  have hne : ((2 * i + 1).factorial : ℝ) ≠ 0 := by exact_mod_cast (Nat.factorial_pos _).ne'
  have hstep : ((2 * (i + 1) * (2 * (i + 1) + 1) : Nat) : ℝ) ≠ 0 := by positivity
  rw [sineTerm, sineTerm, hfactorial, Nat.cast_mul]
  field_simp
  ring

/-- On the first quarter of the circle no term is larger than the first can be. -/
theorem abs_sineTerm_le {y : ℝ} (hlow : 0 ≤ y) (hhigh : y ≤ 8 / 5) (i : Nat) : |sineTerm y i| ≤ 8 / 5 := by
  induction i with
  | zero => simpa [sineTerm, abs_of_nonneg hlow] using hhigh
  | succ i ih =>
    have hstep : (6 : ℝ) ≤ (2 * (i + 1) * (2 * (i + 1) + 1) : Nat) := by
      push_cast
      nlinarith [(Nat.cast_nonneg i : (0 : ℝ) ≤ i)]
    have hsquare : y ^ 2 ≤ 6 := by nlinarith
    rw [sineTerm_succ, abs_div, abs_neg, abs_mul, abs_of_nonneg (sq_nonneg y), Nat.abs_cast,
      div_le_iff₀ (by linarith)]
    nlinarith [abs_nonneg (sineTerm y i), sq_nonneg y]

/-- The scale of the sine, as a real number. -/
theorem unit_cast : ((unit : Int) : ℝ) = 2 ^ 96 := by norm_num [unit]

theorem unit_pos : (0 : Int) < (unit : Int) := by norm_num [unit]

/-- The square of the angle in whole numbers. -/
theorem square_error {x : Int} (hx : 0 ≤ x) : 0 ≤ ((x * x / unit : Int) : ℝ)
    ∧ ((x * x / unit : Int) : ℝ) ≤ 2 ^ 96 * ((x : ℝ) / 2 ^ 96) ^ 2
    ∧ |((x * x / unit : Int) : ℝ) - 2 ^ 96 * ((x : ℝ) / 2 ^ 96) ^ 2| ≤ 1 := by
  have hval : ((x * x : Int) : ℝ) / ((unit : Int) : ℝ) = 2 ^ 96 * ((x : ℝ) / 2 ^ 96) ^ 2 := by
    rw [unit_cast]
    push_cast
    field_simp
  refine ⟨by exact_mod_cast Int.ediv_nonneg (Int.mul_nonneg hx hx) unit_pos.le, ?_, hval ▸ ediv_error (x * x) unit_pos⟩
  rw [← hval, le_div_iff₀ (by exact_mod_cast unit_pos)]
  exact_mod_cast Int.ediv_mul_le (x * x) unit_pos.ne'

/-- One step of the series in whole numbers stays within 3 of the term. -/
theorem sineStep_error {x t : Int} {τ : ℝ} {d : Nat} (hx : 0 ≤ x) (hhigh : (x : ℝ) / 2 ^ 96 ≤ 8 / 5)
    (hτ : |τ| ≤ 8 / 5) (ht : |(t : ℝ) - 2 ^ 96 * τ| ≤ 3) (hd : 6 ≤ d) :
    |((-(t * (x * x / unit) / unit) / (d : Int) : Int) : ℝ) - 2 ^ 96 * (-(τ * ((x : ℝ) / 2 ^ 96) ^ 2) / d)| ≤ 3 := by
  have hdR : (6 : ℝ) ≤ d := by exact_mod_cast hd
  obtain ⟨hsq0, hsqle, hsq⟩ := square_error hx
  have hy0 : 0 ≤ (x : ℝ) / 2 ^ 96 := div_nonneg (by exact_mod_cast hx) (by positivity)
  generalize (x : ℝ) / 2 ^ 96 = y at *
  generalize x * x / (unit : Int) = w at *
  have hproduct := ediv_error (t * w) unit_pos
  rw [unit_cast, Int.cast_mul] at hproduct
  have hquotient := ediv_error (-(t * w / unit)) (d := d) (by omega)
  generalize -(t * w / (unit : Int)) / (d : Int) = next at *
  generalize t * w / (unit : Int) = p at *
  have hw : |(w : ℝ) / 2 ^ 96| ≤ 64 / 25 := by
    rw [abs_of_nonneg (by positivity), div_le_iff₀ (by positivity)]
    nlinarith
  have hparts : (t : ℝ) * w / 2 ^ 96 - 2 ^ 96 * (τ * y ^ 2)
      = ((t : ℝ) - 2 ^ 96 * τ) * (w / 2 ^ 96) + τ * (w - 2 ^ 96 * y ^ 2) := by ring
  have herror : |(t : ℝ) * w / 2 ^ 96 - 2 ^ 96 * (τ * y ^ 2)| ≤ 3 * (64 / 25) + 8 / 5 * 1 := by
    rw [hparts]
    refine (abs_add_le _ _).trans (add_le_add ?_ ?_)
    · rw [abs_mul]
      exact mul_le_mul ht hw (abs_nonneg _) (by norm_num)
    · rw [abs_mul]
      exact mul_le_mul hτ hsq (abs_nonneg _) (by norm_num)
  have hnear : |(p : ℝ) - 2 ^ 96 * (τ * y ^ 2)| ≤ 11 := by
    have htriangle := abs_add_le ((p : ℝ) - t * w / 2 ^ 96) ((t : ℝ) * w / 2 ^ 96 - 2 ^ 96 * (τ * y ^ 2))
    rw [sub_add_sub_cancel] at htriangle
    exact htriangle.trans ((add_le_add hproduct herror).trans (by norm_num))
  have hdivided : |((-p : Int) : ℝ) / ((d : Int) : ℝ) - 2 ^ 96 * (-(τ * y ^ 2) / d)| ≤ 11 / 6 := by
    have hvalue : ((-p : Int) : ℝ) / ((d : Int) : ℝ) - 2 ^ 96 * (-(τ * y ^ 2) / d)
        = -(((p : ℝ) - 2 ^ 96 * (τ * y ^ 2)) / d) := by
      push_cast
      ring
    rw [hvalue, abs_neg, abs_div, Nat.abs_cast, div_le_div_iff₀ (by linarith) (by norm_num)]
    nlinarith
  have htriangle := abs_add_le ((next : ℝ) - ((-p : Int) : ℝ) / ((d : Int) : ℝ))
    (((-p : Int) : ℝ) / ((d : Int) : ℝ) - 2 ^ 96 * (-(τ * y ^ 2) / d))
  rw [sub_add_sub_cancel] at htriangle
  exact htriangle.trans ((add_le_add hquotient hdivided).trans (by norm_num))

/-- The series in whole numbers, from term `j` on. -/
theorem sineSeries_error {x : Int} (hx : 0 ≤ x) (hhigh : (x : ℝ) / 2 ^ 96 ≤ 8 / 5) (n : Nat) :
    ∀ (j : Nat) (t acc : Int), |(t : ℝ) - 2 ^ 96 * sineTerm ((x : ℝ) / 2 ^ 96) j| ≤ 3 →
      |((sineSeries n (j + 1) (x * x / unit) t acc : Int) : ℝ)
        - (acc + 2 ^ 96 * ∑ i ∈ Finset.range n, sineTerm ((x : ℝ) / 2 ^ 96) (j + 1 + i))| ≤ 3 * (n : ℝ) := by
  have hy0 : 0 ≤ (x : ℝ) / 2 ^ 96 := div_nonneg (by exact_mod_cast hx) (by positivity)
  induction n with
  | zero => intro j t acc _; simp [sineSeries]
  | succ n ih =>
    intro j t acc ht
    have hstep := sineStep_error (d := 2 * (j + 1) * (2 * (j + 1) + 1)) hx hhigh (abs_sineTerm_le hy0 hhigh j) ht
      (by nlinarith)
    rw [← sineTerm_succ] at hstep
    rw [sineSeries]
    generalize -(t * (x * x / (unit : Int)) / (unit : Int)) / ((2 * (j + 1) * (2 * (j + 1) + 1) : Nat) : Int) = next
      at hstep
    have hrest := ih (j + 1) next (acc + next) hstep
    rw [Finset.sum_range_succ']
    have hshift : ∑ i ∈ Finset.range n, sineTerm ((x : ℝ) / 2 ^ 96) (j + 1 + (i + 1))
        = ∑ i ∈ Finset.range n, sineTerm ((x : ℝ) / 2 ^ 96) (j + 1 + 1 + i) :=
      Finset.sum_congr rfl fun i _ => by rw [show j + 1 + (i + 1) = j + 1 + 1 + i by omega]
    rw [hshift, Nat.add_zero]
    push_cast at hrest ⊢
    rw [abs_le] at hrest hstep ⊢
    constructor <;> linarith [hrest.1, hrest.2, hstep.1, hstep.2]

/-- The factorials past the 24th term outgrow the powers of the angle. -/
theorem factorial_past (i : Nat) : 2 ^ 114 * 8 ^ i ≤ (2 * (i + 24) + 1).factorial := by
  have hfirst : 2 ^ 114 ≤ (49).factorial := by decide +kernel
  have hrest : 8 ^ i ≤ (49 + 1) ^ (2 * i) := by
    rw [pow_mul]
    exact Nat.pow_le_pow_left (by norm_num) i
  calc 2 ^ 114 * 8 ^ i ≤ (49).factorial * (49 + 1) ^ (2 * i) := Nat.mul_le_mul hfirst hrest
    _ ≤ (49 + 2 * i).factorial := Nat.factorial_mul_pow_le_factorial
    _ = (2 * (i + 24) + 1).factorial := by rw [show 49 + 2 * i = 2 * (i + 24) + 1 by ring]

/-- A term past the 24th. -/
theorem abs_sineTerm_past {y : ℝ} (hlow : 0 ≤ y) (hhigh : y ≤ 8 / 5) (i : Nat) :
    |sineTerm y (i + 24)| ≤ 1 / 2 ^ 65 * (1 / 2) ^ i := by
  have hpower : y ^ (2 * (i + 24) + 1) ≤ 2 ^ 49 * 4 ^ i := by
    calc y ^ (2 * (i + 24) + 1) ≤ 2 ^ (2 * (i + 24) + 1) := pow_le_pow_left₀ hlow (by linarith) _
      _ = 2 ^ 49 * 4 ^ i := by
        rw [show 2 * (i + 24) + 1 = 49 + 2 * i by ring, pow_add, pow_mul]
        norm_num
  have hfactorial : (2 ^ 114 * 8 ^ i : ℝ) ≤ ((2 * (i + 24) + 1).factorial : ℝ) := by exact_mod_cast factorial_past i
  rw [sineTerm, abs_div, abs_mul, abs_pow, abs_neg, abs_one, one_pow, one_mul, Nat.abs_cast,
    abs_of_nonneg (pow_nonneg hlow _), div_le_iff₀ (by exact_mod_cast Nat.factorial_pos _)]
  calc y ^ (2 * (i + 24) + 1) ≤ 2 ^ 49 * 4 ^ i := hpower
    _ = 1 / 2 ^ 65 * (1 / 2) ^ i * (2 ^ 114 * 8 ^ i) := by
      rw [show (8 : ℝ) = 2 * 4 by norm_num, mul_pow, one_div_pow]
      field_simp
    _ ≤ 1 / 2 ^ 65 * (1 / 2) ^ i * ((2 * (i + 24) + 1).factorial : ℝ) :=
      mul_le_mul_of_nonneg_left hfactorial (by positivity)

/-- The tail of the series after 24 terms. -/
theorem sin_sub_sum {y : ℝ} (hlow : 0 ≤ y) (hhigh : y ≤ 8 / 5) :
    |Real.sin y - ∑ i ∈ Finset.range 24, sineTerm y i| ≤ 1 / 2 ^ 64 := by
  have htail := (hasSum_nat_add_iff' (f := sineTerm y) 24).2 (Real.hasSum_sin y)
  have hbound : HasSum (fun i : Nat => (1 / 2 ^ 65 : ℝ) * (1 / 2) ^ i) (1 / 2 ^ 65 * 2) :=
    hasSum_geometric_two.mul_left _
  refine (htail.norm_le_of_bounded hbound fun i => ?_).trans (by norm_num)
  exact abs_sineTerm_past hlow hhigh i

/-- The series in whole numbers comes near the sine of its angle. -/
theorem sineSeries_near {x : Int} (hx : 0 ≤ x) (hhigh : (x : ℝ) / 2 ^ 96 ≤ 8 / 5) :
    |((sineSeries 23 1 (x * x / unit) x x : Int) : ℝ) / 2 ^ 96 - Real.sin ((x : ℝ) / 2 ^ 96)| ≤ 1 / 2 ^ 63 := by
  have hy0 : 0 ≤ (x : ℝ) / 2 ^ 96 := div_nonneg (by exact_mod_cast hx) (by positivity)
  have hfirst : (x : ℝ) = 2 ^ 96 * sineTerm ((x : ℝ) / 2 ^ 96) 0 := by
    rw [sineTerm]
    norm_num
    ring
  have hseries := sineSeries_error hx hhigh 23 0 x x (by rw [← hfirst]; norm_num)
  have htail := sin_sub_sum hy0 hhigh
  rw [Finset.sum_range_succ'] at htail
  have hsum : (x : ℝ) + 2 ^ 96 * ∑ i ∈ Finset.range 23, sineTerm ((x : ℝ) / 2 ^ 96) (0 + 1 + i)
      = 2 ^ 96 * (∑ i ∈ Finset.range 23, sineTerm ((x : ℝ) / 2 ^ 96) (i + 1) + sineTerm ((x : ℝ) / 2 ^ 96) 0) := by
    rw [mul_add, ← hfirst, add_comm]
    refine congrArg (_ * · + _) (Finset.sum_congr rfl fun i _ => by rw [show 0 + 1 + i = i + 1 by ring])
  rw [hsum] at hseries
  generalize ∑ i ∈ Finset.range 23, sineTerm ((x : ℝ) / 2 ^ 96) (i + 1) + sineTerm ((x : ℝ) / 2 ^ 96) 0 = total
    at hseries htail
  rw [Nat.zero_add, Nat.cast_ofNat] at hseries
  generalize ((sineSeries 23 1 (x * x / unit) x x : Int) : ℝ) = v at hseries ⊢
  rw [abs_le] at hseries htail ⊢
  constructor <;> linarith [hseries.1, hseries.2, htail.1, htail.2]

/-! ### The angle -/

theorem piNum_near : |(piNum : ℝ) / 2 ^ 96 - Real.pi| ≤ 1 / 10 ^ 19 := by
  have hlow : (314159265358979323846 / 10 ^ 20 : ℝ) ≤ (piNum : ℝ) / 2 ^ 96 := by norm_num [piNum]
  have hhigh : (piNum : ℝ) / 2 ^ 96 ≤ 314159265358979323847 / 10 ^ 20 := by norm_num [piNum]
  have hpiLow := Real.pi_gt_d20
  have hpiHigh := Real.pi_lt_d20
  rw [abs_le]
  constructor <;> linarith

/-- The model's angle of `k` of `n` samples of a cycle. -/
theorem angle_near {k n : Nat} (hn : 0 < n) (hk : 4 * k ≤ n) :
    |(((2 * piNum * k / n : Nat) : Int) : ℝ) / 2 ^ 96 - 2 * Real.pi * k / n| ≤ 1 / 2 ^ 64 := by
  have hnR : (0 : ℝ) < n := by exact_mod_cast hn
  have hkR : (4 : ℝ) * k ≤ n := by exact_mod_cast hk
  have hquot := ediv_error ((2 * piNum * k : Nat) : Int) (d := n) (by exact_mod_cast hn)
  have hpart : (k : ℝ) / n ≤ 1 / 4 := by
    rw [div_le_div_iff₀ hnR (by norm_num)]
    linarith
  have hpart0 : (0 : ℝ) ≤ (k : ℝ) / n := by positivity
  rw [Int.natCast_ediv]
  generalize ((2 * piNum * k : Nat) : Int) / (n : Int) = x at hquot ⊢
  have hvalue : (((2 * piNum * k : Nat) : Int) : ℝ) / ((n : Int) : ℝ) = 2 * ((piNum : ℝ) * (k / n)) := by
    push_cast
    ring
  have hangle : (x : ℝ) / 2 ^ 96 - 2 * Real.pi * k / n
      = (x - 2 * ((piNum : ℝ) * (k / n))) / 2 ^ 96 + 2 * (k / n) * ((piNum : ℝ) / 2 ^ 96 - Real.pi) := by ring
  rw [hvalue] at hquot
  rw [hangle]
  have hround : |(x - 2 * ((piNum : ℝ) * (k / n))) / 2 ^ 96| ≤ 1 / 2 ^ 96 := by
    rw [abs_div, abs_of_pos (by positivity : (0 : ℝ) < 2 ^ 96)]
    exact div_le_div_of_nonneg_right hquot (by positivity)
  have hpi : |2 * ((k : ℝ) / n) * ((piNum : ℝ) / 2 ^ 96 - Real.pi)| ≤ 1 / 2 * (1 / 10 ^ 19) := by
    rw [abs_mul, abs_of_nonneg (by positivity)]
    exact mul_le_mul (by linarith) piNum_near (abs_nonneg _) (by norm_num)
  exact (abs_add_le _ _).trans ((add_le_add hround hpi).trans (by norm_num))

/-- A quarter of the circle. -/
theorem sineQuarter_near {k n : Nat} (hn : 0 < n) (hk : 4 * k ≤ n) :
    |((sineQuarter k n : Int) : ℝ) / 2 ^ 96 - Real.sin (2 * Real.pi * k / n)| ≤ 1 / 2 ^ 62 := by
  have hnR : (n : ℝ) ≠ 0 := by exact_mod_cast hn.ne'
  unfold sineQuarter
  split
  · next hcrest =>
    have hangle : 2 * Real.pi * k / n = Real.pi / 2 := by
      rw [← hcrest]
      push_cast
      have hk0 : (k : ℝ) ≠ 0 := by
        have : k ≠ 0 := by omega
        exact_mod_cast this
      field_simp
      norm_num
    rw [hangle, Real.sin_pi_div_two, unit_cast]
    norm_num
  · have hangle := angle_near hn hk
    dsimp only
    have hx : 0 ≤ ((2 * piNum * k / n : Nat) : Int) := Int.natCast_nonneg _
    generalize ((2 * piNum * k / n : Nat) : Int) = x at hangle hx ⊢
    have hquarter : 2 * Real.pi * k / n ≤ 1.5708 := by
      have hkR : (4 : ℝ) * k ≤ n := by exact_mod_cast hk
      rw [div_le_iff₀ (by exact_mod_cast hn)]
      nlinarith [Real.pi_lt_d6, Real.pi_pos, (Nat.cast_nonneg k : (0 : ℝ) ≤ k)]
    have hhigh : (x : ℝ) / 2 ^ 96 ≤ 8 / 5 := by
      have := (abs_le.1 hangle).2
      linarith
    have hseries := sineSeries_near hx hhigh
    have hsin := (Real.abs_sin_sub_sin_le ((x : ℝ) / 2 ^ 96) (2 * Real.pi * k / n)).trans hangle
    have htriangle := abs_add_le
      (((sineSeries 23 1 (x * x / unit) x x : Int) : ℝ) / 2 ^ 96 - Real.sin ((x : ℝ) / 2 ^ 96))
      (Real.sin ((x : ℝ) / 2 ^ 96) - Real.sin (2 * Real.pi * k / n))
    rw [sub_add_sub_cancel] at htriangle
    exact htriangle.trans ((add_le_add hseries hsin).trans (by norm_num))

/-! ### The whole circle -/

/-- The first half of the circle: its second quarter folds onto the first. -/
theorem sineHalf_near {m h : Nat} (hm : 0 < m) (hh : h < 2 * m) :
    |((sineQuarter (if 4 * m < 4 * h then 4 * m / 2 - h else h) (4 * m) : Int) : ℝ) / 2 ^ 96
      - Real.sin (2 * Real.pi * h / (4 * m : Nat))| ≤ 1 / 2 ^ 62 := by
  split
  · have hnear := sineQuarter_near (k := 4 * m / 2 - h) (n := 4 * m) (by omega) (by omega)
    have hangle : 2 * Real.pi * (4 * m / 2 - h : Nat) / (4 * m : Nat) = Real.pi - 2 * Real.pi * h / (4 * m : Nat) := by
      have hmR : (m : ℝ) ≠ 0 := by exact_mod_cast hm.ne'
      rw [show 4 * m / 2 - h = 2 * m - h by omega, Nat.cast_sub (by omega)]
      push_cast
      field_simp
      ring
    rwa [hangle, Real.sin_pi_sub] at hnear
  · exact sineQuarter_near (by omega) (by omega)

/-- The angle of a sample does not depend on the cycles before it. -/
theorem sin_mod (k : Nat) {n : Nat} (hn : 0 < n) :
    Real.sin (2 * Real.pi * (k % n : Nat) / n) = Real.sin (2 * Real.pi * k / n) := by
  have hnR : (n : ℝ) ≠ 0 := by exact_mod_cast hn.ne'
  have hsplit : (k : ℝ) = (k % n : Nat) + n * (k / n : Nat) := by exact_mod_cast (Nat.mod_add_div k n).symm
  have hangle : 2 * Real.pi * k / n = 2 * Real.pi * (k % n : Nat) / n + (k / n : Nat) * (2 * Real.pi) := by
    conv_lhs => rw [hsplit]
    field_simp
  rw [hangle, Real.sin_add_nat_mul_two_pi]

/-- The model's sine comes near the sine at every sample. -/
theorem sine_near {n : Nat} (hn : 0 < n) (hfour : 4 ∣ n) (k : Nat) :
    |((sine k n : Int) : ℝ) / 2 ^ 96 - Real.sin (2 * Real.pi * k / n)| ≤ 1 / 2 ^ 62 := by
  obtain ⟨m, rfl⟩ := hfour
  have hm : 0 < m := by omega
  rw [← sin_mod k hn]
  unfold sine
  dsimp only
  have hlt : k % (4 * m) < 4 * m := Nat.mod_lt _ hn
  generalize k % (4 * m) = r at hlt ⊢
  by_cases hhalf : 4 * m ≤ 2 * r
  · rw [if_pos hhalf, if_pos hhalf]
    have hnear := sineHalf_near (h := r - 4 * m / 2) hm (by omega)
    have hangle : 2 * Real.pi * r / (4 * m : Nat) = 2 * Real.pi * (r - 4 * m / 2 : Nat) / (4 * m : Nat) + Real.pi := by
      have hmR : (m : ℝ) ≠ 0 := by exact_mod_cast hm.ne'
      rw [show r - 4 * m / 2 = r - 2 * m by omega, Nat.cast_sub (by omega)]
      push_cast
      field_simp
      ring
    rw [hangle, Real.sin_add_pi, Int.cast_neg, neg_div, ← neg_sub', abs_neg]
    exact hnear
  · rw [if_neg hhalf, if_neg hhalf]
    exact sineHalf_near hm (by omega)

end Sys2Proof.Proofs
end

