-- ==== Sys2Proof/Proofs/SampleLevels.lean ====
section
/-! PROOFS. Rounding, the limit, the gains, and the level of the largest sample (log 5, R6, R99). -/

set_option Elab.async false

namespace Sys2Proof.Proofs

open Sys2Proof Sys2Proof.Machine

/-! ### Rounding and the limit -/

/-- A sample limited to full scale. -/
def clipped (v : Int) : Int := max (-8388607) (min 8388607 v)

theorem limit_eq_clipped (v : Int) : limit v = clipped v := by
  unfold limit clipped Config.fullScale
  split
  · omega
  · split <;> omega

theorem roundedTo_quantise (free place i : Nat) (num : Int) {den : Nat} (hden : 0 < den) :
    roundedTo num den (quantise free place i num den) := by
  have hsplit := Int.mul_ediv_add_emod num den
  have hlow := Int.emod_nonneg num (show (den : Int) ≠ 0 by omega)
  have hhigh := Int.emod_lt_of_pos num (show (0 : Int) < den by omega)
  unfold quantise
  split
  · exact ⟨le_rfl, by nlinarith⟩
  · next hpart =>
    split
    · exact ⟨by omega, by nlinarith [show 0 < num % den by omega]⟩
    · exact ⟨le_rfl, by nlinarith⟩

theorem roundedTo_zero {den : Nat} (hden : 0 < den) : roundedTo 0 den 0 := by
  refine ⟨by simp, by simpa using hden⟩

/-- A value of a block that is rounded and limited, in the words of the manual. -/
theorem sampleAt_limited (f : Nat → Int) (free place den : Nat) (hden : 0 < den) {i : Nat} (hi : i < 48) :
    ∃ v, roundedTo (f i) den v
      ∧ sampleAt (block (fun i => limit (quantise free place i (f i) den))) i = clipped v :=
  ⟨_, roundedTo_quantise free place i (f i) hden, (sampleAt_block _ hi).trans (limit_eq_clipped _)⟩

/-! ### The gains (R99) -/

theorem gainDen_eq : gainDen = 2 ^ 96 * 10 ^ 20 := congrArg (· * 10 ^ 20) (show unit = 2 ^ 96 by norm_num [unit])

theorem gainTable_exact : ∀ r, r < 40 → (gainTable.getD r 0) ^ 40 ≤ 10 ^ r * (2 ^ 96) ^ 40
    ∧ 10 ^ r * (2 ^ 96) ^ 40 < (gainTable.getD r 0 + 1) ^ 40 := by
  decide +kernel

/-! ### The largest sample and its level (R6) -/

theorem crest_foldl (x : List Int) (m : Nat) : x.foldl (fun m v => max m v.natAbs) m = max m (crest x) := by
  unfold crest
  induction x generalizing m with
  | nil => simp
  | cons v x ih =>
    rw [List.foldl_cons, List.foldl_cons, ih, ih (max 0 v.natAbs)]
    omega

theorem crest_cons (v : Int) (x : List Int) : crest (v :: x) = max v.natAbs (crest x) := by
  rw [crest, List.foldl_cons, crest_foldl]
  omega

theorem le_crest {x : List Int} {v : Int} (h : v ∈ x) : v.natAbs ≤ crest x := by
  induction x with
  | nil => exact absurd h List.not_mem_nil
  | cons w x ih =>
    rw [crest_cons]
    rcases List.mem_cons.1 h with rfl | h
    · exact le_max_left ..
    · exact (ih h).trans (le_max_right ..)

theorem crest_mem {x : List Int} (h : crest x ≠ 0) : ∃ v ∈ x, v.natAbs = crest x := by
  induction x with
  | nil => exact absurd rfl h
  | cons w x ih =>
    rw [crest_cons] at h ⊢
    rcases le_total (crest x) w.natAbs with hle | hle
    · exact ⟨w, List.mem_cons_self, (max_eq_left hle).symm⟩
    · rw [max_eq_right hle] at h ⊢
      obtain ⟨v, hv, heq⟩ := ih h
      exact ⟨v, List.mem_cons_of_mem _ hv, heq⟩

/-- The crest of a block that no sample exceeds and one attains. -/
theorem crest_eq {x : List Int} {a : Nat} (hle : ∀ v ∈ x, v.natAbs ≤ a) (hmem : ∃ v ∈ x, v.natAbs = a) : crest x = a := by
  obtain ⟨v, hv, rfl⟩ := hmem
  refine le_antisymm ?_ (le_crest hv)
  by_cases hzero : crest x = 0
  · omega
  · obtain ⟨w, hw, heq⟩ := crest_mem hzero
    exact heq ▸ hle w hw

/-- A largest sample reaches full scale less `j` dB. -/
def Reaches (a j : Nat) : Prop := 8388607 ^ 20 ≤ a ^ 20 * 10 ^ j

theorem levelOf_of_pos {a : Nat} (ha : a ≠ 0) :
    (∃ j : Nat, j < 96 ∧ levelOf a = -(j : Int) ∧ Reaches a j ∧ ∀ i, i < j → ¬ Reaches a i)
      ∨ (levelOf a = -96 ∧ ∀ i, i < 96 → ¬ Reaches a i) := by
  unfold levelOf Reaches
  rw [if_neg ha]
  cases hfind : (List.range 96).find? (fun j => decide (Config.fullScale ^ 20 ≤ a ^ 20 * 10 ^ j)) with
  | some j =>
    rw [List.find?_range_eq_some] at hfind
    obtain ⟨hreach, hj, hless⟩ := hfind
    exact .inl ⟨j, List.mem_range.1 hj, rfl, of_decide_eq_true hreach, fun i hi => by
      simpa [Config.fullScale] using hless i hi⟩
  | none =>
    rw [List.find?_eq_none] at hfind
    exact .inr ⟨rfl, fun i hi => by simpa [Config.fullScale] using hfind i (List.mem_range.2 hi)⟩

theorem not_reaches_zero (j : Nat) : ¬ Reaches 0 j := by
  unfold Reaches
  rw [Nat.zero_pow (by norm_num), Nat.zero_mul]
  exact Nat.not_le.2 (by positivity)

theorem levelOf_cases (a : Nat) :
    (∃ j : Nat, j < 96 ∧ levelOf a = -(j : Int) ∧ Reaches a j ∧ ∀ i, i < j → ¬ Reaches a i)
      ∨ (levelOf a = -96 ∧ ∀ i, i < 96 → ¬ Reaches a i) := by
  by_cases ha : a = 0
  · subst ha
    exact .inr ⟨rfl, fun i _ => not_reaches_zero i⟩
  · exact levelOf_of_pos ha

theorem levelOf_eq_neg {a j : Nat} (hj : j < 96) :
    levelOf a = -(j : Int) ↔ Reaches a j ∧ ∀ i, i < j → ¬ Reaches a i := by
  rcases levelOf_cases a with ⟨k, hk, hlevel, hreach, hless⟩ | ⟨hlevel, hnone⟩
  · rw [hlevel, neg_inj, Nat.cast_inj]
    constructor
    · rintro rfl
      exact ⟨hreach, hless⟩
    · rintro ⟨hreachj, hlessj⟩
      rcases lt_trichotomy k j with h | h | h
      · exact absurd hreach (hlessj k h)
      · exact h
      · exact absurd hreachj (hless j h)
  · rw [hlevel]
    exact ⟨fun h => by omega, fun h => absurd h.1 (hnone j hj)⟩

theorem levelOf_eq_bottom {a : Nat} : levelOf a = -96 ↔ ∀ i, i < 96 → ¬ Reaches a i := by
  rcases levelOf_cases a with ⟨k, hk, hlevel, hreach, -⟩ | ⟨hlevel, hnone⟩
  · rw [hlevel]
    exact ⟨fun h => by omega, fun h => absurd hreach (h k hk)⟩
  · exact ⟨fun _ => hnone, fun _ => hlevel⟩

/-- A larger sample reaches all that a smaller one does. -/
theorem Reaches.mono {a b j : Nat} (h : Reaches a j) (hab : a ≤ b) : Reaches b j :=
  h.trans (Nat.mul_le_mul_right _ (Nat.pow_le_pow_left hab 20))

/-- The level of a largest sample between two of one level is that level. -/
theorem levelOf_between {a b c : Nat} {j : Nat} (hj : j < 96) (hab : a ≤ b) (hbc : b ≤ c) (ha : levelOf a = -(j : Int))
    (hc : levelOf c = -(j : Int)) : levelOf b = -(j : Int) := by
  rw [levelOf_eq_neg hj] at ha hc ⊢
  exact ⟨ha.1.mono hab, fun i hi hb => hc.2 i hi (hb.mono hbc)⟩

/-- The block peak of a block, by its largest sample. -/
theorem peakOf_laws (x : List Int) :
    (∀ v ∈ x, v.natAbs ≤ crest x) ∧ (crest x ≠ 0 → ∃ v ∈ x, v.natAbs = crest x)
      ∧ (∀ j : Nat, j < 96 → (peakOf x = -(j : Int) ↔ 8388607 ^ 20 ≤ crest x ^ 20 * 10 ^ j
          ∧ ∀ i, i < j → crest x ^ 20 * 10 ^ i < 8388607 ^ 20))
      ∧ (peakOf x = -96 ↔ ∀ i, i < 96 → crest x ^ 20 * 10 ^ i < 8388607 ^ 20) := by
  refine ⟨fun v hv => le_crest hv, crest_mem, fun j hj => ?_, ?_⟩
  · exact (levelOf_eq_neg hj).trans (and_congr_right fun _ => forall₂_congr fun _ _ => Nat.not_le)
  · exact levelOf_eq_bottom.trans (forall₂_congr fun _ _ => Nat.not_le)

end Sys2Proof.Proofs
end

