-- ==== Sys2Proof/Proofs/ToneSamples.lean ====
section
/-! PROOFS. The test tone (R165) and the chime (R117): how near their samples come to the sine, and the tone's level. -/

set_option Elab.async false

namespace Sys2Proof.Proofs

open Sys2Proof Sys2Proof.Machine

/-! ### Rounded values -/

/-- A rounded value is within 1 of its quotient. -/
theorem roundedTo_near {num v : Int} {den : Nat} (hden : 0 < den) (h : roundedTo num den v) :
    |(v : ℝ) - num / den| ≤ 1 := by
  have hdenR : (0 : ℝ) < den := by exact_mod_cast hden
  obtain ⟨hlow, hhigh⟩ := h
  have hfloor : num < (v + 1) * den := by
    have h := Int.lt_ediv_add_one_mul_self num (show (0 : Int) < den by omega)
    nlinarith
  have hfloorR : (num : ℝ) < (v + 1) * den := by exact_mod_cast hfloor
  have hhighR : (v : ℝ) * den < num + den := by exact_mod_cast hhigh
  have hv : (v : ℝ) - num / den = (v * den - num) / den := by field_simp
  rw [hv, abs_div, abs_of_pos hdenR, div_le_one hdenR, abs_le]
  constructor <;> nlinarith

/-- A value that is rounded within a whole bound stays within it. -/
theorem roundedTo_le {num v : Int} {den b : Nat} (hden : 0 < den) (h : roundedTo num den v)
    (hb : num.natAbs ≤ b * den) : v.natAbs ≤ b := by
  obtain ⟨hlow, hhigh⟩ := h
  have hdenI : (0 : Int) < den := by omega
  have hnum : |num| ≤ (b : Int) * den := by
    rw [Int.abs_eq_natAbs]
    exact_mod_cast hb
  obtain ⟨hnumLow, hnumHigh⟩ := abs_le.1 hnum
  have hvLow : -(b : Int) ≤ v := by
    refine le_trans ?_ hlow
    rw [Int.le_ediv_iff_mul_le hdenI]
    linarith
  have hvHigh : v < b + 1 := by
    refine lt_of_mul_lt_mul_right (a := (den : Int)) ?_ hdenI.le
    linarith
  omega

/-- A value that is rounded past a whole bound stays past it. -/
theorem le_roundedTo {num v : Int} {den b : Nat} (hden : 0 < den) (h : roundedTo num den v)
    (hb : b * den ≤ num.natAbs) : b ≤ v.natAbs := by
  obtain ⟨hlow, hhigh⟩ := h
  have hdenI : (0 : Int) < den := by omega
  have hbI : (b : Int) * den ≤ |num| := by
    rw [Int.abs_eq_natAbs]
    exact_mod_cast hb
  rcases abs_cases num with ⟨habs, -⟩ | ⟨habs, -⟩
  · have : (b : Int) ≤ v := by
      refine le_trans ?_ hlow
      rw [Int.le_ediv_iff_mul_le hdenI]
      linarith
    omega
  · have : v < -(b : Int) + 1 := by
      refine lt_of_mul_lt_mul_right (a := (den : Int)) ?_ hdenI.le
      linarith
    omega

/-! ### Blocks -/

theorem exists_of_mem_block {f : Nat → Int} {v : Int} (h : v ∈ block f) : ∃ i, i < 48 ∧ f i = v := by
  unfold block at h
  dsimp only at h
  split at h
  · exact absurd h List.not_mem_nil
  · obtain ⟨i, hi, heq⟩ := List.mem_map.1 h
    exact ⟨i, List.mem_range.1 hi, heq⟩

theorem mem_block {f : Nat → Int} {i : Nat} (hi : i < 48) (hne : f i ≠ 0) : f i ∈ block f := by
  have hmem : f i ∈ (List.range Config.blockLen).map f := List.mem_map_of_mem (List.mem_range.2 hi)
  unfold block
  dsimp only
  rw [if_neg]
  · exact hmem
  · intro hall
    exact hne (beq_iff_eq.1 (List.all_eq_true.1 hall _ hmem))

/-- The crest of a block lies between one of its samples and a bound of them all. -/
theorem crest_block {f : Nat → Int} {lo hi i : Nat} (hi48 : i < 48) (hlo : lo ≤ (f i).natAbs)
    (hhi : ∀ i, i < 48 → (f i).natAbs ≤ hi) : lo ≤ crest (block f) ∧ crest (block f) ≤ hi := by
  constructor
  · by_cases hzero : f i = 0
    · rw [hzero] at hlo
      exact hlo.trans (Nat.zero_le _)
    · exact hlo.trans (le_crest (mem_block hi48 hzero))
  · by_cases hcrest : crest (block f) = 0
    · omega
    · obtain ⟨v, hv, heq⟩ := crest_mem hcrest
      obtain ⟨k, hk, rfl⟩ := exists_of_mem_block hv
      exact heq ▸ hhi k hk

/-- The block peak of a block whose largest sample lies between two of one level. -/
theorem peakOf_block {f : Nat → Int} {lo hi i j : Nat} (hj : j < 96) (hi48 : i < 48) (hlo : lo ≤ (f i).natAbs)
    (hhi : ∀ i, i < 48 → (f i).natAbs ≤ hi) (hlevelLo : levelOf lo = -(j : Int)) (hlevelHi : levelOf hi = -(j : Int)) :
    peakOf (block f) = -(j : Int) := by
  obtain ⟨hlow, hhigh⟩ := crest_block hi48 hlo hhi
  exact levelOf_between hj hlow hhigh hlevelLo hlevelHi

/-! ### The samples of a tone (R165, log 7) -/

/-- The amplitude of a tone of `-j` dBFS, times the denominator of the gains. -/
def toneAmplitude (j : Nat) : Nat := 8388607 * gainNum (2 * -(j : Int))

/-- The crest of a tone, rounded away from zero. -/
def toneTop (j : Nat) : Nat := (toneAmplitude j + gainDen - 1) / gainDen

theorem toneAmplitude_le : ∀ j, j < 61 → toneAmplitude j ≤ 8388607 * gainDen := by decide +kernel

theorem levelOf_toneTop : ∀ j, j < 61 → levelOf (toneTop j) = -(j : Int) := by decide +kernel

theorem toneTop_bounds (j : Nat) : toneAmplitude j ≤ toneTop j * gainDen
    ∧ toneTop j * gainDen < toneAmplitude j + gainDen := by
  unfold toneTop
  generalize toneAmplitude j = a
  have hden := gainDen_pos
  have hsplit := Nat.div_add_mod (a + gainDen - 1) gainDen
  have hmod := Nat.mod_lt (a + gainDen - 1) hden
  have hcomm := Nat.mul_comm gainDen ((a + gainDen - 1) / gainDen)
  omega

section
variable {free freq j k i : Nat}

theorem toneSample_of_top (h : 4 * (k % toneCycle freq) = toneCycle freq) :
    toneSample free freq (-(j : Int)) k i = toneTop j := if_pos h

theorem toneSample_of_bottom (hn : 0 < toneCycle freq) (h : 4 * (k % toneCycle freq) = 3 * toneCycle freq) :
    toneSample free freq (-(j : Int)) k i = -(toneTop j : Int) :=
  (if_neg (by omega)).trans (if_pos h)

theorem toneSample_between (htop : 4 * (k % toneCycle freq) ≠ toneCycle freq)
    (hbottom : 4 * (k % toneCycle freq) ≠ 3 * toneCycle freq) :
    roundedTo (toneAmplitude j * sine k (toneCycle freq)) (gainDen * unit) (toneSample free freq (-(j : Int)) k i) := by
  have hsample : toneSample free freq (-(j : Int)) k i
      = quantise free 76 i (toneAmplitude j * sine k (toneCycle freq)) (gainDen * unit) :=
    (if_neg htop).trans (if_neg hbottom)
  rw [hsample]
  exact roundedTo_quantise _ _ _ _ (Nat.mul_pos gainDen_pos (by norm_num [unit]))

end

/-! ### How near the sine -/

/-- A whole amplitude times the model's sine, over its denominators. -/
theorem amplitude_sine_near {a k n : Nat} (ha : a ≤ 8388607 * gainDen) (hn : 0 < n) (hfour : 4 ∣ n) :
    |((a * sine k n : Int) : ℝ) / (gainDen * unit : Nat) - (a : ℝ) / gainDen * Real.sin (2 * Real.pi * k / n)|
      ≤ 1 / 2 ^ 31 := by
  have hdenR : (0 : ℝ) < gainDen := by exact_mod_cast gainDen_pos
  have hscale : ((unit : Nat) : ℝ) = 2 ^ 96 := unit_cast
  have hfactor : |(a : ℝ) / gainDen| ≤ 8388607 := by
    rw [abs_of_nonneg (by positivity), div_le_iff₀ hdenR]
    exact_mod_cast ha
  have hvalue : ((a * sine k n : Int) : ℝ) / (gainDen * unit : Nat) - (a : ℝ) / gainDen * Real.sin (2 * Real.pi * k / n)
      = (a : ℝ) / gainDen * (((sine k n : Int) : ℝ) / 2 ^ 96 - Real.sin (2 * Real.pi * k / n)) := by
    rw [Nat.cast_mul, hscale]
    push_cast
    ring
  rw [hvalue, abs_mul]
  calc |(a : ℝ) / gainDen| * |((sine k n : Int) : ℝ) / 2 ^ 96 - Real.sin (2 * Real.pi * k / n)|
      ≤ 8388607 * (1 / 2 ^ 62) := mul_le_mul hfactor (sine_near hn hfour k) (abs_nonneg _) (by norm_num)
    _ ≤ 1 / 2 ^ 31 := by norm_num

/-- At the top of a cycle the sine is 1. -/
theorem sin_at_top {k n : Nat} (hn : 0 < n) (h : 4 * (k % n) = n) : Real.sin (2 * Real.pi * k / n) = 1 := by
  have hnR : (0 : ℝ) < n := by exact_mod_cast hn
  have hR : (4 : ℝ) * (k % n : Nat) = n := by exact_mod_cast h
  have hangle : 2 * Real.pi * (k % n : Nat) / n = Real.pi / 2 := by
    rw [div_eq_div_iff hnR.ne' two_ne_zero]
    linear_combination Real.pi * hR
  rw [← sin_mod k hn, hangle, Real.sin_pi_div_two]

/-- At the bottom of a cycle the sine is -1. -/
theorem sin_at_bottom {k n : Nat} (hn : 0 < n) (h : 4 * (k % n) = 3 * n) : Real.sin (2 * Real.pi * k / n) = -1 := by
  have hnR : (0 : ℝ) < n := by exact_mod_cast hn
  have hR : (4 : ℝ) * (k % n : Nat) = 3 * n := by exact_mod_cast h
  have hangle : 2 * Real.pi * (k % n : Nat) / n = Real.pi / 2 + Real.pi := by
    rw [div_eq_iff hnR.ne']
    linear_combination (Real.pi / 2) * hR
  rw [← sin_mod k hn, hangle, Real.sin_add_pi, Real.sin_pi_div_two]

theorem toneTop_near (j : Nat) : |(toneTop j : ℝ) - (toneAmplitude j : ℝ) / gainDen| ≤ 1 := by
  obtain ⟨hlow, hhigh⟩ := toneTop_bounds j
  have hdenR : (0 : ℝ) < gainDen := by exact_mod_cast gainDen_pos
  have hlowR : (toneAmplitude j : ℝ) ≤ toneTop j * gainDen := by exact_mod_cast hlow
  have hhighR : (toneTop j : ℝ) * gainDen < toneAmplitude j + gainDen := by exact_mod_cast hhigh
  have hvalue : (toneTop j : ℝ) - (toneAmplitude j : ℝ) / gainDen = (toneTop j * gainDen - toneAmplitude j) / gainDen := by
    field_simp
  rw [hvalue, abs_div, abs_of_pos hdenR, div_le_one hdenR, abs_le]
  constructor <;> linarith

/-- A sample of a tone comes near the sine of its frequency. -/
theorem toneSample_near {free freq j k i : Nat} (hj : j < 61) (hn : 0 < toneCycle freq) (hfour : 4 ∣ toneCycle freq) :
    |(toneSample free freq (-(j : Int)) k i : ℝ)
      - (toneAmplitude j : ℝ) / gainDen * Real.sin (2 * Real.pi * k / toneCycle freq)| ≤ 1 + 1 / 2 ^ 30 := by
  by_cases htop : 4 * (k % toneCycle freq) = toneCycle freq
  · rw [toneSample_of_top htop, sin_at_top hn htop, mul_one, Int.cast_natCast]
    exact (toneTop_near j).trans (by norm_num)
  · by_cases hbottom : 4 * (k % toneCycle freq) = 3 * toneCycle freq
    · rw [toneSample_of_bottom hn hbottom, sin_at_bottom hn hbottom, mul_neg_one, Int.cast_neg, Int.cast_natCast,
        ← neg_sub', abs_neg]
      exact (toneTop_near j).trans (by norm_num)
    · have hden : 0 < gainDen * unit := Nat.mul_pos gainDen_pos (by norm_num [unit])
      have hrounded := roundedTo_near hden (toneSample_between (free := free) (j := j) (i := i) htop hbottom)
      have hsine := amplitude_sine_near (k := k) (toneAmplitude_le j hj) hn hfour
      have htriangle := abs_add_le
        ((toneSample free freq (-(j : Int)) k i : ℝ)
          - ((toneAmplitude j * sine k (toneCycle freq) : Int) : ℝ) / (gainDen * unit : Nat))
        (((toneAmplitude j * sine k (toneCycle freq) : Int) : ℝ) / (gainDen * unit : Nat)
          - (toneAmplitude j : ℝ) / gainDen * Real.sin (2 * Real.pi * k / toneCycle freq))
      rw [sub_add_sub_cancel] at htriangle
      exact htriangle.trans ((add_le_add hrounded hsine).trans (by norm_num))

/-! ### The level of a tone -/

/-- The cycles of the tone's frequencies. -/
theorem toneCycle_cases {freq : Nat} (h : freq = 250 ∨ freq = 1000 ∨ freq = 2000 ∨ freq = 4000) :
    toneCycle freq = 192 ∧ freq = 250 ∨ (toneCycle freq = 48 ∨ toneCycle freq = 24 ∨ toneCycle freq = 12) ∧ freq ≠ 250 := by
  rcases h with rfl | rfl | rfl | rfl <;> decide

/-- A quarter of the circle lies between 0 and the scale, at the tone's frequencies. -/
theorem sineQuarter_bounds : ∀ n ∈ [192, 48, 24, 12], ∀ q, q < 49 → 4 * q ≤ n →
    0 ≤ sineQuarter q n ∧ sineQuarter q n ≤ unit := by decide +kernel

/-- The sine is that of the first quarter, with a sign. -/
theorem sine_fold {k n : Nat} (hn : 0 < n) (hfour : 4 ∣ n) :
    ∃ q, 4 * q ≤ n ∧ (sine k n).natAbs = (sineQuarter q n).natAbs := by
  obtain ⟨m, rfl⟩ := hfour
  have hlt : k % (4 * m) < 4 * m := Nat.mod_lt _ hn
  unfold sine
  dsimp only
  generalize k % (4 * m) = r at hlt ⊢
  by_cases hhalf : 4 * m ≤ 2 * r
  · rw [if_pos hhalf, if_pos hhalf, Int.natAbs_neg]
    refine ⟨_, ?_, rfl⟩
    split <;> omega
  · rw [if_neg hhalf, if_neg hhalf]
    refine ⟨_, ?_, rfl⟩
    split <;> omega

theorem sine_le_unit {k n : Nat} (hn : n ∈ [192, 48, 24, 12]) : (sine k n).natAbs ≤ unit := by
  have hpos : 0 < n ∧ 4 ∣ n ∧ n ≤ 192 := by
    revert n
    decide
  obtain ⟨q, hq, heq⟩ := sine_fold (k := k) hpos.1 hpos.2.1
  obtain ⟨hlow, hhigh⟩ := sineQuarter_bounds n hn q (by omega) hq
  omega

/-- No sample of a tone exceeds its crest. -/
theorem toneSample_le_top {free freq j k i : Nat} (hcycle : toneCycle freq ∈ [192, 48, 24, 12]) :
    (toneSample free freq (-(j : Int)) k i).natAbs ≤ toneTop j := by
  by_cases htop : 4 * (k % toneCycle freq) = toneCycle freq
  · rw [toneSample_of_top htop, Int.natAbs_natCast]
  · by_cases hbottom : 4 * (k % toneCycle freq) = 3 * toneCycle freq
    · have hn : 0 < toneCycle freq := by
        revert hcycle
        generalize toneCycle freq = n
        revert n
        decide
      rw [toneSample_of_bottom hn hbottom, Int.natAbs_neg, Int.natAbs_natCast]
    · refine roundedTo_le (Nat.mul_pos gainDen_pos (by norm_num [unit])) (toneSample_between htop hbottom) ?_
      rw [Int.natAbs_mul, Int.natAbs_natCast, ← Nat.mul_assoc]
      exact Nat.mul_le_mul (toneTop_bounds j).1 (sine_le_unit hcycle)

theorem toneTop_at_crest {free freq j k i : Nat} (hn : 0 < toneCycle freq)
    (h : 4 * (k % toneCycle freq) = toneCycle freq ∨ 4 * (k % toneCycle freq) = 3 * toneCycle freq) :
    toneTop j ≤ (toneSample free freq (-(j : Int)) k i).natAbs := by
  rcases h with h | h
  · rw [toneSample_of_top h, Int.natAbs_natCast]
  · rw [toneSample_of_bottom hn h, Int.natAbs_neg, Int.natAbs_natCast]

/-- A block that holds a crest has the tone's level. -/
theorem peakOf_toneBlock {free freq j phase i : Nat} (hj : j < 61) (hcycle : toneCycle freq ∈ [192, 48, 24, 12])
    (hi : i < 48) (hn : 0 < toneCycle freq)
    (hcrest : 4 * ((phase + i) % toneCycle freq) = toneCycle freq
      ∨ 4 * ((phase + i) % toneCycle freq) = 3 * toneCycle freq) :
    peakOf (toneBlock free freq (-(j : Int)) phase) = -(j : Int) :=
  peakOf_block (by omega) hi (toneTop_at_crest hn hcrest) (fun _ _ => toneSample_le_top hcycle) (levelOf_toneTop j hj)
    (levelOf_toneTop j hj)

/-- Every block of a tone above 250 Hz holds a crest; at 250 Hz one that starts a quarter of a cycle past a whole half. -/
theorem crest_in_block {freq phase : Nat} (hfreq : freq = 250 ∨ freq = 1000 ∨ freq = 2000 ∨ freq = 4000)
    (h : freq ≠ 250 ∨ phase % 96 = 48) : ∃ i, i < 48 ∧ (4 * ((phase + i) % toneCycle freq) = toneCycle freq
      ∨ 4 * ((phase + i) % toneCycle freq) = 3 * toneCycle freq) := by
  rcases toneCycle_cases hfreq with ⟨hcycle, hslow⟩ | ⟨hcycle | hcycle | hcycle, -⟩
  · rw [hcycle]
    exact ⟨0, by omega, by omega⟩
  · rw [hcycle]
    exact ⟨(12 + (48 - phase % 48)) % 48, by omega, .inl (by omega)⟩
  · rw [hcycle]
    exact ⟨(6 + (24 - phase % 24)) % 24, by omega, .inl (by omega)⟩
  · rw [hcycle]
    exact ⟨(3 + (12 - phase % 12)) % 12, by omega, .inl (by omega)⟩

/-! ### 250 Hz short of its crest -/

/-- The last sample before the crest of a 250 Hz tone, rounded down. -/
def toneShort (j : Nat) : Nat := toneAmplitude j * (sineQuarter 47 192).natAbs / (gainDen * unit)

theorem levelOf_toneShort : ∀ j, j < 61 → levelOf (toneShort j) = -((j + 1 : Nat) : Int)
    ∧ levelOf (toneShort j + 1) = -((j + 1 : Nat) : Int) := by decide +kernel

theorem sineQuarter_short : ∀ q, q < 48 → (sineQuarter q 192).natAbs ≤ (sineQuarter 47 192).natAbs := by decide +kernel

/-- In the first quarter of a half cycle the sine is that of the quarter. -/
theorem sine_short {k i : Nat} (hk : k % 96 = i) (hi : i < 48) : (sine k 192).natAbs = (sineQuarter i 192).natAbs := by
  unfold sine
  dsimp only
  have hr : k % 192 = i ∨ k % 192 = i + 96 := by omega
  rcases hr with hr | hr
  · rw [hr, if_neg (show ¬ 192 ≤ 2 * i by omega), if_neg (show ¬ 192 ≤ 2 * i by omega),
      if_neg (show ¬ 192 < 4 * i by omega)]
  · rw [hr, if_pos (show 192 ≤ 2 * (i + 96) by omega), if_pos (show 192 ≤ 2 * (i + 96) by omega), Int.natAbs_neg,
      show i + 96 - 192 / 2 = i by omega, if_neg (show ¬ 192 < 4 * i by omega)]

/-- A block of a 250 Hz tone that starts at a whole half cycle stops short of the crest. -/
theorem peakOf_toneBlock_short {free j phase : Nat} (hj : j < 61) (hphase : phase % 96 = 0) :
    peakOf (toneBlock free 250 (-(j : Int)) phase) = -((j + 1 : Nat) : Int) := by
  have hden : 0 < gainDen * unit := Nat.mul_pos gainDen_pos (by norm_num [unit])
  have hrounded (i : Nat) (hi : i < 48) : roundedTo (toneAmplitude j * sine (phase + i) 192) (gainDen * unit)
      (toneSample free 250 (-(j : Int)) (phase + i) i) :=
    toneSample_between (show 4 * ((phase + i) % 192) ≠ 192 by omega) (show 4 * ((phase + i) % 192) ≠ 3 * 192 by omega)
  have hsize (i : Nat) (hi : i < 48) : (toneAmplitude j * sine (phase + i) 192 : Int).natAbs
      = toneAmplitude j * (sineQuarter i 192).natAbs := by
    rw [Int.natAbs_mul, Int.natAbs_natCast, sine_short (show (phase + i) % 96 = i by omega) hi]
  refine peakOf_block (lo := toneShort j) (hi := toneShort j + 1) (i := 47) (by omega) (by omega) ?_ (fun i hi => ?_)
    (levelOf_toneShort j hj).1 (levelOf_toneShort j hj).2
  · refine le_roundedTo hden (hrounded 47 (by omega)) ?_
    rw [hsize 47 (by omega)]
    exact Nat.div_mul_le_self _ _
  · refine roundedTo_le hden (hrounded i hi) ?_
    rw [hsize i hi]
    refine (Nat.mul_le_mul_left _ (sineQuarter_short i hi)).trans ?_
    rw [toneShort, Nat.mul_comm (_ + 1)]
    exact (Nat.lt_mul_div_succ _ hden).le

/-! ### The chime (R117, log 8) -/

/-- The amplitude of the chime, times the denominator of the gains. -/
def chimeAmplitude : Nat := 8388607 * gainNum (-24)

/-- The chime's sample of sample phase `k` of a cycle of `n`. -/
def chimeAt (k n : Nat) : Int :=
  (2 * chimeAmplitude * sine k n + (gainDen * unit : Nat)) / (2 * (gainDen * unit) : Nat)

theorem chimeAmplitude_le : chimeAmplitude ≤ 8388607 * gainDen := by decide +kernel

/-- A value rounded to the nearest is within a half of it. -/
theorem nearest_error (x : Int) {d : Nat} (hd : 0 < d) :
    |(((2 * x + d) / (2 * d : Nat) : Int) : ℝ) - (x : ℝ) / d| ≤ 1 / 2 := by
  have hdR : (0 : ℝ) < d := by exact_mod_cast hd
  have hsplit := Int.mul_ediv_add_emod (2 * x + d) (2 * d : Nat)
  have hlow := Int.emod_nonneg (2 * x + d) (show ((2 * d : Nat) : Int) ≠ 0 by omega)
  have hhigh := Int.emod_lt_of_pos (2 * x + d) (show (0 : Int) < (2 * d : Nat) by omega)
  generalize (2 * x + d) / ((2 * d : Nat) : Int) = v at hsplit ⊢
  generalize (2 * x + d) % ((2 * d : Nat) : Int) = r at hsplit hlow hhigh
  have hsplitR : (2 * d : ℝ) * v + r = 2 * x + d := by exact_mod_cast hsplit
  have hlowR : (0 : ℝ) ≤ r := by exact_mod_cast hlow
  have hhighR : (r : ℝ) < 2 * d := by exact_mod_cast hhigh
  have hvalue : (v : ℝ) - x / d = (v * d - x) / d := by field_simp
  rw [hvalue, abs_div, abs_of_pos hdR, div_le_iff₀ hdR, abs_le]
  constructor <;> linarith

theorem chimeAt_near {k n : Nat} (hn : 0 < n) (hfour : 4 ∣ n) : |(chimeAt k n : ℝ)
    - (chimeAmplitude : ℝ) / gainDen * Real.sin (2 * Real.pi * k / n)| ≤ 1 / 2 + 1 / 2 ^ 30 := by
  have hden : 0 < gainDen * unit := Nat.mul_pos gainDen_pos (by norm_num [unit])
  have hround := nearest_error (chimeAmplitude * sine k n) hden
  rw [← mul_assoc] at hround
  have hsine := amplitude_sine_near (k := k) chimeAmplitude_le hn hfour
  have htriangle := abs_add_le
    ((chimeAt k n : ℝ) - ((chimeAmplitude * sine k n : Int) : ℝ) / (gainDen * unit : Nat))
    (((chimeAmplitude * sine k n : Int) : ℝ) / (gainDen * unit : Nat)
      - (chimeAmplitude : ℝ) / gainDen * Real.sin (2 * Real.pi * k / n))
  rw [sub_add_sub_cancel] at htriangle
  exact htriangle.trans ((add_le_add hround hsine).trans (by norm_num))

theorem chimeSample_first {phase i : Nat} (h : phase < 250) :
    chimeSample phase i = chimeAt (11 * (48 * phase + i)) 800 := (if_pos h).trans rfl

theorem chimeSample_second {phase i : Nat} (hlow : 250 ≤ phase) (h : phase < 500) :
    chimeSample phase i = chimeAt (11 * (48 * (phase - 250) + i)) 600 :=
  ((if_neg (by omega)).trans (if_pos h)).trans rfl

/-- In the first quarter second of its cycle the chime is 660 Hz. -/
theorem chime_first {phase i : Nat} (hi : i < 48) (h : phase < 250) :
    |(sampleAt (chimeBlock phase) i : ℝ) - 8388607 * gainNum (-24) / gainDen
      * Real.sin (2 * Real.pi * (660 * (48 * phase + i : ℝ) / 48000))| ≤ 1 / 2 + 1 / 2 ^ 30 := by
  have hnear := chimeAt_near (k := 11 * (48 * phase + i)) (n := 800) (by norm_num) (by norm_num)
  have hangle : 2 * Real.pi * (11 * (48 * phase + i) : Nat) / (800 : Nat)
      = 2 * Real.pi * (660 * (48 * phase + i : ℝ) / 48000) := by
    push_cast
    ring
  have hamplitude : (chimeAmplitude : ℝ) = 8388607 * gainNum (-24) := by
    rw [chimeAmplitude, Nat.cast_mul]
    norm_num
  rw [chimeBlock, if_pos (by omega), sampleAt_block _ hi, chimeSample_first h]
  rw [hangle, hamplitude] at hnear
  exact hnear

/-- In the second it is 880 Hz, and its angle runs on from the first. -/
theorem chime_second {phase i : Nat} (hi : i < 48) (hlow : 250 ≤ phase) (h : phase < 500) :
    |(sampleAt (chimeBlock phase) i : ℝ) - 8388607 * gainNum (-24) / gainDen * Real.sin (2 * Real.pi
      * ((660 * 12000 + 880 * ((48 * phase + i : ℝ) - 12000)) / 48000))| ≤ 1 / 2 + 1 / 2 ^ 30 := by
  have hnear := chimeAt_near (k := 11 * (48 * (phase - 250) + i)) (n := 600) (by norm_num) (by norm_num)
  have hangle : 2 * Real.pi * ((660 * 12000 + 880 * ((48 * phase + i : ℝ) - 12000)) / 48000)
      = 2 * Real.pi * (11 * (48 * (phase - 250) + i) : Nat) / (600 : Nat) + (165 : Nat) * (2 * Real.pi) := by
    rw [Nat.cast_mul, Nat.cast_add, Nat.cast_mul, Nat.cast_sub hlow]
    push_cast
    ring
  have hamplitude : (chimeAmplitude : ℝ) = 8388607 * gainNum (-24) := by
    rw [chimeAmplitude, Nat.cast_mul]
    norm_num
  rw [chimeBlock, if_pos h, sampleAt_block _ hi, chimeSample_second hlow h, hangle, Real.sin_add_nat_mul_two_pi,
    ← hamplitude]
  exact hnear

end Sys2Proof.Proofs
end

