-- ==== Sys2Proof/Proofs/BoundaryAudio.lean ====
section
/-! PROOFS. Obligation O35: the audio of a block boundary, from the inputs to what is delivered, the tone and the chime. -/

set_option Elab.async false

namespace Sys2Proof.Proofs

open Sys2Proof Sys2Proof.Machine

/-! ### Inputs (R5) -/

theorem sampleAt_trimmed (free c : Nat) (trim : Int) (src : List Int) {i : Nat} (hi : i < 48) :
    ∃ v, roundedTo (sampleAt src i * gainNum trim) gainDen v ∧ sampleAt (trimmed free c trim src) i = clipped v := by
  unfold trimmed
  cases src with
  | nil =>
    refine ⟨0, ?_, rfl⟩
    rw [sampleAt_nil, zero_mul]
    exact roundedTo_zero gainDen_pos
  | cons v src => exact sampleAt_limited (fun i => sampleAt (v :: src) i * gainNum trim) free c gainDen gainDen_pos hi

theorem inputOf_absent {t : State} (inp : BoundaryIn) {c : Nat} (h : t.present c = false) : t.inputOf inp c = [] :=
  if_neg (by rw [h]; exact Bool.false_ne_true)

theorem inputOf_tone {t : State} (inp : BoundaryIn) {c : Nat} (h : t.present c = true) (hrunning : t.tone.running = true)
    (htarget : t.tone.target = .channel c) : t.inputOf inp c = t.toneNow := by
  rw [State.inputOf, if_pos h, if_pos (by rw [hrunning, htarget, Bool.true_and, beq_self_eq_true])]

theorem inputOf_source {t : State} (inp : BoundaryIn) {c : Nat} (h : t.present c = true)
    (htone : t.tone.running = false ∨ t.tone.target ≠ .channel c) :
    t.inputOf inp c = trimmed t.sys.free c (t.chan c).trim (t.source inp c) := by
  rw [State.inputOf, if_pos h, if_neg]
  rw [Bool.and_eq_true, beq_iff_eq]
  rintro ⟨hrunning, htarget⟩
  exact htone.elim (fun h => absurd (h.symm.trans hrunning) (by decide)) (fun h => h htarget)

/-! ### An output as formed (R99) -/

/-- The factor of a bus gain. -/
def busFactor : Gain → Int
  | some g => gainNum g
  | none => 0

/-- The sum of some terms at a sample. -/
def termSum (terms : List (List Int × Nat)) (i : Nat) : Int :=
  terms.foldl (fun acc t => acc + sampleAt t.1 i * t.2) 0

theorem sampleAt_outputBlock (free o : Nat) (terms : List (List Int × Nat)) (bus : Gain) {ramp : Nat} (tone : List Int)
    (hramp : 1 ≤ ramp) {i : Nat} (hi : i < 48) :
    ∃ v, roundedTo (termSum terms i * busFactor bus + sampleAt tone i * (ramp * gainDen * gainDen : Nat))
        (ramp * gainDen * gainDen) v ∧ sampleAt (outputBlock free o terms bus ramp tone) i = clipped v := by
  have hden : 0 < ramp * gainDen * gainDen := Nat.mul_pos (Nat.mul_pos hramp gainDen_pos) gainDen_pos
  have hblock : outputBlock free o terms bus ramp tone
      = if (terms.isEmpty || busFactor bus == 0) && tone.isEmpty then []
        else block (fun i => limit (quantise free (42 + o) i
          (termSum terms i * busFactor bus + sampleAt tone i * (ramp * gainDen * gainDen : Nat))
          (ramp * gainDen * gainDen))) := by
    unfold outputBlock termSum busFactor
    cases bus with
    | none => rfl
    | some g => rfl
  rw [hblock]
  split
  · next hsilent =>
    rw [Bool.and_eq_true, Bool.or_eq_true, List.isEmpty_iff, beq_iff_eq, List.isEmpty_iff] at hsilent
    obtain ⟨hsum, htone⟩ := hsilent
    have hzero : termSum terms i * busFactor bus = 0 := by
      rcases hsum with rfl | hfactor
      · exact zero_mul _
      · rw [hfactor]
        exact mul_zero _
    refine ⟨0, ?_, rfl⟩
    rw [hzero, htone, sampleAt_nil, zero_mul, zero_add]
    exact roundedTo_zero hden
  · exact sampleAt_limited (fun i => termSum terms i * busFactor bus
      + sampleAt tone i * (ramp * gainDen * gainDen : Nat)) free (42 + o) _ hden hi

/-- What a contribution adds at a sample. -/
def addedBy (i : Nat) (term : Option (List Int × Nat)) : Int := term.elim 0 (fun t => sampleAt t.1 i * t.2)

theorem foldl_filterMap {α : Type} (f : α → Option (List Int × Nat)) (i : Nat) (l : List α) (acc : Int) :
    (l.filterMap f).foldl (fun acc t => acc + sampleAt t.1 i * t.2) acc = acc + (l.map (fun c => addedBy i (f c))).sum := by
  induction l generalizing acc with
  | nil => simp
  | cons c l ih =>
    rw [List.filterMap_cons, List.map_cons, List.sum_cons]
    cases h : f c with
    | none =>
      rw [addedBy, Option.elim_none, zero_add]
      exact ih acc
    | some term =>
      rw [addedBy, Option.elim_some, ← add_assoc]
      exact ih _

theorem termSum_filterMap {α : Type} (f : α → Option (List Int × Nat)) (i : Nat) (l : List α) :
    termSum (l.filterMap f) i = (l.map (fun c => addedBy i (f c))).sum := by
  rw [termSum, foldl_filterMap, zero_add]

/-- A channel adds nothing where its crosspoint is off. -/
theorem addedBy_off (o c i : Nat) (k : Channel) (x : List Int) : addedBy i (contribution o c none k x) = 0 := by
  unfold contribution
  split <;> rfl

/-- A channel adds its input times its factor where its pair is not masked. -/
theorem addedBy_on (o c i : Nat) (g : Int) (k : Channel) (x : List Int) : addedBy i (contribution o c (some g) k x)
    = if masked o c k.maskZone then 0 else sampleAt x i * (k.ramp * gainNum (g - k.atten) : Nat) := by
  unfold contribution
  cases masked o c k.maskZone with
  | true => rfl
  | false =>
    rw [Bool.false_or, if_neg Bool.false_ne_true]
    split
    · next hsilent =>
      rw [Bool.or_eq_true, beq_iff_eq, List.isEmpty_iff] at hsilent
      rcases hsilent with hramp | rfl
      · rw [hramp, Nat.zero_mul, Nat.cast_zero, mul_zero]
        rfl
      · rw [sampleAt_nil, zero_mul]
        rfl
    · rfl

/-! ### What is delivered (R116 to R118) -/

theorem sampleAt_programBlock (free o : Nat) (a b : List Int) (bus : Gain) {i : Nat} (hi : i < 48) :
    ∃ v, roundedTo ((sampleAt a i + sampleAt b i) * busFactor bus) gainDen v
      ∧ sampleAt (programBlock free o a b bus) i = clipped v := by
  unfold programBlock
  cases bus with
  | none =>
    refine ⟨0, ?_, rfl⟩
    rw [busFactor, mul_zero]
    exact roundedTo_zero gainDen_pos
  | some g =>
    dsimp only
    split
    · next hsilent =>
      rw [Bool.and_eq_true, List.isEmpty_iff, List.isEmpty_iff] at hsilent
      obtain ⟨rfl, rfl⟩ := hsilent
      refine ⟨0, ?_, rfl⟩
      rw [sampleAt_nil, zero_add, zero_mul]
      exact roundedTo_zero gainDen_pos
    · exact sampleAt_limited (fun i => (sampleAt a i + sampleAt b i) * gainNum g) free (59 + o) gainDen gainDen_pos hi

theorem contentFor_eq (q : Silence) (o : Nat) : q.contentFor o
    = if q.state ≠ .quiet ∧ q.covered ≠ .none ∧ q.cfg.maskA.getLsbD o = true then some q.cfg.contentA
      else if q.state ≠ .quiet ∧ q.covered = .ab ∧ q.cfg.maskB.getLsbD o = true then some q.cfg.contentB
      else none := by
  unfold Silence.contentFor Silence.inForce
  by_cases hquiet : q.state = .quiet
  · simp [hquiet]
  · simp [hquiet]

/-! ### Muted talk (R41, R42) -/

theorem talkStep_count (k : Channel) (present : Bool) : (k.talkStep present).talkCount
    = if present = false then 0
      else if k.armed then
        if k.claims ≠ { ClaimSet.empty with pod := true } then k.talkCount
        else if k.openThr ≤ k.peak then k.talkCount + 1
        else if k.closeThr ≤ k.peak then k.talkCount
        else 0
      else if k.peak < k.closeThr then k.talkCount + 1
      else 0 := by
  unfold Channel.talkStep
  cases present with
  | false => rfl
  | true =>
    cases harmed : k.armed with
    | false =>
      by_cases hquiet : k.peak < k.closeThr <;> simp [hquiet]
    | true =>
      by_cases hpod : k.claims = { ClaimSet.empty with pod := true }
      · by_cases hopen : k.openThr ≤ k.peak
        · simp [hpod, hopen]
        · by_cases hclose : k.closeThr ≤ k.peak
          · simp [hpod, hopen, hclose, not_lt.2 hclose]
          · simp [hpod, hopen, hclose, not_le.1 hclose]
      · simp [hpod]

/-! ### The parts of the obligation -/

theorem formOutput_boundary (inp : BoundaryIn) (t : State) (x : Tab 42 (List Int)) (o : Nat) :
    t.formOutput (closeFrames (boundary inp t)).chans x o = t.formOutput (measuredChans inp t) x o := by
  rw [closeFrames_eq]
  exact formOutput_boundarySteps inp t x o

theorem formOutput_standby {t : State} (chans : Tab 42 Channel) (x : Tab 42 (List Int)) (o : Nat)
    (h : t.sys.power = .standby) : t.formOutput chans x o = [] := by
  rw [State.formOutput, if_neg (by rw [h]; decide)]

/-- The tone that is added to an output. -/
def addedTone (t : State) (o i : Nat) : Int :=
  if t.tone.running ∧ t.tone.target = .output o then sampleAt t.toneNow i else 0

theorem sampleAt_tone (t : State) (o i : Nat) :
    sampleAt (if t.tone.running && t.tone.target == .output o then t.toneNow else []) i = addedTone t o i := by
  unfold addedTone
  by_cases h : t.tone.running = true ∧ t.tone.target = .output o
  · rw [if_pos h, if_pos (by rw [h.1, h.2, Bool.true_and, beq_self_eq_true])]
  · rw [if_neg h, if_neg (by rwa [Bool.and_eq_true, beq_iff_eq])]
    rfl

/-- An output as the Mix Engine forms it while RUNNING. -/
theorem sampleAt_formOutput {t : State} (chans : Tab 42 Channel) (x : Tab 42 (List Int)) (o : Nat) {i : Nat} (hi : i < 48)
    (hpower : t.sys.power = .running) (hramp : 1 ≤ t.floor.cfg.ramp) :
    ∃ v, roundedTo (((List.range 42).map (fun c => addedBy i
            (contribution o c (t.mix.xp.get (42 * o + c)) (chans.get c) (x.get c)))).sum * busFactor (t.mix.bus.get o)
          + addedTone t o i * (t.floor.cfg.ramp * gainDen * gainDen : Nat)) (t.floor.cfg.ramp * gainDen * gainDen) v
      ∧ sampleAt (t.formOutput chans x o) i = clipped v := by
  rw [State.formOutput, if_pos hpower, ← sampleAt_tone, ← termSum_filterMap]
  exact sampleAt_outputBlock _ o _ _ _ hramp hi

theorem boundary_outputs (inp : BoundaryIn) (t : State) {o : Nat} (ho : o < 17) :
    (closeFrames (boundary inp t)).mix.outputs.get o = t.deliver (t.inputs inp) (formedOutputs inp t) o := by
  have houts : (closeFrames (boundary inp t)).mix.outputs = deliveredOutputs inp t := by
    rw [closeFrames_eq]
    exact boundarySteps_outputs inp t
  rw [houts, deliveredOutputs, Tab.get_tabulate, if_pos ho]

theorem formedOutputs_get (inp : BoundaryIn) (t : State) {o : Nat} (ho : o < 17) : (formedOutputs inp t).get o
    = t.formOutput (closeFrames (boundary inp t)).chans (t.inputs inp) o := by
  rw [formedOutputs, Tab.get_tabulate, if_pos ho, formOutput_boundary]

/-- What an output carries under a content. -/
def Carries (t : State) (x : Tab 42 (List Int)) (o : Nat) (out : List Int) (k : Content) : Prop :=
  (k = .mute → out = [])
    ∧ (k = .program → ∀ i, i < 48 → ∃ v, roundedTo ((sampleAt (x.get 40) i + sampleAt (x.get 41) i)
        * busFactor (t.mix.bus.get o)) gainDen v ∧ sampleAt out i = clipped v)
    ∧ (k = .alert → out = chimeBlock t.silence.chime)

theorem deliver_carries {t : State} (x : Tab 42 (List Int)) (formed : Tab 17 (List Int)) (o : Nat) {k : Content}
    (h : t.silence.contentFor o = some k) : Carries t x o (t.deliver x formed o) k := by
  rw [State.deliver, h]
  cases k with
  | mute => exact ⟨fun _ => rfl, fun hk => absurd hk (by decide), fun hk => absurd hk (by decide)⟩
  | program =>
    exact ⟨fun hk => absurd hk (by decide), fun _ i hi => sampleAt_programBlock _ o _ _ _ hi,
      fun hk => absurd hk (by decide)⟩
  | alert => exact ⟨fun hk => absurd hk (by decide), fun hk => absurd hk (by decide), fun _ => rfl⟩

/-- The muted-talk counter after a boundary. -/
theorem boundary_talk (inp : BoundaryIn) (t : State) {c : Nat} (hc : c < 32) :
    let k := (closeFrames (boundary inp t)).chan c
    k.armed = (t.chan c).armed ∧ k.talkCount = if t.present c = false then 0
      else if (t.chan c).armed then
        if t.claims c ≠ { ClaimSet.empty with pod := true } then (t.chan c).talkCount
        else if k.openThr ≤ k.peak then (t.chan c).talkCount + 1
        else if k.closeThr ≤ k.peak then (t.chan c).talkCount
        else 0
      else if k.peak < k.closeThr then (t.chan c).talkCount + 1
      else 0 := by
  intro k
  have hc42 : c < 42 := by omega
  obtain ⟨hcount, harmed⟩ := (boundary_changes inp t).1 .talk (by decide) c
  obtain ⟨hpeak, -, -, hopen, hclose⟩ := (boundary_changes inp t).1 .measures (by decide) c
  rw [unitsStepped_chan_eq inp t hc42] at hpeak hopen hclose
  rw [unitsStepped_chan inp t hc42, if_pos hc, talkStep_count] at hcount
  have hkept : ((measuredChans inp t).get c).armed = (t.chan c).armed
      ∧ ((measuredChans inp t).get c).claims = t.claims c
      ∧ ((measuredChans inp t).get c).talkCount = (t.chan c).talkCount := by
    rw [measuredChans_get inp t hc42, measure_eq]
    exact ⟨rfl, rfl, rfl⟩
  obtain ⟨hkeptArmed, hkeptClaims, hkeptCount⟩ := hkept
  refine ⟨harmed.trans (unitsStepped_kept inp t hc42).2.2.2, hcount.trans ?_⟩
  rw [hkeptArmed, hkeptClaims, hkeptCount, ← hpeak, ← hopen, ← hclose]

/-- The tone in the words of the manual (R165). -/
theorem tone_laws (s : State) (hfreq : s.tone.freq = 250 ∨ s.tone.freq = 1000 ∨ s.tone.freq = 2000 ∨ s.tone.freq = 4000)
    (hlow : -60 ≤ s.tone.level) (hhigh : s.tone.level ≤ 0) :
    let n := 48000 / s.tone.freq
    let amplitude := 8388607 * gainNum (2 * s.tone.level)
    (∀ i, i < 48 →
      let k := s.tone.phase + i
      let v := sampleAt s.toneNow i
      |(v : ℝ) - (amplitude : ℝ) / gainDen * Real.sin (2 * Real.pi * k / n)| ≤ 1 + 1 / 2 ^ 30
      ∧ (4 * (k % n) = n → (amplitude : Int) ≤ v * gainDen ∧ v * gainDen < amplitude + gainDen)
      ∧ (4 * (k % n) = 3 * n → (amplitude : Int) ≤ -v * gainDen ∧ -v * gainDen < amplitude + gainDen))
    ∧ (s.tone.freq ≠ 250 ∨ s.tone.phase % 96 = 48 → peakOf s.toneNow = s.tone.level)
    ∧ (s.tone.freq = 250 → s.tone.phase % 96 = 0 → peakOf s.toneNow = s.tone.level - 1) := by
  obtain ⟨j, hj⟩ : ∃ j : Nat, s.tone.level = -(j : Int) := ⟨(-s.tone.level).toNat, by omega⟩
  have hj61 : j < 61 := by omega
  have hcycle : toneCycle s.tone.freq ∈ [192, 48, 24, 12] := by
    rcases toneCycle_cases hfreq with ⟨h, -⟩ | ⟨h | h | h, -⟩ <;> rw [h] <;> decide
  have hround : 0 < toneCycle s.tone.freq ∧ 4 ∣ toneCycle s.tone.freq := by
    revert hcycle
    generalize toneCycle s.tone.freq = n
    revert n
    decide
  intro n amplitude
  have hamplitude : amplitude = toneAmplitude j := by
    show 8388607 * gainNum (2 * s.tone.level) = _
    rw [hj]
    rfl
  obtain ⟨htopLow, htopHigh⟩ := toneTop_bounds j
  refine ⟨fun i hi => ?_, fun h => ?_, fun hslow hphase => ?_⟩
  · intro k v
    have hv : v = toneSample s.sys.free s.tone.freq (-(j : Int)) k i := by
      rw [← hj]
      exact sampleAt_block _ hi
    rw [hv, hamplitude]
    refine ⟨toneSample_near hj61 hround.1 hround.2, fun htop => ?_, fun hbottom => ?_⟩
    · rw [toneSample_of_top htop]
      exact ⟨by exact_mod_cast htopLow, by exact_mod_cast htopHigh⟩
    · rw [toneSample_of_bottom hround.1 hbottom, neg_neg]
      exact ⟨by exact_mod_cast htopLow, by exact_mod_cast htopHigh⟩
  · obtain ⟨i, hi, hcrest⟩ := crest_in_block hfreq h
    rw [State.toneNow, hj]
    exact peakOf_toneBlock hj61 hcycle hi hround.1 hcrest
  · rw [State.toneNow, hj, hslow, peakOf_toneBlock_short hj61 hphase]
    push_cast
    ring

/-- Settles O35. -/
theorem boundaryFormsAudio : Obligations.BoundaryFormsAudio := by
  unfold Obligations.BoundaryFormsAudio
  intro clip
  refine ⟨fun inp s hreset => ?boundary, fun x => peakOf_laws x, fun s hfreq hlow hhigh => tone_laws s hfreq hlow hhigh,
    fun phase i hi => ?chime, fun h => rfl, gainDen_eq, gainTable_exact⟩
  case chime =>
    exact ⟨fun h => chime_first hi h, fun hlow h => chime_second hi hlow h, fun h => if_neg (Nat.not_lt.2 h)⟩
  case boundary =>
    intro t x
    have hexec : exec (.blockBoundary inp) s = .next (closeFrames (boundary inp t)) := exec_blockBoundary inp hreset
    clear_value t
    have hinput (c : Nat) (hc : c < 42) : x.get c = t.inputOf inp c := inputs_get inp t hc
    refine ⟨fun c hc => ?inputs, _, hexec, fun hrunning => ?tone, fun c hc => ?peaks, fun o ho => ?outputs,
      fun c hc => boundary_talk inp t hc⟩
    case inputs =>
      intro src
      refine ⟨fun h => (hinput c hc).trans (inputOf_absent inp h),
        fun h hrunning htarget => (hinput c hc).trans (inputOf_tone inp h hrunning htarget), fun h htone i hi => ?_⟩
      rw [hinput c hc, inputOf_source inp h htone]
      exact sampleAt_trimmed _ c _ _ hi
    case tone =>
      have htone : (closeFrames (boundary inp t)).tone = t.tone.tick t.sys.free := by
        rw [closeFrames_eq]
        exact boundary_tone inp t
      rw [htone, tick_of_running _ hrunning]
      rfl
    case peaks =>
      rw [hinput c hc]
      exact boundary_peak inp t hc
    case outputs =>
      intro y bus
      have hbus : bus = busFactor (t.mix.bus.get o) := rfl
      refine ⟨fun hstandby => formOutput_standby _ _ _ hstandby, fun hpower hramp i hi => ?formed, ?delivered⟩
      case formed =>
        intro den sum tone
        have hsum : sum = ((List.range 42).map (fun c => addedBy i
            (contribution o c (t.mix.xp.get (42 * o + c)) ((closeFrames (boundary inp t)).chan c) (x.get c)))).sum := by
          refine congrArg List.sum (List.map_congr_left fun c hc => ?_)
          obtain ⟨-, -, hzone⟩ := boundary_applied inp t (List.mem_range.1 hc)
          cases t.mix.xp.get (42 * o + c) with
          | none => exact (addedBy_off ..).symm
          | some g =>
            rw [addedBy_on, hzone]
        rw [hsum, hbus]
        exact sampleAt_formOutput _ x o hi hpower hramp
      case delivered =>
        intro q a b out delivers
        have hout : out = t.deliver x (formedOutputs inp t) o := boundary_outputs inp t ho
        have hcarries {k : Content} (h : t.silence.contentFor o = some k) : delivers k := by
          have hcontent := deliver_carries x (formedOutputs inp t) o h
          rw [← hout] at hcontent
          exact hcontent
        refine ⟨fun hA => hcarries ((contentFor_eq q o).trans (if_pos hA)),
          fun hA hB => hcarries ((contentFor_eq q o).trans ((if_neg hA).trans (if_pos hB))), fun hA hB => ?_⟩
        have hnone : t.silence.contentFor o = none := (contentFor_eq q o).trans ((if_neg hA).trans (if_neg hB))
        rw [hout, State.deliver, hnone]
        exact formedOutputs_get inp t ho

end Sys2Proof.Proofs
end
